-- ==== Sys2Proof/Word.lean ====
section
/-!
DEFINITION. The words of the machine: the fixed widths the manual names, and the sparse tables that hold whatever
the machine has many of. Only the types stand here; every operation on them is under Machine/.
-/

namespace Sys2Proof

/-- A scalar register, an address while it is computed, one 64-bit slice of a vector register (R22, R132). -/
abbrev Word := BitVec 64

/-- One byte of memory. -/
abbrev Byte := BitVec 8

/-- A vector register of 256 bytes (R22, R79). -/
abbrev VReg := BitVec 2048

/-- One bit per physical slot of a team (R21). -/
abbrev Mask := BitVec 32

/-- An accumulator element in the A96 format (R75). -/
abbrev A96 := BitVec 96

/-- A sparse table: (key, value) pairs with strictly rising keys. What an unlisted key reads as is the argument of the
operation that reads it (Machine/Table.lean); where a table is memory-like, no entry equals that value. -/
abbrev Table (α : Type) := List (Nat × α)

end Sys2Proof
end

