-- ==== Sys2Proof/Config.lean ====
section
/-!
DEFINITION. The free values: what the manual leaves to an implementation or leaves open, as constants without a body. No
proof can learn a value of one; a statement about the machine holds whatever they are. Each is named in the assumption
log (notes/assumptions).
-/

namespace Sys2Proof.Config

/-- A source of values that nothing constrains; the step applies it to the counter `State.free` (log 3). -/
opaque freeValue : Nat → Nat

/-- A signature by the identity key over a digest (R333). -/
opaque mlDsaSign : BitVec 256 → List Byte

/-- The fused digest of Flaentac's public key (R213, R331), and that key itself. -/
opaque fusedKeyDigest : BitVec 256

opaque fusedKey : List Byte

/-- The certificate chain of the identity key (R333). -/
opaque certificateChain : Nat → List Byte

/-- The digest of the farrier monitor's firmware (R332, R355), and those of the later firmware stages by measurement
register (R332). -/
opaque monitorDigest : BitVec 256

opaque stageDigest : Nat → BitVec 256

/-- The context in whose handler team the farrier monitor runs (R336, R355). -/
opaque monitorContext : BitVec 6

/-- The verify-data of a key exchange: what FINISH must carry for the exchange to complete (R333). -/
opaque spdmVerifyData : List Byte → BitVec 256

/-- Whether the neighbour farther from zero is taken where a rule of R60 asks for the neighbour whose lowest stored bit is
0 (or 1) and the two neighbours agree in it: between the largest finite code of a slot whose top code is its NaN and the
step above (log 20). Arguments: slot image, and the value as a fraction. -/
opaque bothEven : BitVec 64 → Int → Nat → Bool

/-- The exponent that a block scale is fitted to where the element format has no finite nonzero value (R66, log 21). -/
opaque emaxOfNone : BitVec 64 → Int

/-- The internal result of a special function (R77, R78): a fixed function of the function's number, its decoded input
(a fraction) and the destination's precision. The model keeps it within the bound of R77 (log 22). -/
opaque specialResult : Nat → Int → Nat → Nat → Int × Nat

/-- The significand of the NaN that an accumulator holds, less 1, modulo 2^80 − 1 (R75 calls every nonzero one a NaN;
log 23). -/
opaque a96Nan : Nat

end Sys2Proof.Config
end

