-- ==== Sys2Proof/Machine/Bits.lean ====
section
/-!
DEFINITION. Bit fields, sign extension and byte order: little-endian throughout (R2). Numbers that are taken apart by
fields are naturals.
-/

namespace Sys2Proof.Machine

/-- Bits [lo + len − 1 : lo] of a natural. -/
def bitsOf (w lo len : Nat) : Nat := (w >>> lo) % 2 ^ len

/-- Bit `i` of a natural. -/
def bitOf (w i : Nat) : Bool := (w >>> i) % 2 == 1

/-- `w` with bits [lo + len − 1 : lo] replaced by those of `v`. -/
def withBits (w lo len v : Nat) : Nat :=
  w - (bitsOf w lo len <<< lo) + ((v % 2 ^ len) <<< lo)

/-- The number a `len`-bit field means in two's complement. -/
def sextNat (len v : Nat) : Int :=
  if 2 * (v % 2 ^ len) < 2 ^ len then (v % 2 ^ len : Nat) else ((v % 2 ^ len : Nat) : Int) - (2 ^ len : Nat)

/-- An integer as a word, modulo 2^64. -/
def wordOfInt (i : Int) : Word := BitVec.ofInt 64 i

/-- The bytes of a natural, lowest first. -/
def bytesOf : Nat → Nat → List Byte
  | 0, _ => []
  | n + 1, w => BitVec.ofNat 8 w :: bytesOf n (w / 256)

/-- The natural whose bytes are given, lowest first. -/
def ofBytes : List Byte → Nat
  | [] => 0
  | b :: bs => b.toNat + 256 * ofBytes bs

/-- Bits [63:56] are nonzero: no 56-bit virtual address (R98). -/
def nonCanonical (a : Nat) : Bool := a / 2 ^ 56 ≠ 0

/-- The slots a mask holds, in ascending order. -/
def maskSlots (m : Mask) : List Nat := (List.range 32).filter fun i => m.getLsbD i

/-- The mask of the slots that satisfy `p`. -/
def maskOf (p : Nat → Bool) : Mask :=
  BitVec.ofNat 32 ((List.range 32).foldl (fun a i => if p i then a + 2 ^ i else a) 0)

def maskOfList (l : List Nat) : Mask := l.foldl (fun m i => m ||| BitVec.ofNat 32 (2 ^ i)) 0

/-- Bits set, leading zeros and trailing zeros of a word. -/
def popcount (n w : Nat) : Nat := (List.range n).foldl (fun a i => if bitOf w i then a + 1 else a) 0

def clz64 (w : Nat) : Nat := if w = 0 then 64 else 63 - Nat.log2 w

def ctzFrom : Nat → Nat → Nat
  | 0, _ => 0
  | n + 1, w => if w % 2 = 1 then 0 else 1 + ctzFrom n (w / 2)

/-- The 64-bit slice of a register held by a slot (R72). -/
def sliceOf (v : VReg) (i : Nat) : Word := v.extractLsb' (64 * i) 64

/-- A register with one slice replaced. -/
def withSlice (v : VReg) (i : Nat) (w : Word) : VReg := BitVec.ofNat 2048 (withBits v.toNat (64 * i) 64 w.toNat)

/-- A register made of 32 slices. -/
def regOfSlices (f : Nat → Word) : VReg :=
  BitVec.ofNat 2048 ((List.range 32).foldl (fun a i => a + ((f i).toNat <<< (64 * i))) 0)

/-- A register in which the slices of `m` come from `new` and the others from `old`. -/
def mergeSlices (m : Mask) (old new : VReg) : VReg :=
  regOfSlices fun i => if m.getLsbD i then sliceOf new i else sliceOf old i

/-- An event select as a write leaves it: reserved bits read 0, and a 1 written to OVF clears it (R325). -/
def evselWrite (old v : Word) : Word :=
  let keep := v.toNat % 2 ^ 16 + bitsOf v.toNat 30 2 * 2 ^ 30
  BitVec.ofNat 64 (if bitOf old.toNat 29 && !bitOf v.toNat 29 then keep + 2 ^ 29 else keep)

end Sys2Proof.Machine
end

