-- ==== Sys2Proof/Syntax.lean ====
section
/-!
DEFINITION. The steps of the machine as syntax: one constructor of Instr per row of spec/opcode_table.json. The first
206 rows are instructions of the opcode map (R141) with their decoded operands; the other rows are the operations and
events that the device, its engines and the world outside it perform (spec/95_what_each_step_holds.md), with what
the manual leaves to timing or to the outside as arguments.
-/

namespace Sys2Proof

/-! ## Operands of instructions -/

/-- The scope ladder of R30. -/
inductive Scope where
  | team | core | quad | device | pod | system
  deriving DecidableEq, Repr

/-- The ordering semantic of R111. -/
inductive Sem where
  | relaxed | acquire | release | acqRel
  deriving DecidableEq, Repr

/-- The condition of `brp` (R149). -/
inductive Cond where
  | t | f | any | all | none | nall
  deriving DecidableEq, Repr

/-- The XP prefix word (R135). -/
structure Xp where
  sv : Bool
  so : Bool
  vc : BitVec 7
  ro : BitVec 3
  mz : Bool
  km : BitVec 3
  deriving DecidableEq, Repr

/-- The PB prefix word (R138). -/
structure Pb where
  pat : BitVec 8
  len : BitVec 3
  pr : BitVec 3
  deriving DecidableEq, Repr

/-- Two slots and three vector registers (R177, R178). -/
structure VBin where
  fsa : BitVec 4
  fs : BitVec 4
  vb : BitVec 7
  va : BitVec 7
  vd : BitVec 7
  deriving DecidableEq, Repr

/-- Two slots, a source and a destination (R177, R182, R183, R185). -/
structure VUn where
  fsa : BitVec 4
  fs : BitVec 4
  va : BitVec 7
  vd : BitVec 7
  deriving DecidableEq, Repr

/-- A compare (R179). -/
structure VCmp where
  pdst : Bool
  all : Bool
  fs : BitVec 4
  vb : BitVec 7
  va : BitVec 7
  vd : BitVec 7
  deriving DecidableEq, Repr

/-- `vclass` (R179). -/
structure VCls where
  cls : BitVec 9
  pdst : Bool
  all : Bool
  fs : BitVec 4
  va : BitVec 7
  vd : BitVec 7
  deriving DecidableEq, Repr

/-- `vsel` (R180). -/
structure VSelOps where
  vm : BitVec 7
  fs : BitVec 4
  vb : BitVec 7
  va : BitVec 7
  vd : BitVec 7
  deriving DecidableEq, Repr

/-- `vdot` and `vdota` (R181); `g` is the group length minus 1. -/
structure VDotOps where
  g : BitVec 10
  fsb : BitVec 4
  fsa : BitVec 4
  fs : BitVec 4
  vb : BitVec 7
  va : BitVec 7
  vd : BitVec 7
  deriving DecidableEq, Repr

/-- Bitwise logic (R184). -/
structure VLogic where
  fs : BitVec 4
  vb : BitVec 7
  va : BitVec 7
  vd : BitVec 7
  deriving DecidableEq, Repr

/-- Element shifts (R184): `amt` counts under `immf`, `vb` otherwise. -/
structure VShift where
  amt : BitVec 7
  immf : Bool
  fs : BitVec 4
  vb : BitVec 7
  va : BitVec 7
  vd : BitVec 7
  deriving DecidableEq, Repr

/-- `vcvt` (R185); `from32` and `to32` are F / 32 and T / 32. -/
structure VCvt where
  from32 : BitVec 5
  to32 : BitVec 5
  fsa : BitVec 4
  fs : BitVec 4
  va : BitVec 7
  vd : BitVec 7
  deriving DecidableEq, Repr

/-- `vgetx` and `vsetx` (R190): a slice of thread `idx`, or element `idx` under `elt`. -/
structure VElt where
  elt : Bool
  idx : BitVec 11
  fs : BitVec 4
  v : BitVec 7
  x : BitVec 5
  deriving DecidableEq, Repr

/-- `vrot` (R189). -/
structure VRotOps where
  n : BitVec 10
  wrap : Bool
  va : BitVec 7
  vd : BitVec 7
  deriving DecidableEq, Repr

/-- A thread-view load or store (R194, R196). -/
structure MemOps where
  off : BitVec 24
  cache : BitVec 2
  sem : Sem
  sco : Scope
  base : BitVec 5
  reg : BitVec 7
  deriving DecidableEq, Repr

/-- A packed load or store (R199). -/
structure PackOps where
  off : BitVec 24
  cache : BitVec 2
  fs : BitVec 4
  base : BitVec 5
  reg : BitVec 7
  deriving DecidableEq, Repr

/-- `ldx` and `stx` (R198). -/
structure XMemOps where
  off : BitVec 24
  cache : BitVec 2
  sx : Bool
  size : BitVec 2
  sem : Sem
  sco : Scope
  base : BitVec 5
  x : BitVec 5
  deriving DecidableEq, Repr

/-- A scratchpad access (R202); `pitch` is log2 of the pitch, for `sldt`. -/
structure ScrOps where
  off : BitVec 24
  pitch : BitVec 4
  swz : BitVec 3
  base : BitVec 5
  reg : BitVec 7
  deriving DecidableEq, Repr

/-- `icinv` and `dcinv` (R204). -/
structure InvOps where
  off : BitVec 24
  sco : Scope
  base : BitVec 5
  x : BitVec 5
  deriving DecidableEq, Repr

/-- A format-A access (R194). -/
structure AOps where
  off : BitVec 23
  wid : BitVec 3
  sem : Sem
  sco : Scope
  base : BitVec 5
  va : BitVec 7
  vd : BitVec 7
  deriving DecidableEq, Repr

/-- `tmma` (R237). -/
structure MmaOps where
  popb : Bool
  popa : Bool
  boff : BitVec 4
  aoff : BitVec 4
  tid : BitVec 8
  fsb : BitVec 4
  fsa : BitVec 4
  qb : BitVec 5
  qa : BitVec 5
  td : BitVec 4
  deriving DecidableEq, Repr

/-- `tld` (R240). -/
structure TldOps where
  row0 : BitVec 5
  fs : BitVec 4
  t : BitVec 4
  vd : BitVec 7
  deriving DecidableEq, Repr

/-- `tst` (R241). -/
structure TstOps where
  off : BitVec 24
  cache : BitVec 2
  fs : BitVec 4
  base : BitVec 5
  t : BitVec 4
  deriving DecidableEq, Repr

/-! ## Operands of operations and events -/

/-- A team of the package: core, block slot and team index (R11, R38). -/
structure TeamId where
  core : Nat
  slot : Nat
  team : Nat
  deriving DecidableEq, Repr

/-- What an access asks of its translation (R357, ACC). -/
inductive Acc where
  | read | write | fetch | rmw
  deriving DecidableEq, Repr

/-- The read-modify-write operations of a home (R205, R206). -/
inductive Rmw where
  | add | and | or | xor | min | max | minu | maxu | swap | cas
  deriving DecidableEq, Repr

/-- What one request asks of a home: a read, a write of bits, an atomic (returning the old value), a reduction, or
an ostler operation (R93, R207–R212). -/
inductive ReqKind where
  | read
  | write
  | atomic (op : Rmw)
  | red (op : Rmw)
  | cas4 (n : Nat)
  | enq
  | run
  deriving DecidableEq, Repr

/-- One request to a home: bits [lo + len − 1 : lo] of the aligned 8-byte word at `pa` (R113, R408). `words` carries
the expected and new words of a cas4, the node's address of an enq, or the code of a routine. -/
structure HomeReq where
  kind : ReqKind
  pa : Nat
  lo : Nat
  len : Nat
  a : Word
  b : Word
  words : List Word
  cmp : Bool
  key : Nat
  secure : Bool
  deriving DecidableEq, Repr

/-- The Relser routing extension (R319). -/
structure PktHdr where
  sinc : BitVec 16
  dinc : BitVec 16
  rly : BitVec 4
  rv : Bool
  esc : Bool
  vc : BitVec 2
  tag : BitVec 12
  deriving DecidableEq, Repr

/-- What a target or a host answers: one word per request, or an error by the OP code of R362. -/
structure Resp where
  vals : List Word
  err : Option Nat
  deriving DecidableEq, Repr

/-- What a packet carries: requests to one line; an answer; an announced incarnation; or the halter with its generation (R319,
R321, R322, R373, R408). -/
inductive Body where
  | req (rs : List HomeReq)
  | resp (r : Resp)
  | announce
  | halter (gen : Nat)
  deriving DecidableEq, Repr

/-- A packet: its extension, source, target and contents. -/
structure Packet where
  hdr : PktHdr
  src : Nat
  dst : Nat
  body : Body
  deriving DecidableEq, Repr

/-- The requests of a packet. -/
def Packet.reqs (p : Packet) : List HomeReq :=
  match p.body with
  | .req rs => rs
  | _ => []

/-- An inbound access of a host or a drive (R308, R309). -/
inductive HostReq where
  | read (len : Nat)
  | write (bytes : List Byte) (relaxedOrdering : Bool)
  | fetchAdd (size : Nat) (v : Word)
  | swap (size : Nat) (v : Word)
  | cas (size : Nat) (cmp : Word) (new : Word)
  deriving DecidableEq, Repr

/-- The instance of a barrier (R158, R159): a block slot's, or an id of a quad, of the device or of a pod group. -/
inductive BarRef where
  | core (core slot : Nat)
  | quad (quad id : Nat)
  | device (id : Nat)
  | pod (group id : Nat)
  deriving DecidableEq, Repr

/-- An event counter (R325, R327). -/
inductive CounterRef where
  | core (core n : Nat)
  | l2 (slice n : Nat)
  | port (port n : Nat)
  deriving DecidableEq, Repr

/-- Where a cell suffers an error that ECC cannot correct (R361). -/
inductive ErrSite where
  | l1 (core : Nat) (line : Nat)
  | l1i (core : Nat) (line : Nat)
  | rdc (die : Nat) (line : Nat)
  | coreTlb (core : Nat) (entry : Nat)
  | quadTlb (quad : Nat) (entry : Nat)
  | rangeTlb (quad : Nat) (entry : Nat)
  | l2Clean (line : Nat)
  | l2Dirty (line : Nat)
  | dram (line : Nat)
  | lineTag (line : Nat) (tag : BitVec 4)
  | register (t : TeamId) (reg slot : Nat)
  | scratch (core word : Nat)
  | accumulator (core tile elem : Nat)
  | strip (core : Nat) (b : Bool) (stream pos : Nat)
  | frame (t : TeamId)
  | paddock (core slot : Nat)
  | cxCell (quad row col : Nat)
  | cxRow (quad row : Nat)
  | cxTrail (quad entry : Nat)
  deriving DecidableEq, Repr

/-- Every step of the part, row by row of spec/opcode_table.json. -/
inductive Instr where
  -- control and flow (R149–R161)
  | nop
  | exit
  | waitc (ld st cp tl : BitVec 6)
  | yield (cnt : BitVec 2) (k : BitVec 6) (off : BitVec 33)
  | launch (x : BitVec 5) (q : BitVec 7)
  | locq (xd : BitVec 5)
  | homeq (xd xa : BitVec 5)
  | br (tgt : BitVec 42)
  | brp (pr : BitVec 3) (cond : Cond) (join : Bool) (tgt : BitVec 42)
  | call (tgt : BitVec 42)
  | jr (xa : BitVec 5) (imm : BitVec 35)
  | ret (xa : BitVec 5)
  | bar (sco : Scope) (id : BitVec 8) (n : BitVec 24)
  | barar (xd : BitVec 5) (sco : Scope) (id : BitVec 8) (n : BitVec 24)
  | barwt (xa : BitVec 5) (sco : Scope) (id : BitVec 8)
  | regroup
  | regroupHome
  -- predicates and mask (R162–R164)
  | pand (d a b : BitVec 3)
  | por (d a b : BitVec 3)
  | pxor (d a b : BitVec 3)
  | pandn (d a b : BitVec 3)
  | pnot (d a : BitVec 3)
  | pmov (d a : BitVec 3)
  | emget (xd : BitVec 5)
  | emset (xa : BitVec 5)
  | emand (pa : BitVec 3)
  | pget (xd : BitVec 5) (pa : BitVec 3)
  | pset (pd : BitVec 3) (xa : BitVec 5) (bc : Bool)
  | pany (xd : BitVec 5) (pa : BitVec 3)
  | pall (xd : BitVec 5) (pa : BitVec 3)
  | pcnt (xd : BitVec 5) (pa : BitVec 3)
  -- scalar integer and address (R165–R169, R53)
  | add (d a b : BitVec 5)
  | sub (d a b : BitVec 5)
  | mul (d a b : BitVec 5)
  | mulh (d a b : BitVec 5)
  | mulhu (d a b : BitVec 5)
  | div (d a b : BitVec 5)
  | divu (d a b : BitVec 5)
  | rem (d a b : BitVec 5)
  | remu (d a b : BitVec 5)
  | and (d a b : BitVec 5)
  | or (d a b : BitVec 5)
  | xor (d a b : BitVec 5)
  | andn (d a b : BitVec 5)
  | shl (d a b : BitVec 5)
  | shr (d a b : BitVec 5)
  | sar (d a b : BitVec 5)
  | rol (d a b : BitVec 5)
  | ror (d a b : BitVec 5)
  | addi (d a : BitVec 5) (imm : BitVec 35)
  | andi (d a : BitVec 5) (imm : BitVec 35)
  | ori (d a : BitVec 5) (imm : BitVec 35)
  | xori (d a : BitVec 5) (imm : BitVec 35)
  | shli (d a : BitVec 5) (sh : BitVec 6)
  | shri (d a : BitVec 5) (sh : BitVec 6)
  | sari (d a : BitVec 5) (sh : BitVec 6)
  | seq (d a b : BitVec 5)
  | sne (d a b : BitVec 5)
  | slt (d a b : BitVec 5)
  | sltu (d a b : BitVec 5)
  | sle (d a b : BitVec 5)
  | sleu (d a b : BitVec 5)
  | min (d a b : BitVec 5)
  | max (d a b : BitVec 5)
  | minu (d a b : BitVec 5)
  | maxu (d a b : BitVec 5)
  | clz (d a : BitVec 5)
  | ctz (d a : BitVec 5)
  | popc (d a : BitVec 5)
  | bswap (d a : BitVec 5)
  | li (d : BitVec 5) (imm : BitVec 35)
  | lhi (d : BitVec 5) (imm : BitVec 35)
  | addpc (d : BitVec 5) (imm : BitVec 35)
  | fsset (slot : BitVec 4) (xa : BitVec 5)
  | fsget (xd : BitVec 5) (slot : BitVec 4)
  -- vector arithmetic (R177–R184)
  | vadd (xp : Option Xp) (o : VBin)
  | vsub (xp : Option Xp) (o : VBin)
  | vmul (xp : Option Xp) (o : VBin)
  | vdiv (xp : Option Xp) (o : VBin)
  | vmin (xp : Option Xp) (o : VBin)
  | vmax (xp : Option Xp) (o : VBin)
  | vabs (xp : Option Xp) (o : VUn)
  | vneg (xp : Option Xp) (o : VUn)
  | vfma (xp : Option Xp) (o : VBin)
  | vfms (xp : Option Xp) (o : VBin)
  | vfnma (xp : Option Xp) (o : VBin)
  | vfnms (xp : Option Xp) (o : VBin)
  | vcmpeq (xp : Option Xp) (o : VCmp)
  | vcmpne (xp : Option Xp) (o : VCmp)
  | vcmplt (xp : Option Xp) (o : VCmp)
  | vcmple (xp : Option Xp) (o : VCmp)
  | vcmpun (xp : Option Xp) (o : VCmp)
  | vsel (xp : Option Xp) (o : VSelOps)
  | vclass (xp : Option Xp) (o : VCls)
  | vdot (xp : Option Xp) (o : VDotOps)
  | vdota (xp : Option Xp) (o : VDotOps)
  | vredsum (xp : Option Xp) (o : VUn)
  | vredmax (xp : Option Xp) (o : VUn)
  | vredmin (xp : Option Xp) (o : VUn)
  | vrcp (xp : Option Xp) (o : VUn)
  | vsqrt (xp : Option Xp) (o : VUn)
  | vrsqrt (xp : Option Xp) (o : VUn)
  | vexp2 (xp : Option Xp) (o : VUn)
  | vlog2 (xp : Option Xp) (o : VUn)
  | vsinpi (xp : Option Xp) (o : VUn)
  | vcospi (xp : Option Xp) (o : VUn)
  | vtanh (xp : Option Xp) (o : VUn)
  | vand (xp : Option Xp) (o : VLogic)
  | vor (xp : Option Xp) (o : VLogic)
  | vxor (xp : Option Xp) (o : VLogic)
  | vandn (xp : Option Xp) (o : VLogic)
  | vshl (xp : Option Xp) (o : VShift)
  | vshr (xp : Option Xp) (o : VShift)
  | vsar (xp : Option Xp) (o : VShift)
  -- conversion and cross-lane (R185–R192, R69)
  | vcvt (xp : Option Xp) (o : VCvt)
  | vrint (xp : Option Xp) (o : VUn)
  | vtid (xp : Option Xp) (sel : BitVec 2) (fs : BitVec 4) (vd : BitVec 7)
  | vbcast (xp : Option Xp) (fs : BitVec 4) (xa : BitVec 5) (vd : BitVec 7)
  | vbcastl (xp : Option Xp) (id : BitVec 10) (va vd : BitVec 7)
  | vmov (xp : Option Xp) (va vd : BitVec 7)
  | vgetx (o : VElt)
  | vsetx (o : VElt)
  | vpatld (p : BitVec 3) (va : BitVec 7)
  | vshfl (xp : Option Xp) (vb va vd : BitVec 7)
  | vrot (xp : Option Xp) (o : VRotOps)
  | vxchg (xp : Option Xp) (m : BitVec 5) (va vd : BitVec 7)
  | vpat (xp : Option Xp) (p : BitVec 3) (va vd : BitVec 7)
  | fscmp (t : BitVec 4) (va : BitVec 7)
  -- memory (R196–R204)
  | ld8 (xp : Option Xp) (o : MemOps)
  | ld16 (xp : Option Xp) (o : MemOps)
  | ld32 (xp : Option Xp) (o : MemOps)
  | ld64 (xp : Option Xp) (o : MemOps)
  | ld8s (xp : Option Xp) (o : MemOps)
  | ld16s (xp : Option Xp) (o : MemOps)
  | ld32s (xp : Option Xp) (o : MemOps)
  | st8 (xp : Option Xp) (o : MemOps)
  | st16 (xp : Option Xp) (o : MemOps)
  | st32 (xp : Option Xp) (o : MemOps)
  | st64 (xp : Option Xp) (o : MemOps)
  | ldp (xp : Option Xp) (o : PackOps)
  | stp (xp : Option Xp) (o : PackOps)
  | ldx (o : XMemOps)
  | stx (o : XMemOps)
  | ldg (xp : Option Xp) (o : AOps)
  | stg (xp : Option Xp) (o : AOps)
  | sld (xp : Option Xp) (o : ScrOps)
  | sst (xp : Option Xp) (o : ScrOps)
  | sldt (xp : Option Xp) (o : ScrOps)
  | pf (off : BitVec 24) (cache : BitVec 2) (base : BitVec 5)
  | icinv (o : InvOps)
  | dcinv (o : InvOps)
  -- atomics, reductions, ostler, ordering, binding (R205–R217)
  | aadd (xp : Option Xp) (o : AOps)
  | aand (xp : Option Xp) (o : AOps)
  | aor (xp : Option Xp) (o : AOps)
  | axor (xp : Option Xp) (o : AOps)
  | amin (xp : Option Xp) (o : AOps)
  | amax (xp : Option Xp) (o : AOps)
  | aminu (xp : Option Xp) (o : AOps)
  | amaxu (xp : Option Xp) (o : AOps)
  | aswp (xp : Option Xp) (o : AOps)
  | acas (xp : Option Xp) (o : AOps)
  | redAdd (xp : Option Xp) (o : AOps)
  | redAnd (xp : Option Xp) (o : AOps)
  | redOr (xp : Option Xp) (o : AOps)
  | redXor (xp : Option Xp) (o : AOps)
  | redMin (xp : Option Xp) (o : AOps)
  | redMax (xp : Option Xp) (o : AOps)
  | redMinu (xp : Option Xp) (o : AOps)
  | redMaxu (xp : Option Xp) (o : AOps)
  | osCas4 (xp : Option Xp) (o : AOps)
  | osEnq (xp : Option Xp) (o : AOps)
  | osChase (xp : Option Xp) (o : AOps)
  | osRun (xp : Option Xp) (o : AOps)
  | hgath (xp : Option Xp) (o : AOps)
  | fence (sem : Sem) (sco : Scope)
  | bind (ent : BitVec 6) (xo xb xl : BitVec 5)
  | unbind (ent : BitVec 6)
  -- engines, tiles, queues and stalls (R218–R251)
  | qpush (nb : Bool) (pd : BitVec 3) (q : BitVec 5) (reg : BitVec 7)
  | qpop (nb : Bool) (pd : BitVec 3) (q : BitVec 5) (reg : BitVec 7)
  | qbind (q : BitVec 5) (port : BitVec 4) (idx : BitVec 2)
  | tcopy (nb : Bool) (pd : BitVec 3) (eng : Bool) (reg : BitVec 7)
  | own (st : BitVec 7) (n : BitVec 7) (dst : BitVec 2)
  | tmma (o : MmaOps)
  | tzero (td : BitVec 4)
  | talloc (td : BitVec 4)
  | tfree (td : BitVec 4)
  | tld (xp : Option Xp) (o : TldOps)
  | tst (xp : Option Xp) (o : TstOps)
  | ujobCommit (xa : BitVec 5)
  | ujobDrop (xa : BitVec 5)
  -- clause array (R262–R272)
  | cxClaim (xd : BitVec 5) (wait : Bool)
  | cxFree
  | cxClr (keep : Bool)
  | cxLdc (va : BitVec 7) (xa : BitVec 5) (col : BitVec 11) (app : Bool)
  | cxDis (xa : BitVec 5) (col : BitVec 11) (en : Bool)
  | cxAsg (xa : BitVec 5) (newl : Bool)
  | cxProp (xd : BitVec 5) (async : Bool)
  | cxBt (xa : BitVec 5) (lvl : BitVec 9)
  | cxLvl (all : Bool) (xd xa : BitVec 5) (vd : BitVec 7)
  | cxTrl (vd : BitVec 7) (xd xa : BitVec 5)
  | cxCfl (vd : BitVec 7) (xd xa : BitVec 5)
  | cxSt (xd : BitVec 5)
  -- system and trap (R170, R171)
  | trap (code : BitVec 16)
  | rett
  | brk (code : BitVec 16)
  | rdsr (xd : BitVec 5) (sr : BitVec 12)
  | wrsr (sr : BitVec 12) (xa : BitVec 5)
  -- translation and memory events
  | pageWalk (core ctx va : Nat) (acc : Acc)
  | translationFaultSwap (t : TeamId)
  | swapRestore (t : TeamId)
  | replayRetry (t : TeamId)
  | operationComplete (op : Nat) (ext : List Resp)
  | l2HomeAccess (op part : Nat)
  | secondTierHomeAccess (op part : Nat)
  | wcEntryDrain (core entry : Nat)
  | deferredReport (t : TeamId)
  -- launches and scheduling
  | launchQueuePoll (ctx q : Nat)
  | admitLaunch (ctx q : Nat)
  | bindBlock (ctx lnh core slot stb : Nat)
  | stealRequest (die : Nat)
  | stealAnswer (die : Nat)
  | issueSlotChoice (core slot : Nat)
  | parkBlock (core slot : Nat)
  | unparkBlock (core slot : Nat)
  | evictTeams (core ctx lnh : Nat)
  | evictedTeamReturn (t : TeamId)
  | regroupSetFormed (core slot : Nat) (pc : Word)
  | barrierPhaseComplete (b : BarRef)
  | yieldResume (t : TeamId)
  | teamEnd (t : TeamId)
  | launchCompletion (ctx lnh : Nat)
  -- tiles, clause array, engines
  | tallocGrant (t : TeamId)
  | cxClaimGrant (quad : Nat)
  | cxPropRetire (quad : Nat)
  | cxPropResultPlace (quad : Nat)
  | copyCommandStart (core eng : Nat)
  | copyCommandEnd (core eng : Nat)
  | stripAppend (core eng : Nat)
  | nvmeDoorbellWrite (core eng : Nat) (ok : Bool)
  | matrixPassStart (core : Nat)
  | matrixPassComplete (core : Nat) (failed : BitVec 4)
  | offloadCommand (iod : Nat) (fromHost : List (List Byte)) (hostErrorAt : Option Nat)
  | ujobTake (die : Nat)
  | ujobRecordComplete (die : Nat)
  | ujobCommitPublish (die : Nat)
  | ujobDropApply (die : Nat)
  | ostcCommand (core : Nat)
  | ostlerOperation (op part : Nat)
  -- records, handlers, contexts
  | trapRecordWrite (ctx : Nat)
  | trapQueuePoll (ctx entry : Nat)
  | handlerTimeout (t : TeamId)
  | longStall (t : TeamId)
  | vfSliceSwitch
  | contextEnable (ctx : Nat)
  | contextDisable (ctx : Nat)
  | tlbiCtl (fn : Nat) (v : Word)
  | tlbInvalidationComplete (fn : Nat)
  | registerWrite (off : Nat) (v : Word) (secure : Bool)
  | mextGo (v : Word)
  | rkeyLock (v : Word)
  -- farrier monitor (R334–R336, R351, R352)
  | halt (seq : BitVec 8)
  | resume (seq : BitVec 8)
  | step (seq : BitVec 8)
  | readFrame (seq : BitVec 8)
  | writeFrame (seq : BitVec 8)
  | setBp (seq : BitVec 8)
  | clrBp (seq : BitVec 8)
  | admitCmd (seq : BitVec 8)
  | list (seq : BitVec 8)
  | mbxCommandFinish
  -- host, security
  | inboundBar2Access (fn off : Nat) (req : HostReq)
  | inboundCxlMemAccess (port pa : Nat) (req : HostReq)
  | getVersion
  | getCapabilities
  | negotiateAlgorithms (hash sig : BitVec 32)
  | getDigests
  | getCertificate (slot off len : Nat)
  | challenge (nonce : BitVec 256)
  | getMeasurements (nonce : BitVec 256) (index : Nat)
  | keyExchange (exchange : List Byte)
  | finish (mac : BitVec 256)
  | endSession
  | keyLoad (k : Nat) (key : BitVec 512)
  | deviceReset (image sig : List Byte) (flashReads flashWrites : Bool)
  -- fabric
  | linkUp (port : Nat)
  | incarnationAnnounce (peer : Nat) (inc : BitVec 16)
  | linkDown (port : Nat)
  | fabricPacketReceive (p : Packet)
  | relayForward (p : Packet)
  | fabricAckReceive (hdr : PktHdr) (src : Nat) (resp : Resp)
  | fabricResend (peer : Nat) (tag : BitVec 12)
  | packetDiscard (die idx : Nat)
  | packetSuspect (die idx : Nat)
  | halterVisit (die : Nat) (generation : Nat)
  | halterTimeout
  | counterOverflow (c : CounterRef)
  | uncorrectableError (site : ErrSite)
  deriving DecidableEq, Repr

end Sys2Proof
end

