-- ==== Sys2Proof/Machine/State.lean ====
section
/-!
DEFINITION. The state of one MK-3200 package as plain data: teams, blocks and launches; cores with their engines, tiles,
streams, scratchpads and caches; quads with their TLBs and clause arrays; dies; I/O dies; contexts with their trap queues;
memory by physical address; the registers of BAR 0; keys, measurements and the fabric. Outstanding operations are held as
lists. What timing and the outside world decide is the list `agenda`. Every table is sparse: what an unlisted key
reads as is said at its field.
-/

namespace Sys2Proof.Machine

/-! ## Teams -/

/-- The kind of a reconvergence entry (R31). -/
inductive StackKind where
  | join | pend
  deriving DecidableEq, Repr

/-- A reconvergence-stack entry (R31). -/
structure StackEntry where
  kind : StackKind
  pc : Word
  mask : Mask
  jpc : Word
  deriving DecidableEq, Repr

/-- The predicate-block state PBS (R139, R140): no block is in progress when `left` is 0. -/
structure Pbs where
  snap : Mask
  pat : BitVec 8
  left : Nat
  len : BitVec 3
  pr : BitVec 3
  deriving DecidableEq, Repr

/-- The counters of R142. -/
inductive Cnt where
  | ld | st | cp | tl
  deriving DecidableEq, Repr

/-- One operation counted on a wait counter, in issue order; the counter falls past it once it and every earlier one
of its class are done (R143). -/
structure OutRec where
  cls : Cnt
  seq : Nat
  done : Bool
  deriving DecidableEq, Repr

/-- The turn of a `tmma` that waits (R297): its place in the core's issue order, and the positions it names, as stream and
offset from the head. -/
structure StripTurn where
  ticket : Nat
  sa : Nat
  offA : BitVec 16
  sb : Nat
  offB : BitVec 16
  deriving DecidableEq, Repr

/-- A flip that an `own` has still to make: the stall, the engine that must have completed so many commands, and the new
owner (R223). -/
structure OwnFlip where
  stall : Nat
  eng : Nat
  done : Nat
  dst : BitVec 2
  deriving DecidableEq, Repr

/-- What a team waits for at its instruction (R354 numbers the first nine). The operations named are those that must be over
first; `drain` is set where its write-combining stores must have left the buffer too; a full ring is known by the word that
must change. -/
inductive WaitKind where
  | bar (b : BarRef) (phase : BitVec 32)
  | talloc
  | cxClaim
  | qpop (q : Nat)
  | regroup (home : Bool)
  | waitc (ld st cp tl : Nat)
  | launch (pa : Nat) (old : Word)
  | qpush (port idx : Nat)
  | yield (c : Cnt) (k : Nat)
  | barwt (b : BarRef) (phase : BitVec 32)
  | tfree (ops : List Nat)
  | own (flips : List OwnFlip)
  | memory (ops : List Nat) (drain : Bool)
  | tile (ops : List Nat)
  | strip (t : StripTurn) (ops : List Nat)
  | cxProp
  | counter (c : Cnt)
  | operand (ops : List Nat)
  deriving DecidableEq, Repr

/-- A wait at one instruction: since which clock, and whether its long-stall notice was written (R354). -/
structure Wait where
  kind : WaitKind
  since : Nat
  noted : Bool
  deriving DecidableEq, Repr

/-- What handler entry saves (R340); `bank` is the interrupted x28–x31, `entry` the PC at which handler mode was entered,
and `waitF` the `bar` whose wait the handler interrupted (R343). -/
structure Save where
  resume : Word
  em : Mask
  stack : List StackEntry
  pbs : Pbs
  bank : List Word
  entry : Word
  seq : Nat
  waitF : Option (BarRef × BitVec 32)
  deriving DecidableEq, Repr

/-- The stages of a replayable translation fault (R47, R344, R345). -/
inductive FaultStage where
  | swapping | recording | waiting | retry | present
  deriving DecidableEq, Repr

/-- A translation that an instruction needs: slot, address, ACC code, and whether it is of a shadow word (R357). -/
structure WalkReq where
  slot : Nat
  va : Nat
  acc : Nat
  shadow : Bool
  deriving DecidableEq, Repr

/-- A translation fault that keeps its team from issuing (R47, R357): `walks` are the translations of every thread of the
instruction, which a retry makes again, and `wide` says that the fault names the whole active set. -/
structure PendingFault where
  stage : FaultStage
  mask : Mask
  detail : Word
  walks : List WalkReq
  wide : Bool
  deriving DecidableEq, Repr

/-- A trap whose instruction has stopped the team and which is taken once LDC and TLC are 0 (R343): cause, threads,
DETAIL, the PC it reports, and whether it is a deferred report (R356). -/
structure Latched where
  cause : Nat
  mask : Mask
  detail : Word
  pc : Word
  async : Bool
  deriving DecidableEq, Repr

/-- Why a team is held, and its counters as its frame has them (R348, R351). -/
structure Hold where
  cause : Nat
  wcnt : Nat
  deriving DecidableEq, Repr

/-- What the farrier monitor has asked of a team: a hold at the next precise point (HALT), or one instruction (STEP)
and whether it has begun, with the cause met during the step; or the hold after that instruction has retired (R351). -/
inductive MonReq where
  | none
  | halt
  | step (issued : Bool) (cause : Nat)
  | stepped (cause : Nat)
  deriving DecidableEq, Repr

/-- Where a team's state is: on the core, or evicted to the paddock, or swapped to a frame (R44, R47). -/
inductive Place where
  | resident | evicted | swapped
  deriving DecidableEq, Repr

/-- A run of bits of a vector register. -/
structure RegBits where
  reg : Nat
  lo : Nat
  len : Nat
  deriving DecidableEq, Repr

/-- A deferred report (R356): cause, DETAIL, threads, PC, the sequence number and class of its operation, the destination bits
and the x register it failed to write, whether it stops the team before its next instruction whatever that is, whether the
operation was issued in handler mode, and, of an operation that only writes, the addresses it failed to write. -/
structure Report where
  cause : Nat
  detail : Word
  mask : Mask
  pc : Word
  seq : Nat
  cls : Option Cnt
  ord : Nat
  dst : List RegBits
  dstX : Option Nat
  due : Bool
  handler : Bool
  stores : Option (List Nat)
  deriving DecidableEq, Repr

/-- A tile image kept with its team while it is away (R243), with the elements that hold uncorrectable errors. -/
structure TileImage where
  handle : Nat
  tid : BitVec 8
  elems : List A96
  bad : List Nat
  deriving DecidableEq, Repr

/-- A cell of a clause-array column: variable and polarity (`true` is a negative literal) (R253, R264). -/
abbrev Lit := Nat × Bool

/-- A propagation in flight (R260, R267): the destination (`none` is asynchronous), the PC, the clock of issue, and the active set
and mode of its `cx.prop`, which a report of its failure names (R389). -/
structure Prop1 where
  xd : Option Nat
  pc : Word
  issued : Nat
  ended : Option Nat
  seq : Nat
  mask : Mask
  handler : Bool
  deriving DecidableEq, Repr

/-- A clause array (R253). `cols` lists the literals of a column by rising variable, `dis` the disabled columns; an
unlisted row is unassigned at level 0. `badCells`, `badRows`, `badTrail` hold uncorrectable errors (R388). -/
structure CxArray where
  cols : Table (List Lit)
  val : Table (BitVec 2)
  lvl : Table (BitVec 9)
  dis : Table Bool
  cl : BitVec 9
  trail : List (BitVec 32)
  conf : Bool
  ccol : BitVec 11
  sweeps : BitVec 10
  nforce : BitVec 10
  badCells : List (Nat × Nat)
  badRows : List Nat
  badTrail : List Nat
  deriving DecidableEq, Repr

/-- The reset state of a clause array (R253). -/
def CxArray.empty : CxArray := ⟨[], [], [], [], 0, [], false, 0, 0, 0, [], [], []⟩

/-- A binding-table entry (R116). -/
structure BindEntry where
  obj : Word
  limit : Word
  base : Word
  deriving DecidableEq, Repr

/-- What a release, or a release fence, carries: the sequence number up to which the team's accesses come before it, its scope,
the bindings of a fence, by which its objects are judged, where a release judges by those of the moment at which it is performed
(R117, R121), and the words that have had their release from the fence. -/
structure Carry where
  seq : Nat
  sco : Nat
  binds : Option (Table BindEntry)
  words : List Nat
  deriving DecidableEq, Repr

/-- A team (R22). Unlisted: x and v registers read 0, predicates 0, slot images 0; a handle not in `tiles` is
unallocated. `exited` marks slots whose thread has executed `exit`; `out` gives the wait counters. -/
structure Team where
  pc : Word
  em : Mask
  exited : Mask
  p : Table Mask
  x : Table Word
  v : Table VReg
  fs : Table Word
  tiles : Table Nat
  out : List OutRec
  issued : Table Nat
  contpc : Word
  tmode : Word
  stack : List StackEntry
  remap : List (Option (BitVec 10))
  pbs : Pbs
  handler : Option Save
  wait : Option Wait
  hold : Option Hold
  mon : MonReq
  bpSkip : Bool
  fault : Option PendingFault
  latched : Option Latched
  place : Place
  parkedWaitF : Option (BarRef × BitVec 32)
  served : Bool
  ahead : List Nat
  relSeq : BitVec 41
  relSco : Nat
  acqSeq : BitVec 41
  acqSco : Nat
  relFences : List Carry
  acqBlock : Option Nat
  reports : List Report
  badSlices : List (Nat × Nat)
  frameBad : Bool
  newFrame : Option (List Byte)
  tileSave : List TileImage
  cxSave : Option CxArray
  ended : Bool
  preempt : Option Nat
  deriving DecidableEq, Repr

/-- The state of a block slot (R38). -/
inductive BlockSt where
  | empty | bound | parked | draining
  deriving DecidableEq, Repr

/-- What a block's stalls held when they were given up (R45, R85). -/
structure StallImage where
  owners : List (BitVec 2)
  words : Table Word
  bad : List Nat
  deriving DecidableEq, Repr

/-- An arrival at a barrier: the team, the BSEQ of its block, and the sequence number of the arrival (R159). A block of another
pod device stands as one team, under a key beyond this device's (log 12). -/
structure Arrival where
  team : Nat
  bseq : BitVec 32
  seq : Nat
  deriving DecidableEq, Repr

/-- One open phase of a barrier: its number, its count N, and who has arrived (R159). -/
structure Phase where
  num : BitVec 32
  n : Nat
  arrived : List Arrival
  deriving DecidableEq, Repr

/-- A barrier instance: phases completed, and the phases joined and not completed, oldest first (R159). -/
structure Barrier where
  completed : BitVec 32
  phases : List Phase
  deriving DecidableEq, Repr

/-- A `regroup` set: its PC, the clock of the first arrival, and its participants once it is formed (R35). -/
structure RegroupWait where
  pc : Word
  first : Nat
  set : Option (List Nat)
  deriving DecidableEq, Repr

/-- A bound block: its bind record (R38), its core barrier and what eviction keeps of it. -/
structure Block where
  bseq : BitVec 32
  bidx : Nat
  stb : Nat
  stn : Nat
  tms : Nat
  vrb : Nat
  lnh : Nat
  ctx : Nat
  pri : Nat
  st : BlockSt
  stalls : Option StallImage
  bar : Barrier
  regroups : List RegroupWait
  deriving DecidableEq, Repr

/-! ## Memory operations in flight -/

/-- How far one part of an operation is: not performed; sent to a pod peer; performed; failed with UNIT, OP and LOC
(R362); or never to be performed. -/
inductive PartSt where
  | waiting
  | sent
  | done
  | failed (unit op loc : Nat)
  deriving DecidableEq, Repr

/-- One access of an operation, within one aligned 8-byte word: bits [lo + len − 1 : lo] of the word at `pa`. A read
draws bits [dbit + len − 1 : dbit] of the operation's result. `a`, `b`, `words` carry data and operands. -/
structure Part where
  slot : Nat
  va : Nat
  pa : Nat
  lo : Nat
  len : Nat
  dbit : Nat
  kind : ReqKind
  a : Word
  b : Word
  words : List Word
  mt : Nat
  key : Nat
  cmp : Bool
  wr : Bool
  st : PartSt
  val : Word
  deriving DecidableEq, Repr

/-- Where the result of an operation goes: nowhere; bits of a vector register; an x register. -/
inductive Dest where
  | none
  | vreg (d : Nat)
  | xreg (d : Nat)
  deriving DecidableEq, Repr

/-- The extension of a result to 64 bits: a width in bits and whether it is signed (R196, R198). -/
structure Ext where
  bits : Nat
  signed : Bool
  deriving DecidableEq, Repr

/-- What kind of walk an `os.chase` is at: hops left and link offset, per thread (R210). -/
structure Chase where
  slot : Nat
  hops : Nat
  off : Int
  ok : Bool
  deriving DecidableEq, Repr

/-- An instruction whose stores a write-combining entry holds, by its team and the BSEQ of the team's block: what a report of its
failure names. -/
structure WcOwner where
  team : Nat
  bseq : BitVec 32
  seq : Nat
  pc : Word
  mask : Mask
  handler : Bool
  deriving DecidableEq, Repr

/-- Who makes an access of its own that leaves the package: an engine or the device for a context, by unit and command, or a
team's instruction. -/
structure Actor where
  unit : Nat
  ctx : Nat
  id : Nat
  deriving DecidableEq, Repr

/-- One memory, tile or ostler operation in flight (R115, R142, R143). `carry` is what a release carries. `noL1` and `noRdc` are
the virtual lines that it must not install there (R91); `stream` is the hint of R195; `tile` is the tile whose store it is; `ostc` names the ostler command
and the record that the operation performs (R252); `drain` the stores of teams that it carries from a write-combining buffer (R97); `actor`
the engine or device that asked; a `quiet` one reports nothing: a prefetch (R203), or a store of a killed context (R346). -/
structure MemOp where
  seq : Nat
  team : Nat
  ctx : Nat
  pc : Word
  cls : Option Cnt
  sem : Sem
  sco : Nat
  dest : Dest
  ext : Option Ext
  slots : Mask
  parts : List Part
  nt : Bool
  carry : List Carry
  install : Bool
  stream : Bool
  noL1 : List Nat
  noRdc : List Nat
  gather : Bool
  chase : List Chase
  unchecked : List Nat
  tile : Option Nat
  ostc : Option (Nat × Nat)
  drain : List WcOwner
  actor : Option Actor
  quiet : Bool
  handler : Bool
  deriving DecidableEq, Repr

/-! ## Cores -/

/-- A queue register's binding (R218). -/
structure QBind where
  port : Nat
  idx : Nat
  ctx : Nat
  deriving DecidableEq, Repr

/-- An entry of a pop port (R218, R232, R252, R267). -/
structure PortEntry where
  ctx : Nat
  data : VReg
  team : Nat
  deriving DecidableEq, Repr

/-- Who issued a command: its context, team, launch and launch tag, PC, active set, and whether in handler mode (R337,
R377). -/
structure Issuer where
  ctx : Nat
  team : Nat
  lnh : Nat
  ltag : BitVec 16
  pc : Word
  mask : Mask
  handler : Bool
  deriving DecidableEq, Repr

/-- A command that a push port has accepted (R222): the register image, who pushed it, its sequence number, the SEED of its
TMODE (R230), its block's priority (R250), and the companding tables that it may take: those of its context then, and those
loaded since (R70). -/
structure Cmd where
  data : VReg
  who : Issuer
  seq : Nat
  seed : Nat
  pri : Nat
  tabs : List (Nat × VReg)
  deriving DecidableEq, Repr

/-- A matrix strip (R227): 1,024 element codes, row-major, with a scale code each; `bad` marks an uncorrectable error. -/
structure Strip where
  ctx : Nat
  img : BitVec 52
  width : Nat
  elems : List Word
  codes : List Byte
  bad : Bool
  deriving DecidableEq, Repr

/-- A matrix stream: the position of its first strip, the head as the instructions issued so far name it (R297), and its
strips from the head on. -/
structure Stream where
  head : BitVec 16
  issueHead : BitVec 16
  strips : List Strip
  deriving DecidableEq, Repr

/-- A copy command being performed (R231): the strips it has still to append, whether its accesses are performed and its
stalls handed back, and what it reports: STAT, LOC, COUNT and the flags of R232. `doorbell` is set while the doorbell write
of R234 is outstanding; `appending` from a card's first strip to its last (R233). -/
structure CopyRun where
  cmd : Cmd
  strips : List Strip
  performed : Bool
  appending : Bool
  handed : Bool
  doorbell : Bool
  count : Nat
  stat : Nat
  loc : Nat
  flags : BitVec 3
  deriving DecidableEq, Repr

/-- A copy engine of a core: the command it performs, the commands waiting, how many it has accepted and completed
(R223, R231), and its completion port. -/
structure CopyEngine where
  cur : Option CopyRun
  cmds : List Cmd
  accepted : Nat
  completed : Nat
  cpl : List PortEntry
  deriving DecidableEq, Repr

/-- A tile allocated to a team (R236): its elements in row-major order, its tensor id, and the elements that hold
uncorrectable errors. -/
structure Tile where
  team : Nat
  tid : BitVec 8
  elems : List A96
  bad : List Nat
  deriving DecidableEq, Repr

/-- A quarter operation of a `tmma` (R238): the tile and its quarter, the slot images of A and B with the companding tables they
named at issue or that have been loaded since (R70), the strips it names by stream and position, which heads its instruction pops,
its cost in clocks (R239), and when it issued. -/
structure QuarterOp where
  seq : Nat
  tile : Nat
  quarter : Nat
  imgA : Word
  tabA : List VReg
  imgB : Word
  tabB : List VReg
  sa : Nat
  posA : BitVec 16
  sb : Nat
  posB : BitVec 16
  popA : Bool
  popB : Bool
  cost : Nat
  issued : Nat
  deriving DecidableEq, Repr

/-- What a tile operation does: `tmma` with its quarters still to do, the segments of those done, which go into the tile together
and in the order of issue (R242, R383), the stream of a failed strip, and the telemetry of a sampled one (R381); `tzero`; or `tld`
with the registers it writes (R236, R238, R240). -/
inductive TileOpKind where
  | mma (left : List Nat) (segs : List (Nat × List A96)) (strip : Option Nat) (sample : Option (List Byte))
  | zero
  | load (d : List Nat)
  deriving DecidableEq, Repr

/-- A tile operation in flight. -/
structure TileOp where
  seq : Nat
  tile : Nat
  handle : Nat
  who : Issuer
  kind : TileOpKind
  deriving DecidableEq, Repr

/-- The matrix engine (R235): its streams, the quarter operations gathered and not begun, the pass in progress, and the
sub-arrays fenced after a failed self-test (R382). -/
structure Matrix where
  a : Table Stream
  b : Table Stream
  queue : List QuarterOp
  pass : List QuarterOp
  passStart : Nat
  fenced : BitVec 4
  issued : Table Nat
  deriving DecidableEq, Repr

/-- An entry of the write-combining buffer (R97): by address in the line the bits stored of a byte and their values, with the
instructions that stored into it. -/
structure WcEntry where
  line : Nat
  vline : Nat
  ctx : Nat
  key : Nat
  cmp : Bool
  bytes : Table (Byte × Byte)
  owners : List WcOwner
  last : Nat
  deriving DecidableEq, Repr

/-- A line of an L1 data cache (R88), an instruction cache (R92) or an RDC (R94): virtual line and context (tag or
back-tag), physical line, memory type, key, write permission, and 128 bytes. -/
structure CLine where
  ctx : Nat
  vline : Nat
  pline : Nat
  mt : Nat
  key : Nat
  cmp : Bool
  wr : Bool
  data : BitVec 1024
  deriving DecidableEq, Repr

/-- A translation held in a TLB (R103): the page or range [vbase, vlimit), what it translates to, the level of its leaf (7 for
a range), and a range's place in the table of its context (R102). -/
structure TlbEntry where
  ctx : Nat
  lvl : Nat
  idx : Nat
  vbase : Nat
  vlimit : Nat
  pbase : Nat
  rd : Bool
  wr : Bool
  ex : Bool
  dirty : Bool
  mt : Nat
  key : Nat
  cmp : Bool
  deriving DecidableEq, Repr

/-- A performance counter of a core for one function (R325). -/
structure Ev where
  sel : Word
  cnt : BitVec 48
  deriving DecidableEq, Repr

/-- An issue slot: the team it serves, how many instructions that team has issued in a row, and, until its next choice, the
team that has just left it at the cap (R43); and whether the team's hold of the slot has begun (R48). -/
structure IssueSlot where
  team : Option Nat
  run : Nat
  capped : Option Nat
  begun : Bool
  deriving DecidableEq, Repr

/-- An ostler command register being performed: the REASON of each record so far, `none` for an empty one (R252, R368). -/
structure OstcRun where
  cmd : Cmd
  reasons : List (Option Nat)
  deriving DecidableEq, Repr

/-- A core. Unlisted: queues unbound, scratchpad words 0, stall owners 11, events unselected. `pat` and `tbl` hold the
pattern and table stores with the owning context (R191, R70). -/
structure Core where
  slots : List IssueSlot
  q : Table QBind
  eng0 : CopyEngine
  eng1 : CopyEngine
  clause : List PortEntry
  ostc : List Cmd
  ostcRun : Option OstcRun
  ostr : List PortEntry
  scratch : Table Word
  scratchBad : List Nat
  owner : Table (BitVec 2)
  pat : Table (Nat × VReg)
  tbl : Table (Nat × VReg)
  tiles : Table Tile
  tileOps : List TileOp
  mx : Matrix
  wcb : List WcEntry
  l1 : List CLine
  l1i : List CLine
  tlb : List TlbEntry
  ev : Table Ev
  nextBseq : BitVec 32
  deriving DecidableEq, Repr

/-- A quad (R8): its TLBs, the contexts whose descriptors were loaded at their first team, and its clause array with its
owner, the propagation in flight and the teams waiting to claim it. -/
structure Quad where
  tlb : List TlbEntry
  ranges : List TlbEntry
  ctxs : List Nat
  cx : CxArray
  owner : Option Nat
  prop : Option Prop1
  claims : List (Nat × Nat)
  deriving DecidableEq, Repr

/-! ## Dies -/

/-- The undispatched range of a launch on a die (R40). -/
structure URange where
  ctx : Nat
  lnh : Nat
  lo : Nat
  hi : Nat
  deriving DecidableEq, Repr

/-- A request for an update job (R251): the `ujob.commit` or `ujob.drop` that made it. -/
structure JobReq where
  drop : Bool
  who : Issuer
  deriving DecidableEq, Repr

/-- Memory as it stood at some moment: its bytes, and the key material under which each line was stored. -/
structure Snap where
  mem : Table Byte
  keys : Table (Option (BitVec 512))
  deriving DecidableEq, Repr

/-- How a job whose copies are made is to end: the STATE to release, and the notice that follows it, as its issuer, CODE and LOC. -/
structure JobEnd where
  state : Nat
  notice : Option (Issuer × Nat × Nat)
  deriving DecidableEq, Repr

/-- An update job (R246–R251) from the acceptance of its card to its end: STATE as the engine keeps it (0 until the engine
takes it), the next record, and the requests accepted for it and not yet handled, oldest first. Of what the program must leave
alone meanwhile (R305, R387) it has memory as it was at acceptance, the control block as read for STATE 0x03, and by record the
record as read with its staging as computed. `due` stands once a commit's copies are made. -/
structure Job where
  cmd : Cmd
  state : Nat
  cursor : Nat
  reqs : List JobReq
  before : Snap
  ctl : Nat
  shards : Table (Nat × List Byte)
  due : Option JobEnd
  deriving DecidableEq, Repr

/-- A packet in a buffer of a die (R318, R320, R322): on a compute die it is on its way to the I/O dies, and has no port yet. The
buffers of a die's lanes and ports are one list in the order of arrival; lane and port tell them apart. -/
structure OutPkt where
  pkt : Packet
  port : Option Nat
  since : Nat
  suspect : Bool
  deriving DecidableEq, Repr

/-- A steal request sent and not yet answered: the victim die, and the launch (R41). -/
structure Steal where
  victim : Nat
  ctx : Nat
  lnh : Nat
  deriving DecidableEq, Repr

/-- A die of the package: 0–3 compute dies, 4 and 5 the I/O dies. Compute dies hold an RDC, undispatched ranges, a
pending steal and update jobs; I/O dies the offload port, with the sequence number of a command whose entries are performed and
whose DONE is not; every die its packet buffer and the halter it last saw. -/
structure Die where
  rdc : List CLine
  ranges : List URange
  steal : Option Steal
  jobs : List Job
  running : Option Nat
  offl : List Cmd
  offlDue : Option Nat
  pkts : List OutPkt
  halterGen : Nat
  halterSeen : Nat
  deriving DecidableEq, Repr

/-! ## Contexts and launches -/

/-- A trap record before its sequence number and LOST are given (R337): `team` is the team that waits for it. -/
structure Rec where
  cause : Nat
  kind : Nat
  pc : Word
  detail : Word
  mask : Mask
  ltag : BitVec 16
  team : Nat
  hasTeam : Bool
  async : Bool
  inh : Bool
  deriving DecidableEq, Repr

/-- A trap-queue entry that the device wrote and has not read back as consumed (R344). -/
structure TqEntry where
  idx : Nat
  kind : Nat
  cause : Nat
  team : Nat
  hasTeam : Bool
  deriving DecidableEq, Repr

/-- The fields of a launch record and its `.kmeta` record that outlive their reading (R24, R280). -/
structure LaunchRec where
  addr : Nat
  ltag : BitVec 16
  irq : Bool
  dsco : Nat
  done : Word
  waitVal : Word
  waitAddr : Word
  gx : Nat
  gy : Nat
  gz : Nat
  args : Word
  entry : Word
  tmode : Word
  handler : Word
  fsmask : BitVec 16
  fsimg : List Word
  teams : Nat
  vrb8 : Nat
  stalls : Nat
  noswap : Bool
  fhold : Bool
  htmo : Nat
  tmpl : List (BitVec 256)
  deriving DecidableEq, Repr

/-- An admitted launch: its queue, its place in admission order and how many of its blocks have completed. -/
structure Launch where
  rcd : LaunchRec
  q : Nat
  pri : Nat
  order : Nat
  bound : Nat
  finished : List Nat
  done : Bool
  deriving DecidableEq, Repr

/-- What the launch core knows of a queue (R27, R414): the record at RIDX once it has passed its checks. -/
structure QState where
  rcd : LaunchRec
  ridx : Word
  deriving DecidableEq, Repr

/-- A loaded ostler routine (R213). -/
abbrev Routine := List (BitVec 32)

/-- A context: its enabled record (R314), its binding table (R116) and race counter (R126), its launches, its trap
queue (R344), its breakpoints (R335) and its numerics watch (R380). `posted` lists the ways to the host, PCIe (`false`) and CXL
(`true`), on which writes have left since the last zero-length read (R124). Unlisted tables are empty. -/
structure Ctx where
  en : Bool
  world : Bool
  killed : Bool
  vf : Nat
  fgrant : Bool
  cgrant : Bool
  trapq : Word
  watch : Word
  tring : Word
  ostrt : Word
  shadow : Word
  rtable : Word
  qtable : Word
  ptroot : Word
  podgrp : BitVec 16
  rcount : Nat
  trlog2 : Nat
  wsamp : Nat
  wmode : BitVec 2
  binds : Table BindEntry
  cseq : BitVec 41
  routines : Table Routine
  queues : Table QState
  launches : Table Launch
  seq : BitVec 32
  lost : Nat
  fatals : Nat
  nextEntry : Nat
  entries : List TqEntry
  pending : List Rec
  bps : List Word
  watchCounts : Table Nat
  ringIdx : Nat
  posted : List Bool
  deriving DecidableEq, Repr

/-! ## Fabric -/

/-- A request sent to a peer and not yet answered (R370, R371): which parts of which operation it carries. -/
structure OutReq where
  tag : BitVec 12
  op : Nat
  parts : List Nat
  pkt : Packet
  resends : Nat
  sentAt : Nat
  deriving DecidableEq, Repr

/-- What this device knows of a peer (R319–R321, R370). As source: the next tag, the requests outstanding, and when a freed
tag was last sent. As target: the newest tag received; `low`, before which every tag of the window is done, and the done
tags from `low` on; the responses kept; and the ordered writes that wait for a gap (R125). -/
structure Peer where
  inc : Option (BitVec 16)
  nextTag : BitVec 12
  outs : List OutReq
  freedAt : Table Nat
  newest : BitVec 12
  low : BitVec 12
  doneTags : List (BitVec 12)
  cache : Table Resp
  held : List Packet
  deriving DecidableEq, Repr

/-! ## Registers of BAR 0 -/

/-- The TLB-invalidation registers of a function (R316). -/
structure Tlbi where
  ctx : Word
  base : Word
  limit : Word
  ctl : Word
  busy : Bool
  deriving DecidableEq, Repr

/-- The mailbox (R334): the command register, the arguments, the status fields, and, once the command has taken effect, the
RES and the new ARG_3 to be reported. -/
structure Mbx where
  cmd : Word
  args : List Word
  seq : BitVec 8
  res : BitVec 8
  done : Bool
  busy : Bool
  pend : Option (BitVec 8 × Option Word)
  deriving DecidableEq, Repr

/-- A region entry as its 128 bits (R329), an MSI-X table entry (R313), an L2 slice counter with the function that
selected it (R327). -/
structure L2Counter where
  sel : Word
  cnt : BitVec 48
  fn : Nat
  deriving DecidableEq, Repr

/-- SPDM: what has been negotiated (R333). -/
structure Spdm where
  version : Bool
  caps : Bool
  algs : Bool
  exchange : Option (List Byte)
  session : Bool
  deriving DecidableEq, Repr

/-- An access to host memory (R311); `gathered` is one write of a line of a write-combining entry, the bits stored of each byte and
their values by offset (R97). Every request leaves with the relaxed-ordering attribute clear, which R124 asks of a flag, and R125 of
any write that must not pass an earlier one of its thread (log 93). -/
inductive HostAcc where
  | read (n : Nat)
  | write (bytes : List Byte)
  | gathered (bytes : Table (Byte × Byte))
  | atomic (op : Rmw) (bits : Nat) (a b : Word)
  deriving DecidableEq, Repr

/-- What the device sends to the outside: an answer to an SPDM request or to an inbound access; a packet on a port; an access to
host memory, with the function whose requester ID it carries, whether it is a CXL.cache request, and the I/O die it leaves
through (R311). -/
inductive Out where
  | spdm (data : List Byte)
  | spdmError
  | data (bytes : List Byte)
  | unsupported
  | aborted
  | done
  | packet (port : Nat) (p : Packet)
  | host (fn : Nat) (cxl : Bool) (iod : Nat) (addr : Nat) (a : HostAcc)
  deriving DecidableEq, Repr

/-- The boot state (R331): whether the first stage's signature verified. -/
inductive Boot where
  | off | failed | running
  deriving DecidableEq, Repr

/-- The registers of function 0's BAR 0 that no other structure holds (R317). -/
structure Regs where
  ctxtBase : Word
  vfslice : Word
  podId : Word
  fabTdl : Word
  fabTe2e : Word
  tlbi : Table Tlbi
  mbx : Mbx
  mextIdx : Word
  mextDig : List Word
  rkeyDig : List (BitVec 256)
  rkeyLocked : BitVec 4
  regions : Table (BitVec 128)
  fpc : Table (BitVec 48)
  l2c : Table L2Counter
  msix : Table (BitVec 128)
  msixPending : Table Bool
  deriving DecidableEq, Repr

/-! ## The machine -/

/-- The instruction being issued: where, its length in bytes, its base instruction's 64 bits (R127), and the translations it
has asked for. -/
structure Cur where
  core : Nat
  slot : Nat
  team : Nat
  len : Nat
  base : Word
  walks : List WalkReq
  wide : Bool
  deriving DecidableEq, Repr

/-- What the step in progress asks of the outside (log 37): the accesses to be made, by whom, of which no answer is known yet;
the answers it has used, as operation and part; whether an answer is missing, and whether a value among those is. -/
structure Rpc where
  asks : List (Actor × Part)
  used : List (Nat × Nat)
  missing : Bool
  junk : Bool
  deriving DecidableEq, Repr

def Rpc.idle : Rpc := ⟨[], [], false, false⟩

/-- What timing or the outside world decides next: an event; which issue slot of which core issues; how many clocks pass;
the arrival of another pod device's block at a pod barrier, by group mask, id, device, block and count (log 12); or what this
device learns of the link between two others (R320, log 18). -/
inductive Choice where
  | event (i : Instr)
  | issue (core slot : Nat)
  | tick (n : Nat)
  | podArrival (group id dev block n : Nat)
  | farLink (a b : Nat) (up : Bool)
  deriving DecidableEq, Repr

/-- The package. Unlisted: memory bytes read 0; teams, blocks, launches and operations do not exist; a core, quad, die
or context is as at reset; a line was stored under key 0, raw; a link between two other devices, by 16 · lower + higher, is up.
`halters` are the halters within the device, by generation, with the number of its stop (R322); `flash` is the incarnation that
the package flash keeps (R321). -/
structure State where
  clock : Nat
  cur : Cur
  agenda : List Choice
  free : Nat
  nextSeq : Nat
  mem : Table Byte
  failed : List (Nat × Nat)
  lineTag : Table (BitVec 4)
  lineKey : Table (Option (BitVec 512))
  teams : Table Team
  blocks : Table Block
  cores : Table Core
  quads : Table Quad
  dies : Table Die
  ctxs : Table Ctx
  barriers : Table Barrier
  ops : List MemOp
  rpc : Rpc
  regs : Regs
  keys : Table (BitVec 512)
  meas : Table (BitVec 256)
  incarnation : BitVec 16
  peers : Table Peer
  links : Table Bool
  farDown : Table Bool
  halters : Table Nat
  flash : BitVec 16
  activeVf : Nat
  vfNext : Option Nat
  sliceAt : Nat
  outs : List Out
  irqs : List (Nat × Nat)
  spdm : Spdm
  boot : Boot
  admitted : Nat
  rr : Nat
  deriving DecidableEq, Repr

/-- Why the machine stops with a fault: it never does. Every failure that the manual names is a trap, a record or an error of the
machine's own, and what follows it is a next state. -/
inductive Fault where
  deriving DecidableEq, Repr

/-- Why an instruction has no meaning here. -/
inductive Refusal where
  /-- Raised by an arm of `exec` whose meaning has not been written. Safe: nothing is claimed of the instruction. -/
  | notModelled (mnemonic : String)
  deriving DecidableEq, Repr

/-! ## Reset -/

def CopyEngine.reset : CopyEngine := ⟨none, [], 0, 0, []⟩

def Stream.reset : Stream := ⟨0, 0, []⟩

def Matrix.reset : Matrix := ⟨[], [], [], [], 0, 0, []⟩

def IssueSlot.reset : IssueSlot := ⟨none, 0, none, false⟩

/-- A core after reset. -/
def Core.reset : Core where
  slots := [.reset, .reset, .reset, .reset]
  q := []
  eng0 := .reset
  eng1 := .reset
  clause := []
  ostc := []
  ostcRun := none
  ostr := []
  scratch := []
  scratchBad := []
  owner := []
  pat := []
  tbl := []
  tiles := []
  tileOps := []
  mx := .reset
  wcb := []
  l1 := []
  l1i := []
  tlb := []
  ev := []
  nextBseq := 0

/-- A quad after reset: TLBs empty, the clause array unclaimed in its reset state (R253). -/
def Quad.reset : Quad := ⟨[], [], [], .empty, none, none, []⟩

def Die.reset : Die := ⟨[], [], none, [], none, [], none, [], 0, 0⟩

/-- A context record after reset: every field 0 (R314). -/
def Ctx.reset : Ctx where
  en := false
  world := false
  killed := false
  vf := 0
  fgrant := false
  cgrant := false
  trapq := 0
  watch := 0
  tring := 0
  ostrt := 0
  shadow := 0
  rtable := 0
  qtable := 0
  ptroot := 0
  podgrp := 0
  rcount := 0
  trlog2 := 0
  wsamp := 0
  wmode := 0
  binds := []
  cseq := 0
  routines := []
  queues := []
  launches := []
  seq := 0
  lost := 0
  fatals := 0
  nextEntry := 0
  entries := []
  pending := []
  bps := []
  watchCounts := []
  ringIdx := 0
  posted := []

def Barrier.reset : Barrier := ⟨0, []⟩

/-- A peer before anything is known of it: the first tag of its sequence is 0. -/
def Peer.reset : Peer := ⟨none, 0, [], [], 4095, 0, [], [], []⟩

def Tlbi.reset : Tlbi := ⟨0, 0, 0, 0, false⟩

/-- The registers of BAR 0 after reset (R317, R334): the stated reset values of VFSLICE, FAB_TDL and FAB_TE2E; the
smallest pod (log 5); every other register 0. -/
def Regs.reset : Regs where
  ctxtBase := 0
  vfslice := 2000
  podId := 0x80
  fabTdl := 20
  fabTe2e := 200
  tlbi := []
  mbx := ⟨0, [0, 0, 0, 0], 0, 0, false, false, none⟩
  mextIdx := 0
  mextDig := [0, 0, 0, 0]
  rkeyDig := [0, 0, 0, 0]
  rkeyLocked := 0
  regions := []
  fpc := []
  l2c := []
  msix := []
  msixPending := []

/-- The machine right after device reset, with nothing placed in memory and nothing decided by the outside. -/
def State.reset : State where
  clock := 0
  cur := ⟨0, 0, 0, 0, 0, [], true⟩
  agenda := []
  free := 0
  nextSeq := 0
  mem := []
  failed := []
  lineTag := []
  lineKey := []
  teams := []
  blocks := []
  cores := []
  quads := []
  dies := []
  ctxs := []
  barriers := []
  ops := []
  rpc := .idle
  regs := .reset
  keys := []
  meas := []
  incarnation := 0
  peers := []
  links := []
  farDown := []
  halters := []
  flash := 0
  activeVf := 0
  vfNext := none
  sliceAt := 0
  outs := []
  irqs := []
  spdm := ⟨false, false, false, none, false⟩
  boot := .running
  admitted := 0
  rr := 0

end Sys2Proof.Machine
end

