-- ==== Sys2Proof/Machine/Table.lean ====
section
/-!
DEFINITION. Sparse tables: look-up, insertion and removal by key, and the canonical form in which strictly rising keys
carry no value that an unlisted key reads as.
-/

namespace Sys2Proof.Machine

variable {α β : Type}

/-- The value listed at `k`. -/
def tfind : Table α → Nat → Option α
  | [], _ => none
  | (j, v) :: t, k => if k = j then some v else if k < j then none else tfind t k

/-- The value at `k`, with `d` where none is listed. -/
def tget (d : α) (t : Table α) (k : Nat) : α := (tfind t k).getD d

/-- List `v` at `k`, whatever was listed. -/
def tins : Table α → Nat → α → Table α
  | [], k, v => [(k, v)]
  | (j, w) :: t, k, v =>
    if k = j then (k, v) :: t else if k < j then (k, v) :: (j, w) :: t else (j, w) :: tins t k v

/-- List nothing at `k`. -/
def tdel : Table α → Nat → Table α
  | [], _ => []
  | (j, w) :: t, k => if k = j then t else if k < j then (j, w) :: t else (j, w) :: tdel t k

/-- Make `k` read `v`, keeping the table canonical for the default `d`. -/
def tput [DecidableEq α] (d : α) (t : Table α) (k : Nat) (v : α) : Table α :=
  if v = d then tdel t k else tins t k v

/-- Keys strictly rising from above `lo`. -/
def tsorted : Nat → Table α → Bool
  | _, [] => true
  | lo, (j, _) :: t => lo ≤ j && tsorted (j + 1) t

/-- The canonical form: keys strictly rise and no entry holds the default. -/
def twf [DecidableEq α] (d : α) (t : Table α) : Bool := tsorted 0 t && t.all fun e => e.2 ≠ d

/-- Every listed value, changed. -/
def tmap (f : Nat → α → α) (t : Table α) : Table α := t.map fun e => (e.1, f e.1 e.2)

/-- The listed entries that satisfy `p`. -/
def tfilter (p : Nat → α → Bool) (t : Table α) : Table α := t.filter fun e => p e.1 e.2

def tkeys (t : Table α) : List Nat := t.map Prod.fst

end Sys2Proof.Machine
end

