-- ==== Sys2Proof/Machine/Access.lean ====
section
/-!
DEFINITION. Reading and writing the parts of the state: teams, blocks, cores, quads, dies and contexts by number; a team's
registers with the hard-wired x0 and p0; its live slots and active set; its wait counters; event counts and interrupts.
-/

namespace Sys2Proof.Machine

/-! ## Numbers -/

/-- A team's key: core, block slot and team index as R126 packs them. -/
def teamKey (core slot team : Nat) : Nat := core * 1024 + slot * 32 + team

def teamIdKey (t : TeamId) : Nat := teamKey t.core t.slot t.team

def coreOf (k : Nat) : Nat := k / 1024
def slotOf (k : Nat) : Nat := k / 32 % 32
def idxOf (k : Nat) : Nat := k % 32
def blockKeyOf (k : Nat) : Nat := k / 32
def quadOfCore (c : Nat) : Nat := c / 4
def dieOfCore (c : Nat) : Nat := c / 64

/-- Arithmetic clocks in a microsecond at 1.7 GHz (R12). -/
def clocksPerUs : Nat := 1700

/-! ## Parts of the machine -/

def State.core (s : State) (c : Nat) : Core := tget .reset s.cores c
def State.setCore (s : State) (c : Nat) (v : Core) : State := { s with cores := tins s.cores c v }
def State.modCore (s : State) (c : Nat) (f : Core → Core) : State := s.setCore c (f (s.core c))
def State.quad (s : State) (q : Nat) : Quad := tget .reset s.quads q
def State.modQuad (s : State) (q : Nat) (f : Quad → Quad) : State := { s with quads := tins s.quads q (f (s.quad q)) }
def State.die (s : State) (d : Nat) : Die := tget .reset s.dies d
def State.modDie (s : State) (d : Nat) (f : Die → Die) : State := { s with dies := tins s.dies d (f (s.die d)) }
def State.ctx (s : State) (c : Nat) : Ctx := tget .reset s.ctxs c
def State.modCtx (s : State) (c : Nat) (f : Ctx → Ctx) : State := { s with ctxs := tins s.ctxs c (f (s.ctx c)) }
def State.peer (s : State) (n : Nat) : Peer := tget .reset s.peers n
def State.modPeer (s : State) (n : Nat) (f : Peer → Peer) : State := { s with peers := tins s.peers n (f (s.peer n)) }

/-- A team at team start, before its kernel's values are given (R22). -/
def Team.blank : Team where
  pc := 0
  em := 0
  exited := 0
  p := []
  x := []
  v := []
  fs := []
  tiles := []
  out := []
  issued := []
  contpc := 0
  tmode := 0
  stack := []
  remap := []
  pbs := ⟨0, 0, 0, 0, 0⟩
  handler := none
  wait := none
  hold := none
  mon := .none
  bpSkip := false
  fault := none
  latched := none
  place := .resident
  parkedWaitF := none
  served := false
  ahead := []
  relSeq := 0
  relSco := 0
  acqSeq := 0
  acqSco := 0
  relFences := []
  acqBlock := none
  reports := []
  badSlices := []
  frameBad := false
  newFrame := none
  tileSave := []
  cxSave := none
  ended := false
  preempt := none

def Block.blank : Block := ⟨0, 0, 0, 0, 0, 0, 0, 0, 0, .empty, none, .reset, []⟩

def State.team (s : State) (k : Nat) : Team := tget .blank s.teams k
def State.hasTeam (s : State) (k : Nat) : Bool := (tfind s.teams k).isSome
def State.setTeam (s : State) (k : Nat) (t : Team) : State := { s with teams := tins s.teams k t }

/-- Change a team that exists. -/
def State.modTeam (s : State) (k : Nat) (f : Team → Team) : State :=
  match tfind s.teams k with
  | some t => s.setTeam k (f t)
  | none => s

def State.block (s : State) (b : Nat) : Block := tget .blank s.blocks b

def State.modBlock (s : State) (b : Nat) (f : Block → Block) : State :=
  match tfind s.blocks b with
  | some t => { s with blocks := tins s.blocks b (f t) }
  | none => s

/-- Team keys of a block that exist and have not ended. -/
def State.blockTeams (s : State) (b : Nat) : List Nat :=
  (s.teams.filter fun e => e.1 / 32 = b && !e.2.ended).map Prod.fst

/-- The context of a team: that of its block. -/
def State.ctxOf (s : State) (k : Nat) : Nat := (s.block (blockKeyOf k)).ctx

def State.launchOf? (s : State) (k : Nat) : Option Launch :=
  let b := s.block (blockKeyOf k)
  tfind (s.ctx b.ctx).launches b.lnh

/-- The function that owns a context (R314). -/
def State.vfOf (s : State) (ctx : Nat) : Nat := (s.ctx ctx).vf

/-! ## The team that issues -/

def Cur.key (c : Cur) : Nat := teamKey c.core c.slot c.team

/-- The issuing team's key, and the team. -/
def State.ck (s : State) : Nat := s.cur.key
def State.ct (s : State) : Team := s.team s.ck
def State.cc (s : State) : Core := s.core s.cur.core
def State.cctx (s : State) : Nat := s.ctxOf s.ck
def State.cblock (s : State) : Block := s.block (blockKeyOf s.ck)
def State.modCur (s : State) (f : Team → Team) : State := s.modTeam s.ck f

/-! ## Registers -/

/-- x0 reads 0 (R132). -/
def Team.getX (t : Team) (n : Nat) : Word := if n = 0 then 0 else tget 0 t.x n

/-- A write to x0 is discarded (R132). -/
def Team.setX (t : Team) (n : Nat) (v : Word) : Team := if n = 0 then t else { t with x := tput 0 t.x n v }

/-- p0 reads all ones (R132). -/
def Team.getP (t : Team) (n : Nat) : Mask := if n = 0 then BitVec.allOnes 32 else tget 0 t.p n

/-- A write to p0 is discarded (R132). -/
def Team.setP (t : Team) (n : Nat) (v : Mask) : Team := if n = 0 then t else { t with p := tput 0 t.p n v }

/-- Write a predicate in the slots of `m` only (R21). -/
def Team.setPIn (t : Team) (n : Nat) (m v : Mask) : Team := t.setP n ((t.getP n &&& ~~~m) ||| (v &&& m))

def Team.getV (t : Team) (n : Nat) : VReg := tget 0 t.v n
def Team.setV (t : Team) (n : Nat) (v : VReg) : Team := { t with v := tput 0 t.v n v }

/-- A write that covers all 64 bits of the slices of `m` ends an uncorrectable error there (R361). -/
def Team.mend (t : Team) (n : Nat) (m : Nat → Bool) : Team :=
  if t.badSlices.isEmpty then t else { t with badSlices := t.badSlices.filter fun b => !(b.1 = n && m b.2) }

/-- Write a vector register's slices in the slots of `m` only (R21). -/
def Team.setVIn (t : Team) (n : Nat) (m : Mask) (v : VReg) : Team :=
  (t.setV n (mergeSlices m (t.getV n) v)).mend n fun i => m.getLsbD i

def Team.getFs (t : Team) (n : Nat) : Word := tget 0 t.fs n
def Team.setFs (t : Team) (n : Nat) (v : Word) : Team := { t with fs := tput 0 t.fs n v }

/-- The number of vector registers allocated to a team of block `b`: 8 · (VRB + 1) (R38). -/
def Block.vregs (b : Block) : Nat := 8 * (b.vrb + 1)

/-! ## Threads -/

/-- Slots that hold a thread (R34). -/
def Team.valid (t : Team) : Mask := maskOf fun i => ((t.remap[i]?).getD none).isSome

/-- Slots that hold a thread that has not executed `exit` (R21). -/
def Team.live (t : Team) : Mask := t.valid &&& ~~~t.exited

/-- The logical id of the thread in a slot (R34). -/
def Team.lid (t : Team) (i : Nat) : Option Nat := ((t.remap[i]?).getD none).map (·.toNat)

/-- The slot in which the thread of a logical id stands (R188). -/
def Team.slotOfLid (t : Team) (id : Nat) : Option Nat := (List.range 32).find? fun i => t.lid i == some id

/-- A thread whose home team is `idx` lives, unexited, in another team of the block (R153). -/
def State.homeAway (s : State) (b idx : Nat) : Bool :=
  (s.blockTeams b).any fun k => idxOf k ≠ idx &&
    (maskSlots (s.team k).live).any fun i => ((s.team k).lid i).any fun l => l / 32 = idx

/-- A team with no unexited thread of its own that has not ended: it stands empty while a home thread lives elsewhere,
or waits for its counters (R35, R153). -/
def Team.empty (t : Team) : Bool := t.live = 0

/-- The active set: `em`, narrowed by a predicate block in progress (R139). -/
def Team.active (t : Team) : Mask :=
  if t.pbs.left = 0 then t.em
  else if t.pbs.pat.getLsbD (t.pbs.len.toNat + 1 - t.pbs.left) then t.em &&& t.pbs.snap
  else t.em &&& ~~~t.pbs.snap

/-- The threads an instruction with this prefix runs in unmasked (R136). -/
def Team.masked (t : Team) (xp : Option Xp) : Mask :=
  match xp with
  | none => t.active
  | some x => if x.km = 0 then t.active else t.active &&& t.getP x.km.toNat

/-- The threads whose destination an MZ prefix zeroes (R136). -/
def Team.zeroed (t : Team) (xp : Option Xp) : Mask :=
  match xp with
  | none => 0
  | some x => if x.km ≠ 0 && x.mz then t.active &&& ~~~t.getP x.km.toNat else 0

/-! ## Wait counters (R142, R143) -/

def Team.count (t : Team) (c : Cnt) : Nat := (t.out.filter fun o => o.cls = c).length

/-- Drop the completed operations at the front of a class (R143). -/
def dropDone (c : Cnt) : List OutRec → List OutRec
  | [] => []
  | o :: os => if o.cls = c then (if o.done then dropDone c os else o :: os) else o :: dropDone c os

/-- The operation is complete; the counter falls as R143 allows. -/
def Team.complete (t : Team) (c : Cnt) (seq : Nat) : Team :=
  { t with out := dropDone c (t.out.map fun o => if o.seq = seq && o.cls = c then { o with done := true } else o) }

def Cnt.code (c : Cnt) : Nat :=
  match c with
  | .ld => 0
  | .st => 1
  | .cp => 2
  | .tl => 3

/-- One more operation of the class, in issue order; `issued` counts every operation of a class since team start. -/
def Team.addOut (t : Team) (c : Cnt) (seq : Nat) : Team :=
  { t with out := t.out ++ [⟨c, seq, false⟩], issued := tput 0 t.issued c.code (tget 0 t.issued c.code + 1) }

/-- WCNT (R173). -/
def Team.wcnt (t : Team) : Nat :=
  t.count .ld + t.count .st * 2 ^ 6 + t.count .cp * 2 ^ 12 + t.count .tl * 2 ^ 18

def cntOf (n : Nat) : Cnt :=
  match n % 4 with
  | 0 => .ld
  | 1 => .st
  | 2 => .cp
  | _ => .tl

/-- An operation of a team's own instructions, or one that carries its write-combining stores. A prefetch is neither (R203). -/
def MemOp.by (o : MemOp) (k : Nat) : Bool :=
  o.actor.isNone && o.ostc.isNone && !o.quiet && if o.drain.isEmpty then o.team = k else o.drain.any fun w => w.team = k

/-- What reports wait behind others: one for each instruction, in issue order (R356). -/
def insertReport (r : Report) : List Report → List Report
  | [] => [r]
  | x :: xs => if r.seq < x.seq then r :: x :: xs else x :: insertReport r xs

/-- Every report stops the team before its next instruction: it has been away, or held (R356). -/
def Team.allDue (t : Team) : Team := { t with reports := t.reports.map fun r => { r with due := true } }

def Team.addReport (t : Team) (r : Report) : Team := { t with reports := insertReport r t.reports }

/-! ## Interrupts, event counts, free values -/

/-- An MSI-X entry as PCIe gives it after reset: masked (log 6). -/
def msixReset : BitVec 128 := BitVec.ofNat 128 (2 ^ 96)

/-- Raise an MSI-X entry of a function: the message is sent, or its pending bit set where the entry is masked (R313). -/
def State.irq (s : State) (fn entry : Nat) : State :=
  let k := fn * 256 + entry
  if (tget msixReset s.regs.msix k).getLsbD 96 then
    { s with regs := { s.regs with msixPending := tins s.regs.msixPending k true } }
  else { s with irqs := (fn, entry) :: s.irqs }

/-- One event counter advanced by `n` when it is enabled for the event; a wrap past 2^48 − 1 sets OVF (R325). -/
def Ev.bump (e : Ev) (event n : Nat) : Ev × Bool :=
  if e.sel.getLsbD 31 && (e.sel.toNat % 2 ^ 16 = event) then
    let c := e.cnt.toNat + n
    if c < 2 ^ 48 then (⟨e.sel, BitVec.ofNat 48 c⟩, false)
    else (⟨e.sel ||| BitVec.ofNat 64 (2 ^ 29), BitVec.ofNat 48 c⟩, true)
  else (e, false)

/-- Count an event at a core for a function's counter `i` (R325–R327). -/
def State.countOne (s : State) (core fn event n i : Nat) : State :=
  match tfind (s.core core).ev (fn * 8 + i) with
  | none => s
  | some e =>
    let r := e.bump event n
    let s := s.modCore core fun c => { c with ev := tins c.ev (fn * 8 + i) r.1 }
    if r.2 && e.sel.getLsbD 30 then s.irq fn 1 else s

/-- Count an event at a core for the function of a context. -/
def State.countEv (s : State) (core ctx event n : Nat) : State :=
  (List.range 8).foldl (fun s i => s.countOne core (s.vfOf ctx) event n i) s

/-- A value that nothing constrains, and the machine with the source advanced. -/
def State.freeVal (s : State) : Nat × State := (Config.freeValue s.free, { s with free := s.free + 1 })

/-- Memory as it stands now. -/
def State.snap (s : State) : Snap := ⟨s.mem, s.lineKey⟩

/-- A fresh sequence number. -/
def State.newSeq (s : State) : Nat × State := (s.nextSeq, { s with nextSeq := s.nextSeq + 1 })

end Sys2Proof.Machine
end

