-- ==== Sys2Proof/Machine/Sha3.lean ====
section
/-!
DEFINITION. SHA3-256 (FIPS 202), which the manual names for digests and measurements (R213, R331), and the SHAKE functions that
ML-DSA draws on. A state is 25 lanes of 64 bits, lane (x, y) at index x + 5 · y.
-/

namespace Sys2Proof.Machine

def keccakRc : List Nat :=
  [0x1, 0x8082, 0x800000000000808A, 0x8000000080008000, 0x808B, 0x80000001, 0x8000000080008081, 0x8000000000008009,
   0x8A, 0x88, 0x80008009, 0x8000000A, 0x8000808B, 0x800000000000008B, 0x8000000000008089, 0x8000000000008003,
   0x8000000000008002, 0x8000000000000080, 0x800A, 0x800000008000000A, 0x8000000080008081, 0x8000000000008080,
   0x80000001, 0x8000000080008008]

def keccakRot : List Nat :=
  [0, 1, 62, 28, 27, 36, 44, 6, 55, 20, 3, 10, 43, 25, 39, 41, 45, 15, 21, 8, 18, 2, 61, 56, 14]

def laneRot (n w : Nat) : Nat := if n = 0 then w else (w <<< n) % 2 ^ 64 ||| (w >>> (64 - n))

/-- One round of Keccak-f[1600]. -/
def keccakRound (a : List Nat) (rc : Nat) : List Nat :=
  let c := (List.range 5).map fun x => (List.range 5).foldl (fun v y => v ^^^ a.getD (x + 5 * y) 0) 0
  let d := (List.range 5).map fun x => c.getD ((x + 4) % 5) 0 ^^^ laneRot 1 (c.getD ((x + 1) % 5) 0)
  let t := (List.range 25).map fun i => laneRot (keccakRot.getD i 0) (a.getD i 0 ^^^ d.getD (i % 5) 0)
  -- lane (x, y) of the permuted state comes from lane (x + 3 · y, x)
  let b := (List.range 25).map fun i => t.getD ((i % 5 + 3 * (i / 5)) % 5 + 5 * (i % 5)) 0
  (List.range 25).map fun i =>
    let x := i % 5
    let row := 5 * (i / 5)
    let v := b.getD i 0 ^^^ ((2 ^ 64 - 1 - b.getD (row + (x + 1) % 5) 0) &&& b.getD (row + (x + 2) % 5) 0)
    if i = 0 then v ^^^ rc else v

def keccakF (a : List Nat) : List Nat := keccakRc.foldl keccakRound a

/-- Absorb `n` blocks of `rate` bytes. -/
def keccakAbsorb (rate : Nat) : Nat → List Nat → List Byte → List Nat
  | 0, a, _ => a
  | n + 1, a, m =>
    let blk := ofBytes (m.take rate)
    keccakAbsorb rate n (keccakF ((List.range 25).map fun i => a.getD i 0 ^^^ bitsOf blk (64 * i) 64)) (m.drop rate)

/-- The state after a message with the domain's suffix and the padding. -/
def keccakOf (rate suffix : Nat) (m : List Byte) : List Nat :=
  let pad := rate - m.length % rate
  keccakAbsorb rate (m.length / rate + 1) (List.replicate 25 0) (m ++ bytesOf pad (suffix + 0x80 * 256 ^ (pad - 1)))

/-- SHA3-256 of a message; the digest's first byte is its lowest. -/
def sha3_256 (m : List Byte) : BitVec 256 :=
  let a := keccakOf 136 0x06 m
  BitVec.ofNat 256 (a.getD 0 0 + a.getD 1 0 * 2 ^ 64 + a.getD 2 0 * 2 ^ 128 + a.getD 3 0 * 2 ^ 192)

/-- `n` blocks of `rate` bytes squeezed from a state. -/
def keccakSqueeze (rate : Nat) : Nat → List Nat → List Byte
  | 0, _ => []
  | n + 1, a => (a.flatMap (bytesOf 8)).take rate ++ keccakSqueeze rate n (keccakF a)

/-- The first `n` blocks of SHAKE128 and of SHAKE256 of a message. -/
def shake128 (n : Nat) (m : List Byte) : List Byte := keccakSqueeze 168 n (keccakOf 168 0x1F m)
def shake256 (n : Nat) (m : List Byte) : List Byte := keccakSqueeze 136 n (keccakOf 136 0x1F m)

end Sys2Proof.Machine
end

