-- ==== Sys2Proof/Machine/Bar0.lean ====
section
/-!
DEFINITION. The registers of BAR 0 (R310, R316, R317, R332, R334, R336) as the host reaches them and as a team or an engine
reaches them through the device-register range (R411).
-/

namespace Sys2Proof.Machine

/-- Who accesses a register: the host, or a context of the given world through the device-register range. -/
inductive RegBy where
  | host (secure : Bool)
  | dev (secure : Bool)
  deriving DecidableEq, Repr

def RegBy.secure : RegBy → Bool
  | .host s => s
  | .dev s => s

def RegBy.isHost : RegBy → Bool
  | .host _ => true
  | .dev _ => false

/-- Extend a measurement register with a digest (R331). -/
def State.extendMeas (s : State) (i : Nat) (d : BitVec 256) : State :=
  let m := sha3_256 (bytesOf 32 (tget 0 s.meas i).toNat ++ bytesOf 32 d.toNat)
  { s with meas := tput 0 s.meas i m }

def State.tlbi (s : State) (fn : Nat) : Tlbi := tget .reset s.regs.tlbi fn

def State.modRegs (s : State) (f : Regs → Regs) : State := { s with regs := f s.regs }

def State.modTlbi (s : State) (fn : Nat) (f : Tlbi → Tlbi) : State :=
  s.modRegs fun r => { r with tlbi := tins r.tlbi fn (f (s.tlbi fn)) }

/-- A write to TLBI_CTL: bit 0 starts a request; one for a context of another function completes at once (R316). -/
def State.startTlbi (s : State) (fn : Nat) (v : Word) : State :=
  let t := s.tlbi fn
  if t.busy then s
  else
    let s := s.modTlbi fn fun t => { t with ctl := v }
    if !v.getLsbD 0 then s
    else if s.vfOf (t.ctx.toNat % 64) ≠ fn then s.irq fn 3
    else s.modTlbi fn fun t => { t with busy := true }

/-- A write to one of the other TLBI registers, discarded while a request is in progress (R316). -/
def State.writeTlbi (s : State) (fn : Nat) (f : Tlbi → Tlbi) : State :=
  if (s.tlbi fn).busy then s else s.modTlbi fn f

/-- A field clamped to the range stated for it (R317). -/
def clampField (len lo hi : Nat) (v : Word) : Word := BitVec.ofNat 64 (min hi (max lo (v.toNat % 2 ^ len)))

/-- Extend a measurement of the driver's (R332). -/
def State.mextGo (s : State) (v : Word) : State :=
  let i := s.regs.mextIdx.toNat
  if v = 1 && 8 ≤ i && i ≤ 15 then
    s.extendMeas i (BitVec.ofNat 256 ((List.range 4).foldl (fun a j => a + ((s.regs.mextDig.getD j 0).toNat <<< (64 * j))) 0))
  else s

/-- Lock a routine-signing digest and measure it, at every such write (R317). -/
def State.rkeyLock (s : State) (v : Word) : State :=
  let k := v.toNat - 0x100
  if 0x100 ≤ v.toNat && k < 4 then
    (s.modRegs fun r => { r with rkeyLocked := r.rkeyLocked ||| BitVec.ofNat 4 (2 ^ k) }).extendMeas 2 (s.regs.rkeyDig.getD k 0)
  else s

/-- A write to MBX_CMD starts a command, unless one is in progress (R336); reserved bits read as zero (R4). -/
def State.writeMbx (s : State) (v : Word) : State :=
  if s.regs.mbx.busy then s
  else s.modRegs fun r => { r with mbx := { r.mbx with cmd := BitVec.ofNat 64 (v.toNat % 2 ^ 24), busy := true, done := false, pend := none } }

/-- The half of a 128-bit item that a 64-bit register holds. -/
def withHalf (old : BitVec 128) (hi : Bool) (v : Word) : BitVec 128 :=
  BitVec.ofNat 128 (withBits old.toNat (if hi then 64 else 0) 64 v.toNat)

def halfOf (x : BitVec 128) (hi : Bool) : Word := BitVec.ofNat 64 (bitsOf x.toNat (if hi then 64 else 0) 64)

/-- A write to half of an MSI-X entry; unmasking an entry whose message is pending sends it (R313, log 6). -/
def State.writeMsix (s : State) (fn o : Nat) (v : Word) : State :=
  let k := fn * 256 + o / 16
  let e := withHalf (tget msixReset s.regs.msix k) (o % 16 = 8) v
  let s := s.modRegs fun r => { r with msix := tins r.msix k e }
  if !e.getLsbD 96 && tget false s.regs.msixPending k then
    { s.modRegs fun r => { r with msixPending := tdel r.msixPending k } with irqs := (fn, o / 16) :: s.irqs }
  else s

def State.readMsix (s : State) (fn o : Nat) : Word :=
  halfOf (tget msixReset s.regs.msix (fn * 256 + o / 16)) (o % 16 = 8)

/-- Word `n` of the pending-bit array: entries 64n to 64n + 63 (R310, R317). -/
def State.readPba (s : State) (fn n : Nat) : Word :=
  BitVec.ofNat 64 ((List.range 64).foldl (fun a i =>
    let e := 64 * n + i
    if e < 136 && tget false s.regs.msixPending (fn * 256 + e) then a + 2 ^ i else a) 0)

/-- A secure-world write to a region register: MEAS_4 is extended; the manual gives no digest (R332, log 24). Reserved bits
[35:3] read as zero (R4). -/
def State.writeRegion (s : State) (o : Nat) (v : Word) : State :=
  let f := s.freeVal
  let v := if o % 16 = 8 then v else BitVec.ofNat 64 (withBits v.toNat 3 33 0)
  let s := f.2.modRegs fun r => { r with regions := tins r.regions (o / 16) (withHalf (tget 0 r.regions (o / 16)) (o % 16 = 8) v) }
  s.extendMeas 4 (BitVec.ofNat 256 f.1)

/-- A write to the BAR 0 of function 0 (R317, R411). -/
def State.writeBar0 (s : State) (by_ : RegBy) (fn off : Nat) (v : Word) : State :=
  if off % 8 ≠ 0 then s
  else match off with
  | 0x08 => s.modRegs fun r => { r with ctxtBase := v }
  | 0x10 => s.modRegs fun r => { r with vfslice := clampField 20 100 100000 v }
  | 0x18 => s.modRegs fun r => { r with podId := BitVec.ofNat 64 (v.toNat % 512) }
  | 0x20 => s.modRegs fun r => { r with fabTdl := clampField 10 1 1000 v }
  | 0x28 => s.modRegs fun r => { r with fabTe2e := clampField 14 10 10000 v }
  | 0x40 => s.writeTlbi 0 fun t => { t with ctx := v }
  | 0x48 => s.writeTlbi 0 fun t => { t with base := v }
  | 0x50 => s.writeTlbi 0 fun t => { t with limit := v }
  | 0x58 => s.startTlbi 0 v
  | 0x100 => s.writeMbx v
  | 0x200 => s.modRegs fun r => { r with mextIdx := v }
  | 0x228 => s.mextGo v
  | 0x380 => s.rkeyLock v
  | _ =>
    if 0x108 ≤ off && off < 0x128 then
      s.modRegs fun r => { r with mbx := { r.mbx with args := r.mbx.args.set ((off - 0x108) / 8) v } }
    else if 0x208 ≤ off && off < 0x228 then
      s.modRegs fun r => { r with mextDig := r.mextDig.set ((off - 0x208) / 8) v }
    else if 0x300 ≤ off && off < 0x380 then
      let k := (off - 0x300) / 32
      let d := BitVec.ofNat 256 (withBits (s.regs.rkeyDig.getD k 0).toNat (8 * (off % 32)) 64 v.toNat)
      if s.regs.rkeyLocked.getLsbD k then s else s.modRegs fun r => { r with rkeyDig := r.rkeyDig.set k d }
    else if 0x1000 ≤ off && off < 0x1400 then
      if by_.secure then s.writeRegion (off - 0x1000) v else s
    else if 0x8000 ≤ off && off < 0xA000 then
      let k := (off - 0x8000) / 16
      let c := tget ⟨0, 0, 0⟩ s.regs.l2c k
      let c' := if off % 16 = 0 then { c with sel := evselWrite c.sel v, fn := fn } else { c with cnt := v.truncate 48 }
      s.modRegs fun r => { r with l2c := tins r.l2c k c' }
    else if 0xC000 ≤ off && off < 0xC880 then
      if by_.isHost then s.writeMsix 0 (off - 0xC000) v else s
    else s

/-- A read from the BAR 0 of function 0 (R317, R411). -/
def State.readBar0 (s : State) (by_ : RegBy) (off : Nat) : Word :=
  let r := s.regs
  let t := s.tlbi 0
  if off % 8 ≠ 0 then 0
  else match off with
  | 0x00 => 0x32001F4C
  | 0x08 => r.ctxtBase
  | 0x10 => r.vfslice
  | 0x18 => r.podId
  | 0x20 => r.fabTdl
  | 0x28 => r.fabTe2e
  | 0x40 => t.ctx
  | 0x48 => t.base
  | 0x50 => t.limit
  | 0x58 => t.ctl
  | 0x60 => if t.busy then 1 else 0
  | 0x100 => r.mbx.cmd
  | 0x128 => BitVec.ofNat 64 ((if r.mbx.busy then 1 else 0) + (if r.mbx.done then 2 else 0) + r.mbx.res.toNat * 2 ^ 8
      + r.mbx.seq.toNat * 2 ^ 16)
  | _ =>
    if 0x108 ≤ off && off < 0x128 then r.mbx.args.getD ((off - 0x108) / 8) 0
    else if 0x300 ≤ off && off < 0x380 then
      BitVec.ofNat 64 (bitsOf (r.rkeyDig.getD ((off - 0x300) / 32) 0).toNat (8 * (off % 32)) 64)
    else if 0x1000 ≤ off && off < 0x1400 then
      if !by_.isHost && by_.secure then halfOf (tget 0 r.regions ((off - 0x1000) / 16)) (off % 16 = 8) else 0
    else if 0x4000 ≤ off && off < 0x8000 then
      if s.ctxs.any fun c => c.2.en && c.2.vf = 0 && c.2.fgrant then (tget 0 r.fpc ((off - 0x4000) / 8)).zeroExtend 64 else 0
    else if 0x8000 ≤ off && off < 0xA000 then
      let c := tget ⟨0, 0, 0⟩ r.l2c ((off - 0x8000) / 16)
      if off % 16 = 0 then c.sel else c.cnt.zeroExtend 64
    else if 0xC000 ≤ off && off < 0xC880 then if by_.isHost then s.readMsix 0 (off - 0xC000) else 0
    else if 0xD000 ≤ off && off < 0xD018 then if by_.isHost then s.readPba 0 ((off - 0xD000) / 8) else 0
    else 0

/-- A write to the BAR 0 of virtual function `fn` (R310). -/
def State.writeVfBar0 (s : State) (fn off : Nat) (v : Word) : State :=
  if off % 8 ≠ 0 then s
  else match off with
  | 0x00 => s.writeTlbi fn fun t => { t with ctx := v }
  | 0x08 => s.writeTlbi fn fun t => { t with base := v }
  | 0x10 => s.writeTlbi fn fun t => { t with limit := v }
  | 0x18 => s.startTlbi fn v
  | _ => if 0x400 ≤ off && off < 0xC80 then s.writeMsix fn (off - 0x400) v else s

/-- A read from the BAR 0 of virtual function `fn` (R310). -/
def State.readVfBar0 (s : State) (fn off : Nat) : Word :=
  let t := s.tlbi fn
  if off % 8 ≠ 0 then 0
  else match off with
  | 0x00 => t.ctx
  | 0x08 => t.base
  | 0x10 => t.limit
  | 0x18 => t.ctl
  | 0x20 => if t.busy then 1 else 0
  | _ =>
    if 0x400 ≤ off && off < 0xC80 then s.readMsix fn (off - 0x400)
    else if 0xE00 ≤ off && off < 0xE18 then s.readPba fn ((off - 0xE00) / 8)
    else 0

/-! ## Accesses of teams and engines (R411) -/

/-- The offset of a device-register address. -/
def devOff (pa : Nat) : Nat := pa - 2 ^ 41

/-- An aligned 8-byte read below 0x1_0000 reaches a register; any other read returns zero. -/
def State.devRegRead (s : State) (secure : Bool) (pa lo len : Nat) : Word :=
  if len = 64 && lo = 0 && devOff pa < 0x10000 then s.readBar0 (.dev secure) (devOff pa / 8 * 8) else 0

/-- An aligned 8-byte write below 0x1_0000 reaches a register; any other write has no effect. -/
def State.devRegWrite (s : State) (secure : Bool) (fn pa lo len : Nat) (v : Word) : State :=
  if len = 64 && lo = 0 && devOff pa < 0x10000 then s.writeBar0 (.dev secure) fn (devOff pa / 8 * 8) v else s

end Sys2Proof.Machine
end

