-- ==== Sys2Proof/WellFormed.lean ====
section
/-!
DEFINITION. Which instruction terms stand for an encoding the manual assigns: the XP parts of R137 and R141, the SEM,
SCO and WID values each instruction allows (R194, R399, R403), and the field values that the family chapters reserve.
-/

namespace Sys2Proof

/-- The XP parts an instruction uses: K (KM, MZ), R (RO, SO, SV), C (VC) (R137). -/
structure XpParts where
  k : Bool
  r : Bool
  c : Bool
  deriving DecidableEq, Repr

/-- An XP prefix uses only the parts given, with MZ 0 when KM is 000 and SV 0 when SO is 0 (R135, R137). -/
def Xp.okFor (p : XpParts) (x : Xp) : Bool :=
  (p.k || (x.km == 0 && !x.mz)) && (p.r || (x.ro == 0 && !x.so && !x.sv)) && (p.c || x.vc == 0)
    && (x.km != 0 || !x.mz) && (x.so || !x.sv)

/-- No prefix, or one that uses only the parts given. -/
def xpOk (p : XpParts) (x : Option Xp) : Bool :=
  match x with
  | none => true
  | some x => x.okFor p

abbrev partsK : XpParts := ⟨true, false, false⟩
abbrev partsR : XpParts := ⟨false, true, false⟩
abbrev partsKR : XpParts := ⟨true, true, false⟩
abbrev partsKRC : XpParts := ⟨true, true, true⟩

/-- The SEM and SCO of a plain load or store: a scope is named only with an ordering (R194, R399). -/
def MemOps.semOk (o : MemOps) (allowed : Sem) : Bool :=
  o.cache != 3 && (o.sem == .relaxed && o.sco == .team || o.sem == allowed)

def XMemOps.semOk (o : XMemOps) (allowed : Sem) : Bool :=
  o.cache != 3 && (o.sem == .relaxed && o.sco == .team || o.sem == allowed)

/-- `ldg` and `stg`: size codes 000–011, SEM 00, SCO 000. -/
def AOps.plainOk (o : AOps) : Bool := o.wid.toNat ≤ 3 && o.sem == .relaxed && o.sco == .team

/-- Atomics: 4 or 8 bytes. -/
def AOps.atomicOk (o : AOps) : Bool := o.wid == 2 || o.wid == 3

/-- Reductions: 4 or 8 bytes, SEM 00. -/
def AOps.redOk (o : AOps) : Bool := (o.wid == 2 || o.wid == 3) && o.sem == .relaxed

/-- Barriers name core, quad, device or pod scope; at core scope id and N − 1 are 0 (R158). -/
def barOk (sco : Scope) (id : BitVec 8) (n : BitVec 24) : Bool :=
  match sco with
  | .core => id == 0 && n == 0
  | .quad | .device | .pod => true
  | .team | .system => false

/-- The system registers of R171. -/
def srListed (sr : BitVec 12) : Bool := sr.toNat ≤ 6 || (0x10 ≤ sr.toNat && sr.toNat ≤ 0x1F)

/-- Those that `wrsr` may name: TMODE, CONTPC, EVSEL_n and EVCNT_n (R171). -/
def srWritable (sr : BitVec 12) : Bool := sr.toNat ≤ 1 || (0x10 ≤ sr.toNat && sr.toNat ≤ 0x1F)

def VCmp.ok (o : VCmp) : Bool := if o.pdst then o.vd.toNat < 8 else !o.all
def VCls.ok (o : VCls) : Bool := if o.pdst then o.vd.toNat < 8 else !o.all
def VShift.ok (o : VShift) : Bool := if o.immf then o.vb == 0 else o.amt == 0
def VElt.ok (o : VElt) : Bool := o.elt || (o.fs == 0 && o.idx.toNat < 1024)

/-- The well-formed terms. An operation or event is no encoding; its arguments are judged where it acts. -/
def Instr.wf : Instr → Bool
  | .brp _ c j _ => match c with
    | .t | .f => true
    | .any | .all | .none | .nall => !j
  | .bar sco id n | .barar _ sco id n => barOk sco id n
  | .barwt _ sco id => barOk sco id 0
  | .vadd xp _ | .vsub xp _ | .vmul xp _ | .vdiv xp _ | .vmin xp _ | .vmax xp _ => xpOk partsKR xp
  | .vabs xp _ | .vneg xp _ => xpOk partsKR xp
  | .vfma xp _ | .vfms xp _ | .vfnma xp _ | .vfnms xp _ => xpOk partsKRC xp
  | .vcmpeq xp o | .vcmpne xp o | .vcmplt xp o | .vcmple xp o | .vcmpun xp o => xpOk partsK xp && o.ok
  | .vsel xp _ => xpOk partsK xp
  | .vclass xp o => xpOk partsK xp && o.ok
  | .vdot xp _ => xpOk partsKR xp
  | .vdota xp _ => xpOk partsKRC xp
  | .vredsum xp _ | .vredmax xp _ | .vredmin xp _ => xpOk partsKR xp
  | .vrcp xp _ | .vsqrt xp _ | .vrsqrt xp _ | .vexp2 xp _ | .vlog2 xp _ | .vsinpi xp _ | .vcospi xp _
  | .vtanh xp _ => xpOk partsKR xp
  | .vand xp _ | .vor xp _ | .vxor xp _ | .vandn xp _ => xpOk partsK xp
  | .vshl xp o | .vshr xp o | .vsar xp o => xpOk partsK xp && o.ok
  | .vcvt xp _ => xpOk partsKR xp
  | .vrint xp _ => xpOk partsKR xp
  | .vtid xp _ _ _ | .vbcast xp _ _ _ | .vbcastl xp _ _ _ | .vmov xp _ _ => xpOk partsK xp
  | .vgetx o | .vsetx o => o.ok
  | .vshfl xp _ _ _ | .vrot xp _ | .vxchg xp _ _ _ | .vpat xp _ _ _ => xpOk partsK xp
  | .fscmp t _ => t != 0
  | .ld8 xp o | .ld16 xp o | .ld32 xp o | .ld64 xp o | .ld8s xp o | .ld16s xp o | .ld32s xp o =>
    xpOk partsK xp && o.semOk .acquire
  | .st8 xp o | .st16 xp o | .st32 xp o | .st64 xp o => xpOk partsK xp && o.semOk .release
  | .ldp xp o | .stp xp o => xpOk partsK xp && o.cache != 3
  | .ldx o => o.semOk .acquire
  | .stx o => o.semOk .release && !o.sx
  | .ldg xp o | .stg xp o => xpOk partsK xp && o.plainOk
  | .sld xp o | .sst xp o => xpOk partsK xp && o.pitch == 0
  | .sldt xp _ => xpOk partsK xp
  | .pf _ cache _ => cache.toNat ≤ 1
  | .icinv o | .dcinv o => o.sco == .core || o.sco == .quad || o.sco == .device
  | .aadd xp o | .aand xp o | .aor xp o | .axor xp o | .amin xp o | .amax xp o | .aminu xp o | .amaxu xp o
  | .aswp xp o | .acas xp o => xpOk partsK xp && o.atomicOk
  | .redAdd xp o | .redAnd xp o | .redOr xp o | .redXor xp o | .redMin xp o | .redMax xp o | .redMinu xp o
  | .redMaxu xp o => xpOk partsK xp && o.redOk
  | .osCas4 xp o => xpOk partsK xp && o.wid.toNat ≤ 3
  | .osEnq xp o => xpOk partsK xp && o.wid == 3
  | .osChase xp o => xpOk partsK xp && o.wid == 3 && (o.sem == .relaxed || o.sem == .acquire)
  | .osRun xp _ => xpOk partsK xp
  | .hgath xp o => xpOk partsK xp && o.sem == .relaxed && o.sco == .team
  | .fence sem _ => sem != .relaxed
  | .qpush nb pd _ _ | .qpop nb pd _ _ | .tcopy nb pd _ _ => nb || pd == 0
  | .qbind _ port _ => port.toNat ≤ 9
  | .own _ _ dst => dst != 3
  | .tld xp _ => xpOk partsR xp
  | .tst xp o => xpOk partsR xp && o.cache != 3
  | .cxProp xd async => !async || xd == 0
  | .cxLvl all xd xa vd => if all then xd == 0 && xa == 0 else vd == 0
  | .rdsr _ sr => srListed sr
  | .wrsr sr _ => srWritable sr
  | .nop | .exit | .waitc .. | .yield .. | .launch .. | .locq .. | .homeq .. | .br .. | .call .. | .jr .. | .ret ..
  | .regroup | .regroupHome | .pand .. | .por .. | .pxor .. | .pandn .. | .pnot .. | .pmov .. | .emget ..
  | .emset .. | .emand .. | .pget .. | .pset .. | .pany .. | .pall .. | .pcnt .. | .add .. | .sub .. | .mul ..
  | .mulh .. | .mulhu .. | .div .. | .divu .. | .rem .. | .remu .. | .and .. | .or .. | .xor .. | .andn ..
  | .shl .. | .shr .. | .sar .. | .rol .. | .ror .. | .addi .. | .andi .. | .ori .. | .xori .. | .shli ..
  | .shri .. | .sari .. | .seq .. | .sne .. | .slt .. | .sltu .. | .sle .. | .sleu .. | .min .. | .max ..
  | .minu .. | .maxu .. | .clz .. | .ctz .. | .popc .. | .bswap .. | .li .. | .lhi .. | .addpc .. | .fsset ..
  | .fsget .. | .vpatld .. | .bind .. | .unbind .. | .tmma .. | .tzero .. | .talloc .. | .tfree ..
  | .ujobCommit .. | .ujobDrop .. | .cxClaim .. | .cxFree | .cxClr .. | .cxLdc .. | .cxDis .. | .cxAsg ..
  | .cxBt .. | .cxTrl .. | .cxCfl .. | .cxSt .. | .trap .. | .rett | .brk .. => true
  | .pageWalk .. | .translationFaultSwap .. | .swapRestore .. | .replayRetry .. | .operationComplete ..
  | .l2HomeAccess .. | .secondTierHomeAccess .. | .wcEntryDrain .. | .deferredReport .. | .launchQueuePoll ..
  | .admitLaunch .. | .bindBlock .. | .stealRequest .. | .stealAnswer .. | .issueSlotChoice .. | .parkBlock ..
  | .unparkBlock .. | .evictTeams .. | .evictedTeamReturn .. | .regroupSetFormed .. | .barrierPhaseComplete ..
  | .yieldResume .. | .teamEnd .. | .launchCompletion .. | .tallocGrant .. | .cxClaimGrant .. | .cxPropRetire ..
  | .cxPropResultPlace .. | .copyCommandStart .. | .copyCommandEnd .. | .stripAppend .. | .nvmeDoorbellWrite ..
  | .matrixPassStart .. | .matrixPassComplete .. | .offloadCommand .. | .ujobTake .. | .ujobRecordComplete ..
  | .ujobCommitPublish .. | .ujobDropApply .. | .ostcCommand .. | .ostlerOperation .. | .trapRecordWrite ..
  | .trapQueuePoll .. | .handlerTimeout .. | .longStall .. | .vfSliceSwitch | .contextEnable ..
  | .contextDisable .. | .tlbiCtl .. | .tlbInvalidationComplete .. | .registerWrite .. | .mextGo .. | .rkeyLock ..
  | .halt .. | .resume .. | .step .. | .readFrame .. | .writeFrame .. | .setBp .. | .clrBp .. | .admitCmd ..
  | .list .. | .mbxCommandFinish | .inboundBar2Access .. | .inboundCxlMemAccess .. | .getVersion
  | .getCapabilities | .negotiateAlgorithms .. | .getDigests | .getCertificate .. | .challenge ..
  | .getMeasurements .. | .keyExchange .. | .finish .. | .endSession | .keyLoad .. | .deviceReset .. | .linkUp ..
  | .incarnationAnnounce .. | .linkDown .. | .fabricPacketReceive .. | .relayForward .. | .fabricAckReceive ..
  | .fabricResend .. | .packetDiscard .. | .packetSuspect .. | .halterVisit .. | .halterTimeout
  | .counterOverflow .. | .uncorrectableError .. => true

/-- The rows of the table that are no instruction of the opcode map: operations and events. -/
def Instr.isEvent : Instr → Bool
  | .pageWalk .. | .translationFaultSwap .. | .swapRestore .. | .replayRetry .. | .operationComplete ..
  | .l2HomeAccess .. | .secondTierHomeAccess .. | .wcEntryDrain .. | .deferredReport .. | .launchQueuePoll ..
  | .admitLaunch .. | .bindBlock .. | .stealRequest .. | .stealAnswer .. | .issueSlotChoice .. | .parkBlock ..
  | .unparkBlock .. | .evictTeams .. | .evictedTeamReturn .. | .regroupSetFormed .. | .barrierPhaseComplete ..
  | .yieldResume .. | .teamEnd .. | .launchCompletion .. | .tallocGrant .. | .cxClaimGrant .. | .cxPropRetire ..
  | .cxPropResultPlace .. | .copyCommandStart .. | .copyCommandEnd .. | .stripAppend .. | .nvmeDoorbellWrite ..
  | .matrixPassStart .. | .matrixPassComplete .. | .offloadCommand .. | .ujobTake .. | .ujobRecordComplete ..
  | .ujobCommitPublish .. | .ujobDropApply .. | .ostcCommand .. | .ostlerOperation .. | .trapRecordWrite ..
  | .trapQueuePoll .. | .handlerTimeout .. | .longStall .. | .vfSliceSwitch | .contextEnable ..
  | .contextDisable .. | .tlbiCtl .. | .tlbInvalidationComplete .. | .registerWrite .. | .mextGo .. | .rkeyLock ..
  | .halt .. | .resume .. | .step .. | .readFrame .. | .writeFrame .. | .setBp .. | .clrBp .. | .admitCmd ..
  | .list .. | .mbxCommandFinish | .inboundBar2Access .. | .inboundCxlMemAccess .. | .getVersion
  | .getCapabilities | .negotiateAlgorithms .. | .getDigests | .getCertificate .. | .challenge ..
  | .getMeasurements .. | .keyExchange .. | .finish .. | .endSession | .keyLoad .. | .deviceReset .. | .linkUp ..
  | .incarnationAnnounce .. | .linkDown .. | .fabricPacketReceive .. | .relayForward .. | .fabricAckReceive ..
  | .fabricResend .. | .packetDiscard .. | .packetSuspect .. | .halterVisit .. | .halterTimeout
  | .counterOverflow .. | .uncorrectableError .. => true
  | _ => false

end Sys2Proof
end

