-- ==== Sys2Proof/Decode.lean ====
section
/-!
DEFINITION. Reading instructions from words (R127–R141), rejecting by name, and AFTER it the encoder, from the same
encoding tables of chapters 06 to 11. A base instruction is a number below 2^64 whose bits [31:0] are the word at the
lower address; a field is named by its lowest bit and its width.
-/

namespace Sys2Proof

/-- Why a sequence of words is no instruction. Every reason raises the illegal-instruction trap (R128–R130). -/
inductive DecodeErr where
  /-- a prefix of reserved kind (R128) -/
  | reservedPrefix
  /-- a word sequence other than base; XP, base; PB, base; PB, XP, base (R129) -/
  | badSequence
  /-- a reserved field of a prefix is nonzero (R135, R138, R394) -/
  | prefixField
  /-- the OP/FN cell is not assigned, or a field holds a value the manual reserves (R130, R393) -/
  | unassigned
  /-- the instruction takes no XP prefix (R137, R141) -/
  | prefixNotAllowed
  /-- the field values are not allowed together (R130) -/
  | illFormed
  /-- fewer words than the instruction has -/
  | truncated
  deriving DecidableEq, Repr

/-- A decoded instruction: its PB prefix, its meaning with the XP prefix folded in, its length in bytes and its base
words. -/
structure Decoded where
  pb : Option Pb
  instr : Instr
  len : Nat
  base : BitVec 64
  deriving DecidableEq, Repr

/-! ## Fields -/

/-- Bits [lo + n − 1 : lo] of `w`. -/
def fld (w lo n : Nat) : BitVec n := BitVec.ofNat n (w / 2 ^ lo)

/-- Bit `i` of `w`. -/
def bit (w i : Nat) : Bool := w / 2 ^ i % 2 == 1

/-- Bits [lo + n − 1 : lo] of `w` are zero. -/
def z (w lo n : Nat) : Bool := w / 2 ^ lo % 2 ^ n == 0

/-- A Bool as a bit. -/
def b2n (b : Bool) : Nat := if b then 1 else 0

def Scope.code : Scope → Nat
  | .team => 0
  | .core => 1
  | .quad => 2
  | .device => 3
  | .pod => 4
  | .system => 5

/-- The SCO codes of R30; 110 and 111 are reserved. -/
def scopeOf (n : Nat) : Option Scope :=
  match n with
  | 0 => some .team
  | 1 => some .core
  | 2 => some .quad
  | 3 => some .device
  | 4 => some .pod
  | 5 => some .system
  | _ => none

def Sem.code : Sem → Nat
  | .relaxed => 0
  | .acquire => 1
  | .release => 2
  | .acqRel => 3

/-- The SEM codes of R111. -/
def semOf (n : Nat) : Sem :=
  match n with
  | 0 => .relaxed
  | 1 => .acquire
  | 2 => .release
  | _ => .acqRel

def Cond.code : Cond → Nat
  | .t => 0
  | .f => 1
  | .any => 2
  | .all => 3
  | .none => 4
  | .nall => 5

/-- The COND codes of R149; 0110–1111 are reserved. -/
def condOf (n : Nat) : Option Cond :=
  match n with
  | 0 => some .t
  | 1 => some .f
  | 2 => some .any
  | 3 => some .all
  | 4 => some .none
  | 5 => some .nall
  | _ => none

def scoAt (w lo : Nat) : Option Scope := scopeOf (w / 2 ^ lo % 8)
def semAt (w lo : Nat) : Sem := semOf (w / 2 ^ lo % 4)

/-- The instruction when its unused fields are zero. -/
def onlyIf (c : Bool) (i : Instr) : Option Instr := if c then some i else none

/-! ## Shapes: the fields of one format as a family uses them -/

/-- Format S with three x registers, IMM 0 (R165). -/
def rdS3 (w : Nat) (k : BitVec 5 → BitVec 5 → BitVec 5 → Instr) : Option Instr :=
  onlyIf (z w 29 35) (k (fld w 14 5) (fld w 19 5) (fld w 24 5))

/-- Format S, unary: XB and IMM 0 (R165). -/
def rdS2 (w : Nat) (k : BitVec 5 → BitVec 5 → Instr) : Option Instr :=
  onlyIf (z w 24 40) (k (fld w 14 5) (fld w 19 5))

/-- Format S with a 35-bit immediate, XB 0 (R167). -/
def rdSImm (w : Nat) (k : BitVec 5 → BitVec 5 → BitVec 35 → Instr) : Option Instr :=
  onlyIf (z w 24 5) (k (fld w 14 5) (fld w 19 5) (fld w 29 35))

/-- Format S with a shift amount in IMM[5:0] (R167). -/
def rdSSh (w : Nat) (k : BitVec 5 → BitVec 5 → BitVec 6 → Instr) : Option Instr :=
  onlyIf (z w 24 5 && z w 35 29) (k (fld w 14 5) (fld w 19 5) (fld w 29 6))

/-- Format S, constants: XA and XB 0 (R169). -/
def rdSConst (w : Nat) (k : BitVec 5 → BitVec 35 → Instr) : Option Instr :=
  onlyIf (z w 19 10) (k (fld w 14 5) (fld w 29 35))

/-- Three predicates in the low bits of their fields (R162). -/
def rdP3 (w : Nat) (k : BitVec 3 → BitVec 3 → BitVec 3 → Instr) : Option Instr :=
  onlyIf (z w 17 2 && z w 22 2 && z w 27 37) (k (fld w 14 3) (fld w 19 3) (fld w 24 3))

/-- Two predicates, XB 0 (R162). -/
def rdP2 (w : Nat) (k : BitVec 3 → BitVec 3 → Instr) : Option Instr :=
  onlyIf (z w 17 2 && z w 22 42) (k (fld w 14 3) (fld w 19 3))

/-- x[XD] from a predicate (R163). -/
def rdXP (w : Nat) (k : BitVec 5 → BitVec 3 → Instr) : Option Instr :=
  onlyIf (z w 22 42) (k (fld w 14 5) (fld w 19 3))

def rdVBin (w : Nat) (k : VBin → Instr) : Option Instr :=
  onlyIf (z w 43 21) (k ⟨fld w 39 4, fld w 35 4, fld w 28 7, fld w 21 7, fld w 14 7⟩)

def rdVUn (w : Nat) (k : VUn → Instr) : Option Instr :=
  onlyIf (z w 43 21 && z w 28 7) (k ⟨fld w 39 4, fld w 35 4, fld w 21 7, fld w 14 7⟩)

/-- FSA equals FS where an instruction uses one slot (R175). -/
def oneSlot (w : Nat) : Bool := w / 2 ^ 39 % 16 == w / 2 ^ 35 % 16

def rdVCmp (w : Nat) (k : VCmp → Instr) : Option Instr :=
  onlyIf (oneSlot w && z w 45 19) (k ⟨bit w 43, bit w 44, fld w 35 4, fld w 28 7, fld w 21 7, fld w 14 7⟩)

def rdVLogic (w : Nat) (k : VLogic → Instr) : Option Instr :=
  onlyIf (oneSlot w && z w 43 21) (k ⟨fld w 35 4, fld w 28 7, fld w 21 7, fld w 14 7⟩)

def rdVShift (w : Nat) (k : VShift → Instr) : Option Instr :=
  onlyIf (oneSlot w && z w 44 7 && z w 58 6)
    (k ⟨fld w 51 7, bit w 43, fld w 35 4, fld w 28 7, fld w 21 7, fld w 14 7⟩)

def rdVDot (w : Nat) (k : VDotOps → Instr) : Option Instr :=
  onlyIf (z w 47 4 && z w 61 3)
    (k ⟨fld w 51 10, fld w 43 4, fld w 39 4, fld w 35 4, fld w 28 7, fld w 21 7, fld w 14 7⟩)

def rdMem (w : Nat) (k : MemOps → Instr) : Option Instr :=
  match scoAt w 29 with
  | none => none
  | some sco => onlyIf (z w 26 3 && z w 34 4)
      (k ⟨fld w 40 24, fld w 38 2, semAt w 32, sco, fld w 21 5, fld w 14 7⟩)

def rdPack (w : Nat) (k : PackOps → Instr) : Option Instr :=
  onlyIf (z w 26 8) (k ⟨fld w 40 24, fld w 38 2, fld w 34 4, fld w 21 5, fld w 14 7⟩)

def rdXMem (w : Nat) (k : XMemOps → Instr) : Option Instr :=
  match scoAt w 29 with
  | none => none
  | some sco => onlyIf (z w 19 2 && z w 26 3 && z w 37 1)
      (k ⟨fld w 40 24, fld w 38 2, bit w 36, fld w 34 2, semAt w 32, sco, fld w 21 5, fld w 14 5⟩)

def rdScr (w : Nat) (k : ScrOps → Instr) : Option Instr :=
  onlyIf (z w 29 5 && z w 38 2) (k ⟨fld w 40 24, fld w 34 4, fld w 26 3, fld w 21 5, fld w 14 7⟩)

def rdInv (w : Nat) (k : InvOps → Instr) : Option Instr :=
  match scoAt w 29 with
  | none => none
  | some sco => onlyIf (z w 19 2 && z w 26 3 && z w 32 8) (k ⟨fld w 40 24, sco, fld w 21 5, fld w 14 5⟩)

def rdA (w : Nat) (k : AOps → Instr) : Option Instr :=
  match scoAt w 33 with
  | none => none
  | some sco => some (k ⟨fld w 41 23, fld w 38 3, semAt w 36, sco, fld w 28 5, fld w 21 7, fld w 14 7⟩)

def rdQ (w : Nat) (k : Bool → BitVec 3 → BitVec 5 → BitVec 7 → Instr) : Option Instr :=
  onlyIf (z w 30 34) (k (bit w 26) (fld w 27 3) (fld w 14 5) (fld w 19 7))

/-- Format T with TD alone (R236). -/
def rdTD (w : Nat) (k : BitVec 4 → Instr) : Option Instr := onlyIf (z w 18 46) (k (fld w 14 4))

/-! ## The opcode map (R141) -/

def dec00 (fn w : Nat) : Option Instr :=
  match fn with
  | 0x00 => onlyIf (z w 14 50) .nop
  | 0x01 => onlyIf (z w 14 50) .exit
  | 0x02 => onlyIf (z w 14 17 && z w 55 9) (.waitc (fld w 31 6) (fld w 37 6) (fld w 43 6) (fld w 49 6))
  | 0x03 => onlyIf (z w 22 9) (.yield (fld w 14 2) (fld w 16 6) (fld w 31 33))
  | 0x04 => onlyIf (z w 14 12 && z w 38 26) (.launch (fld w 26 5) (fld w 31 7))
  | 0x05 => onlyIf (z w 14 12 && z w 31 33) (.locq (fld w 26 5))
  | 0x06 => onlyIf (z w 19 7 && z w 31 33) (.homeq (fld w 26 5) (fld w 14 5))
  | _ => none

def dec01 (fn w : Nat) : Option Instr :=
  match fn with
  | 0x00 => onlyIf (z w 14 8) (.br (fld w 22 42))
  | 0x01 => (condOf (w / 2 ^ 14 % 16)).map (fun c => .brp (fld w 18 3) c (bit w 21) (fld w 22 42))
  | 0x02 => onlyIf (z w 14 8) (.call (fld w 22 42))
  | _ => none

def dec02 (fn w : Nat) : Option Instr :=
  match fn with
  | 0x00 => onlyIf (z w 14 5 && z w 24 5) (.jr (fld w 19 5) (fld w 29 35))
  | 0x01 => onlyIf (z w 14 5 && z w 24 40) (.ret (fld w 19 5))
  | _ => none

def dec03 (fn w : Nat) : Option Instr :=
  match scoAt w 14 with
  | none => none
  | some sco =>
    match fn with
    | 0x00 => onlyIf (z w 17 14 && z w 63 1) (.bar sco (fld w 31 8) (fld w 39 24))
    | 0x01 => onlyIf (z w 17 9 && z w 63 1) (.barar (fld w 26 5) sco (fld w 31 8) (fld w 39 24))
    | 0x02 => onlyIf (z w 17 9 && z w 39 25) (.barwt (fld w 26 5) sco (fld w 31 8))
    | _ => none

def dec04 (fn w : Nat) : Option Instr :=
  match fn with
  | 0x00 => onlyIf (w / 2 ^ 14 % 8 == 1 && z w 18 46) (if bit w 17 then .regroupHome else .regroup)
  | _ => none

def dec10 (fn w : Nat) : Option Instr :=
  match fn with
  | 0x00 => rdP3 w .pand
  | 0x01 => rdP3 w .por
  | 0x02 => rdP3 w .pxor
  | 0x03 => rdP3 w .pandn
  | 0x04 => rdP2 w .pnot
  | 0x05 => rdP2 w .pmov
  | _ => none

def dec11 (fn w : Nat) : Option Instr :=
  match fn with
  | 0x00 => onlyIf (z w 19 45) (.emget (fld w 14 5))
  | 0x01 => onlyIf (z w 14 5 && z w 24 40) (.emset (fld w 19 5))
  | 0x02 => onlyIf (z w 14 5 && z w 22 42) (.emand (fld w 19 3))
  | 0x03 => rdXP w .pget
  | 0x04 => onlyIf (z w 17 2 && z w 24 5 && z w 30 34) (.pset (fld w 14 3) (fld w 19 5) (bit w 29))
  | 0x05 => rdXP w .pany
  | 0x06 => rdXP w .pall
  | 0x07 => rdXP w .pcnt
  | _ => none

def dec20 (fn w : Nat) : Option Instr :=
  match fn with
  | 0x00 => rdS3 w .add
  | 0x01 => rdS3 w .sub
  | 0x02 => rdS3 w .mul
  | 0x03 => rdS3 w .mulh
  | 0x04 => rdS3 w .mulhu
  | 0x05 => rdS3 w .div
  | 0x06 => rdS3 w .divu
  | 0x07 => rdS3 w .rem
  | 0x08 => rdS3 w .remu
  | _ => none

def dec21 (fn w : Nat) : Option Instr :=
  match fn with
  | 0x00 => rdS3 w .and
  | 0x01 => rdS3 w .or
  | 0x02 => rdS3 w .xor
  | 0x03 => rdS3 w .andn
  | 0x04 => rdS3 w .shl
  | 0x05 => rdS3 w .shr
  | 0x06 => rdS3 w .sar
  | 0x07 => rdS3 w .rol
  | 0x08 => rdS3 w .ror
  | _ => none

def dec22 (fn w : Nat) : Option Instr :=
  match fn with
  | 0x00 => rdSImm w .addi
  | 0x01 => rdSImm w .andi
  | 0x02 => rdSImm w .ori
  | 0x03 => rdSImm w .xori
  | 0x04 => rdSSh w .shli
  | 0x05 => rdSSh w .shri
  | 0x06 => rdSSh w .sari
  | _ => none

def dec23 (fn w : Nat) : Option Instr :=
  match fn with
  | 0x00 => rdS3 w .seq
  | 0x01 => rdS3 w .sne
  | 0x02 => rdS3 w .slt
  | 0x03 => rdS3 w .sltu
  | 0x04 => rdS3 w .sle
  | 0x05 => rdS3 w .sleu
  | _ => none

def dec24 (fn w : Nat) : Option Instr :=
  match fn with
  | 0x00 => rdS3 w .min
  | 0x01 => rdS3 w .max
  | 0x02 => rdS3 w .minu
  | 0x03 => rdS3 w .maxu
  | 0x04 => rdS2 w .clz
  | 0x05 => rdS2 w .ctz
  | 0x06 => rdS2 w .popc
  | 0x07 => rdS2 w .bswap
  | _ => none

def dec25 (fn w : Nat) : Option Instr :=
  match fn with
  | 0x00 => rdSConst w .li
  | 0x01 => rdSConst w .lhi
  | 0x02 => rdSConst w .addpc
  | _ => none

def dec2E (fn w : Nat) : Option Instr :=
  match fn with
  | 0x00 => onlyIf (z w 18 1 && z w 24 40) (.fsset (fld w 14 4) (fld w 19 5))
  | 0x01 => onlyIf (z w 23 41) (.fsget (fld w 14 5) (fld w 19 4))
  | _ => none

def dec40 (xp : Option Xp) (fn w : Nat) : Option Instr :=
  match fn with
  | 0x00 => rdVBin w (.vadd xp)
  | 0x01 => rdVBin w (.vsub xp)
  | 0x02 => rdVBin w (.vmul xp)
  | 0x03 => rdVBin w (.vdiv xp)
  | 0x04 => rdVBin w (.vmin xp)
  | 0x05 => rdVBin w (.vmax xp)
  | 0x06 => rdVUn w (.vabs xp)
  | 0x07 => rdVUn w (.vneg xp)
  | _ => none

def dec41 (xp : Option Xp) (fn w : Nat) : Option Instr :=
  match fn with
  | 0x00 => rdVBin w (.vfma xp)
  | 0x01 => rdVBin w (.vfms xp)
  | 0x02 => rdVBin w (.vfnma xp)
  | 0x03 => rdVBin w (.vfnms xp)
  | _ => none

def dec42 (xp : Option Xp) (fn w : Nat) : Option Instr :=
  match fn with
  | 0x00 => rdVCmp w (.vcmpeq xp)
  | 0x01 => rdVCmp w (.vcmpne xp)
  | 0x02 => rdVCmp w (.vcmplt xp)
  | 0x03 => rdVCmp w (.vcmple xp)
  | 0x04 => rdVCmp w (.vcmpun xp)
  | _ => none

def dec43 (xp : Option Xp) (fn w : Nat) : Option Instr :=
  match fn with
  | 0x00 => onlyIf (oneSlot w && z w 43 8 && z w 58 6)
      (.vsel xp ⟨fld w 51 7, fld w 35 4, fld w 28 7, fld w 21 7, fld w 14 7⟩)
  | 0x01 => onlyIf (oneSlot w && z w 28 7 && z w 45 6 && z w 60 4)
      (.vclass xp ⟨fld w 51 9, bit w 43, bit w 44, fld w 35 4, fld w 21 7, fld w 14 7⟩)
  | _ => none

def dec44 (xp : Option Xp) (fn w : Nat) : Option Instr :=
  match fn with
  | 0x00 => rdVDot w (.vdot xp)
  | 0x01 => rdVDot w (.vdota xp)
  | _ => none

def dec45 (xp : Option Xp) (fn w : Nat) : Option Instr :=
  match fn with
  | 0x00 => rdVUn w (.vredsum xp)
  | 0x01 => rdVUn w (.vredmax xp)
  | 0x02 => rdVUn w (.vredmin xp)
  | _ => none

def dec46 (xp : Option Xp) (fn w : Nat) : Option Instr :=
  match fn with
  | 0x00 => rdVUn w (.vrcp xp)
  | 0x01 => rdVUn w (.vsqrt xp)
  | 0x02 => rdVUn w (.vrsqrt xp)
  | 0x03 => rdVUn w (.vexp2 xp)
  | 0x04 => rdVUn w (.vlog2 xp)
  | 0x05 => rdVUn w (.vsinpi xp)
  | 0x06 => rdVUn w (.vcospi xp)
  | 0x07 => rdVUn w (.vtanh xp)
  | _ => none

def dec47 (xp : Option Xp) (fn w : Nat) : Option Instr :=
  match fn with
  | 0x00 => rdVLogic w (.vand xp)
  | 0x01 => rdVLogic w (.vor xp)
  | 0x02 => rdVLogic w (.vxor xp)
  | 0x03 => rdVLogic w (.vandn xp)
  | 0x04 => rdVShift w (.vshl xp)
  | 0x05 => rdVShift w (.vshr xp)
  | 0x06 => rdVShift w (.vsar xp)
  | _ => none

def dec70 (xp : Option Xp) (fn w : Nat) : Option Instr :=
  match fn with
  | 0x00 => onlyIf (z w 43 8 && z w 28 7 && z w 61 3)
      (.vcvt xp ⟨fld w 51 5, fld w 56 5, fld w 39 4, fld w 35 4, fld w 21 7, fld w 14 7⟩)
  | 0x01 => rdVUn w (.vrint xp)
  | _ => none

def dec71 (xp : Option Xp) (fn w : Nat) : Option Instr :=
  match fn with
  | 0x00 => onlyIf (oneSlot w && z w 21 14 && z w 43 8 && z w 53 11) (.vtid xp (fld w 51 2) (fld w 35 4) (fld w 14 7))
  | 0x01 => onlyIf (oneSlot w && z w 26 9 && z w 43 21) (.vbcast xp (fld w 35 4) (fld w 21 5) (fld w 14 7))
  | 0x02 => onlyIf (z w 28 23 && z w 61 3) (.vbcastl xp (fld w 51 10) (fld w 21 7) (fld w 14 7))
  | 0x03 => onlyIf (z w 28 36) (.vmov xp (fld w 21 7) (fld w 14 7))
  | _ => none

def dec72 (fn w : Nat) : Option Instr :=
  match fn with
  | 0x00 => onlyIf (oneSlot w && z w 19 2 && z w 28 7 && z w 44 7 && z w 62 2)
      (.vgetx ⟨bit w 43, fld w 51 11, fld w 35 4, fld w 21 7, fld w 14 5⟩)
  | 0x01 => onlyIf (oneSlot w && z w 26 2 && z w 28 7 && z w 44 7 && z w 62 2)
      (.vsetx ⟨bit w 43, fld w 51 11, fld w 35 4, fld w 14 7, fld w 21 5⟩)
  | 0x02 => onlyIf (z w 14 7 && z w 28 23 && z w 54 10) (.vpatld (fld w 51 3) (fld w 21 7))
  | _ => none

def dec73 (xp : Option Xp) (fn w : Nat) : Option Instr :=
  match fn with
  | 0x00 => onlyIf (z w 35 29) (.vshfl xp (fld w 28 7) (fld w 21 7) (fld w 14 7))
  | 0x01 => onlyIf (z w 28 15 && z w 44 7 && z w 61 3) (.vrot xp ⟨fld w 51 10, bit w 43, fld w 21 7, fld w 14 7⟩)
  | 0x02 => onlyIf (z w 28 23 && z w 56 8) (.vxchg xp (fld w 51 5) (fld w 21 7) (fld w 14 7))
  | 0x03 => onlyIf (z w 28 23 && z w 54 10) (.vpat xp (fld w 51 3) (fld w 21 7) (fld w 14 7))
  | _ => none

def dec7E (fn w : Nat) : Option Instr :=
  match fn with
  | 0x00 => onlyIf (z w 14 7 && z w 28 23 && z w 55 9) (.fscmp (fld w 51 4) (fld w 21 7))
  | _ => none

def dec80 (xp : Option Xp) (fn w : Nat) : Option Instr :=
  match fn with
  | 0x00 => rdMem w (.ld8 xp)
  | 0x01 => rdMem w (.ld16 xp)
  | 0x02 => rdMem w (.ld32 xp)
  | 0x03 => rdMem w (.ld64 xp)
  | 0x04 => rdMem w (.ld8s xp)
  | 0x05 => rdMem w (.ld16s xp)
  | 0x06 => rdMem w (.ld32s xp)
  | _ => none

def dec81 (xp : Option Xp) (fn w : Nat) : Option Instr :=
  match fn with
  | 0x00 => rdMem w (.st8 xp)
  | 0x01 => rdMem w (.st16 xp)
  | 0x02 => rdMem w (.st32 xp)
  | 0x03 => rdMem w (.st64 xp)
  | _ => none

def dec82 (xp : Option Xp) (fn w : Nat) : Option Instr :=
  match fn with
  | 0x00 => rdPack w (.ldp xp)
  | 0x01 => rdPack w (.stp xp)
  | _ => none

def dec83 (fn w : Nat) : Option Instr :=
  match fn with
  | 0x00 => rdXMem w .ldx
  | 0x01 => rdXMem w .stx
  | _ => none

def dec84 (xp : Option Xp) (fn w : Nat) : Option Instr :=
  match fn with
  | 0x00 => rdA w (.ldg xp)
  | 0x01 => rdA w (.stg xp)
  | _ => none

def dec85 (xp : Option Xp) (fn w : Nat) : Option Instr :=
  match fn with
  | 0x00 => rdScr w (.sld xp)
  | 0x01 => rdScr w (.sst xp)
  | 0x02 => rdScr w (.sldt xp)
  | _ => none

def dec86 (fn w : Nat) : Option Instr :=
  match fn with
  | 0x00 => onlyIf (z w 14 7 && z w 26 12) (.pf (fld w 40 24) (fld w 38 2) (fld w 21 5))
  | 0x01 => rdInv w .icinv
  | 0x02 => rdInv w .dcinv
  | _ => none

def decA0 (xp : Option Xp) (fn w : Nat) : Option Instr :=
  match fn with
  | 0x00 => rdA w (.aadd xp)
  | 0x01 => rdA w (.aand xp)
  | 0x02 => rdA w (.aor xp)
  | 0x03 => rdA w (.axor xp)
  | 0x04 => rdA w (.amin xp)
  | 0x05 => rdA w (.amax xp)
  | 0x06 => rdA w (.aminu xp)
  | 0x07 => rdA w (.amaxu xp)
  | 0x08 => rdA w (.aswp xp)
  | 0x09 => rdA w (.acas xp)
  | _ => none

def decA1 (xp : Option Xp) (fn w : Nat) : Option Instr :=
  match fn with
  | 0x00 => rdA w (.redAdd xp)
  | 0x01 => rdA w (.redAnd xp)
  | 0x02 => rdA w (.redOr xp)
  | 0x03 => rdA w (.redXor xp)
  | 0x04 => rdA w (.redMin xp)
  | 0x05 => rdA w (.redMax xp)
  | 0x06 => rdA w (.redMinu xp)
  | 0x07 => rdA w (.redMaxu xp)
  | _ => none

def decA2 (xp : Option Xp) (fn w : Nat) : Option Instr :=
  match fn with
  | 0x00 => rdA w (.osCas4 xp)
  | 0x01 => rdA w (.osEnq xp)
  | 0x02 => rdA w (.osChase xp)
  | 0x03 => rdA w (.osRun xp)
  | _ => none

def decA3 (xp : Option Xp) (fn w : Nat) : Option Instr :=
  match fn with
  | 0x00 => rdA w (.hgath xp)
  | _ => none

def decB0 (fn w : Nat) : Option Instr :=
  match fn with
  | 0x00 => (scoAt w 29).bind (fun sco => onlyIf (z w 14 15 && z w 34 30) (.fence (semAt w 32) sco))
  | _ => none

def decB1 (fn w : Nat) : Option Instr :=
  match fn with
  | 0x00 => onlyIf (z w 35 29) (.bind (fld w 29 6) (fld w 14 5) (fld w 19 5) (fld w 24 5))
  | 0x01 => onlyIf (z w 14 15 && z w 35 29) (.unbind (fld w 29 6))
  | _ => none

def decC0 (fn w : Nat) : Option Instr :=
  match fn with
  | 0x00 => rdQ w .qpush
  | 0x01 => rdQ w .qpop
  | 0x02 => onlyIf (z w 19 11 && z w 36 28) (.qbind (fld w 14 5) (fld w 30 4) (fld w 34 2))
  | 0x03 => onlyIf (z w 15 4 && z w 30 34) (.tcopy (bit w 26) (fld w 27 3) (bit w 14) (fld w 19 7))
  | _ => none

def decC1 (fn w : Nat) : Option Instr :=
  match fn with
  | 0x00 => onlyIf (z w 14 15 && z w 45 19) (.own (fld w 29 7) (fld w 36 7) (fld w 43 2))
  | _ => none

def decC2 (fn w : Nat) : Option Instr :=
  match fn with
  | 0x00 => onlyIf (z w 54 10) (.tmma ⟨bit w 53, bit w 52, fld w 48 4, fld w 44 4, fld w 36 8, fld w 32 4,
      fld w 28 4, fld w 23 5, fld w 18 5, fld w 14 4⟩)
  | 0x01 => rdTD w .tzero
  | 0x02 => rdTD w .talloc
  | 0x03 => rdTD w .tfree
  | _ => none

def decC3 (xp : Option Xp) (fn w : Nat) : Option Instr :=
  match fn with
  | 0x00 => onlyIf (oneSlot w && z w 25 10 && z w 43 8 && z w 56 8)
      (.tld xp ⟨fld w 51 5, fld w 35 4, fld w 21 4, fld w 14 7⟩)
  | _ => none

def decC4 (xp : Option Xp) (fn w : Nat) : Option Instr :=
  match fn with
  | 0x00 => onlyIf (z w 18 3 && z w 26 8) (.tst xp ⟨fld w 40 24, fld w 38 2, fld w 34 4, fld w 21 5, fld w 14 4⟩)
  | _ => none

def decC5 (fn w : Nat) : Option Instr :=
  match fn with
  | 0x00 => onlyIf (z w 14 12 && z w 31 33) (.ujobCommit (fld w 26 5))
  | 0x01 => onlyIf (z w 14 12 && z w 31 33) (.ujobDrop (fld w 26 5))
  | _ => none

/-- Format C (R262): VD [20:14], VA [27:21], XA [32:28], XD [37:33], LVL [46:38], COL [57:47], option bit [58]. -/
def decD0 (fn w : Nat) : Option Instr :=
  if !z w 59 5 then none else
  match fn with
  | 0x00 => onlyIf (z w 14 19 && z w 38 20) (.cxClaim (fld w 33 5) (bit w 58))
  | 0x01 => onlyIf (z w 14 50) .cxFree
  | 0x02 => onlyIf (z w 14 44) (.cxClr (bit w 58))
  | 0x03 => onlyIf (z w 14 7 && z w 33 14) (.cxLdc (fld w 21 7) (fld w 28 5) (fld w 47 11) (bit w 58))
  | 0x04 => onlyIf (z w 14 14 && z w 33 14) (.cxDis (fld w 28 5) (fld w 47 11) (bit w 58))
  | 0x05 => onlyIf (z w 14 14 && z w 33 25) (.cxAsg (fld w 28 5) (bit w 58))
  | 0x06 => onlyIf (z w 14 19 && z w 38 20) (.cxProp (fld w 33 5) (bit w 58))
  | 0x07 => onlyIf (z w 14 14 && z w 33 5 && z w 47 12) (.cxBt (fld w 28 5) (fld w 38 9))
  | 0x08 => onlyIf (z w 21 7 && z w 38 20) (.cxLvl (bit w 58) (fld w 33 5) (fld w 28 5) (fld w 14 7))
  | 0x09 => onlyIf (z w 21 7 && z w 38 21) (.cxTrl (fld w 14 7) (fld w 33 5) (fld w 28 5))
  | 0x0A => onlyIf (z w 21 7 && z w 38 21) (.cxCfl (fld w 14 7) (fld w 33 5) (fld w 28 5))
  | 0x0B => onlyIf (z w 14 19 && z w 38 21) (.cxSt (fld w 33 5))
  | _ => none

def decE0 (fn w : Nat) : Option Instr :=
  match fn with
  | 0x00 => onlyIf (z w 14 17 && z w 47 17) (.trap (fld w 31 16))
  | 0x01 => onlyIf (z w 14 50) .rett
  | 0x02 => onlyIf (z w 14 17 && z w 47 17) (.brk (fld w 31 16))
  | 0x03 => onlyIf (z w 31 33) (.rdsr (fld w 26 5) (fld w 14 12))
  | 0x04 => onlyIf (z w 31 33) (.wrsr (fld w 14 12) (fld w 26 5))
  | _ => none

/-- The cells that take an XP prefix (R141). -/
def decPrefixable (xp : Option Xp) (op fn w : Nat) : Option Instr :=
  match op with
  | 0x40 => dec40 xp fn w
  | 0x41 => dec41 xp fn w
  | 0x42 => dec42 xp fn w
  | 0x43 => dec43 xp fn w
  | 0x44 => dec44 xp fn w
  | 0x45 => dec45 xp fn w
  | 0x46 => dec46 xp fn w
  | 0x47 => dec47 xp fn w
  | 0x70 => dec70 xp fn w
  | 0x71 => dec71 xp fn w
  | 0x73 => dec73 xp fn w
  | 0x80 => dec80 xp fn w
  | 0x81 => dec81 xp fn w
  | 0x82 => dec82 xp fn w
  | 0x84 => dec84 xp fn w
  | 0x85 => dec85 xp fn w
  | 0xA0 => decA0 xp fn w
  | 0xA1 => decA1 xp fn w
  | 0xA2 => decA2 xp fn w
  | 0xA3 => decA3 xp fn w
  | 0xC3 => decC3 xp fn w
  | 0xC4 => decC4 xp fn w
  | _ => none

/-- The cells that take none (R141, column XP "—"). -/
def decPlain (op fn w : Nat) : Option Instr :=
  match op with
  | 0x00 => dec00 fn w
  | 0x01 => dec01 fn w
  | 0x02 => dec02 fn w
  | 0x03 => dec03 fn w
  | 0x04 => dec04 fn w
  | 0x10 => dec10 fn w
  | 0x11 => dec11 fn w
  | 0x20 => dec20 fn w
  | 0x21 => dec21 fn w
  | 0x22 => dec22 fn w
  | 0x23 => dec23 fn w
  | 0x24 => dec24 fn w
  | 0x25 => dec25 fn w
  | 0x2E => dec2E fn w
  | 0x72 => dec72 fn w
  | 0x7E => dec7E fn w
  | 0x83 => dec83 fn w
  | 0x86 => dec86 fn w
  | 0xB0 => decB0 fn w
  | 0xB1 => decB1 fn w
  | 0xC0 => decC0 fn w
  | 0xC1 => decC1 fn w
  | 0xC2 => decC2 fn w
  | 0xC5 => decC5 fn w
  | 0xD0 => decD0 fn w
  | 0xE0 => decE0 fn w
  | _ => none

/-- The OP cells whose instructions take an XP prefix (R141). -/
def takesXp (op : Nat) : Bool :=
  [0x40, 0x41, 0x42, 0x43, 0x44, 0x45, 0x46, 0x47, 0x70, 0x71, 0x73, 0x80, 0x81, 0x82, 0x84, 0x85, 0xA0, 0xA1, 0xA2,
    0xA3, 0xC3, 0xC4].contains op

/-- The fields of a base instruction, under its XP prefix if it has one. -/
def decodeRaw (xp : Option Xp) (w : Nat) : Option Instr :=
  if takesXp (w % 256) then decPrefixable xp (w % 256) (w / 2 ^ 8 % 64) w
  else if xp.isSome then none
  else decPlain (w % 256) (w / 2 ^ 8 % 64) w

/-- A base instruction under its XP prefix, checked (R130). -/
def decodeBase (xp : Option Xp) (w : Nat) : Except DecodeErr Instr :=
  match decodeRaw xp w with
  | some i => if i.wf then .ok i else .error .illFormed
  | none => if xp.isSome && !takesXp (w % 256) then .error .prefixNotAllowed else .error .unassigned

/-! ## Prefix words -/

/-- What the word at the start of an instruction, or after a prefix, is (R128). -/
inductive WordKind where
  | xp | pb | reserved | base
  deriving DecidableEq, Repr

def wordKind (w : Nat) : WordKind :=
  if w % 16 != 15 then .base
  else match w / 16 % 16 with
    | 0 => .xp
    | 1 => .pb
    | _ => .reserved

/-- The XP word (R135); none when a reserved bit is set. -/
def decodeXp (w : Nat) : Option Xp :=
  if z w 24 8 then some ⟨bit w 23, bit w 22, fld w 15 7, fld w 12 3, bit w 11, fld w 8 3⟩ else none

/-- The PB word (R138); none when a reserved bit, or a PAT bit above LEN, is set. -/
def decodePb (w : Nat) : Option Pb :=
  let pb : Pb := ⟨fld w 14 8, fld w 11 3, fld w 8 3⟩
  if z w 22 10 && pb.pat.toNat < 2 ^ (pb.len.toNat + 1) then some pb else none

/-- The base instruction in the first two words. -/
def decodeBaseWords (pb : Option Pb) (xp : Option Xp) (len : Nat) (ws : List Nat) : Except DecodeErr Decoded :=
  match ws with
  | lo :: hi :: _ =>
    match wordKind lo with
    | .base =>
      let w := lo + hi * 2 ^ 32
      match decodeBase xp w with
      | .ok i => .ok ⟨pb, i, len + 8, BitVec.ofNat 64 w⟩
      | .error e => .error e
    | .reserved => .error .reservedPrefix
    | .xp | .pb => .error .badSequence
  | _ => .error .truncated

/-- An optional XP word and the base (R129). -/
def decodeXpWords (pb : Option Pb) (len : Nat) (ws : List Nat) : Except DecodeErr Decoded :=
  match ws with
  | [] => .error .truncated
  | w :: rest =>
    match wordKind w with
    | .xp =>
      match decodeXp w with
      | some x => decodeBaseWords pb (some x) (len + 4) rest
      | none => .error .prefixField
    | .base | .pb | .reserved => decodeBaseWords pb none len ws

/-- The instruction at the start of a list of 32-bit words (R129). -/
def decodeWords (ws : List Nat) : Except DecodeErr Decoded :=
  match ws with
  | [] => .error .truncated
  | w :: rest =>
    match wordKind w with
    | .pb =>
      match decodePb w with
      | some p => decodeXpWords (some p) 4 rest
      | none => .error .prefixField
    | .base | .xp | .reserved => decodeXpWords none 0 ws

/-- How many words the instruction that begins with these words has, as far as the words given show (R128, R129). -/
def wordsNeeded (ws : List Nat) : Nat :=
  match ws with
  | [] => 1
  | w :: rest =>
    match wordKind w with
    | .base => 2
    | .reserved => 1
    | .xp => match rest with
      | [] => 2
      | v :: _ => if wordKind v = .base then 3 else 2
    | .pb => match rest with
      | [] => 2
      | v :: rest => match wordKind v with
        | .base => 3
        | .pb | .reserved => 2
        | .xp => match rest with
          | [] => 3
          | u :: _ => if wordKind u = .base then 4 else 3

/-- A little-endian 32-bit word from bytes (R3, R127). -/
def word32 (b0 b1 b2 b3 : Byte) : Nat := b0.toNat + b1.toNat * 2 ^ 8 + b2.toNat * 2 ^ 16 + b3.toNat * 2 ^ 24

/-- The whole words of a list of bytes. -/
def wordsOfBytes : List Byte → List Nat
  | b0 :: b1 :: b2 :: b3 :: rest => word32 b0 b1 b2 b3 :: wordsOfBytes rest
  | _ => []

/-- The decoder on bytes: total, rejecting by name. -/
def decodeBytes (bs : List Byte) : Except DecodeErr Decoded := decodeWords (wordsOfBytes bs)

/-- The instruction whose first `nbits` bits are `w`, bit 0 the least significant bit of the first word; every bit above
is 0. -/
def decodeTableWord (nbits w : Nat) : Option Instr :=
  let v := w % 2 ^ nbits
  match decodeWords [v % 2 ^ 32, v / 2 ^ 32 % 2 ^ 32, v / 2 ^ 64 % 2 ^ 32, v / 2 ^ 96 % 2 ^ 32] with
  | .ok d => some d.instr
  | .error _ => none

/-! ## The rest of the opcode map -/

/-- The instructions that may stand in a PB block (R141, column PB). Of the predicate instructions R141 says both that they carry no
prefix at all and that they may stand in a PB block; a PB word may then come directly before one, as it may before the others
(log 103; DESIGN CHOICE). -/
def Instr.pbOk : Instr → Bool
  | .pand .. | .por .. | .pxor .. | .pandn .. | .pnot .. | .pmov .. => true
  | .vadd .. | .vsub .. | .vmul .. | .vdiv .. | .vmin .. | .vmax .. | .vabs .. | .vneg .. => true
  | .vfma .. | .vfms .. | .vfnma .. | .vfnms .. => true
  | .vcmpeq .. | .vcmpne .. | .vcmplt .. | .vcmple .. | .vcmpun .. | .vsel .. | .vclass .. => true
  | .vdot .. | .vdota .. | .vredsum .. | .vredmax .. | .vredmin .. => true
  | .vrcp .. | .vsqrt .. | .vrsqrt .. | .vexp2 .. | .vlog2 .. | .vsinpi .. | .vcospi .. | .vtanh .. => true
  | .vand .. | .vor .. | .vxor .. | .vandn .. | .vshl .. | .vshr .. | .vsar .. => true
  | .vcvt .. | .vrint .. | .vtid .. | .vbcast .. | .vbcastl .. | .vmov .. => true
  | .vshfl .. | .vrot .. | .vxchg .. | .vpat .. => true
  | .ld8 .. | .ld16 .. | .ld32 .. | .ld64 .. | .ld8s .. | .ld16s .. | .ld32s .. => true
  | .st8 .. | .st16 .. | .st32 .. | .st64 .. | .ldp .. | .stp .. | .ldg .. | .stg .. => true
  | .sld .. | .sst .. | .sldt .. => true
  | .aadd .. | .aand .. | .aor .. | .axor .. | .amin .. | .amax .. | .aminu .. | .amaxu .. | .aswp .. | .acas .. => true
  | .redAdd .. | .redAnd .. | .redOr .. | .redXor .. | .redMin .. | .redMax .. | .redMinu .. | .redMaxu .. => true
  | .osCas4 .. | .osEnq .. | .osChase .. | .osRun .. | .hgath .. => true
  | _ => false

/-- The XP prefix an instruction carries. -/
def Instr.xp : Instr → Option Xp
  | .vadd xp _ | .vsub xp _ | .vmul xp _ | .vdiv xp _ | .vmin xp _ | .vmax xp _ | .vabs xp _ | .vneg xp _
  | .vfma xp _ | .vfms xp _ | .vfnma xp _ | .vfnms xp _ | .vcmpeq xp _ | .vcmpne xp _ | .vcmplt xp _ | .vcmple xp _
  | .vcmpun xp _ | .vsel xp _ | .vclass xp _ | .vdot xp _ | .vdota xp _ | .vredsum xp _ | .vredmax xp _
  | .vredmin xp _ | .vrcp xp _ | .vsqrt xp _ | .vrsqrt xp _ | .vexp2 xp _ | .vlog2 xp _ | .vsinpi xp _
  | .vcospi xp _ | .vtanh xp _ | .vand xp _ | .vor xp _ | .vxor xp _ | .vandn xp _ | .vshl xp _ | .vshr xp _
  | .vsar xp _ | .vcvt xp _ | .vrint xp _ | .vtid xp _ _ _ | .vbcast xp _ _ _ | .vbcastl xp _ _ _ | .vmov xp _ _
  | .vshfl xp _ _ _ | .vrot xp _ | .vxchg xp _ _ _ | .vpat xp _ _ _ | .ld8 xp _ | .ld16 xp _ | .ld32 xp _
  | .ld64 xp _ | .ld8s xp _ | .ld16s xp _ | .ld32s xp _ | .st8 xp _ | .st16 xp _ | .st32 xp _ | .st64 xp _
  | .ldp xp _ | .stp xp _ | .ldg xp _ | .stg xp _ | .sld xp _ | .sst xp _ | .sldt xp _ | .aadd xp _ | .aand xp _
  | .aor xp _ | .axor xp _ | .amin xp _ | .amax xp _ | .aminu xp _ | .amaxu xp _ | .aswp xp _ | .acas xp _
  | .redAdd xp _ | .redAnd xp _ | .redOr xp _ | .redXor xp _ | .redMin xp _ | .redMax xp _ | .redMinu xp _
  | .redMaxu xp _ | .osCas4 xp _ | .osEnq xp _ | .osChase xp _ | .osRun xp _ | .hgath xp _ | .tld xp _
  | .tst xp _ => xp
  | _ => none

/-! ## The encoder -/

/-- OP and FN (R131). -/
def opfn (op fn : Nat) : Nat := op + fn * 2 ^ 8

def wrS3 (op fn : Nat) (d a b : BitVec 5) : Nat :=
  opfn op fn + d.toNat * 2 ^ 14 + a.toNat * 2 ^ 19 + b.toNat * 2 ^ 24

def wrS2 (op fn : Nat) (d a : BitVec 5) : Nat := opfn op fn + d.toNat * 2 ^ 14 + a.toNat * 2 ^ 19

def wrSImm (fn : Nat) (d a : BitVec 5) (i : BitVec 35) : Nat :=
  opfn 0x22 fn + d.toNat * 2 ^ 14 + a.toNat * 2 ^ 19 + i.toNat * 2 ^ 29

def wrSSh (fn : Nat) (d a : BitVec 5) (s : BitVec 6) : Nat :=
  opfn 0x22 fn + d.toNat * 2 ^ 14 + a.toNat * 2 ^ 19 + s.toNat * 2 ^ 29

def wrSConst (fn : Nat) (d : BitVec 5) (i : BitVec 35) : Nat := opfn 0x25 fn + d.toNat * 2 ^ 14 + i.toNat * 2 ^ 29

def wrP3 (fn : Nat) (d a b : BitVec 3) : Nat :=
  opfn 0x10 fn + d.toNat * 2 ^ 14 + a.toNat * 2 ^ 19 + b.toNat * 2 ^ 24

def wrP2 (fn : Nat) (d a : BitVec 3) : Nat := opfn 0x10 fn + d.toNat * 2 ^ 14 + a.toNat * 2 ^ 19

def wrXP (fn : Nat) (d : BitVec 5) (a : BitVec 3) : Nat := opfn 0x11 fn + d.toNat * 2 ^ 14 + a.toNat * 2 ^ 19

def wrVBin (op fn : Nat) (o : VBin) : Nat :=
  opfn op fn + o.vd.toNat * 2 ^ 14 + o.va.toNat * 2 ^ 21 + o.vb.toNat * 2 ^ 28 + o.fs.toNat * 2 ^ 35
    + o.fsa.toNat * 2 ^ 39

def wrVUn (op fn : Nat) (o : VUn) : Nat :=
  opfn op fn + o.vd.toNat * 2 ^ 14 + o.va.toNat * 2 ^ 21 + o.fs.toNat * 2 ^ 35 + o.fsa.toNat * 2 ^ 39

def wrVCmp (fn : Nat) (o : VCmp) : Nat :=
  opfn 0x42 fn + o.vd.toNat * 2 ^ 14 + o.va.toNat * 2 ^ 21 + o.vb.toNat * 2 ^ 28 + o.fs.toNat * 2 ^ 35
    + o.fs.toNat * 2 ^ 39 + b2n o.pdst * 2 ^ 43 + b2n o.all * 2 ^ 44

def wrVLogic (fn : Nat) (o : VLogic) : Nat :=
  opfn 0x47 fn + o.vd.toNat * 2 ^ 14 + o.va.toNat * 2 ^ 21 + o.vb.toNat * 2 ^ 28 + o.fs.toNat * 2 ^ 35
    + o.fs.toNat * 2 ^ 39

def wrVShift (fn : Nat) (o : VShift) : Nat :=
  opfn 0x47 fn + o.vd.toNat * 2 ^ 14 + o.va.toNat * 2 ^ 21 + o.vb.toNat * 2 ^ 28 + o.fs.toNat * 2 ^ 35
    + o.fs.toNat * 2 ^ 39 + b2n o.immf * 2 ^ 43 + o.amt.toNat * 2 ^ 51

def wrVDot (fn : Nat) (o : VDotOps) : Nat :=
  opfn 0x44 fn + o.vd.toNat * 2 ^ 14 + o.va.toNat * 2 ^ 21 + o.vb.toNat * 2 ^ 28 + o.fs.toNat * 2 ^ 35
    + o.fsa.toNat * 2 ^ 39 + o.fsb.toNat * 2 ^ 43 + o.g.toNat * 2 ^ 51

def wrMem (op fn : Nat) (o : MemOps) : Nat :=
  opfn op fn + o.reg.toNat * 2 ^ 14 + o.base.toNat * 2 ^ 21 + o.sco.code * 2 ^ 29 + o.sem.code * 2 ^ 32
    + o.cache.toNat * 2 ^ 38 + o.off.toNat * 2 ^ 40

def wrPack (fn : Nat) (o : PackOps) : Nat :=
  opfn 0x82 fn + o.reg.toNat * 2 ^ 14 + o.base.toNat * 2 ^ 21 + o.fs.toNat * 2 ^ 34 + o.cache.toNat * 2 ^ 38
    + o.off.toNat * 2 ^ 40

def wrXMem (fn : Nat) (o : XMemOps) : Nat :=
  opfn 0x83 fn + o.x.toNat * 2 ^ 14 + o.base.toNat * 2 ^ 21 + o.sco.code * 2 ^ 29 + o.sem.code * 2 ^ 32
    + o.size.toNat * 2 ^ 34 + b2n o.sx * 2 ^ 36 + o.cache.toNat * 2 ^ 38 + o.off.toNat * 2 ^ 40

def wrScr (fn : Nat) (o : ScrOps) : Nat :=
  opfn 0x85 fn + o.reg.toNat * 2 ^ 14 + o.base.toNat * 2 ^ 21 + o.swz.toNat * 2 ^ 26 + o.pitch.toNat * 2 ^ 34
    + o.off.toNat * 2 ^ 40

def wrInv (fn : Nat) (o : InvOps) : Nat :=
  opfn 0x86 fn + o.x.toNat * 2 ^ 14 + o.base.toNat * 2 ^ 21 + o.sco.code * 2 ^ 29 + o.off.toNat * 2 ^ 40

def wrA (op fn : Nat) (o : AOps) : Nat :=
  opfn op fn + o.vd.toNat * 2 ^ 14 + o.va.toNat * 2 ^ 21 + o.base.toNat * 2 ^ 28 + o.sco.code * 2 ^ 33
    + o.sem.code * 2 ^ 36 + o.wid.toNat * 2 ^ 38 + o.off.toNat * 2 ^ 41

def wrQ (fn : Nat) (nb : Bool) (pd : BitVec 3) (q : BitVec 5) (reg : BitVec 7) : Nat :=
  opfn 0xC0 fn + q.toNat * 2 ^ 14 + reg.toNat * 2 ^ 19 + b2n nb * 2 ^ 26 + pd.toNat * 2 ^ 27

def wrVElt (fn : Nat) (o : VElt) (v x : Nat) : Nat :=
  opfn 0x72 fn + v * 2 ^ 21 + x * 2 ^ 14 + o.fs.toNat * 2 ^ 35 + o.fs.toNat * 2 ^ 39 + b2n o.elt * 2 ^ 43
    + o.idx.toNat * 2 ^ 51

def wrC (fn vd va xa xd lvl col : Nat) (opt : Bool) : Nat :=
  opfn 0xD0 fn + vd * 2 ^ 14 + va * 2 ^ 21 + xa * 2 ^ 28 + xd * 2 ^ 33 + lvl * 2 ^ 38 + col * 2 ^ 47 + b2n opt * 2 ^ 58

/-- The base instruction of a term; an event, which has no encoding, gives 0. -/
def encodeBase : Instr → Nat
  | .nop => opfn 0x00 0x00
  | .exit => opfn 0x00 0x01
  | .waitc a b c d => opfn 0x00 0x02 + a.toNat * 2 ^ 31 + b.toNat * 2 ^ 37 + c.toNat * 2 ^ 43 + d.toNat * 2 ^ 49
  | .yield c k off => opfn 0x00 0x03 + c.toNat * 2 ^ 14 + k.toNat * 2 ^ 16 + off.toNat * 2 ^ 31
  | .launch x q => opfn 0x00 0x04 + x.toNat * 2 ^ 26 + q.toNat * 2 ^ 31
  | .locq d => opfn 0x00 0x05 + d.toNat * 2 ^ 26
  | .homeq d a => opfn 0x00 0x06 + a.toNat * 2 ^ 14 + d.toNat * 2 ^ 26
  | .br t => opfn 0x01 0x00 + t.toNat * 2 ^ 22
  | .brp p c j t => opfn 0x01 0x01 + c.code * 2 ^ 14 + p.toNat * 2 ^ 18 + b2n j * 2 ^ 21 + t.toNat * 2 ^ 22
  | .call t => opfn 0x01 0x02 + t.toNat * 2 ^ 22
  | .jr a i => opfn 0x02 0x00 + a.toNat * 2 ^ 19 + i.toNat * 2 ^ 29
  | .ret a => opfn 0x02 0x01 + a.toNat * 2 ^ 19
  | .bar s i n => opfn 0x03 0x00 + s.code * 2 ^ 14 + i.toNat * 2 ^ 31 + n.toNat * 2 ^ 39
  | .barar d s i n => opfn 0x03 0x01 + s.code * 2 ^ 14 + d.toNat * 2 ^ 26 + i.toNat * 2 ^ 31 + n.toNat * 2 ^ 39
  | .barwt a s i => opfn 0x03 0x02 + s.code * 2 ^ 14 + a.toNat * 2 ^ 26 + i.toNat * 2 ^ 31
  | .regroup => opfn 0x04 0x00 + 1 * 2 ^ 14
  | .regroupHome => opfn 0x04 0x00 + 1 * 2 ^ 14 + 1 * 2 ^ 17
  | .pand d a b => wrP3 0x00 d a b
  | .por d a b => wrP3 0x01 d a b
  | .pxor d a b => wrP3 0x02 d a b
  | .pandn d a b => wrP3 0x03 d a b
  | .pnot d a => wrP2 0x04 d a
  | .pmov d a => wrP2 0x05 d a
  | .emget d => opfn 0x11 0x00 + d.toNat * 2 ^ 14
  | .emset a => opfn 0x11 0x01 + a.toNat * 2 ^ 19
  | .emand a => opfn 0x11 0x02 + a.toNat * 2 ^ 19
  | .pget d a => wrXP 0x03 d a
  | .pset d a bc => opfn 0x11 0x04 + d.toNat * 2 ^ 14 + a.toNat * 2 ^ 19 + b2n bc * 2 ^ 29
  | .pany d a => wrXP 0x05 d a
  | .pall d a => wrXP 0x06 d a
  | .pcnt d a => wrXP 0x07 d a
  | .add d a b => wrS3 0x20 0x00 d a b
  | .sub d a b => wrS3 0x20 0x01 d a b
  | .mul d a b => wrS3 0x20 0x02 d a b
  | .mulh d a b => wrS3 0x20 0x03 d a b
  | .mulhu d a b => wrS3 0x20 0x04 d a b
  | .div d a b => wrS3 0x20 0x05 d a b
  | .divu d a b => wrS3 0x20 0x06 d a b
  | .rem d a b => wrS3 0x20 0x07 d a b
  | .remu d a b => wrS3 0x20 0x08 d a b
  | .and d a b => wrS3 0x21 0x00 d a b
  | .or d a b => wrS3 0x21 0x01 d a b
  | .xor d a b => wrS3 0x21 0x02 d a b
  | .andn d a b => wrS3 0x21 0x03 d a b
  | .shl d a b => wrS3 0x21 0x04 d a b
  | .shr d a b => wrS3 0x21 0x05 d a b
  | .sar d a b => wrS3 0x21 0x06 d a b
  | .rol d a b => wrS3 0x21 0x07 d a b
  | .ror d a b => wrS3 0x21 0x08 d a b
  | .addi d a i => wrSImm 0x00 d a i
  | .andi d a i => wrSImm 0x01 d a i
  | .ori d a i => wrSImm 0x02 d a i
  | .xori d a i => wrSImm 0x03 d a i
  | .shli d a i => wrSSh 0x04 d a i
  | .shri d a i => wrSSh 0x05 d a i
  | .sari d a i => wrSSh 0x06 d a i
  | .seq d a b => wrS3 0x23 0x00 d a b
  | .sne d a b => wrS3 0x23 0x01 d a b
  | .slt d a b => wrS3 0x23 0x02 d a b
  | .sltu d a b => wrS3 0x23 0x03 d a b
  | .sle d a b => wrS3 0x23 0x04 d a b
  | .sleu d a b => wrS3 0x23 0x05 d a b
  | .min d a b => wrS3 0x24 0x00 d a b
  | .max d a b => wrS3 0x24 0x01 d a b
  | .minu d a b => wrS3 0x24 0x02 d a b
  | .maxu d a b => wrS3 0x24 0x03 d a b
  | .clz d a => wrS2 0x24 0x04 d a
  | .ctz d a => wrS2 0x24 0x05 d a
  | .popc d a => wrS2 0x24 0x06 d a
  | .bswap d a => wrS2 0x24 0x07 d a
  | .li d i => wrSConst 0x00 d i
  | .lhi d i => wrSConst 0x01 d i
  | .addpc d i => wrSConst 0x02 d i
  | .fsset n a => opfn 0x2E 0x00 + n.toNat * 2 ^ 14 + a.toNat * 2 ^ 19
  | .fsget d n => opfn 0x2E 0x01 + d.toNat * 2 ^ 14 + n.toNat * 2 ^ 19
  | .vadd _ o => wrVBin 0x40 0x00 o
  | .vsub _ o => wrVBin 0x40 0x01 o
  | .vmul _ o => wrVBin 0x40 0x02 o
  | .vdiv _ o => wrVBin 0x40 0x03 o
  | .vmin _ o => wrVBin 0x40 0x04 o
  | .vmax _ o => wrVBin 0x40 0x05 o
  | .vabs _ o => wrVUn 0x40 0x06 o
  | .vneg _ o => wrVUn 0x40 0x07 o
  | .vfma _ o => wrVBin 0x41 0x00 o
  | .vfms _ o => wrVBin 0x41 0x01 o
  | .vfnma _ o => wrVBin 0x41 0x02 o
  | .vfnms _ o => wrVBin 0x41 0x03 o
  | .vcmpeq _ o => wrVCmp 0x00 o
  | .vcmpne _ o => wrVCmp 0x01 o
  | .vcmplt _ o => wrVCmp 0x02 o
  | .vcmple _ o => wrVCmp 0x03 o
  | .vcmpun _ o => wrVCmp 0x04 o
  | .vsel _ o => opfn 0x43 0x00 + o.vd.toNat * 2 ^ 14 + o.va.toNat * 2 ^ 21 + o.vb.toNat * 2 ^ 28
      + o.fs.toNat * 2 ^ 35 + o.fs.toNat * 2 ^ 39 + o.vm.toNat * 2 ^ 51
  | .vclass _ o => opfn 0x43 0x01 + o.vd.toNat * 2 ^ 14 + o.va.toNat * 2 ^ 21 + o.fs.toNat * 2 ^ 35
      + o.fs.toNat * 2 ^ 39 + b2n o.pdst * 2 ^ 43 + b2n o.all * 2 ^ 44 + o.cls.toNat * 2 ^ 51
  | .vdot _ o => wrVDot 0x00 o
  | .vdota _ o => wrVDot 0x01 o
  | .vredsum _ o => wrVUn 0x45 0x00 o
  | .vredmax _ o => wrVUn 0x45 0x01 o
  | .vredmin _ o => wrVUn 0x45 0x02 o
  | .vrcp _ o => wrVUn 0x46 0x00 o
  | .vsqrt _ o => wrVUn 0x46 0x01 o
  | .vrsqrt _ o => wrVUn 0x46 0x02 o
  | .vexp2 _ o => wrVUn 0x46 0x03 o
  | .vlog2 _ o => wrVUn 0x46 0x04 o
  | .vsinpi _ o => wrVUn 0x46 0x05 o
  | .vcospi _ o => wrVUn 0x46 0x06 o
  | .vtanh _ o => wrVUn 0x46 0x07 o
  | .vand _ o => wrVLogic 0x00 o
  | .vor _ o => wrVLogic 0x01 o
  | .vxor _ o => wrVLogic 0x02 o
  | .vandn _ o => wrVLogic 0x03 o
  | .vshl _ o => wrVShift 0x04 o
  | .vshr _ o => wrVShift 0x05 o
  | .vsar _ o => wrVShift 0x06 o
  | .vcvt _ o => opfn 0x70 0x00 + o.vd.toNat * 2 ^ 14 + o.va.toNat * 2 ^ 21 + o.fs.toNat * 2 ^ 35
      + o.fsa.toNat * 2 ^ 39 + o.from32.toNat * 2 ^ 51 + o.to32.toNat * 2 ^ 56
  | .vrint _ o => wrVUn 0x70 0x01 o
  | .vtid _ s f d => opfn 0x71 0x00 + d.toNat * 2 ^ 14 + f.toNat * 2 ^ 35 + f.toNat * 2 ^ 39 + s.toNat * 2 ^ 51
  | .vbcast _ f a d => opfn 0x71 0x01 + d.toNat * 2 ^ 14 + a.toNat * 2 ^ 21 + f.toNat * 2 ^ 35 + f.toNat * 2 ^ 39
  | .vbcastl _ l a d => opfn 0x71 0x02 + d.toNat * 2 ^ 14 + a.toNat * 2 ^ 21 + l.toNat * 2 ^ 51
  | .vmov _ a d => opfn 0x71 0x03 + d.toNat * 2 ^ 14 + a.toNat * 2 ^ 21
  | .vgetx o => wrVElt 0x00 o o.v.toNat o.x.toNat
  | .vsetx o => wrVElt 0x01 o o.x.toNat o.v.toNat
  | .vpatld p a => opfn 0x72 0x02 + a.toNat * 2 ^ 21 + p.toNat * 2 ^ 51
  | .vshfl _ b a d => opfn 0x73 0x00 + d.toNat * 2 ^ 14 + a.toNat * 2 ^ 21 + b.toNat * 2 ^ 28
  | .vrot _ o => opfn 0x73 0x01 + o.vd.toNat * 2 ^ 14 + o.va.toNat * 2 ^ 21 + b2n o.wrap * 2 ^ 43 + o.n.toNat * 2 ^ 51
  | .vxchg _ m a d => opfn 0x73 0x02 + d.toNat * 2 ^ 14 + a.toNat * 2 ^ 21 + m.toNat * 2 ^ 51
  | .vpat _ p a d => opfn 0x73 0x03 + d.toNat * 2 ^ 14 + a.toNat * 2 ^ 21 + p.toNat * 2 ^ 51
  | .fscmp t a => opfn 0x7E 0x00 + a.toNat * 2 ^ 21 + t.toNat * 2 ^ 51
  | .ld8 _ o => wrMem 0x80 0x00 o
  | .ld16 _ o => wrMem 0x80 0x01 o
  | .ld32 _ o => wrMem 0x80 0x02 o
  | .ld64 _ o => wrMem 0x80 0x03 o
  | .ld8s _ o => wrMem 0x80 0x04 o
  | .ld16s _ o => wrMem 0x80 0x05 o
  | .ld32s _ o => wrMem 0x80 0x06 o
  | .st8 _ o => wrMem 0x81 0x00 o
  | .st16 _ o => wrMem 0x81 0x01 o
  | .st32 _ o => wrMem 0x81 0x02 o
  | .st64 _ o => wrMem 0x81 0x03 o
  | .ldp _ o => wrPack 0x00 o
  | .stp _ o => wrPack 0x01 o
  | .ldx o => wrXMem 0x00 o
  | .stx o => wrXMem 0x01 o
  | .ldg _ o => wrA 0x84 0x00 o
  | .stg _ o => wrA 0x84 0x01 o
  | .sld _ o => wrScr 0x00 o
  | .sst _ o => wrScr 0x01 o
  | .sldt _ o => wrScr 0x02 o
  | .pf off c b => opfn 0x86 0x00 + b.toNat * 2 ^ 21 + c.toNat * 2 ^ 38 + off.toNat * 2 ^ 40
  | .icinv o => wrInv 0x01 o
  | .dcinv o => wrInv 0x02 o
  | .aadd _ o => wrA 0xA0 0x00 o
  | .aand _ o => wrA 0xA0 0x01 o
  | .aor _ o => wrA 0xA0 0x02 o
  | .axor _ o => wrA 0xA0 0x03 o
  | .amin _ o => wrA 0xA0 0x04 o
  | .amax _ o => wrA 0xA0 0x05 o
  | .aminu _ o => wrA 0xA0 0x06 o
  | .amaxu _ o => wrA 0xA0 0x07 o
  | .aswp _ o => wrA 0xA0 0x08 o
  | .acas _ o => wrA 0xA0 0x09 o
  | .redAdd _ o => wrA 0xA1 0x00 o
  | .redAnd _ o => wrA 0xA1 0x01 o
  | .redOr _ o => wrA 0xA1 0x02 o
  | .redXor _ o => wrA 0xA1 0x03 o
  | .redMin _ o => wrA 0xA1 0x04 o
  | .redMax _ o => wrA 0xA1 0x05 o
  | .redMinu _ o => wrA 0xA1 0x06 o
  | .redMaxu _ o => wrA 0xA1 0x07 o
  | .osCas4 _ o => wrA 0xA2 0x00 o
  | .osEnq _ o => wrA 0xA2 0x01 o
  | .osChase _ o => wrA 0xA2 0x02 o
  | .osRun _ o => wrA 0xA2 0x03 o
  | .hgath _ o => wrA 0xA3 0x00 o
  | .fence sem sco => opfn 0xB0 0x00 + sco.code * 2 ^ 29 + sem.code * 2 ^ 32
  | .bind e o b l => opfn 0xB1 0x00 + o.toNat * 2 ^ 14 + b.toNat * 2 ^ 19 + l.toNat * 2 ^ 24 + e.toNat * 2 ^ 29
  | .unbind e => opfn 0xB1 0x01 + e.toNat * 2 ^ 29
  | .qpush nb pd q r => wrQ 0x00 nb pd q r
  | .qpop nb pd q r => wrQ 0x01 nb pd q r
  | .qbind q p i => opfn 0xC0 0x02 + q.toNat * 2 ^ 14 + p.toNat * 2 ^ 30 + i.toNat * 2 ^ 34
  | .tcopy nb pd e r => opfn 0xC0 0x03 + b2n e * 2 ^ 14 + r.toNat * 2 ^ 19 + b2n nb * 2 ^ 26 + pd.toNat * 2 ^ 27
  | .own s n o => opfn 0xC1 0x00 + s.toNat * 2 ^ 29 + n.toNat * 2 ^ 36 + o.toNat * 2 ^ 43
  | .tmma o => opfn 0xC2 0x00 + o.td.toNat * 2 ^ 14 + o.qa.toNat * 2 ^ 18 + o.qb.toNat * 2 ^ 23
      + o.fsa.toNat * 2 ^ 28 + o.fsb.toNat * 2 ^ 32 + o.tid.toNat * 2 ^ 36 + o.aoff.toNat * 2 ^ 44
      + o.boff.toNat * 2 ^ 48 + b2n o.popa * 2 ^ 52 + b2n o.popb * 2 ^ 53
  | .tzero d => opfn 0xC2 0x01 + d.toNat * 2 ^ 14
  | .talloc d => opfn 0xC2 0x02 + d.toNat * 2 ^ 14
  | .tfree d => opfn 0xC2 0x03 + d.toNat * 2 ^ 14
  | .tld _ o => opfn 0xC3 0x00 + o.vd.toNat * 2 ^ 14 + o.t.toNat * 2 ^ 21 + o.fs.toNat * 2 ^ 35
      + o.fs.toNat * 2 ^ 39 + o.row0.toNat * 2 ^ 51
  | .tst _ o => opfn 0xC4 0x00 + o.t.toNat * 2 ^ 14 + o.base.toNat * 2 ^ 21 + o.fs.toNat * 2 ^ 34
      + o.cache.toNat * 2 ^ 38 + o.off.toNat * 2 ^ 40
  | .ujobCommit a => opfn 0xC5 0x00 + a.toNat * 2 ^ 26
  | .ujobDrop a => opfn 0xC5 0x01 + a.toNat * 2 ^ 26
  | .cxClaim d w => wrC 0x00 0 0 0 d.toNat 0 0 w
  | .cxFree => wrC 0x01 0 0 0 0 0 0 false
  | .cxClr k => wrC 0x02 0 0 0 0 0 0 k
  | .cxLdc va xa col app => wrC 0x03 0 va.toNat xa.toNat 0 0 col.toNat app
  | .cxDis xa col en => wrC 0x04 0 0 xa.toNat 0 0 col.toNat en
  | .cxAsg xa n => wrC 0x05 0 0 xa.toNat 0 0 0 n
  | .cxProp d a => wrC 0x06 0 0 0 d.toNat 0 0 a
  | .cxBt xa l => wrC 0x07 0 0 xa.toNat 0 l.toNat 0 false
  | .cxLvl all d a v => wrC 0x08 v.toNat 0 a.toNat d.toNat 0 0 all
  | .cxTrl v d a => wrC 0x09 v.toNat 0 a.toNat d.toNat 0 0 false
  | .cxCfl v d a => wrC 0x0A v.toNat 0 a.toNat d.toNat 0 0 false
  | .cxSt d => wrC 0x0B 0 0 0 d.toNat 0 0 false
  | .trap c => opfn 0xE0 0x00 + c.toNat * 2 ^ 31
  | .rett => opfn 0xE0 0x01
  | .brk c => opfn 0xE0 0x02 + c.toNat * 2 ^ 31
  | .rdsr d s => opfn 0xE0 0x03 + s.toNat * 2 ^ 14 + d.toNat * 2 ^ 26
  | .wrsr s a => opfn 0xE0 0x04 + s.toNat * 2 ^ 14 + a.toNat * 2 ^ 26
  | _ => 0

/-- The XP word (R135). -/
def encodeXp (x : Xp) : Nat :=
  0xF + x.km.toNat * 2 ^ 8 + b2n x.mz * 2 ^ 11 + x.ro.toNat * 2 ^ 12 + x.vc.toNat * 2 ^ 15 + b2n x.so * 2 ^ 22
    + b2n x.sv * 2 ^ 23

/-- The PB word (R138). -/
def encodePb (p : Pb) : Nat :=
  0x1F + p.pr.toNat * 2 ^ 8 + p.len.toNat * 2 ^ 11 + p.pat.toNat * 2 ^ 14

/-- The words of an instruction, first word first (R127, R129). -/
def encode (i : Instr) : List Nat :=
  let w := encodeBase i
  (match i.xp with
   | some x => [encodeXp x]
   | none => []) ++ [w % 2 ^ 32, w / 2 ^ 32]

end Sys2Proof
end

