-- ==== Sys2Proof/Machine/Depend.lean ====
section
/-!
DEFINITION. Which registers an instruction reads and writes, which wait counter it counts on, and whether it accesses
memory: what the interlock of R79, the deferred reports of R356 and the stalls of R120 and R143 ask of it.
-/

namespace Sys2Proof.Machine

/-- A register, with its partner when the operand is block-scaled (R65). -/
def pair (b : Bool) (r : BitVec 7) : List Nat := if b then [r.toNat, r.toNat + 1] else [r.toNat]

def run (n : Nat) (r : BitVec 7) : List Nat := (List.range n).map (r.toNat + ·)

/-- The fourth operand: VC where a prefix is present, VD otherwise (R137). -/
def vcReg (xp : Option Xp) (vd : BitVec 7) : BitVec 7 :=
  match xp with
  | some x => x.vc
  | none => vd

/-- A slot image is block-scaled: its BLK field is nonzero (R49). -/
def imgBlk (w : Word) : Bool := bitsOf w.toNat 43 3 ≠ 0

def Team.blk (t : Team) (i : BitVec 4) : Bool := imgBlk (t.getFs i.toNat)

/-- Vector registers read: the sources, given which slots are block-scaled. -/
def vreads (blk : BitVec 4 → Bool) (i : Instr) : List Nat :=
  match i with
  | .vadd _ o | .vsub _ o | .vmul _ o | .vdiv _ o | .vmin _ o | .vmax _ o =>
    pair (blk o.fsa || blk o.fs) o.va ++ pair (blk o.fsa || blk o.fs) o.vb
  | .vabs _ o | .vneg _ o | .vredsum _ o | .vredmax _ o | .vredmin _ o | .vrcp _ o | .vsqrt _ o | .vrsqrt _ o
  | .vexp2 _ o | .vlog2 _ o | .vsinpi _ o | .vcospi _ o | .vtanh _ o | .vrint _ o =>
    pair (blk o.fsa || blk o.fs) o.va
  | .vfma xp o | .vfms xp o | .vfnma xp o | .vfnms xp o =>
    let b := blk o.fsa || blk o.fs
    pair b o.va ++ pair b o.vb ++ pair b (vcReg xp o.vd)
  | .vcmpeq _ o | .vcmpne _ o | .vcmplt _ o | .vcmple _ o | .vcmpun _ o => pair (blk o.fs) o.va ++ pair (blk o.fs) o.vb
  | .vclass _ o => pair (blk o.fs) o.va
  | .vsel _ o => [o.va.toNat, o.vb.toNat, o.vm.toNat]
  | .vdot _ o => pair (blk o.fsa || blk o.fsb) o.va ++ pair (blk o.fsa || blk o.fsb) o.vb
  | .vdota xp o =>
    pair (blk o.fsa || blk o.fsb) o.va ++ pair (blk o.fsa || blk o.fsb) o.vb ++ pair (blk o.fs) (vcReg xp o.vd)
  | .vand _ o | .vor _ o | .vxor _ o | .vandn _ o => [o.va.toNat, o.vb.toNat]
  | .vshl _ o | .vshr _ o | .vsar _ o => if o.immf then [o.va.toNat] else [o.va.toNat, o.vb.toNat]
  | .vcvt _ o => pair (blk o.fsa) o.va
  | .vbcastl _ _ va _ | .vmov _ va _ | .vpat _ _ va _ | .vxchg _ _ va _ => [va.toNat]
  | .vshfl _ vb va _ => [va.toNat, vb.toNat]
  | .vrot _ o => [o.va.toNat]
  | .vgetx o => [o.v.toNat]
  | .vpatld _ va | .fscmp _ va => [va.toNat]
  | .st8 _ o | .st16 _ o | .st32 _ o | .st64 _ o => [o.reg.toNat]
  | .stp _ o => pair (blk o.fs) o.reg
  | .ldg _ o | .stg _ o => if i matches .stg .. then [o.va.toNat, o.vd.toNat] else [o.va.toNat]
  | .sst _ o => [o.reg.toNat]
  | .aadd _ o | .aand _ o | .aor _ o | .axor _ o | .amin _ o | .amax _ o | .aminu _ o | .amaxu _ o | .aswp _ o
  | .redAdd _ o | .redAnd _ o | .redOr _ o | .redXor _ o | .redMin _ o | .redMax _ o | .redMinu _ o | .redMaxu _ o
  | .osRun _ o | .osEnq _ o | .osChase _ o => [o.va.toNat, o.vd.toNat]
  | .acas _ o => [o.va.toNat, o.vd.toNat, o.vd.toNat + 1]
  | .osCas4 _ o => o.va.toNat :: run 8 o.vd
  | .hgath _ o => [o.va.toNat]
  | .qpush _ _ _ reg | .tcopy _ _ _ reg => [reg.toNat]
  | .cxLdc va _ _ _ => [va.toNat]
  | _ => []

/-- Vector registers written. -/
def vwrites (blk : BitVec 4 → Bool) (i : Instr) : List Nat :=
  match i with
  | .vadd _ o | .vsub _ o | .vmul _ o | .vdiv _ o | .vmin _ o | .vmax _ o | .vfma _ o | .vfms _ o | .vfnma _ o
  | .vfnms _ o => pair (blk o.fs) o.vd
  | .vabs _ o | .vneg _ o | .vredsum _ o | .vredmax _ o | .vredmin _ o | .vrcp _ o | .vsqrt _ o | .vrsqrt _ o
  | .vexp2 _ o | .vlog2 _ o | .vsinpi _ o | .vcospi _ o | .vtanh _ o | .vrint _ o => pair (blk o.fs) o.vd
  | .vcmpeq _ o | .vcmpne _ o | .vcmplt _ o | .vcmple _ o | .vcmpun _ o => if o.pdst then [] else [o.vd.toNat]
  | .vclass _ o => if o.pdst then [] else [o.vd.toNat]
  | .vsel _ o => [o.vd.toNat]
  | .vdot _ o | .vdota _ o => pair (blk o.fs) o.vd
  | .vand _ o | .vor _ o | .vxor _ o | .vandn _ o => [o.vd.toNat]
  | .vshl _ o | .vshr _ o | .vsar _ o => [o.vd.toNat]
  | .vcvt _ o => pair (blk o.fs) o.vd
  | .vtid _ _ fs vd => pair (blk fs) vd
  | .vbcastl _ _ _ vd | .vmov _ _ vd | .vpat _ _ _ vd | .vxchg _ _ _ vd | .vshfl _ _ _ vd => [vd.toNat]
  | .vbcast _ _ _ vd => [vd.toNat]
  | .vrot _ o => [o.vd.toNat]
  | .vsetx o => [o.v.toNat]
  | .ld8 _ o | .ld16 _ o | .ld32 _ o | .ld64 _ o | .ld8s _ o | .ld16s _ o | .ld32s _ o => [o.reg.toNat]
  | .ldp _ o => pair (blk o.fs) o.reg
  | .ldg _ o => [o.vd.toNat]
  | .sld _ o | .sldt _ o => [o.reg.toNat]
  | .aadd _ o | .aand _ o | .aor _ o | .axor _ o | .amin _ o | .amax _ o | .aminu _ o | .amaxu _ o | .aswp _ o
  | .acas _ o | .osRun _ o | .osEnq _ o | .osChase _ o => [o.vd.toNat]
  | .osCas4 _ o => run 8 o.vd
  | .hgath _ o => run (o.wid.toNat + 1) o.vd
  | .qpop _ _ _ reg => [reg.toNat]
  | .tld _ o => pair (blk o.fs) o.vd
  | .cxLvl all _ _ vd => if all then [vd.toNat] else []
  | .cxTrl vd _ _ | .cxCfl vd _ _ => [vd.toNat]
  | _ => []

/-- The prefix and the slot under which an instruction rounds results: where the mode is stochastic, it reads x30 (R62). -/
def roundsUnder (i : Instr) : Option (Option Xp × BitVec 4) :=
  match i with
  | .vadd xp o | .vsub xp o | .vmul xp o | .vdiv xp o | .vmin xp o | .vmax xp o | .vfma xp o | .vfms xp o | .vfnma xp o
  | .vfnms xp o => some (xp, o.fs)
  | .vabs xp o | .vneg xp o | .vredsum xp o | .vredmax xp o | .vredmin xp o | .vrcp xp o | .vsqrt xp o | .vrsqrt xp o
  | .vexp2 xp o | .vlog2 xp o | .vsinpi xp o | .vcospi xp o | .vtanh xp o | .vrint xp o => some (xp, o.fs)
  | .vdot xp o | .vdota xp o => some (xp, o.fs)
  | .vcvt xp o => some (xp, o.fs)
  | .vtid xp _ fs _ => some (xp, fs)
  | .tld xp o => some (xp, o.fs)
  | .tst xp o => some (xp, o.fs)
  | _ => none

/-- Scalar registers that an instruction names and reads. -/
def xreads (blk : BitVec 4 → Bool) (i : Instr) : List Nat :=
  match i with
  | .launch x _ | .ret x | .jr x _ | .emset x | .pset _ x _ | .lhi x _ | .fsset _ x | .ujobCommit x | .ujobDrop x
  | .cxDis x _ _ | .cxAsg x _ | .cxBt x _ | .wrsr _ x | .vbcast _ _ x _ | .barwt x _ _ | .cxLdc _ x _ _ => [x.toNat]
  | .homeq _ b | .clz _ b | .ctz _ b | .popc _ b | .bswap _ b | .addi _ b _ | .andi _ b _ | .ori _ b _ | .xori _ b _
  | .shli _ b _ | .shri _ b _ | .sari _ b _ | .cxLvl _ _ b _ | .cxTrl _ _ b | .cxCfl _ _ b => [b.toNat]
  | .add _ b c | .sub _ b c | .mul _ b c | .mulh _ b c | .mulhu _ b c | .div _ b c | .divu _ b c | .rem _ b c
  | .remu _ b c | .and _ b c | .or _ b c | .xor _ b c | .andn _ b c | .shl _ b c | .shr _ b c | .sar _ b c
  | .rol _ b c | .ror _ b c | .seq _ b c | .sne _ b c | .slt _ b c | .sltu _ b c | .sle _ b c | .sleu _ b c
  | .min _ b c | .max _ b c | .minu _ b c | .maxu _ b c => [b.toNat, c.toNat]
  | .bind _ a b c => [a.toNat, b.toNat, c.toNat]
  | .vsetx o => [o.x.toNat]
  | .ld8 _ o | .ld16 _ o | .ld32 _ o | .ld64 _ o | .ld8s _ o | .ld16s _ o | .ld32s _ o | .st8 _ o | .st16 _ o
  | .st32 _ o | .st64 _ o => [o.base.toNat]
  | .ldp _ o | .stp _ o => if blk o.fs then [o.base.toNat, o.base.toNat + 1] else [o.base.toNat]
  | .tst _ o => if blk o.fs then [o.base.toNat, o.base.toNat + 1] else [o.base.toNat]
  | .ldx o => [o.base.toNat]
  | .stx o => [o.base.toNat, o.x.toNat]
  | .ldg _ o | .stg _ o | .aadd _ o | .aand _ o | .aor _ o | .axor _ o | .amin _ o | .amax _ o | .aminu _ o
  | .amaxu _ o | .aswp _ o | .acas _ o | .redAdd _ o | .redAnd _ o | .redOr _ o | .redXor _ o | .redMin _ o
  | .redMax _ o | .redMinu _ o | .redMaxu _ o | .osCas4 _ o | .osEnq _ o | .osChase _ o | .osRun _ o | .hgath _ o =>
    [o.base.toNat]
  | .sld _ o | .sst _ o | .sldt _ o => [o.base.toNat]
  | .pf _ _ b => [b.toNat]
  | .icinv o | .dcinv o => [o.base.toNat, o.x.toNat]
  | _ => []

/-- Scalar registers that an instruction writes: `call` writes x31 (R149), and `rett` restores x28–x31 (R341). -/
def xwrites (i : Instr) : List Nat :=
  match i with
  | .call _ => [31]
  | .rett => [28, 29, 30, 31]
  | .locq x | .emget x | .pget x _ | .pany x _ | .pall x _ | .pcnt x _ | .li x _ | .lhi x _ | .addpc x _ | .fsget x _
  | .cxClaim x _ | .cxProp x _ | .cxSt x | .rdsr x _ | .barar x _ _ _ => [x.toNat]
  | .homeq a _ | .clz a _ | .ctz a _ | .popc a _ | .bswap a _ | .addi a _ _ | .andi a _ _ | .ori a _ _ | .xori a _ _
  | .shli a _ _ | .shri a _ _ | .sari a _ _ | .cxLvl _ a _ _ | .cxTrl _ a _ | .cxCfl _ a _ => [a.toNat]
  | .add a _ _ | .sub a _ _ | .mul a _ _ | .mulh a _ _ | .mulhu a _ _ | .div a _ _ | .divu a _ _ | .rem a _ _
  | .remu a _ _ | .and a _ _ | .or a _ _ | .xor a _ _ | .andn a _ _ | .shl a _ _ | .shr a _ _ | .sar a _ _
  | .rol a _ _ | .ror a _ _ | .seq a _ _ | .sne a _ _ | .slt a _ _ | .sltu a _ _ | .sle a _ _ | .sleu a _ _
  | .min a _ _ | .max a _ _ | .minu a _ _ | .maxu a _ _ => [a.toNat]
  | .vgetx o => [o.x.toNat]
  | .ldx o => [o.x.toNat]
  | _ => []

/-- The wait counter an instruction increments (R141, R142). -/
def cntClass (i : Instr) : Option Cnt :=
  match i with
  | .ld8 .. | .ld16 .. | .ld32 .. | .ld64 .. | .ld8s .. | .ld16s .. | .ld32s .. | .ldp .. | .ldx .. | .ldg ..
  | .aadd .. | .aand .. | .aor .. | .axor .. | .amin .. | .amax .. | .aminu .. | .amaxu .. | .aswp .. | .acas ..
  | .osCas4 .. | .osEnq .. | .osChase .. | .osRun .. | .hgath .. => some .ld
  | .st8 .. | .st16 .. | .st32 .. | .st64 .. | .stp .. | .stx .. | .stg ..
  | .redAdd .. | .redAnd .. | .redOr .. | .redXor .. | .redMin .. | .redMax .. | .redMinu .. | .redMaxu .. => some .st
  | .tmma .. | .tzero .. | .tld .. | .tst .. => some .tl
  | .tcopy .. => some .cp
  | _ => none

/-- An instruction of the clause array (R262). -/
def isCx (i : Instr) : Bool :=
  match i with
  | .cxClaim .. | .cxFree | .cxClr .. | .cxLdc .. | .cxDis .. | .cxAsg .. | .cxProp .. | .cxBt .. | .cxLvl .. | .cxTrl ..
  | .cxCfl .. | .cxSt .. => true
  | _ => false

/-- A release that R115 orders after every earlier operation (R356): an arrival (R160), or `launch` (R152). -/
def releasesAll (i : Instr) : Bool :=
  match i with
  | .bar .. | .barar .. | .launch .. => true
  | _ => false

/-- An instruction before which every failure of an earlier operation stops the team, and which therefore waits until those
operations are over (R356, log 44). -/
def waitsAll (i : Instr) : Bool :=
  releasesAll i || match i with
    | .exit => true
    | _ => false

end Sys2Proof.Machine
end

