-- ==== Sys2Proof/Machine/Rational.lean ====
section
/-!
DEFINITION. Exact values: rationals, and the values of elements (a NaN, infinities, signed zeros, and nonzero rationals) with
the arithmetic of R55 and the choice between neighbours of R60 and R61.
-/

namespace Sys2Proof.Machine

/-- A rational, not necessarily in lowest terms; `den` is positive. -/
structure Q where
  num : Int
  den : Nat
  deriving DecidableEq, Repr

def Q.ofInt (i : Int) : Q := ⟨i, 1⟩

/-- n · 2^k. -/
def Q.scaled (n : Int) (k : Int) : Q := if k < 0 then ⟨n, 2 ^ k.natAbs⟩ else ⟨n * 2 ^ k.natAbs, 1⟩

/-- Lowest terms. -/
def Q.norm (a : Q) : Q :=
  let g := Nat.gcd a.num.natAbs a.den
  ⟨a.num / (g : Int), a.den / g⟩

def Q.neg (a : Q) : Q := ⟨-a.num, a.den⟩

/-- The sum; where one denominator divides the other it is kept (every dyadic denominator is a power of two). -/
def Q.add (a b : Q) : Q :=
  if b.den % a.den = 0 then ⟨a.num * (b.den / a.den : Nat) + b.num, b.den⟩
  else if a.den % b.den = 0 then ⟨a.num + b.num * (a.den / b.den : Nat), a.den⟩
  else ⟨a.num * b.den + b.num * a.den, a.den * b.den⟩

def Q.sub (a b : Q) : Q := a.add b.neg
def Q.mul (a b : Q) : Q := ⟨a.num * b.num, a.den * b.den⟩

/-- The quotient; `b` is not 0. -/
def Q.div (a b : Q) : Q :=
  if b.num < 0 then ⟨-(a.num * b.den), a.den * b.num.natAbs⟩ else ⟨a.num * b.den, a.den * b.num.natAbs⟩

/-- a · 2^k. -/
def Q.shift (a : Q) (k : Int) : Q := if k < 0 then ⟨a.num, a.den * 2 ^ k.natAbs⟩ else ⟨a.num * 2 ^ k.natAbs, a.den⟩

def Q.abs (a : Q) : Q := ⟨a.num.natAbs, a.den⟩
def Q.lt (a b : Q) : Bool := a.num * b.den < b.num * a.den
def Q.le (a b : Q) : Bool := a.num * b.den ≤ b.num * a.den
def Q.eq (a b : Q) : Bool := a.num * b.den = b.num * a.den
def Q.max (a b : Q) : Q := if a.lt b then b else a
def Q.floor (a : Q) : Int := a.num / a.den

/-- floor(log2 |a|); `a` is not 0. -/
def Q.log2 (a : Q) : Int :=
  let n := a.num.natAbs
  let k : Int := (Nat.log2 n : Int) - Nat.log2 a.den
  -- 2^k ≤ |a| or 2^(k-1) ≤ |a| < 2^k
  if (Q.scaled 1 k).le ⟨n, a.den⟩ then k else k - 1

/-- The exact value of an element or of a result: a finite nonzero value is `fin`. -/
inductive Val where
  | nan
  | inf (neg : Bool)
  | zero (neg : Bool)
  | fin (q : Q)
  deriving DecidableEq, Repr

/-- A rational as a value; `neg` is the sign of an exact zero. -/
def Val.ofQ (neg : Bool) (q : Q) : Val := if q.num = 0 then .zero neg else .fin q

def Val.isNeg : Val → Bool
  | .nan => false
  | .inf n => n
  | .zero n => n
  | .fin q => q.num < 0

def Val.neg : Val → Val
  | .nan => .nan
  | .inf n => .inf !n
  | .zero n => .zero !n
  | .fin q => .fin q.neg

def Val.abs : Val → Val
  | .nan => .nan
  | .inf _ => .inf false
  | .zero _ => .zero false
  | .fin q => .fin q.abs

/-- The sum: ∞ − ∞ is NaN; a zero that opposite signs cancel to is −0 under `rdn` and +0 otherwise; zeros of one sign
keep it (R55). -/
def Val.add (rnd : Nat) (a b : Val) : Val :=
  match a, b with
  | .nan, _ => .nan
  | _, .nan => .nan
  | .inf m, .inf n => if m = n then .inf m else .nan
  | .inf m, _ => .inf m
  | _, .inf n => .inf n
  | .zero m, .zero n => if m = n then .zero m else .zero (rnd = 2)
  | .zero _, .fin q => .fin q
  | .fin q, .zero _ => .fin q
  | .fin p, .fin q => Val.ofQ (rnd = 2) (p.add q)

/-- The product: 0 · ∞ is NaN; the sign is that of the operands (R55). -/
def Val.mul (a b : Val) : Val :=
  let n := a.isNeg != b.isNeg
  match a, b with
  | .nan, _ => .nan
  | _, .nan => .nan
  | .inf _, .zero _ => .nan
  | .zero _, .inf _ => .nan
  | .inf _, _ => .inf n
  | _, .inf _ => .inf n
  | .zero _, _ => .zero n
  | _, .zero _ => .zero n
  | .fin p, .fin q => .fin (p.mul q)

/-- The quotient: 0 / 0 and ∞ / ∞ are NaN; x / ±0 is infinite (R55, R177). -/
def Val.div (a b : Val) : Val :=
  let n := a.isNeg != b.isNeg
  match a, b with
  | .nan, _ => .nan
  | _, .nan => .nan
  | .inf _, .inf _ => .nan
  | .zero _, .zero _ => .nan
  | .inf _, _ => .inf n
  | _, .zero _ => .inf n
  | .zero _, _ => .zero n
  | _, .inf _ => .zero n
  | .fin p, .fin q => .fin (p.div q)

/-- Strictly less, with −0 below +0 under `zeros` (R177); false where an operand is NaN. -/
def Val.lt (zeros : Bool) (a b : Val) : Bool :=
  match a, b with
  | .nan, _ => false
  | _, .nan => false
  | .inf m, .inf n => m && !n
  | .inf m, _ => m
  | _, .inf n => !n
  | .zero m, .zero n => zeros && m && !n
  | .zero _, .fin q => 0 < q.num
  | .fin p, .zero _ => p.num < 0
  | .fin p, .fin q => p.lt q

def Val.isNan (a : Val) : Bool := a = .nan

/-- Equal, with −0 equal to +0; false where an operand is NaN (R179). -/
def Val.eq (a b : Val) : Bool := !a.isNan && !b.isNan && !a.lt false b && !b.lt false a

/-- The smaller and the larger, NaN where an operand is NaN, −0 below +0 (R177). -/
def Val.min (a b : Val) : Val := if a.isNan || b.isNan then .nan else if b.lt true a then b else a
def Val.max (a b : Val) : Val := if a.isNan || b.isNan then .nan else if a.lt true b then b else a

def Val.isFinite : Val → Bool
  | .zero _ => true
  | .fin _ => true
  | _ => false

/-- What Val is of a rational that may be 0. -/
def Val.toQ : Val → Q
  | .fin q => q
  | _ => ⟨0, 1⟩

/-! ## Choosing a neighbour (R60, R61) -/

/-- G of R61. -/
def gMix (seed ctr : Nat) : Nat :=
  let z := (seed + ctr * 0x9E3779B97F4A7C15) % 2 ^ 64
  let z := (z ^^^ (z >>> 30)) * 0xBF58476D1CE4E5B9 % 2 ^ 64
  let z := (z ^^^ (z >>> 27)) * 0x94D049BB133111EB % 2 ^ 64
  z ^^^ (z >>> 31)

/-- Where stochastic rounding draws: seed, record index, and the element index with which the element at a place draws
(R62). -/
structure Draw where
  seed : Nat
  record : Nat
  elem : Nat → Nat

/-- h of R61 for the element at a place. -/
def Draw.h (d : Draw) (i : Nat) : Nat := gMix d.seed (d.record * 2 ^ 24 + d.elem i) / 2 ^ 32

/-- Whether the farther neighbour is chosen, for d = num / den in (0, 1); `lo1` and `hi1` are the lowest stored bits of
the neighbours (R60). `open1` answers where both are 0 (log 20). -/
def chooseHi (rnd : Nat) (neg lo1 hi1 open1 : Bool) (num den h : Nat) : Bool :=
  match rnd with
  | 0 => if den < 2 * num then true else if 2 * num < den then false else if lo1 == hi1 then open1 else lo1
  | 1 => false
  | 2 => neg
  | 3 => !neg
  | 4 => den ≤ 2 * num
  | 5 => h * den < num * 2 ^ 32
  | _ => if lo1 == hi1 then open1 else hi1

/-- A rational rounded to an integer under RND (R58, R185). -/
def roundInt (rnd h : Nat) (q : Q) : Int :=
  let n := q.num.natAbs
  let lo := n / q.den
  let r := n % q.den
  let odd := lo % 2 == 1
  let m := if r ≠ 0 && chooseHi rnd (q.num < 0) odd (!odd) false r q.den h then lo + 1 else lo
  if q.num < 0 then -(m : Int) else m

end Sys2Proof.Machine
end

