-- ==== Sys2Proof/Machine/Formats.lean ====
section
/-!
DEFINITION. Format slots (R49–R71): the fields of a slot image, its checks, the decoding of an element into an exact value
and the rounding of an exact value back, with companding, block scales and zero points.
-/

namespace Sys2Proof.Machine

/-! ## The slot image (R49–R51) -/

/-- The fields of a slot image (R49). -/
structure Fmt where
  kind : Nat
  sgn : Nat
  exw : Nat
  mfw : Nat
  bias : Int
  subn : Nat
  infe : Nat
  nane : Nat
  rnd : Nat
  sat : Nat
  kpar : Nat
  blk : Nat
  bsf : Nat
  cmpd : Nat
  deriving DecidableEq, Repr

def fmtOf (img : Word) : Fmt :=
  let w := img.toNat
  ⟨bitsOf w 0 3, bitsOf w 3 1, bitsOf w 4 4, bitsOf w 8 6, sextNat 13 (bitsOf w 14 13), bitsOf w 27 2, bitsOf w 29 2,
    bitsOf w 31 2, bitsOf w 33 3, bitsOf w 36 2, bitsOf w 38 5, bitsOf w 43 3, bitsOf w 46 2, bitsOf w 48 4⟩

/-- The element width W of a kind (R50). -/
def Fmt.width (f : Fmt) : Nat :=
  match f.kind with
  | 0 => f.sgn + f.exw + f.mfw
  | 1 => f.mfw
  | _ => if f.kpar = 31 then 64 else f.kpar + 2

/-- Elements per register under a slot (R72, R174). -/
def Fmt.count (f : Fmt) : Nat := 2048 / f.width

/-- Elements per block; 0 when the slot has no blocks (R65). -/
def Fmt.block (f : Fmt) : Nat :=
  match f.blk with
  | 0 => 0
  | 1 => 16
  | 2 => 32
  | _ => 64

/-- The field conditions of R50 for the slot's kind. -/
def Fmt.kindOk (f : Fmt) : Bool :=
  (f.blk ≠ 0 || f.bsf = 0) &&
  match f.kind with
  | 0 => 2 ≤ f.width && f.width ≤ 64 && 1 ≤ f.exw && f.exw ≤ 11 && f.mfw ≤ 52 && f.kpar = 0 &&
      (f.infe = 0 && f.nane = 0 || f.infe = 0 && f.nane = 2 || f.infe = 1 && f.nane = 1) &&
      (f.blk = 0 || f.bsf = 0 && f.cmpd = 0)
  | 1 => 3 ≤ f.mfw && f.mfw ≤ 32 && f.sgn = 1 && f.exw = 0 && f.kpar ≤ 4 && f.bias = 0 && f.subn = 0 && f.infe = 0 &&
      f.nane = 3 && f.blk = 0 && f.cmpd = 0
  | 2 => f.sgn = 0 && f.exw = 0 && f.mfw = 0 && f.bias = 0 && f.subn = 0 && f.infe = 0 && f.nane = 0 && f.blk ≠ 0 &&
      f.bsf = 1 && f.cmpd = 0
  | _ => f.exw = 0 && f.mfw = 0 && f.bias = 0 && f.subn = 0 && f.infe = 0 && f.nane = 0 && f.blk = 0

/-- Why an image cannot be used, by the REASON codes 1–3 of R375; 0 when it is well formed. -/
def fmtReason (img : Word) : Nat :=
  let f := fmtOf img
  if f.kind = 4 then 1
  else if bitsOf img.toNat 52 12 ≠ 0 || 5 ≤ f.kind || 2 ≤ f.bsf || 4 ≤ f.blk || f.sat = 3 || f.rnd = 7 || 2 ≤ f.infe then 2
  else if f.kindOk then 0 else 3

/-- What a slot holds at team start without a `.fslot` image (R51). -/
def resetImage (slot : Nat) : Word :=
  BitVec.ofNat 64 ([0x07C00000000B, 0x07800000000B, 0xA01FD788, 0xA003CA58, 0xA01FC788, 0x00110001C348, 0xA003C258,
    0x101000004128, 0xA0FFF4B8, 0x519000000002, 0x005180000809, 0x001180000609].getD slot 4)

/-- The significand precision p (R71). -/
def Fmt.precision (f : Fmt) : Nat :=
  if f.cmpd ≠ 0 then 24
  else match f.kind with
    | 0 => f.mfw + 1
    | 1 => f.mfw - 2 - f.kpar
    | 2 => f.width + 1
    | _ => f.width

/-! ## Companding (R68–R70) -/

/-- The segments of a companding table, lowest first: xj, yj and sj. -/
abbrev Curve := List (Q × Q × Int)

/-- A binary32 number that is finite, from its bits. -/
def binary32 (w : Nat) : Option Q :=
  let e := bitsOf w 23 8
  let f := bitsOf w 0 23
  let n : Int := if bitOf w 31 then -1 else 1
  if e = 255 then none
  else if e = 0 then some (Q.scaled (n * f) (-149))
  else some (Q.scaled (n * (2 ^ 23 + f : Nat)) ((e : Int) - 150))

/-- The breakpoints x1 … x15 of a table's register image, and the slopes (R69). -/
def tableX (v : VReg) : List (Option Q) := (List.range 15).map fun j => binary32 (bitsOf v.toNat (32 * j) 32)
def tableS (v : VReg) : List Int := (List.range 16).map fun j => sextNat 8 (bitsOf v.toNat (8 * (64 + j)) 8)

/-- Strictly rising from above `lo`, all finite. -/
def risingFrom : Q → List (Option Q) → Bool
  | _, [] => true
  | _, none :: _ => false
  | lo, some x :: xs => lo.lt x && risingFrom x xs

/-- The source register of `fscmp` meets R69. -/
def tableOk (v : VReg) : Bool :=
  risingFrom ⟨0, 1⟩ (tableX v) && (tableS v).all fun k => -32 ≤ k && k ≤ 32

/-- The segments from a breakpoint on: y(j+1) = yj + (x(j+1) − xj) · 2^sj (R68). -/
def curveFrom : Q → Q → List (Option Q) → List Int → Curve
  | x, y, [], k :: _ => [(x, y, k)]
  | x, y, n :: xs, k :: ks =>
    let x' := n.getD x
    (x, y, k) :: curveFrom x' (y.add ((x'.sub x).shift k)) xs ks
  | _, _, _, [] => []

def curveOf (v : VReg) : Curve := curveFrom ⟨0, 1⟩ ⟨0, 1⟩ (tableX v) (tableS v)

/-- Forward on a magnitude (R68). -/
def forwardMag (c : Curve) (q : Q) : Q :=
  match c.reverse.find? fun e => e.1.le q with
  | some (x, y, k) => y.add ((q.sub x).shift k)
  | none => q

/-- Inverse on a magnitude (R68). -/
def inverseMag (c : Curve) (q : Q) : Q :=
  match c.reverse.find? fun e => e.2.1.le q with
  | some (x, y, k) => x.add ((q.sub y).shift (-k))
  | none => q

/-- A curve applied to a value: sign and magnitude apart; specials and zeros pass. -/
def onMag (g : Q → Q) (v : Val) : Val :=
  match v with
  | .fin q => if q.num < 0 then .fin (g q.neg).neg else .fin (g q)
  | v => v

/-! ## A slot as an instruction uses it -/

/-- A slot an instruction has read: its image, its fields with the prefix's overrides, and its companding curve (R52). -/
structure Slot where
  img : Word
  f : Fmt
  curve : Option Curve
  deriving DecidableEq, Repr

/-- The overrides of the XP prefix (R64). -/
def Fmt.override (f : Fmt) (xp : Option Xp) : Fmt :=
  match xp with
  | none => f
  | some x => { f with
    rnd := if x.ro = 0 then f.rnd else x.ro.toNat - 1
    sat := if x.so then (if x.sv then 1 else 0) else f.sat }

/-! ## Float elements (R54, R55, R60–R63) -/

/-- The magnitude of a code without its sign, with the exponent unbounded above. -/
def Fmt.magOf (f : Fmt) (c : Nat) : Q :=
  let e := c >>> f.mfw
  let fr := c % 2 ^ f.mfw
  if e = 0 then Q.scaled fr (1 - f.bias - f.mfw) else Q.scaled (2 ^ f.mfw + fr : Nat) ((e : Int) - f.bias - f.mfw)

def Fmt.topCode (f : Fmt) : Nat := 2 ^ (f.exw + f.mfw) - 1

/-- The code of +∞ (R54). -/
def Fmt.infCode (f : Fmt) : Nat := (2 ^ f.exw - 1) * 2 ^ f.mfw

/-- The largest finite code (R54). -/
def Fmt.maxCode (f : Fmt) : Nat :=
  if f.infe = 1 then f.infCode - 1 else if f.nane = 2 then f.topCode - 1 else f.topCode

/-- The canonical NaN, where a code exists (R55). -/
def Fmt.nanCode (f : Fmt) : Option Nat :=
  if f.nane = 2 then some f.topCode
  else if f.nane = 1 && f.mfw ≠ 0 then some (f.infCode + 2 ^ (f.mfw - 1)) else none

/-- A float code as a value (R54). -/
def Fmt.decodeFloat (f : Fmt) (code : Nat) : Val :=
  let neg := f.sgn = 1 && bitOf code (f.exw + f.mfw)
  let c := code % 2 ^ (f.exw + f.mfw)
  let e := c >>> f.mfw
  let fr := c % 2 ^ f.mfw
  if e = 0 && (fr = 0 || f.subn = 1 || f.subn = 3) then .zero neg
  else if e ≠ 0 && f.infe = 1 && e = 2 ^ f.exw - 1 then (if fr = 0 then .inf neg else .nan)
  else if e ≠ 0 && f.nane = 2 && c = f.topCode then .nan
  else .fin (if neg then (f.magOf c).neg else f.magOf c)

/-- A magnitude's code with its sign; an unsigned slot has only +0 for what is negative (R55). -/
def Fmt.withSign (f : Fmt) (neg : Bool) (c : Nat) : Nat :=
  if neg then (if f.sgn = 1 then c + 2 ^ (f.exw + f.mfw) else 0) else c

/-- What overflow gives (R63). -/
def Fmt.overflow (f : Fmt) (neg : Bool) : Nat :=
  let max := f.withSign neg f.maxCode
  if f.sat ≠ 0 then max
  else if f.infe = 1 then
    if f.rnd = 1 || f.rnd = 6 || (f.rnd = 2 && !neg) || (f.rnd = 3 && neg) then max else f.withSign neg f.infCode
  else if neg && f.sgn = 0 then 0 else f.nanCode.getD max

/-- What ±∞ encodes as (R63). -/
def Fmt.encodeInf (f : Fmt) (neg : Bool) : Nat :=
  let max := f.withSign neg f.maxCode
  if f.sat ≠ 0 then max
  else if f.infe = 1 then f.withSign neg f.infCode
  else if neg && f.sgn = 0 then 0 else f.nanCode.getD max

/-- What NaN encodes as (R63). -/
def Fmt.encodeNan (f : Fmt) : Nat := if f.sat = 2 then 0 else f.nanCode.getD 0

/-- The neighbour codes of a magnitude and its place between them as a fraction (R60, R61): the code that is the slot's
NaN is no neighbour. -/
def Fmt.neighbours (f : Fmt) (q : Q) : Nat × Nat × Nat × Nat :=
  let k := if q.lt (Q.scaled 1 (1 - f.bias)) then 1 - f.bias else q.log2
  let t := q.shift (f.mfw - k)
  let fl := t.num.natAbs / t.den
  let lo := if q.lt (Q.scaled 1 (1 - f.bias)) then fl else (k + f.bias).toNat * 2 ^ f.mfw + (fl - 2 ^ f.mfw)
  let r := t.num.natAbs % t.den
  if f.nane = 2 && (lo = f.topCode || lo = f.topCode - 1) then
    let a := f.magOf (f.topCode - 1)
    let d := (q.sub a).div ((f.magOf (f.topCode + 1)).sub a)
    (f.topCode - 1, f.topCode + 1, d.num.natAbs, d.den)
  else (lo, lo + 1, r, t.den)

/-- Round a nonzero value into a float code (R60, R63). -/
def Fmt.encodeFloat (f : Fmt) (img : Word) (h : Nat) (q : Q) : Nat :=
  let neg := q.num < 0
  let m := q.abs
  if (f.subn = 1 || f.subn = 2) && m.lt (Q.scaled 1 (1 - f.bias)) then f.withSign neg 0
  else
    let (lo, hi, num, den) := f.neighbours m
    let open1 := Config.bothEven img q.norm.num q.norm.den
    let c := if num ≠ 0 && chooseHi f.rnd neg (lo % 2 == 1) (hi % 2 == 1) open1 num den h then hi else lo
    if f.maxCode < c then f.overflow neg else f.withSign neg c

/-! ## Tapered elements (R56, R57) -/

/-- The length of the run of bits equal to `b` in the `n` low bits of `u`, from the top. -/
def runLen (u : Nat) (b : Bool) : Nat → Nat
  | 0 => 0
  | n + 1 => if bitOf u n == b then runLen u b n + 1 else 0

/-- The value of a positive tapered code (R56). -/
def Fmt.taperMag (f : Fmt) (u : Nat) : Q :=
  let n := f.mfw - 1
  let b := bitOf u (n - 1)
  let run := runLen u b n
  let k : Int := if b then (run : Int) - 1 else -run
  let r := n - run - 1
  let rest := u % 2 ^ r
  let eb := min f.kpar r
  let fb := r - eb
  let e := (rest >>> fb) <<< (f.kpar - eb)
  Q.scaled (2 ^ fb + rest % 2 ^ fb : Nat) (k * (2 ^ f.kpar : Nat) + e - fb)

def Fmt.decodeTaper (f : Fmt) (code : Nat) : Val :=
  let w := 2 ^ f.mfw
  if code = 0 then .zero false
  else if code = w / 2 then .nan
  else if w / 2 < code then .fin (f.taperMag (w - code)).neg else .fin (f.taperMag code)

/-- The largest positive code whose value is at most `q`, among `c` with `n` low bits still open; 0 when none is. -/
def Fmt.taperFloor (f : Fmt) (q : Q) : Nat → Nat → Nat
  | 0, c => c
  | n + 1, c => if (f.taperMag (c + 2 ^ n)).le q then f.taperFloor q n (c + 2 ^ n) else f.taperFloor q n c

def Fmt.taperSign (f : Fmt) (neg : Bool) (c : Nat) : Nat := if neg then 2 ^ f.mfw - c else c

/-- Beyond the largest magnitude, and ±∞ (R57). -/
def Fmt.taperOver (f : Fmt) (neg : Bool) : Nat :=
  if f.sat = 0 then 2 ^ (f.mfw - 1) else f.taperSign neg (2 ^ (f.mfw - 1) - 1)

/-- Round a nonzero value into a tapered code (R57). -/
def Fmt.encodeTaper (f : Fmt) (h : Nat) (q : Q) : Nat :=
  let neg := q.num < 0
  let m := q.abs
  let top := 2 ^ (f.mfw - 1) - 1
  if (f.taperMag top).lt m then f.taperOver neg
  else
    let lo := f.taperFloor m (f.mfw - 1) 0
    if lo = 0 then f.taperSign neg 1
    else
      let a := f.taperMag lo
      if a.eq m then f.taperSign neg lo
      else
        let d := (m.sub a).div ((f.taperMag (lo + 1)).sub a)
        f.taperSign neg (if chooseHi f.rnd neg (lo % 2 == 1) (lo % 2 == 0) false d.num.natAbs d.den h then lo + 1 else lo)

/-! ## Integer elements (R58, R59) -/

def Fmt.intMin (f : Fmt) : Int := if f.sgn = 1 then -(2 ^ (f.width - 1) : Nat) else 0
def Fmt.intMax (f : Fmt) : Int := if f.sgn = 1 then (2 ^ (f.width - 1) : Nat) - 1 else (2 ^ f.width : Nat) - 1

def Fmt.decodeInt (f : Fmt) (code : Nat) : Val :=
  Val.ofQ false (Q.ofInt (if f.sgn = 1 then sextNat f.width code else code))

/-- An integer modulo 2^w. -/
def intBits (w : Nat) (i : Int) : Nat := (i % (2 ^ w : Nat)).toNat

def clampInt (lo hi i : Int) : Int := if i < lo then lo else if hi < i then hi else i

/-- A rounded integer under the slot's SAT (R58). -/
def Fmt.encodeInt (f : Fmt) (i : Int) : Nat :=
  intBits f.width (if f.sat = 0 then i else clampInt f.intMin f.intMax i)

/-- A rounded integer stored under a zero point (R59). -/
def Fmt.encodeOffset (f : Fmt) (zp i : Int) : Nat :=
  intBits f.width (if f.sat = 0 then i + zp else clampInt 0 ((2 ^ f.width : Nat) - 1) (i + zp))

/-! ## Decode and Round -/

/-- An element as an exact value (R54, R56, R58, R59, R66, R68): `byte` is the block's scale code or zero point. -/
def Slot.decode (sl : Slot) (code byte : Nat) : Val :=
  let f := sl.f
  match f.kind with
  | 1 => f.decodeTaper code
  | 2 => Val.ofQ false (Q.ofInt ((code : Int) - sextNat 8 byte))
  | 0 =>
    if f.blk ≠ 0 then
      if byte = 255 then .nan
      else match f.decodeFloat code with
        | .fin q => .fin (q.shift ((byte : Int) - 127))
        | v => v
    else match sl.curve with
      | some c => onMag (inverseMag c) (f.decodeFloat code)
      | none => f.decodeFloat code
  | _ => match sl.curve with
    | some c => onMag (inverseMag c) (f.decodeInt code)
    | none => f.decodeInt code

/-- Round a value into a code of the element format, before any block scale or zero point, `h` drawing under `rsr`
(R57, R58, R60, R63). -/
def Slot.roundElem (sl : Slot) (h : Nat) (v : Val) : Nat :=
  let f := sl.f
  match f.kind with
  | 0 => match v with
    | .nan => f.encodeNan
    | .inf n => f.encodeInf n
    | .zero n => f.withSign n 0
    | .fin q => f.encodeFloat sl.img h q
  | 1 => match v with
    | .nan => if f.sat = 2 then 0 else 2 ^ (f.mfw - 1)
    | .inf n => f.taperOver n
    | .zero _ => 0
    | .fin q => f.encodeTaper h q
  | _ => match v with
    | .nan => 0
    | .inf n => intBits f.width (if n then f.intMin else f.intMax)
    | .zero _ => 0
    | .fin q => f.encodeInt (roundInt f.rnd h q)

/-- Round of R60 into a slot without blocks: the companding curve, then the encoding. -/
def Slot.round (sl : Slot) (h : Nat) (v : Val) : Nat :=
  match sl.curve with
  | some c => sl.roundElem h (onMag (forwardMag c) v)
  | none => sl.roundElem h v

/-- A value stored under a zero point (R59, R176). -/
def Slot.roundOffset (sl : Slot) (zp : Int) (h : Nat) (v : Val) : Nat :=
  let f := sl.f
  match v with
  | .inf true => 0
  | .inf false => 2 ^ f.width - 1
  | v => f.encodeOffset zp (roundInt f.rnd h v.toQ)

/-- A value stored under a block's existing byte (R176). -/
def Slot.roundUnder (sl : Slot) (byte h : Nat) (v : Val) : Nat :=
  if sl.f.kind = 2 then sl.roundOffset (sextNat 8 byte) h v
  else if byte = 255 then 0
  else sl.roundElem h (match v with
    | .fin q => .fin (q.shift (127 - (byte : Int)))
    | v => v)

/-! ## Writing elements (R65, R66, R176) -/

/-- What an instruction does to one destination element: nothing; zero bits (R136); or the rounding of a value. -/
inductive Wr where
  | keep
  | zero
  | val (v : Val)
  deriving DecidableEq, Repr

def Wr.val? : Wr → Option Val
  | .val v => some v
  | _ => none

/-- emax of R66. -/
def Slot.emax (sl : Slot) : Int :=
  let q := sl.f.magOf sl.f.maxCode
  if q.num = 0 then Config.emaxOfNone sl.img else q.log2

/-- The scale code of a block of finite values (R66). -/
def Slot.scaleCode (sl : Slot) (vs : List Val) : Nat :=
  let big := vs.foldl (fun (b : Q) v => b.max v.toQ.abs) (Q.mk 0 1)
  ((if big.num = 0 then (-127 : Int) else clampInt (-127) 127 (big.log2 - sl.emax)) + 127).toNat

/-- The zero point of a block (R59). -/
def Slot.zeroPoint (sl : Slot) (draw : Draw) (vs : List (Nat × Val)) : Int :=
  let r := vs.filterMap fun e => match e.2 with
    | .inf _ => none
    | v => some (roundInt sl.f.rnd (draw.h e.1) v.toQ)
  match r with
  | [] => 0
  | a :: l => clampInt (-128) 127 (-(l.foldl (fun m i => if i < m then i else m) a))

/-- The byte of a block that is wholly written (R66, R59, R176). -/
def Slot.freshByte (sl : Slot) (draw : Draw) (vs : List (Nat × Val)) : Nat :=
  if sl.f.kind = 2 then intBits 8 (sl.zeroPoint draw vs)
  else if vs.isEmpty then 0
  else if vs.any fun e => !e.2.isFinite then 255
  else sl.scaleCode (vs.map Prod.snd)

/-- One block: its new byte, if it has one, and its new codes; `e0` is the number of its first element. -/
def Slot.encodeBlock (sl : Slot) (draw : Draw) (byte e0 : Nat) (ws : List Wr) : Option Nat × List (Option Nat) :=
  let iw := ws.zipIdx e0
  let codes (b : Nat) := iw.map fun e => match e.1 with
    | .keep => none
    | .zero => some 0
    | .val v => some (sl.roundUnder b (draw.h e.2) v)
  if ws.all fun w => w = .keep then (none, ws.map fun _ => none)
  else if ws.any fun w => w = .keep then (none, codes byte)
  else
    let b := sl.freshByte draw (iw.filterMap fun e => e.1.val?.map fun v => (e.2, v))
    (some b, codes b)

/-- Every element of an operand: its new code where it is written; and the new byte of each block wholly written, by block
number. `bytes` holds the old block bytes. -/
def Slot.encodeAll (sl : Slot) (draw : Draw) (bytes : Nat) (ws : List Wr) : List (Nat × Nat) × List (Option Nat) :=
  let b := sl.f.block
  if b = 0 then
    ([], ws.zipIdx.map fun e => match e.1 with
      | .keep => none
      | .zero => some 0
      | .val v => some (sl.round (draw.h e.2) v))
  else
    let rs := (List.range ((ws.length + b - 1) / b)).map fun j =>
      (j, sl.encodeBlock draw (bitsOf bytes (8 * j) 8) (j * b) ((ws.drop (j * b)).take b))
    (rs.filterMap fun r => r.2.1.map fun x => (r.1, x), rs.flatMap fun r => r.2.2)

end Sys2Proof.Machine
end

