-- ==== Sys2Proof/Machine/Accum.lean ====
section
/-!
DEFINITION. The A96 accumulator format and the segmented sum of every accumulating operation (R75, R76).
-/

namespace Sys2Proof.Machine

/-- RoundA96: nearest-even to 80 significant bits, gradual underflow, overflow to infinity (R75). -/
def roundA96 (v : Val) : Val :=
  match v with
  | .fin q =>
    let m := q.abs
    let k := if m.lt (Q.scaled 1 (-16382)) then -16382 else m.log2
    let n := roundInt 0 0 (m.shift (79 - k))
    let r := Q.scaled n (k - 79)
    if (Q.scaled 1 16384).le r then .inf (q.num < 0)
    else Val.ofQ (q.num < 0) (if q.num < 0 then r.neg else r)
  | v => v

/-- A value that A96 represents, as its pattern (R75). -/
def encodeA96 (v : Val) : A96 :=
  let s := if v.isNeg then 2 ^ 95 else 0
  BitVec.ofNat 96 (match v with
    | .nan => 0x7FFF * 2 ^ 80 + (Config.a96Nan % (2 ^ 80 - 1) + 1)
    | .inf _ => s + 0x7FFF * 2 ^ 80
    | .zero _ => s
    | .fin q =>
      let m := q.abs
      if m.lt (Q.scaled 1 (-16382)) then
        s + (m.shift (16382 + 79)).floor.toNat
      else
        let k := m.log2
        s + (k + 16383).toNat * 2 ^ 80 + (m.shift (79 - k)).floor.toNat)

/-- A pattern as a value (R75). -/
def decodeA96 (a : A96) : Val :=
  let neg := bitOf a.toNat 95
  let e := bitsOf a.toNat 80 15
  let m := bitsOf a.toNat 0 80
  if e = 0x7FFF then (if m = 0 then .inf neg else .nan)
  else
    let q := Q.scaled m ((if e = 0 then (-16382 : Int) else (e : Int) - 16383) - 79)
    Val.ofQ neg (if neg then q.neg else q)

/-- The exact sum of a segment's products: zero is +0 unless every product is −0 (R76). -/
def segmentSum : List Val → Option Val
  | [] => none
  | p :: ps => some (ps.foldl (Val.add 0) p)

/-- One segment added to the accumulator; a segment without a product adds nothing (R76, R182). -/
def addSegment (acc : Val) (ps : List Val) : Val :=
  match segmentSum ps with
  | none => acc
  | some e => roundA96 (Val.add 0 acc (roundA96 e))

/-- Products in segments of 32, from the first element reduced (R76). -/
def segmentsOf (ps : List Val) : List (List Val) :=
  (List.range ((ps.length + 31) / 32)).map fun i => (ps.drop (32 * i)).take 32

def accumulate (acc : Val) (segs : List (List Val)) : Val := segs.foldl addSegment acc

end Sys2Proof.Machine
end

