-- ==== Sys2Proof/Machine/Aes.lean ====
section
/-!
DEFINITION. AES-256 (FIPS 197) in XTS (IEEE 1619), which the manual names for the encryption of lines (R330): the data unit is a
line of 128 bytes, and the tweak its line address. A block is 16 bytes as a number, the first lowest.
-/

namespace Sys2Proof.Machine

/-! ## The field of 2^8 elements -/

def aesDouble (a : Nat) : Nat := if a < 128 then 2 * a else (2 * a) % 256 ^^^ 0x1B

/-- The product of two elements: `n` bits of `b` are left. -/
def aesMulFrom : Nat → Nat → Nat → Nat
  | 0, _, _ => 0
  | n + 1, a, b => (if b % 2 = 1 then a else 0) ^^^ aesMulFrom n (aesDouble a) (b / 2)

def aesMul (a b : Nat) : Nat := aesMulFrom 8 a b

/-- The inverse, a^254; that of 0 is 0. -/
def aesInv (a : Nat) : Nat := (List.range 6).foldl (fun r _ => aesMul (aesMul r r) a) a |> fun r => aesMul r r

/-- SubBytes of one byte. -/
def aesSbox (a : Nat) : Nat :=
  let b := aesInv a
  let rot (k : Nat) : Nat := (b * 2 ^ k) % 256 + b / 2 ^ (8 - k)
  b ^^^ rot 1 ^^^ rot 2 ^^^ rot 3 ^^^ rot 4 ^^^ 0x63

def aesTable : Array Nat := ((List.range 256).map aesSbox).toArray

def aesTableInv : Array Nat := ((List.range 256).map fun y => ((List.range 256).find? fun x => aesSbox x = y).getD 0).toArray

def aesSub (a : Nat) : Nat := aesTable.getD a 0

/-! ## The key schedule -/

def aesSubWord (w : Nat) : Nat := ofBytes ((bytesOf 4 w).map fun b => BitVec.ofNat 8 (aesSub b.toNat))

/-- `n` more words of the schedule, which has `ws` so far, the last first; `rc` is the round constant. -/
def aesExpand : Nat → Nat → List Nat → List Nat
  | 0, _, ws => ws.reverse
  | n + 1, rc, ws =>
    let i := ws.length
    let t := ws.headD 0
    let x := if i % 8 = 0 then aesSubWord (t / 256 + t % 256 * 2 ^ 24) ^^^ rc else if i % 8 = 4 then aesSubWord t else t
    aesExpand n (if i % 8 = 0 then aesDouble rc else rc) ((x ^^^ ws.getD 7 0) :: ws)

/-- The 15 round keys of a 256-bit key. -/
def aesKeys (key : Nat) : List Nat :=
  let ws := aesExpand 52 1 ((List.range 8).map fun i => bitsOf key (32 * i) 32).reverse
  (List.range 15).map fun r => (List.range 4).foldl (fun a i => a + ws.getD (4 * r + i) 0 * 2 ^ (32 * i)) 0

/-! ## Blocks -/

def blockOf (l : List Nat) : Nat := ofBytes (l.map fun b => BitVec.ofNat 8 b)
def blockBytes (b : Nat) : List Nat := (List.range 16).map fun i => bitsOf b (8 * i) 8

/-- A column multiplied by the circulant matrix of four coefficients. -/
def aesMix (c : List Nat) (l : List Nat) : List Nat :=
  (List.range 16).map fun i =>
    (List.range 4).foldl (fun a j => a ^^^ aesMul (c.getD ((j + 4 - i % 4) % 4) 0) (l.getD (i / 4 * 4 + j) 0)) 0

/-- SubBytes and ShiftRows. -/
def aesShiftSub (l : List Nat) : List Nat :=
  (List.range 16).map fun i => aesSub (l.getD ((i + 4 * (i % 4)) % 16) 0)

def aesUnshiftSub (l : List Nat) : List Nat :=
  (List.range 16).map fun i => aesTableInv.getD (l.getD ((i + 12 * (i % 4)) % 16) 0) 0

def aesEncrypt (ks : List Nat) (b : Nat) : Nat :=
  let b := (List.range 13).foldl (fun b r =>
    blockOf (aesMix [2, 3, 1, 1] (aesShiftSub (blockBytes b))) ^^^ ks.getD (r + 1) 0) (b ^^^ ks.getD 0 0)
  blockOf (aesShiftSub (blockBytes b)) ^^^ ks.getD 14 0

def aesDecrypt (ks : List Nat) (b : Nat) : Nat :=
  let b := blockOf (aesUnshiftSub (blockBytes (b ^^^ ks.getD 14 0)))
  (List.range 13).foldl (fun b r =>
    blockOf (aesUnshiftSub (aesMix [14, 11, 13, 9] (blockBytes (b ^^^ ks.getD (13 - r) 0))))) b ^^^ ks.getD 0 0

/-! ## XTS -/

/-- The tweak of the next block. -/
def xtsNext (t : Nat) : Nat := (2 * t) % 2 ^ 128 ^^^ (if t < 2 ^ 127 then 0 else 0x87)

/-- A line through XTS: the first 256 bits of the key are the data key, the others the tweak key. -/
def xtsLine (enc : Bool) (key : BitVec 512) (line data : Nat) : Nat :=
  let ks := aesKeys (bitsOf key.toNat 0 256)
  let t0 := aesEncrypt (aesKeys (bitsOf key.toNat 256 256)) line
  ((List.range 8).foldl (fun (r : Nat × Nat) i =>
    let b := bitsOf data (128 * i) 128 ^^^ r.2
    (r.1 + ((if enc then aesEncrypt ks b else aesDecrypt ks b) ^^^ r.2) * 2 ^ (128 * i), xtsNext r.2)) (0, t0)).1

/-- What DRAM holds of a line under a key: the plain text under none (R330). -/
def cipherText (key : Option (BitVec 512)) (line data : Nat) : Nat :=
  match key with
  | none => data
  | some k => xtsLine true k line data

def plainText (key : Option (BitVec 512)) (line data : Nat) : Nat :=
  match key with
  | none => data
  | some k => xtsLine false k line data

end Sys2Proof.Machine
end

