-- ==== Sys2Proof/Machine/Mem.lean ====
section
/-!
DEFINITION. Physical memory: the address map and homes (R14), lines with their keys (R330), compressor tags (R107–R110) and
failures (R363), regions and worlds (R328, R329), and the read-modify-write operations of a home (R205, R206).
-/

namespace Sys2Proof.Machine

/-! ## The physical address map (R14) -/

inductive Home where
  | hbm (die : Nat)
  | tier2 (iod : Nat)
  | devreg
  | peer (n : Nat)
  | host
  | reserved
  deriving DecidableEq, Repr

def homeOf (pa : Nat) : Home :=
  if pa < 2 ^ 39 then .hbm (pa / 2 ^ 37)
  else if pa < 2 ^ 40 then .reserved
  else if pa < 2 ^ 41 then .tier2 ((pa - 2 ^ 40) / 2 ^ 39)
  else if pa < 2 ^ 41 + 2 ^ 32 then .devreg
  else if pa < 2 ^ 50 then .reserved
  else if pa < 2 ^ 51 then .peer (pa / 2 ^ 46 % 16)
  else if pa < 2 ^ 52 then .host
  else .reserved

/-- Memory that this package holds: HBM or second tier. -/
def isMem (pa : Nat) : Bool := pa < 2 ^ 39 || (2 ^ 40 ≤ pa && pa < 2 ^ 41)

/-- This device's pod number and pod size (R317). -/
def State.podNum (s : State) : Nat := s.regs.podId.toNat % 16
def State.podSize (s : State) : Nat := s.regs.podId.toNat / 16 % 32

/-- A pod-peer window address that names this device is its own address (R312). -/
def State.localPa (s : State) (pa : Nat) : Nat :=
  match homeOf pa with
  | .peer n => if n = s.podNum then pa % 2 ^ 46 else pa
  | _ => pa

/-- A target that REASON 3 of R357 forbids. -/
def State.forbidden (s : State) (pa mt : Nat) : Bool :=
  match homeOf pa with
  | .peer n =>
    if s.podSize ≤ n then true
    else if n = s.podNum then
      match homeOf (pa % 2 ^ 46) with
      | .reserved => true
      | .devreg => mt ≠ 3
      | _ => false
    else false
  | .reserved => true
  | .devreg => mt ≠ 3
  | _ => false

/-- The slice of an address's L2 home, numbered 32 · die + slice (R93, R317). -/
def l2Slice (pa : Nat) : Nat :=
  32 * (pa / 2 ^ 37 % 4) + ((pa / 2 ^ 7 % 32) ^^^ (pa / 2 ^ 12 % 32) ^^^ (pa / 2 ^ 17 % 32))

/-! ## Keys, worlds and regions -/

/-- The key material of a key id; key 0 is the null key, which has none (R330). -/
def State.keyMat (s : State) (k : Nat) : Option (BitVec 512) := if k = 0 then none else some (tget 0 s.keys k)

/-- The key may be used: key 0, or a loaded one (R367). -/
def State.keyOk (s : State) (k : Nat) : Bool := k = 0 || (tfind s.keys k).isSome

/-- The lowest-numbered valid region that covers an address (R329). -/
def State.regionOf (s : State) (pa : Nat) : Option Nat :=
  (s.regs.regions.find? fun e =>
    bitOf e.2.toNat 0 && bitsOf e.2.toNat 48 40 ≤ pa / 2 ^ 12 && pa / 2 ^ 12 < bitsOf e.2.toNat 88 40).map
    fun e => e.2.toNat

/-- The address lies in a secure region (R328). -/
def State.secureAt (s : State) (pa : Nat) : Bool := (s.regionOf pa).any fun r => bitOf r 2

/-- The key of an access by physical address that brings none of its own: its region's (R329, R330, log 35). -/
def State.regionKey (s : State) (pa : Nat) : Nat := ((s.regionOf pa).map fun r => bitsOf r 41 7).getD 0

/-- The world or key violation of an access, as the REASON of R367; 0 is none. -/
def State.violation (s : State) (secure : Bool) (pa key : Nat) : Nat :=
  if !secure && s.secureAt pa then 1 else if !s.keyOk key then 2 else 0

/-! ## Lines -/

def lineOf (pa : Nat) : Nat := pa / 128

/-- The canonical form of memory: addresses strictly rise and no byte listed is 0, which an unlisted byte reads as. -/
def Memory.wf (m : Table Byte) : Bool := twf 0 m

def State.rdByte (s : State) (pa : Nat) : Byte := tget 0 s.mem pa
def State.wrByte (s : State) (pa : Nat) (b : Byte) : State := { s with mem := tput 0 s.mem pa b }

/-- The stored bytes of a line as one number. -/
def State.lineRaw (s : State) (line : Nat) : Nat :=
  ofBytes ((List.range 128).map fun i => s.rdByte (128 * line + i))

/-- A line as an access under key material `km` sees it: its bytes where it was stored under that key, and otherwise what `km`
makes of the stored bits (R330, R360). -/
def State.lineView (s : State) (line : Nat) (km : Option (BitVec 512)) : Nat :=
  if tget none s.lineKey line = km then s.lineRaw line
  else plainText km line (cipherText (tget none s.lineKey line) line (s.lineRaw line))

/-- `n` bytes at `pa`, which lie in one line, under a key, as a number. -/
def State.rdNat (s : State) (key pa n : Nat) : Nat :=
  if tget none s.lineKey (lineOf pa) = s.keyMat key then ofBytes ((List.range n).map fun i => s.rdByte (pa + i))
  else bitsOf (s.lineView (lineOf pa) (s.keyMat key)) (8 * (pa % 128)) (8 * n)

/-- Bytes at any address, under a key. -/
def State.rdBytes (s : State) (key pa n : Nat) : List Byte :=
  (List.range n).map fun i => BitVec.ofNat 8 (s.rdNat key (pa + i) 1)

/-- The aligned 8-byte word at `pa`. -/
def State.rdWord (s : State) (key pa : Nat) : Word := BitVec.ofNat 64 (s.rdNat key pa 8)

/-- The unit that keeps a line failed, if it is failed (R361, R363). -/
def State.failedAt (s : State) (line : Nat) : Option Nat := (s.failed.find? fun e => e.1 = line).map Prod.snd

/-! ## The line compressor (R108, R109) -/

/-- Every element lies within the signed range of `dw` bytes of element 0. -/
def deltaFits (line size count dw : Nat) : Bool :=
  (List.range count).all fun j =>
    let d := (bitsOf line (8 * size * j) (8 * size) + 2 ^ (8 * size) - bitsOf line 0 (8 * size)) % 2 ^ (8 * size)
    d < 2 ^ (8 * dw - 1) || 2 ^ (8 * size) - 2 ^ (8 * dw - 1) ≤ d

/-- The tag chosen for a line: the fewest sectors, then the lower tag (R109). -/
def lineTagOf (line : Nat) : Nat :=
  if line = 0 then 1
  else if (List.range 16).all fun j => bitsOf line (64 * j) 64 = bitsOf line 0 64 then 2
  else if deltaFits line 8 16 1 then 3
  else if deltaFits line 8 16 2 then 4
  else if deltaFits line 4 32 1 then 5
  else if deltaFits line 4 32 2 then 6
  else if deltaFits line 2 64 1 then 7
  else 0

/-- Element size, element count and delta width of a delta encoding (R108). -/
def tagShape (tag : Nat) : Nat × Nat × Nat :=
  match tag with
  | 3 => (8, 16, 1)
  | 4 => (8, 16, 2)
  | 5 => (4, 32, 1)
  | 6 => (4, 32, 2)
  | 7 => (2, 64, 1)
  | _ => (0, 0, 0)

/-- The image of a line under a tag, without sector padding (R108, R228). -/
def lineImage (tag line : Nat) : List Byte :=
  match tag with
  | 0 => bytesOf 128 line
  | 1 => []
  | 2 => bytesOf 8 line
  | _ =>
    let (size, count, dw) := tagShape tag
    bytesOf size line ++ (List.range count).flatMap fun j =>
      bytesOf dw ((bitsOf line (8 * size * j) (8 * size) + 2 ^ (8 * size) - bitsOf line 0 (8 * size)) % 2 ^ (8 * size))

/-- The number of image bytes under a tag (R108). -/
def imageLen (tag : Nat) : Nat :=
  match tag with
  | 0 => 128
  | 1 => 0
  | 2 => 8
  | _ => let (size, count, dw) := tagShape tag; size + count * dw

/-- The line an image under a tag decodes to (R108). -/
def lineOfImage (tag : Nat) (img : List Byte) : Nat :=
  match tag with
  | 0 => ofBytes img
  | 1 => 0
  | 2 => (List.range 16).foldl (fun a j => a + (ofBytes img <<< (64 * j))) 0
  | _ =>
    let (size, count, dw) := tagShape tag
    let base := ofBytes (img.take size)
    (List.range count).foldl (fun a j =>
      let d := sextNat (8 * dw) (ofBytes ((img.drop (size + dw * j)).take dw))
      a + ((((base : Int) + d) % ((2 ^ (8 * size) : Nat) : Int)).toNat <<< (8 * size * j))) 0

/-! ## Writing lines -/

/-- The tag a line carries after a write whose translation has CMP as given (R107, R109, R110, R365). -/
def State.retag (s : State) (line : Nat) (cmp : Bool) : State :=
  { s with lineTag := tput 0 s.lineTag line (if cmp then BitVec.ofNat 4 (lineTagOf (s.lineRaw line)) else 0) }

/-- Re-encrypt a line under the key of the access that writes to it (R330). -/
def State.rekey (s : State) (line key : Nat) : State :=
  if tget none s.lineKey line = s.keyMat key then s
  else
    let v := s.lineView line (s.keyMat key)
    let s' := (List.range 128).foldl (fun s i => s.wrByte (128 * line + i) (BitVec.ofNat 8 (bitsOf v (8 * i) 8))) s
    { s' with lineKey := tput none s'.lineKey line (s.keyMat key) }

/-- One write to one line: bytes by offset in the line. A write of all 128 bytes clears a failure (R363); the caller has
refused a partial write of a failed line. -/
def State.writeLine (s : State) (key : Nat) (cmp : Bool) (line : Nat) (ws : List (Nat × Byte)) : State :=
  let s := s.rekey line key
  let s := ws.foldl (fun s w => s.wrByte (128 * line + w.1 % 128) w.2) s
  s.retag line cmp

/-- The offsets of a write cover the whole line. -/
def wholeLine (ws : List (Nat × Byte)) : Bool := (List.range 128).all fun i => ws.any fun w => w.1 = i

/-- A write at the line's home: performed, or refused with the unit that holds the line failed (R363). -/
def State.homeWrite (s : State) (key : Nat) (cmp : Bool) (line : Nat) (ws : List (Nat × Byte)) : State × Option Nat :=
  match s.failedAt line with
  | none => (s.writeLine key cmp line ws, none)
  | some u =>
    if wholeLine ws then
      ({ s with failed := s.failed.filter fun e => e.1 ≠ line }.writeLine key cmp line ws, none)
    else (s, some u)

/-- Write an aligned 8-byte word or its low bytes at a home that is not failed. -/
def State.wrNat (s : State) (key : Nat) (cmp : Bool) (pa n v : Nat) : State :=
  s.writeLine key cmp (lineOf pa) ((List.range n).map fun i => (pa % 128 + i, BitVec.ofNat 8 (bitsOf v (8 * i) 8)))

/-- The bytes of a run from `pa` that fall into one line, for each line it touches. -/
def splitLines (pa : Nat) (bytes : List Byte) : List (Nat × List (Nat × Byte)) :=
  let n := bytes.length
  if n = 0 then []
  else (List.range (lineOf (pa + n - 1) - lineOf pa + 1)).map fun j =>
    let line := lineOf pa + j
    let lo := if j = 0 then 0 else 128 * line - pa
    let hi := min n (128 * (line + 1) - pa)
    (line, ((List.range (hi - lo)).zip ((bytes.drop lo).take (hi - lo))).map fun e => ((pa + lo + e.1) % 128, e.2))

/-- Write a run of bytes line by line; the unit and line of the first line that refused. -/
def State.writeRun (s : State) (key : Nat) (cmp : Bool) (pa : Nat) (bytes : List Byte) : State × Option (Nat × Nat) :=
  (splitLines pa bytes).foldl (fun r l =>
    let w := r.1.homeWrite key cmp l.1 l.2
    (w.1, r.2 <|> w.2.map fun u => (u, l.1))) (s, none)

/-- The first failed line among the lines of a run, with its unit. -/
def State.runFailed (s : State) (pa n : Nat) : Option (Nat × Nat) :=
  if n = 0 then none
  else ((List.range (lineOf (pa + n - 1) - lineOf pa + 1)).filterMap fun j =>
    (s.failedAt (lineOf pa + j)).map fun u => (u, lineOf pa + j)).head?

/-- WORLD of a context record is written by the secure world alone (R314): after a write of another world to a line, before which
the state was `old`, that bit is as it was. -/
def State.keepWorld (s old : State) (secure cmp : Bool) (line : Nat) : State :=
  let base := s.regs.ctxtBase.toNat
  let a := 128 * line + (base + 1) % 128
  let b := (s.rdByte a &&& 0xDF) ||| (old.rdByte a &&& 0x20)
  if secure || a < base || base + 8192 ≤ a || s.rdByte a = b then s else (s.wrByte a b).retag line cmp

/-- A write to the host is posted on its way; a zero-length read answers for those before it (R124). -/
def HostAcc.posts (a : HostAcc) (cxl : Bool) (l : List Bool) : List Bool :=
  match a with
  | .write _ | .gathered _ => if l.contains cxl then l else cxl :: l
  | .read 0 => l.filter (· ≠ cxl)
  | .read _ | .atomic .. => l

/-- An access to host memory leaves through IOD0's port, with the requester ID of the context's function, as a CXL.cache request
under MT 00 and as a PCIe memory request otherwise (R311). -/
def State.toHost (s : State) (ctx mt pa : Nat) (a : HostAcc) : State :=
  let s := if a.posts (mt = 0) (s.ctx ctx).posted = (s.ctx ctx).posted then s
    else s.modCtx ctx fun c => { c with posted := a.posts (mt = 0) c.posted }
  { s with outs := .host (s.vfOf ctx) (mt = 0) 0 (pa - 2 ^ 51) a :: s.outs }

/-! ## Read-modify-write (R205, R206) -/

/-- The new value of an `n`-bit word `old` with operand `a` (and `b`, the new value of a compare-and-swap). -/
def rmwApply (op : Rmw) (n old a b : Nat) : Nat :=
  let sm (x : Nat) : Int := sextNat n x
  match op with
  | .add => (old + a) % 2 ^ n
  | .and => old &&& a
  | .or => old ||| a
  | .xor => old ^^^ a
  | .min => if sm old ≤ sm a then old else a
  | .max => if sm old ≤ sm a then a else old
  | .minu => if old ≤ a then old else a
  | .maxu => if old ≤ a then a else old
  | .swap => a
  | .cas => if old = a then b else old

/-- Count an access at an L2 slice (R326, R327). -/
def State.countL2 (s : State) (pa vf event : Nat) : State :=
  if pa < 2 ^ 39 then
    (List.range 4).foldl (fun s i =>
      let k := 4 * l2Slice pa + i
      match tfind s.regs.l2c k with
      | none => s
      | some c =>
        if c.fn ≠ vf then s
        else
          let r := Ev.bump ⟨c.sel, c.cnt⟩ event 1
          let s := { s with regs := { s.regs with l2c := tins s.regs.l2c k ⟨r.1.sel, r.1.cnt, c.fn⟩ } }
          if r.2 && c.sel.getLsbD 30 then s.irq c.fn 1 else s) s
  else s

/-- Count the accesses of a run of bytes, one for each line. -/
def State.countRun (s : State) (pa n vf : Nat) : State :=
  if n = 0 then s
  else (List.range (lineOf (pa + n - 1) - lineOf pa + 1)).foldl (fun s i => s.countL2 (128 * (lineOf pa + i)) vf 0x100) s

/-- Count an event of a fabric port; counter n counts code 0x0200 + n (R326, log 9). -/
def State.countPort (s : State) (port n k : Nat) : State :=
  let c := tget 0 s.regs.fpc (16 * port + n)
  { s with regs := { s.regs with fpc := tput 0 s.regs.fpc (16 * port + n) (c + BitVec.ofNat 48 k) } }

end Sys2Proof.Machine
end

