-- ==== Sys2Proof/Machine/Remote.lean ====
section
/-!
DEFINITION. Accesses that an engine, the device, the walker or a race check makes outside the package's memory, toward a pod
peer or the host. Each becomes an operation in flight, with a tag and its resends as a team's has (R370, R371); the event or
instruction that needs it is carried out as a whole once every answer is there, and until then changes nothing (log 37).
-/

namespace Sys2Proof.Machine

/-- A part has been performed, or will never be. -/
def Part.over (p : Part) : Bool :=
  match p.st with
  | .done | .failed .. => true
  | .waiting | .sent => false

/-- An access of `len` bits from bit `lo` of the aligned word at `pa`. -/
def remotePart (kind : ReqKind) (pa lo len : Nat) (a b : Word) (key mt : Nat) (cmp : Bool) : Part :=
  ⟨0, 0, pa / 8 * 8, lo, len, 0, kind, a, b, [], mt, key, cmp, false, .waiting, 0⟩

/-- The two are one access: the data of a write does not count (log 37). -/
def Part.same (p q : Part) : Bool :=
  p.kind = q.kind && p.pa = q.pa && p.lo = q.lo && p.len = q.len

/-- The first access of an actor that is this one and whose answer has not been used. -/
def State.findAsked (s : State) (w : Actor) (p : Part) : Option (Nat × Nat × Part) :=
  s.ops.findSome? fun o =>
    if o.actor ≠ some w then none
    else o.parts.zipIdx.findSome? fun e =>
      if e.1.same p && !s.rpc.used.contains (o.seq, e.2) then some (o.seq, e.2, e.1) else none

/-- What the outside answered to an access: its value, or UNIT, OP and LOC of a failure; `none` while no answer is known. A
write or a sum needs no value, and what follows it is asked for as well; after a read that waits, nothing is, unless it is
a read whose place does not depend on the value (`free`). -/
def State.remote (s : State) (w : Actor) (p : Part) (free : Bool) : State × Option (Except (Nat × Nat × Nat) Word) :=
  let silent := p.kind matches .write | .red _
  match s.findAsked w p with
  | some (seq, i, q) =>
    let s := { s with rpc := { s.rpc with used := (seq, i) :: s.rpc.used } }
    match q.st with
    | .done => (s, some (.ok q.val))
    | .failed u op loc => (s, some (.error (u, op, loc)))
    | _ => ({ s with rpc := { s.rpc with missing := true, junk := s.rpc.junk || !silent } }, none)
  | none =>
    let ask := !s.rpc.junk || (free && !silent)
    ({ s with rpc := { s.rpc with
        asks := if ask then s.rpc.asks ++ [(w, p)] else s.rpc.asks
        missing := true, junk := s.rpc.junk || !silent } }, none)

/-! ### Who asks -/

/-- The instruction that a team is at; its walks, shadow records and accesses for the launch ring. -/
def State.teamActor (s : State) (k : Nat) : Actor := ⟨0, s.ctxOf k, (s.team k).pc.toNat * 2 ^ 18 + k⟩
/-- An operation in flight, for the walks and shadow records of an address that it finds itself (R209, R210). -/
def opActor (ctx seq : Nat) : Actor := ⟨9, ctx, seq⟩
/-- A walker that resolves a miss ahead of its use. -/
def walkerActor (ctx core : Nat) : Actor := ⟨10, ctx, core⟩
/-- The launch core, for queue `n` or launch `n` of a context, or for its record (R26–R29, R412, R414). -/
def launchActor (ctx n : Nat) : Actor := ⟨1, ctx, n⟩
/-- The device at a context's trap queue (R344). -/
def State.trapActor (s : State) (ctx : Nat) : Actor := ⟨2, ctx, (s.ctx ctx).seq.toNat⟩
/-- A copy engine, the update engine or an outer DMA engine at a command (R231, R246, R245). -/
def copyActor (ctx seq : Nat) : Actor := ⟨3, ctx, seq⟩
def jobActor (ctx seq : Nat) : Actor := ⟨4, ctx, seq⟩
def offloadActor (ctx seq : Nat) : Actor := ⟨5, ctx, seq⟩
/-- The matrix engine's telemetry (R381), the farrier monitor (R335), and an ostler at a command register (R252). -/
def ringActor (ctx seq : Nat) : Actor := ⟨6, ctx, seq⟩
def monitorActor (ctx seq : Nat) : Actor := ⟨7, ctx, seq⟩
def ostlerActor (ctx seq : Nat) : Actor := ⟨8, ctx, seq⟩

/-- The operation that makes an actor's accesses. -/
def askOp (w : Actor) (seq : Nat) (ps : List Part) : MemOp where
  seq := seq
  team := 2 ^ 40
  ctx := w.ctx
  pc := 0
  cls := none
  sem := .relaxed
  sco := 0
  dest := .none
  ext := none
  slots := 0
  parts := ps
  nt := true
  carry := []
  install := false
  stream := false
  noL1 := []
  noRdc := []
  gather := false
  chase := []
  unchecked := []
  tile := none
  ostc := none
  drain := []
  actor := some w
  quiet := true
  handler := false

/-- Put in flight the accesses that a step asked for, one operation for each actor. -/
def State.askAll (s : State) (asks : List (Actor × Part)) : State :=
  ((asks.map Prod.fst).eraseDups).foldl (fun s w =>
    let q := s.newSeq
    { q.2 with ops := q.2.ops ++ [askOp w q.1 ((asks.filter fun a => a.1 = w).map Prod.snd)] }) s

/-- The operations whose answers have been used are over. -/
def State.dropUsed (s : State) : State :=
  let seqs := s.rpc.used.map Prod.fst
  let ws := s.ops.filterMap fun o => if seqs.contains o.seq then o.actor else none
  if s.rpc = .idle then s
  else { s with rpc := .idle, ops := s.ops.filter fun o => o.actor.all fun w => !ws.contains w }

end Sys2Proof.Machine
end

