-- ==== Sys2Proof/Machine/Walk.lean ====
section
/-!
DEFINITION. Translation: the range table and the five-level page table (R98–R104), the TLBs (R103, R105), the checks of
R357, and TLB invalidation (R106). A walk reads table entries at their homes and sets A and D there.
-/

namespace Sys2Proof.Machine

/-- The outcome of a translation: a physical address with its attributes; a translation fault (REASON, LEVEL and the
virtual address it names); or a memory error met by the walker (LOC). -/
inductive XRes where
  | ok (pa : Nat) (e : TlbEntry)
  | fault (reason level va : Nat)
  | mem (loc : Nat)
  deriving DecidableEq, Repr

/-- The index of a virtual address at a level (R98). -/
def vaIndex (level va : Nat) : Nat := va / 2 ^ (12 + 9 * level) % (if level = 4 then 256 else 512)

/-- The size of a leaf at a level. -/
def pageSize (level : Nat) : Nat := 2 ^ (12 + 9 * level)

/-- An entry at a level that R99 or R357 REASON 2 calls malformed. -/
def pteMalformed (e level : Nat) : Bool :=
  bitOf e 1 || bitsOf e 55 2 ≠ 0 ||
  (if bitOf e 2 then
    3 ≤ level || bitsOf e 12 (9 * level) ≠ 0 || (bitOf e 8 && 2 ≤ level)
  else
    level = 0 || bitsOf e 52 12 ≠ 0 || bitsOf e 3 6 ≠ 0)

def accWrites (a : Acc) : Bool := a = .write || a = .rmw

/-- RD, WR and EX allow the access. -/
def TlbEntry.allows (e : TlbEntry) (a : Acc) : Bool :=
  match a with
  | .read => e.rd
  | .write => e.wr
  | .rmw => e.rd && e.wr
  | .fetch => e.ex

/-- The translation that a leaf entry gives to the `n` pages around an address that it covers: one, or a whole group (R101). -/
def leafEntry (ctx va level n e : Nat) : TlbEntry where
  ctx := ctx
  lvl := level
  idx := 0
  vbase := va / (n * pageSize level) * (n * pageSize level)
  vlimit := va / (n * pageSize level) * (n * pageSize level) + n * pageSize level
  pbase := bitsOf e 12 40 * 4096 / (n * pageSize level) * (n * pageSize level)
  rd := bitOf e 3
  wr := bitOf e 4
  ex := bitOf e 5
  dirty := bitOf e 7
  mt := bitsOf e 52 2
  key := bitsOf e 57 7
  cmp := bitOf e 54

def TlbEntry.pa (e : TlbEntry) (va : Nat) : Nat := e.pbase + (va - e.vbase)

/-- Read the 8-byte table entry at `ea` at its home, which may lie outside the package (R100); `none` is an error. -/
def State.readEntry (s : State) (w : Actor) (ea : Nat) : State × Option Nat :=
  if isMem ea then
    if (s.failedAt (lineOf ea)).isSome then (s, none) else (s.countL2 ea (s.vfOf w.ctx) 0x100, some (s.rdNat 0 ea 8))
  else
    let r := s.remote w (remotePart .read ea 0 64 0 0 0 0 false) false
    match r.2 with
    | some (.ok v) => (r.1, some v.toNat)
    | some (.error _) => (r.1, none)
    | none => let f := r.1.freeVal; (f.2, some (f.1 % 2 ^ 64))

/-- Set bits of an entry that was read as `e`, by one atomic update at its home (R100). -/
def State.setEntry (s : State) (w : Actor) (ea e e' : Nat) : State :=
  if e' = e then s
  else if isMem ea then (s.wrNat 0 false ea 8 e').countL2 ea (s.vfOf w.ctx) 0x100
  else (s.remote w (remotePart (.atomic .cas) ea 0 64 (BitVec.ofNat 64 e) (BitVec.ofNat 64 e') 0 0 false) false).1

/-! ### Groups (R101) -/

def groupLen (level : Nat) : Nat := if level = 0 then 16 else 32

/-- A valid leaf that is marked as one of a group. -/
def pteGrouped (e : Nat) : Bool := bitOf e 0 && bitOf e 2 && bitOf e 8

/-- What must be the same in every entry of a group: all but the PFN, A, D and what the device ignores. -/
def pteShared (e : Nat) : Nat := bitsOf e 0 6 + bitsOf e 8 1 * 2 ^ 6 + bitsOf e 52 12 * 2 ^ 7

/-- The entries of an aligned run meet the conditions of a group. -/
def groupSound (level : Nat) (run : List Nat) : Bool :=
  let base := bitsOf (run.headD 0) 12 40 * 4096
  base % (groupLen level * pageSize level) = 0 && run.zipIdx.all fun e =>
    pteGrouped e.1 && pteShared e.1 = pteShared (run.headD 0) && bitsOf e.1 12 40 * 4096 = base + e.2 * pageSize level

/-- The entry `e` at `ea` as it translates an address: its place, its value, and for how many pages it stands. Where its aligned run
holds an entry of a group whose conditions fail, that is itself, or any entry of the run standing for the group, freely (R101). The
entries of a table outside the package are taken one by one (log 81). -/
def State.groupPick (s : State) (level ea e : Nat) : State × Nat × Nat × Nat :=
  let n := groupLen level
  let base := ea / (8 * n) * (8 * n)
  let run := (List.range n).map fun i => s.rdNat 0 (base + 8 * i) 8
  if 2 ≤ level || !isMem ea || !run.any pteGrouped || groupSound level run then (s, ea, e, 1)
  else
    let r := s.freeVal
    match r.1 % (n + 1) with
    | 0 => (r.2, ea, e, 1)
    | i + 1 => (r.2, base + 8 * i, run.getD i 0, n)

/-- The walk below a table at `level` (R98–R101). With `mark`, a successful walk sets A, and D for a store (R100). A table at a
forbidden target is REASON 3 at the level of the entry that names it, and at level 7 for a root (log 86). -/
def walkTable (w : Actor) (va : Nat) (acc : Acc) (mark : Bool) : Nat → Nat → State → State × XRes
  | level, table, s =>
    let ea := s.localPa (table + 8 * vaIndex level va)
    if s.forbidden (table + 8 * vaIndex level va) 0 then (s, .fault 3 (if level = 4 then 7 else level + 1) va)
    else
      let r := s.readEntry w ea
      let s := r.1
      match r.2 with
      | none => (s, .mem ea)
      | some e =>
        let (s, ea, e, n) := s.groupPick level ea e
        if !bitOf e 0 then (s, .fault 0 level va)
        else if pteMalformed e level then (s, .fault 2 level va)
        else if bitOf e 2 then
          let t := leafEntry w.ctx va level n e
          if !t.allows acc then (s, .fault 1 level va)
          else if s.forbidden (t.pa va) t.mt then (s, .fault 3 level va)
          else
            let s := if mark then s.setEntry w ea e (e ||| 2 ^ 6 ||| (if accWrites acc then 2 ^ 7 else 0)) else s
            (s, .ok (t.pa va) { t with dirty := t.dirty || (mark && accWrites acc) })
        else
          match level with
          | 0 => (s, .fault 2 0 va)
          | l + 1 => walkTable w va acc mark l (bitsOf e 12 40 * 4096) s

/-- The page walk of a context. -/
def State.pageWalk (s : State) (w : Actor) (va : Nat) (acc : Acc) (mark : Bool) : State × XRes :=
  walkTable w va acc mark 4 (s.ctx w.ctx).ptroot.toNat s

/-- A valid range descriptor that REASON 4 of R357 calls malformed. -/
def rangeMalformed (d : Nat) : Bool :=
  let vb := bitsOf d 0 64
  let vl := bitsOf d 64 64
  let pb := bitsOf d 128 64
  bitsOf d 211 45 ≠ 0 || bitsOf d 193 5 ≠ 0 || vb % 2 ^ 16 ≠ 0 || vl % 2 ^ 16 ≠ 0 || pb % 2 ^ 16 ≠ 0
    || nonCanonical vb || nonCanonical vl || pb / 2 ^ 52 ≠ 0 || vl ≤ vb || (2 ≤ bitsOf d 201 2 && bitOf d 203)

/-- The translation that a descriptor gives; A and D do not exist for ranges (R102). -/
def rangeEntry (ctx idx d : Nat) : TlbEntry where
  ctx := ctx
  lvl := 7
  idx := idx
  vbase := bitsOf d 0 64
  vlimit := bitsOf d 64 64
  pbase := bitsOf d 128 64
  rd := bitOf d 198
  wr := bitOf d 199
  ex := bitOf d 200
  dirty := true
  mt := bitsOf d 201 2
  key := bitsOf d 204 7
  cmp := bitOf d 203

/-- The 32 bytes of a range descriptor at their home (R103); the device-register range, which holds none, reads as zero. -/
def State.readDesc (s : State) (w : Actor) (key mt pa : Nat) : State × Option Nat :=
  if isMem pa then
    if (s.failedAt (lineOf pa)).isSome then (s, none) else (s.countL2 pa (s.vfOf w.ctx) 0x100, some (s.rdNat key pa 32))
  else if homeOf pa = .devreg then (s, some 0)
  else (List.range 4).foldl (fun r i =>
    match r.2 with
    | none => r
    | some d =>
      let x := r.1.remote w (remotePart .read (pa + 8 * i) 0 64 0 0 key mt false) true
      (x.1, match x.2 with
        | some (.ok v) => some (d + v.toNat * 2 ^ (64 * i))
        | some (.error _) => none
        | none => some d)) (s, some 0)

/-- Read the descriptors of a context's range table in order: those that are valid and well formed, and the first
failure (R103); `mark` is as for a walk. -/
def State.readRanges (s : State) (w : Actor) (mark : Bool) : State × List TlbEntry × Option XRes :=
  let c := s.ctx w.ctx
  (List.range (min c.rcount 32)).foldl (fun r i =>
    let va := c.rtable.toNat + 32 * i
    let x := if nonCanonical va then (r.1, XRes.fault 0 7 va) else r.1.pageWalk w va .read mark
    match x.2 with
    | .ok pa e =>
      let d := x.1.readDesc w e.key e.mt (x.1.localPa pa)
      match d.2 with
      | none => (d.1, r.2.1, r.2.2 <|> some (.mem pa))
      | some v =>
        if !bitOf v 192 then (d.1, r.2.1, r.2.2)
        else if rangeMalformed v then (d.1, r.2.1, r.2.2 <|> some (.fault 4 7 0))
        else (d.1, r.2.1 ++ [rangeEntry w.ctx i v], r.2.2)
    | .fault .. => (x.1, r.2.1, r.2.2 <|> some (.fault 6 7 va))
    | .mem loc => (x.1, r.2.1, r.2.2 <|> some (.mem loc))) (s, [], none)

def TlbEntry.covers (e : TlbEntry) (ctx va : Nat) : Bool := e.ctx = ctx && e.vbase ≤ va && va < e.vlimit

/-- What a covering descriptor gives an access (R102, R357). -/
def State.useRange (s : State) (e : TlbEntry) (va : Nat) (acc : Acc) : XRes :=
  if !e.allows acc then .fault 1 7 va else if s.forbidden (e.pa va) e.mt then .fault 3 7 va else .ok (e.pa va) e

/-- The walker: the range table, then the page table (R103). -/
def State.walk (s : State) (w : Actor) (va : Nat) (acc : Acc) (mark : Bool) : State × XRes :=
  let r := s.readRanges w mark
  match r.2.2 with
  | some (.fault 4 l _) => (r.1, .fault 4 l va)
  | some x => (r.1, x)
  | none =>
    match r.2.1.find? fun e => e.covers w.ctx va with
    | some e => (r.1, s.useRange e va acc)
    | none => r.1.pageWalk w va acc mark

/-- The device's own translation of an address it reads from a record, card, table or register; an address with bits [63:56]
nonzero does not translate (R98). The walker searches each time (R103, log 45). -/
def State.xlateDev (s : State) (w : Actor) (va : Nat) (acc : Acc) : State × XRes :=
  if nonCanonical va then (s, .fault 0 7 va) else s.walk w va acc true

/-! ## TLBs -/

/-- Put an entry first in a TLB of `cap` entries; the last leaves. In the range TLB, where a hit puts its entry first as well,
that is the least recently used (R103). The page TLBs hold any entry in any place, and the one filled longest ago leaves
(log 81). -/
def tlbFill (cap : Nat) (t : List TlbEntry) (e : TlbEntry) : List TlbEntry :=
  (e :: t.filter fun x => !(x.ctx = e.ctx && x.vbase = e.vbase && x.vlimit = e.vlimit && x.idx = e.idx)).take cap

/-- The resident descriptor that serves an address: the lowest-numbered one that covers it (R102). -/
def rangeFind (t : List TlbEntry) (ctx va : Nat) : Option TlbEntry :=
  (t.filter fun e => e.covers ctx va).foldl (fun b e => match b with
    | some a => if e.idx < a.idx then some e else some a
    | none => some e) none

/-- The matching entry of the smallest page size (R105), and whether sizes differ among the matches. -/
def tlbFind (t : List TlbEntry) (ctx va : Nat) : Option TlbEntry × Bool :=
  let m := t.filter fun e => e.covers ctx va
  match m with
  | [] => (none, false)
  | e :: es =>
    (some (es.foldl (fun a x => if x.vlimit - x.vbase < a.vlimit - a.vbase then x else a) e),
      es.any fun x => x.vlimit - x.vbase ≠ e.vlimit - e.vbase)

/-- Load the result of a walk into the TLBs of a core and its quad (R103). -/
def State.tlbLoad (s : State) (core : Nat) (e : TlbEntry) : State :=
  if e.lvl = 7 then s.modQuad (quadOfCore core) fun q => { q with ranges := tlbFill 32 q.ranges e }
  else
    (s.modQuad (quadOfCore core) fun q => { q with tlb := tlbFill 2048 q.tlb e }).modCore core
      fun c => { c with tlb := tlbFill 128 c.tlb e }

/-- Walk and, on success, fill (R103). -/
def State.walkFill (s : State) (core : Nat) (w : Actor) (va : Nat) (acc : Acc) : State × XRes :=
  let x := s.walk w va acc true
  match x.2 with
  | .ok pa e => (x.1.tlbLoad core e, .ok pa e)
  | r => (x.1, r)

/-- The TLB entry for an access: the range TLB, the core TLB, then the quad TLB, with the misses and multi-size
matches counted (R103, R105, R326). -/
def State.tlbLookup (s : State) (core ctx va : Nat) : State × Option TlbEntry :=
  match rangeFind (s.quad (quadOfCore core)).ranges ctx va with
  | some e => (s.modQuad (quadOfCore core) fun q => { q with ranges := tlbFill 32 q.ranges e }, some e)
  | none =>
    let c := tlbFind (s.core core).tlb ctx va
    let s := if c.2 then s.countEv core ctx 0x22 1 else s
    match c.1 with
    | some e => (s, some e)
    | none =>
      let s := s.countEv core ctx 0x20 1
      let q := tlbFind (s.quad (quadOfCore core)).tlb ctx va
      let s := if q.2 then s.countEv core ctx 0x22 1 else s
      match q.1 with
      | some e => (s.modCore core fun c => { c with tlb := tlbFill 128 c.tlb e }, some e)
      | none => (s.countEv core ctx 0x21 1, none)

/-- A TLB entry serves an access: it allows it, has D for a store, and names a target that is not forbidden (R100, R357). -/
def State.usable (s : State) (e : TlbEntry) (va : Nat) (acc : Acc) : Bool :=
  e.allows acc && (e.dirty || !accWrites acc) && !s.forbidden (e.pa va) e.mt

/-- Translate an access of a core (R103). An entry that does not serve it is walked again (R100, R359). -/
def State.xlate (s : State) (core : Nat) (w : Actor) (va : Nat) (acc : Acc) : State × XRes :=
  let l := s.tlbLookup core w.ctx va
  match l.2 with
  | some e => if l.1.usable e va acc then (l.1, .ok (e.pa va) e) else l.1.walkFill core w va acc
  | none => l.1.walkFill core w va acc

/-- Translate as a load, setting nothing and taking no fault (R157). The state differs in what it asks of the outside only. -/
def State.peek (s : State) (core : Nat) (w : Actor) (va : Nat) : State × XRes :=
  if nonCanonical va then (s, .fault 0 7 va)
  else
    match (s.tlbLookup core w.ctx va).2 with
    | some e => if s.usable e va .read then (s, .ok (e.pa va) e) else s.walk w va .read false
    | none => s.walk w va .read false

/-- Whether an access would be served by some TLB of the core. -/
def State.tlbHit (s : State) (core ctx va : Nat) : Bool :=
  (rangeFind (s.quad (quadOfCore core)).ranges ctx va).isSome || (tlbFind (s.core core).tlb ctx va).1.isSome
    || (tlbFind (s.quad (quadOfCore core)).tlb ctx va).1.isSome

/-- Remove a context's entries that meet [lo, hi) from every TLB, and its L1 lines there (R106). -/
def State.tlbInvalidate (s : State) (ctx lo hi : Nat) : State :=
  let gone (e : TlbEntry) : Bool := e.ctx = ctx && e.vbase < hi && lo < e.vlimit
  let lineGone (l : CLine) : Bool := l.ctx = ctx && 128 * l.vline < hi && lo < 128 * l.vline + 128
  { s with
    cores := tmap (fun _ c => { c with
      tlb := c.tlb.filter (!gone ·), l1 := c.l1.filter (!lineGone ·), l1i := c.l1i.filter (!lineGone ·) }) s.cores
    quads := tmap (fun _ q => { q with tlb := q.tlb.filter (!gone ·), ranges := q.ranges.filter (!gone ·) }) s.quads }

/-- The ACC field of a translation fault (R357). -/
def accCode (acc : Acc) : Nat :=
  match acc with
  | .read => 0
  | .write => 1
  | .fetch => 2
  | .rmw => 3

def accOfCode (n : Nat) : Acc :=
  match n with
  | 0 => .read
  | 1 => .write
  | 2 => .fetch
  | _ => .rmw

/-- The DETAIL of a translation fault (R357). -/
def faultDetail (reason level va : Nat) (acc : Acc) : Word :=
  BitVec.ofNat 64 (reason * 2 ^ 61 + level % 8 * 2 ^ 58 + accCode acc * 2 ^ 56 + va % 2 ^ 56)

/-- The DETAIL of a memory error (R362). -/
def memDetail (unit op loc : Nat) : Word := BitVec.ofNat 64 (unit * 2 ^ 60 + op * 2 ^ 56 + loc % 2 ^ 52)

end Sys2Proof.Machine
end

