-- ==== Sys2Proof/Machine/Cache.lean ====
section
/-!
DEFINITION. The caches above the homes: L1 data and instruction caches, the reverse map (R88–R92), the RDC (R94), what an
acquire drops (R91, R117); and the device's own accesses.
-/

namespace Sys2Proof.Machine

/-- The line of an L1 that a load of `va` in a context hits (R88, R89). -/
def l1Find (c : List CLine) (ctx va : Nat) : Option CLine := c.find? fun l => l.ctx = ctx && l.vline = va / 128

/-- Put a line in a cache of `ways` ways per set; the least recently used of its set leaves. The line goes first, or, under a
`stream` hint, last, which is first in line for replacement (R195). -/
def cacheFill (ways : Nat) (set : CLine → Nat) (c : List CLine) (l : CLine) (stream : Bool) : List CLine :=
  let c := c.filter fun x => !(x.ctx = l.ctx && x.vline = l.vline)
  let same := c.filter fun x => set x = set l
  let c := match same.getLast? with
    | some old => if same.length < ways then c else c.filter fun x => !(x.ctx = old.ctx && x.vline = old.vline)
    | none => c
  if stream then c ++ [l] else l :: c

/-- The L1 set of a line: VA[13:7] (R88). -/
def l1Set (l : CLine) : Nat := l.vline % 128

/-- The reverse map drops physical line `pline` from a quad's L1 data caches, but for the copy that `keep` names (R90). -/
def State.quadDrop (s : State) (quad pline : Nat) (keep : Nat → CLine → Bool) : State :=
  (List.range 4).foldl (fun s i =>
    let c := 4 * quad + i
    if (s.core c).l1.any fun l => l.pline = pline && !keep c l then
      s.modCore c fun x => { x with l1 := x.l1.filter fun l => !(l.pline = pline && !keep c l) }
    else s) s

/-- Fill an L1 data line: other aliases in the quad go first (R90). -/
def State.l1Fill (s : State) (core : Nat) (l : CLine) (stream : Bool) : State :=
  let s := s.quadDrop (quadOfCore core) l.pline fun _ x => x.ctx = l.ctx && x.vline = l.vline
  s.modCore core fun c => { c with l1 := cacheFill 8 l1Set c.l1 l stream }

/-- The RDC set of a line (log 10). -/
def rdcSet (l : CLine) : Nat := l.pline % 8192

/-- An RDC look-up hits only when the physical tag and the back-tag match (R94). -/
def rdcFind (c : List CLine) (ctx va pa : Nat) : Option CLine :=
  c.find? fun l => l.pline = pa / 128 && l.ctx = ctx && l.vline = va / 128

def State.rdcFill (s : State) (die : Nat) (l : CLine) (stream : Bool) : State :=
  s.modDie die fun d => { d with rdc := cacheFill 16 rdcSet (d.rdc.filter fun x => x.pline ≠ l.pline) l stream }

def State.rdcDropLine (s : State) (die pline : Nat) : State :=
  if (s.die die).rdc.any fun l => l.pline = pline then
    s.modDie die fun d => { d with rdc := d.rdc.filter fun l => l.pline ≠ pline }
  else s

/-- An RDC holds lines homed on other compute dies and the second tier (R94). -/
def rdcHolds (die pa : Nat) : Bool :=
  match homeOf pa with
  | .hbm d => d ≠ die
  | .tier2 _ => true
  | _ => false

/-- An address belongs to an object by a binding table (R117). -/
def belongsIn (binds : Table BindEntry) (obj : Nat) (a : Nat) : Bool :=
  let cov := binds.filter fun e => e.2.base.toNat ≤ a && a < e.2.limit.toNat
  cov.isEmpty || cov.any fun e => e.2.obj.toNat = obj

/-- By the bindings as they stand. -/
def State.belongs (s : State) (ctx : Nat) (obj : Nat) (a : Nat) : Bool := belongsIn (s.ctx ctx).binds obj a

/-- Drop from a core's L1 and its die's RDC the lines of a context that `p` covers; a fill of such a line that is in flight
installs nothing in either (R91). The RDC's drops are counted (R326). -/
def State.acquireDrop (s : State) (core ctx : Nat) (p : Nat → Bool) : State :=
  let die := dieOfCore core
  let gone (l : CLine) : Bool := l.ctx = ctx && p (128 * l.vline)
  let n := ((s.die die).rdc.filter gone).length
  let s := s.modCore core fun c => { c with l1 := c.l1.filter (!gone ·) }
  let lines (o : MemOp) : List Nat := ((o.parts.map fun q => q.va / 128).eraseDups).filter fun l => p (128 * l)
  let bar (o : MemOp) : MemOp :=
    if o.ctx ≠ ctx || dieOfCore (coreOf o.team) ≠ die then o
    else { o with noL1 := if coreOf o.team = core then lines o ++ o.noL1 else o.noL1, noRdc := lines o ++ o.noRdc }
  let s := { s with ops := s.ops.map bar }
  if n ≠ 0 then (s.modDie die fun d => { d with rdc := d.rdc.filter (!gone ·) }).countEv core ctx 0x12 n else s

/-- The bits of a line's copy that an access of `len` bits from bit `lo` of the word at `pa` takes. -/
def CLine.slice (l : CLine) (pa lo len : Nat) : Nat := bitsOf l.data.toNat (8 * (pa % 128 / 8 * 8) + lo) len

/-- Drop from a core's L1 and its die's RDC the copies of a line whose aligned word differs from that which a read at the home has
just returned bits of: a later read of the word by the team must not return an older write (R114, log 11). -/
def State.dropStale (s : State) (core key pa lo len v : Nat) : State :=
  let old (l : CLine) : Bool := l.pline = lineOf pa &&
    if isMem pa then l.slice pa 0 64 ≠ s.rdNat key (pa / 8 * 8) 8 else l.slice pa lo len ≠ v % 2 ^ len
  let s := if (s.core core).l1.any old then s.modCore core fun c => { c with l1 := c.l1.filter (!old ·) } else s
  if (s.die (dieOfCore core)).rdc.any old then s.modDie (dieOfCore core) fun d => { d with rdc := d.rdc.filter (!old ·) } else s

/-- The other L1s of a core's quad lose the lines of a context that `p` covers and that hold other bytes than their home in this
package, or whose home lies outside it: a narrow acquire there, which drops nothing, must find what this one is told of (R91, R119,
log 11). -/
def State.quadStale (s : State) (core ctx : Nat) (p : Nat → Bool) : State :=
  let old (l : CLine) : Bool := l.ctx = ctx && p (128 * l.vline) &&
    (!isMem (128 * l.pline) || l.data.toNat ≠ s.lineView l.pline (s.keyMat l.key))
  let s := { s with ops := s.ops.map fun o =>
    if o.ctx ≠ ctx || coreOf o.team = core || quadOfCore (coreOf o.team) ≠ quadOfCore core then o
    else { o with noL1 := ((o.parts.filter fun q => !isMem q.pa && p (q.va / 128 * 128)).map fun q => q.va / 128) ++ o.noL1 } }
  (List.range 4).foldl (fun s i =>
    let c := 4 * quadOfCore core + i
    if c ≠ core && (s.core c).l1.any old then s.modCore c fun x => { x with l1 := x.l1.filter (!old ·) } else s) s

/-- Drop every copy of a context that a core and its die hold: what a launch's teams read is what the launch core's acquire
made visible (R27). -/
def State.dropContext (s : State) (core ctx : Nat) : State := (s.acquireDrop core ctx fun _ => true).quadStale core ctx fun _ => true

/-! ## Stores in flight -/

def Part.writes (p : Part) : Bool := p.kind ≠ .read

/-- Some store, atomic or reduction of the die to the line has not been performed: a fill would be older (R90, R94). -/
def State.diePending (s : State) (die line : Nat) : Bool :=
  (s.ops.any fun e => dieOfCore (coreOf e.team) = die && e.parts.any fun x => !x.over && x.writes && lineOf x.pa = line)
    || s.cores.any fun c => dieOfCore c.1 = die && c.2.wcb.any fun e => e.line = line

/-! ## Stores and the copies above the home -/

/-- An atomic, a reduction or an ostler operation sent from a core leaves no copy older than itself in the core's quad
or its die's RDC (R90, R94). -/
def State.dropCopies (s : State) (core pa : Nat) : State :=
  (s.quadDrop (quadOfCore core) (pa / 128) fun _ _ => false).rdcDropLine (dieOfCore core) (pa / 128)

/-- What a store of a core does to the copies of its line above the home: it merges into the core's own line filled
with write permission, drops every other copy in the quad, and updates the die's RDC (R89, R90, R94). -/
def State.storeCopies (s : State) (core ctx va pa lo len : Nat) (v : Nat) : State :=
  let pl := pa / 128
  let pos := 8 * (pa % 128 / 8 * 8) + lo
  let upd (l : CLine) : CLine := { l with data := BitVec.ofNat 1024 (withBits l.data.toNat pos len v) }
  let s := s.quadDrop (quadOfCore core) pl fun c l => c = core && l.ctx = ctx && l.vline = va / 128 && l.wr
  let s := s.modCore core fun c => { c with l1 := c.l1.map fun l => if l.pline = pl then upd l else l }
  if (s.die (dieOfCore core)).rdc.any fun l => l.pline = pl then
    s.modDie (dieOfCore core) fun d => { d with rdc := d.rdc.map fun l => if l.pline = pl then upd l else l }
  else s

/-- A store that hits a line filled without write permission drops it from the core's L1 (R89). -/
def State.storeMiss (s : State) (core ctx va : Nat) : State :=
  match l1Find (s.core core).l1 ctx va with
  | some l =>
    if l.wr then s else s.modCore core fun c => { c with l1 := c.l1.filter fun l => !(l.ctx = ctx && l.vline = va / 128) }
  | none => s

/-! ## The device's own accesses -/

/-- The outcome of an access that the device makes for itself: bytes, a translation failure, an uncorrectable error or a
failure outside the package (UNIT, OP and LOC), or a world or key violation. -/
inductive DevRes where
  | ok (bytes : List Byte)
  | noXlate (x : XRes)
  | mem (unit op loc : Nat)
  | viol (reason pa : Nat)
  deriving DecidableEq, Repr

/-- The value of a read that the outside answers: nothing here constrains it. -/
def State.freeBytes (s : State) (n : Nat) : State × List Byte :=
  let f := s.freeVal
  (f.2, bytesOf n f.1)

/-- The aligned words that a run of bytes meets: address, first bit, length in bits, and offset of its bits in the run. -/
def runWords (pa n : Nat) : List (Nat × Nat × Nat × Nat) :=
  if n = 0 then []
  else (List.range ((pa + n - 1) / 8 - pa / 8 + 1)).map fun j =>
    let w := pa / 8 + j
    let b0 := if j = 0 then pa % 8 else 0
    let b1 := min 8 (pa + n - 8 * w)
    (8 * w, 8 * b0, 8 * (b1 - b0), 8 * (8 * w + b0 - pa))

/-- Read a run of bytes outside the package, as accesses of aligned words. -/
def State.remoteRun (s : State) (w : Actor) (e : TlbEntry) (pa n : Nat) : State × DevRes :=
  let r := (runWords pa n).foldl (fun (r : State × Except DevRes Nat) p =>
    match r.2 with
    | .error _ => r
    | .ok v =>
      let x := r.1.remote w (remotePart .read p.1 p.2.1 p.2.2.1 0 0 e.key e.mt e.cmp) !s.rpc.junk
      match x.2 with
      | some (.ok d) => (x.1, .ok (v + (d.toNat % 2 ^ p.2.2.1) * 2 ^ p.2.2.2))
      | some (.error (u, op, loc)) => (x.1, .error (.mem u op loc))
      | none => let f := x.1.freeVal; (f.2, .ok (v + (f.1 % 2 ^ p.2.2.1) * 2 ^ p.2.2.2))) (s, .ok 0)
  (r.1, match r.2 with
    | .ok v => .ok (bytesOf n v)
    | .error d => d)

/-- Write a run of bytes outside the package. -/
def State.remoteStore (s : State) (w : Actor) (e : TlbEntry) (pa : Nat) (bytes : List Byte) : State × DevRes :=
  let v := ofBytes bytes
  (runWords pa bytes.length).foldl (fun r p =>
    let x := r.1.remote w (remotePart .write p.1 p.2.1 p.2.2.1 (BitVec.ofNat 64 (bitsOf v p.2.2.2 p.2.2.1)) 0 e.key e.mt e.cmp) false
    (x.1, match r.2, x.2 with
      | .ok _, some (.error (u, op, loc)) => .mem u op loc
      | r, _ => r)) (s, .ok [])

/-- Read a run of bytes of the device-register range, whose whole aligned words reach registers (R411). -/
def State.regRun (s : State) (secure : Bool) (pa n : Nat) : List Byte :=
  bytesOf n ((runWords pa n).foldl (fun v p => v + (s.devRegRead secure p.1 p.2.1 p.2.2.1).toNat * 2 ^ p.2.2.2) 0)

def State.regStore (s : State) (secure : Bool) (fn pa : Nat) (bytes : List Byte) : State :=
  (runWords pa bytes.length).foldl (fun s p =>
    s.devRegWrite secure fn p.1 p.2.1 p.2.2.1 (BitVec.ofNat 64 (bitsOf (ofBytes bytes) p.2.2.2 p.2.2.1))) s

/-- A translation of the device's own, with the world and key check (R328, R367). -/
def State.devXlate (s : State) (w : Actor) (va : Nat) (acc : Acc) : State × Except DevRes (Nat × TlbEntry) :=
  let x := s.xlateDev w va acc
  match x.2 with
  | .ok pa e =>
    let pa := x.1.localPa pa
    let v := x.1.violation (x.1.ctx w.ctx).world pa e.key
    if v ≠ 0 then (x.1, .error (.viol v pa)) else (x.1, .ok (pa, e))
  | .mem loc => (x.1, .error (.mem 7 0 loc))
  | r => (x.1, .error (.noXlate r))

/-- Read bytes of one line at their home, through a context's translation, in its world (R29, R98). -/
def State.devReadLine (s : State) (w : Actor) (acc : Acc) (va n : Nat) : State × DevRes :=
  let x := s.devXlate w va acc
  match x.2 with
  | .error d => (x.1, d)
  | .ok (pa, e) =>
    if isMem pa then
      match x.1.failedAt (lineOf pa) with
      | some u => (x.1, .mem u 0 (128 * lineOf pa))
      | none => (x.1.countL2 pa (x.1.vfOf w.ctx) 0x100, .ok (bytesOf n (x.1.rdNat e.key pa n)))
    else if homeOf pa = .devreg then (x.1, .ok (x.1.regRun (x.1.ctx w.ctx).world pa n))
    else x.1.remoteRun w e pa n

/-- The pieces of a run of bytes that lie in one line each: offset and length. -/
def linePieces (va n : Nat) : List (Nat × Nat) :=
  if n = 0 then []
  else (List.range ((va + n - 1) / 128 - va / 128 + 1)).map fun j =>
    let lo := if j = 0 then 0 else 128 * (va / 128 + j) - va
    (lo, min n (128 * (va / 128 + j + 1) - va) - lo)

/-- Read a run of bytes; the first failure stops the read. The address at which it failed comes with it. -/
def State.devRead (s : State) (w : Actor) (acc : Acc) (va n : Nat) : State × DevRes × Nat :=
  (linePieces va n).foldl (fun r p =>
    match r.2.1 with
    | .ok bs =>
      let x := r.1.devReadLine w acc (va + p.1) p.2
      match x.2 with
      | .ok cs => (x.1, .ok (bs ++ cs), va)
      | e => (x.1, e, va + p.1)
    | _ => r) (s, .ok [], va)

/-- Write bytes of one line at their home. -/
def State.devWriteLine (s : State) (w : Actor) (acc : Acc) (va : Nat) (bytes : List Byte) : State × DevRes :=
  let x := s.devXlate w va acc
  match x.2 with
  | .error d => (x.1, d)
  | .ok (pa, e) =>
    if isMem pa then
      let r := x.1.writeRun e.key e.cmp pa bytes
      match r.2 with
      | some (u, l) => (r.1, .mem u 1 (128 * l))
      | none => ((r.1.keepWorld x.1 (x.1.ctx w.ctx).world e.cmp (lineOf pa)).countL2 pa (x.1.vfOf w.ctx) 0x100, .ok [])
    else if homeOf pa = .devreg then (x.1.regStore (x.1.ctx w.ctx).world (x.1.vfOf w.ctx) pa bytes, .ok [])
    else x.1.remoteStore w e pa bytes

/-- Write a run of bytes; the first failure stops the write. -/
def State.devWrite (s : State) (w : Actor) (va : Nat) (bytes : List Byte) : State × DevRes × Nat :=
  (linePieces va bytes.length).foldl (fun r p =>
    match r.2.1 with
    | .ok _ =>
      let x := r.1.devWriteLine w .write (va + p.1) ((bytes.drop p.1).take p.2)
      (x.1, x.2, va + p.1)
    | _ => r) (s, .ok [], va)

/-- Where a write of the device goes: its physical address and memory type, where it translates. -/
def State.writeTarget (s : State) (w : Actor) (va : Nat) : Option (Nat × Nat) :=
  match (s.devXlate w va .write).2 with
  | .ok (pa, e) => some (pa, e.mt)
  | .error _ => none

/-- A release there is performed in the package, at one moment with what it carries. One to another place is asked for only after
an event has done that (R115, R306). -/
def State.releasedHere (s : State) (w : Actor) (va : Nat) : Bool :=
  (s.writeTarget w va).all fun x => isMem x.1 || homeOf x.1 = .devreg

/-- A release of the device at system scope, whose flag is at a virtual address: on each way to the host by which the context's
writes have left, a zero-length read completes first, but on PCIe where the flag takes it too (R124). -/
def State.flushPosted (s : State) (w : Actor) (va : Nat) : State :=
  let behind := (s.writeTarget w va).any fun x => homeOf x.1 = .host && x.2 ≠ 0
  (s.ctx w.ctx).posted.eraseDups.foldl (fun s cxl =>
    if !cxl && behind then s else (s.remote w (remotePart .read (2 ^ 51) 0 0 0 0 0 (if cxl then 0 else 1) false) false).1) s

/-- Add 1 atomically to the 8-byte word at a virtual address whose target allows atomics (R28, R207, R245). -/
def State.devAddOne (s : State) (w : Actor) (va : Nat) : State × DevRes :=
  let x := s.devXlate w va .rmw
  match x.2 with
  | .error d => (x.1, d)
  | .ok (pa, e) =>
    if e.mt = 2 || e.mt = 3 then (x.1, .noXlate (.fault 0 7 va))
    else if isMem pa then
      match x.1.failedAt (lineOf pa) with
      | some u => (x.1, .mem u 2 (128 * lineOf pa))
      | none =>
        let y := (x.1.wrNat e.key e.cmp pa 8 ((x.1.rdNat e.key pa 8 + 1) % 2 ^ 64)).keepWorld x.1 (x.1.ctx w.ctx).world e.cmp (lineOf pa)
        (y.countL2 pa (x.1.vfOf w.ctx) 0x100, .ok [])
    else
      let r := x.1.remote w (remotePart (.atomic .add) pa 0 64 1 0 e.key e.mt e.cmp) false
      (r.1, match r.2 with
        | some (.error (u, op, loc)) => .mem u op loc
        | _ => .ok [])

end Sys2Proof.Machine
end

