-- ==== Sys2Proof/Machine/Records.lean ====
section
/-!
DEFINITION. Trap records and the trap queue (R337, R344, R345, R413), and the killing of a context (R346).
-/

namespace Sys2Proof.Machine

/-- KIND (R337). -/
def kindReplayable : Nat := 0
def kindNotice : Nat := 1
def kindFatal : Nat := 2
def kindHeld : Nat := 3

/-- The 256 bits of a record (R337), V as given. -/
def recBits (ctx : Nat) (r : Rec) (seq : BitVec 32) (lost : Nat) : Nat :=
  let k := if r.hasTeam then r.team else 0
  r.pc.toNat + r.cause * 2 ^ 64 + (if r.inh then 2 ^ 73 else 0) + r.kind * 2 ^ 74 + (if r.async then 2 ^ 76 else 0)
    + 2 ^ 79 + ctx % 64 * 2 ^ 80 + coreOf k * 2 ^ 86 + slotOf k * 2 ^ 94 + idxOf k * 2 ^ 99 + r.ltag.toNat * 2 ^ 104
    + min lost 255 * 2 ^ 120 + r.detail.toNat * 2 ^ 128 + r.mask.toNat * 2 ^ 192 + seq.toNat * 2 ^ 224

/-- The first entry, in ring order from `i`, whose V the device reads as 0, among those that it does not wait to see consumed;
`none` with `true` when a read failed. -/
def findEntry (ctx : Nat) : Nat → Nat → State → State × Option Nat × Bool
  | 0, _, s => (s, none, false)
  | n + 1, i, s =>
    if (s.ctx ctx).entries.any fun e => e.idx = i % 256 then findEntry ctx n (i + 1) s
    else
      let r := s.devRead (s.trapActor ctx) .rmw ((s.ctx ctx).trapq.toNat + 32 * (i % 256)) 32
      match r.2.1 with
      | .ok bs => if bitOf (ofBytes bs) 79 then findEntry ctx n (i + 1) r.1 else (r.1, some (i % 256), false)
      | _ => (r.1, none, true)

/-- Entries that the device knows to be free (R345). -/
def Ctx.freeEntries (c : Ctx) : Nat := 256 - c.entries.length

/-- Write a record into the trap queue and raise the function's entry 0 (R344). The result says whether it was written;
an entry that cannot be read or written is reported by `true` in the second place (R413). -/
def State.putRecord (s : State) (ctx : Nat) (r : Rec) : State × Bool × Bool :=
  let c := s.ctx ctx
  let f := findEntry ctx 256 c.nextEntry s
  match f.2.1 with
  | none => (f.1, false, f.2.2)
  | some i =>
    let w := f.1.devWrite (s.trapActor ctx) (c.trapq.toNat + 32 * i) (bytesOf 32 (recBits ctx r c.seq c.lost))
    match w.2.1 with
    | .ok _ =>
      let s := w.1.modCtx ctx fun c => { c with
        nextEntry := (i + 1) % 256, seq := c.seq + 1, lost := 0,
        entries := (c.entries.filter fun e => e.idx ≠ i) ++ [⟨i, r.kind, r.cause, r.team, r.hasTeam⟩] }
      (s.irq (s.vfOf ctx) 0, true, false)
    | _ => (w.1, false, true)

/-- STATE of a job's control block (R248). -/
def State.setJobState (s : State) (j : Job) (st : Nat) : State :=
  let ctrl := bitsOf j.cmd.data.toNat 64 64
  (s.devWrite (jobActor j.cmd.who.ctx j.cmd.seq) (ctrl + 8) [BitVec.ofNat 8 st]).1

/-- The key under which a barrier instance stands in `barriers`. -/
def barKey : BarRef → Nat
  | .core c sl => c * 32 + sl
  | .quad q id => 2 ^ 32 + q * 2 ^ 8 + id
  | .device id => 2 ^ 33 + id
  | .pod g id => 2 ^ 34 + g * 2 ^ 8 + id

/-- Set stalls [lo, lo + n) of a core to an owner (R85). -/
def Core.setOwners (c : Core) (lo n : Nat) (o : BitVec 2) : Core :=
  { c with owner := (List.range n).foldl (fun t i => tput 3 t (lo + i) o) c.owner }

/-- The stalls of a context's blocks on a core go to no owner (R85). -/
def State.freeStalls (s : State) (ctx : Nat) : State :=
  s.blocks.foldl (fun s e =>
    if e.2.ctx = ctx && e.2.stalls.isNone then s.modCore (e.1 / 32) fun c => c.setOwners e.2.stb e.2.stn 3 else s) s

/-- An access in flight of an engine that runs to completion, or of the trap queue. -/
def MemOp.outlives (o : MemOp) : Bool := o.actor.any fun w => w.unit = 2 || w.unit = 3 || w.unit = 5

/-- Stores in flight of a context's teams: each is left to be performed or is discarded, as nothing determines, and none reports to a
team (R346). -/
def State.dropOps (s : State) (ctx : Nat) : State :=
  let f := s.freeVal
  let store (o : MemOp) : Bool := o.cls = some .st || o.drain ≠ []
  { f.2 with ops := (s.ops.filter fun o => o.ctx ≠ ctx || o.outlives || (store o && bitOf f.1 (o.seq % 64))).map fun o =>
      if o.ctx = ctx && store o then { o with quiet := true } else o }

/-- The tile operation of a sequence number belongs to a context. -/
def Core.gone (c : Core) (ctx seq : Nat) : Bool := c.tileOps.any fun o => o.seq = seq && o.who.ctx = ctx

/-- Steps 2 to 6 of R346: a context's teams stop, its resources are released, its jobs dropped, its launches ended. -/
def State.endWork (s : State) (ctx : Nat) : State :=
  let mine (k : Nat) : Bool := s.ctxOf k = ctx
  let jobs := s.dies.flatMap fun d => d.2.jobs.filter fun j => j.cmd.who.ctx = ctx && bitsOf j.cmd.data.toNat 64 6 = 0
  let s := jobs.foldl (fun s j => s.setJobState j 5) s
  let s := (s.freeStalls ctx).dropOps ctx
  { s with
    cores := tmap (fun _ c => { c with
      slots := c.slots.map fun x => if x.team.any mine then .reset else x
      q := c.q.filter fun e => e.2.ctx ≠ ctx
      pat := c.pat.filter fun e => e.2.1 ≠ ctx
      tbl := c.tbl.filter fun e => e.2.1 ≠ ctx
      tiles := c.tiles.filter fun e => !mine e.2.team
      tileOps := c.tileOps.filter fun o => o.who.ctx ≠ ctx
      ostc := c.ostc.filter fun o => o.who.ctx ≠ ctx
      ostcRun := if c.ostcRun.any fun r => r.cmd.who.ctx = ctx then none else c.ostcRun
      mx := { c.mx with
        queue := c.mx.queue.filter fun o => !c.gone ctx o.seq
        pass := c.mx.pass.filter fun o => !c.gone ctx o.seq } }) s.cores
    quads := tmap (fun _ q => { q with
      ctxs := q.ctxs.filter (· ≠ ctx)
      cx := if q.owner.any mine then .empty else q.cx
      prop := if q.owner.any mine then none else q.prop
      owner := if q.owner.any mine then none else q.owner
      claims := q.claims.filter fun e => !mine e.1 }) s.quads
    dies := tmap (fun _ d => { d with
      ranges := d.ranges.filter fun r => r.ctx ≠ ctx
      running := d.running.filter fun n => !(d.jobs.any fun j => j.cmd.seq = n && j.cmd.who.ctx = ctx)
      jobs := d.jobs.filter fun j => j.cmd.who.ctx ≠ ctx }) s.dies
    barriers := tmap (fun _ b => { b with
      phases := b.phases.map fun p => { p with arrived := p.arrived.filter fun a => 2 ^ 18 ≤ a.team || !mine a.team } }) s.barriers
    teams := s.teams.filter fun e => !mine e.1
    blocks := s.blocks.filter fun e => e.2.ctx ≠ ctx
    ctxs := tins s.ctxs ctx { s.ctx ctx with
      routines := []
      launches := tmap (fun _ l => { l with done := true }) (s.ctx ctx).launches
      queues := []
      pending := [] } }

/-- Kill a context (R346). When it is the one that runs the farrier monitor, the launch core restarts the monitor (R355). -/
def State.kill (s : State) (ctx : Nat) : State :=
  let s := s.endWork ctx
  let s := s.modCtx ctx fun c => { c with killed := true }
  if ctx = Config.monitorContext.toNat && (s.ctx ctx).world then s.extendMeas 3 Config.monitorDigest else s

/-- The team's part of a record (R337). -/
def State.recOf (s : State) (k cause kind : Nat) (pc detail : Word) (mask : Mask) (async : Bool) : Rec where
  cause := cause
  kind := kind
  pc := pc
  detail := detail
  mask := mask
  ltag := ((s.launchOf? k).map fun l => l.rcd.ltag).getD 0
  team := k
  hasTeam := true
  async := async
  inh := (s.team k).handler.isSome

/-- The record of a team's translation fault. -/
def State.faultRec (s : State) (k kind : Nat) (f : PendingFault) : Rec := s.recOf k 7 kind (s.team k).pc f.detail f.mask false

/-- What the read of an entry of the trap queue asks for: nothing; the end of the context with a record, by software's answer;
or its end without one (R345, R413). -/
inductive Answer where
  | none
  | kill (r : Rec)
  | unwritten
  deriving DecidableEq, Repr

/-- The device reads V and RESP of an entry that it wrote (R344, R345, R413): a consumed one is its to use again, and the answer to a
replayable record lets its team retry or ends the context. -/
def State.pollEntry (s : State) (ctx : Nat) (e : TqEntry) : State × Answer :=
  let r := s.devRead (s.trapActor ctx) .rmw ((s.ctx ctx).trapq.toNat + 32 * e.idx) 32
  let s := r.1
  let drop (s : State) : State := s.modCtx ctx fun c => { c with entries := c.entries.filter fun x => x.idx ≠ e.idx }
  match r.2.1 with
  | .ok bs =>
    let w := ofBytes bs
    if bitOf w 79 then (s, .none)
    else
      let s := drop s
      match (s.team e.team).fault with
      | some f =>
        if !(e.hasTeam && e.kind = kindReplayable && s.hasTeam e.team && s.ctxOf e.team = ctx && f.stage = .waiting) then (s, .none)
        else if bitsOf w 77 2 = 0 then (s.modTeam e.team fun t => { t with fault := some { f with stage := .retry } }, .none)
        else (s, .kill (s.faultRec e.team kindFatal f))
      | none => (s, .none)
  | _ =>
    if e.kind = kindNotice then ((drop s).modCtx ctx fun c => { c with lost := min 255 (c.lost + 1) }, .none)
    else if (s.ctx ctx).killed then (s, .none)
    else (s, .unwritten)

/-- Entries are read one after the other until one asks for something. -/
def State.pollList (ctx : Nat) : List TqEntry → State → State × Answer
  | [], s => (s, .none)
  | e :: es, s =>
    let r := s.pollEntry ctx e
    if r.2 = .none then State.pollList ctx es r.1 else r

/-- A device that lacks free entries reads those that it wrote (R344). -/
def State.pollForRoom (s : State) (ctx : Nat) : State × Answer :=
  if (s.ctx ctx).freeEntries < 5 then State.pollList ctx (s.ctx ctx).entries s else (s, .none)

/-- A fatal record: written if it may be, and then the context is killed (R345, R346, R413). A further fatal cause of a killed
context, which an engine that runs to completion can meet, is written too while the kill has fewer than four records. -/
def State.fatal (s : State) (ctx : Nat) (r : Rec) : State :=
  let c := s.ctx ctx
  if c.killed && 4 ≤ c.fatals then s
  else
    let w := (s.pollForRoom ctx).1.putRecord ctx { r with kind := kindFatal }
    let s := if w.2.2 then w.1.irq (w.1.vfOf ctx) 0 else w.1
    let s := s.modCtx ctx fun c => { c with fatals := c.fatals + 1 }
    if c.killed then s else s.kill ctx

/-- What an entry asked for is done. -/
def State.settle (s : State) (ctx : Nat) (a : Answer) : State :=
  match a with
  | .none => s
  | .kill r => s.fatal ctx r
  | .unwritten => (s.irq (s.vfOf ctx) 0).kill ctx

/-- A notice record: written when at least 5 entries are free, dropped and counted otherwise (R345, R413). -/
def State.notice (s : State) (ctx : Nat) (r : Rec) : State :=
  let lose (s : State) : State := s.modCtx ctx fun c => { c with lost := min 255 (c.lost + 1) }
  let p := s.pollForRoom ctx
  let s := if (s.ctx ctx).killed then p.1 else p.1.settle ctx p.2
  if (s.ctx ctx).freeEntries < 5 then lose s
  else
    let w := s.putRecord ctx { r with kind := kindNotice }
    if w.2.1 then w.1 else lose w.1

/-- Write a replayable or held record now, as R345 allows; a record that cannot be written kills the context (R413). -/
def State.tryRecord (s : State) (ctx : Nat) (r : Rec) : State × Bool :=
  let p := s.pollForRoom ctx
  if p.2 ≠ .none then (p.1.settle ctx p.2, true)
  else if (p.1.ctx ctx).freeEntries < 5 then (p.1, false)
  else
    let w := p.1.putRecord ctx r
    if w.2.1 then (w.1, true)
    else if w.2.2 then ((w.1.irq (w.1.vfOf ctx) 0).kill ctx, true)
    else (w.1, false)

/-- Queue a replayable or held record behind those that wait for room (R345). -/
def State.queueRecord (s : State) (ctx : Nat) (r : Rec) : State :=
  if (s.ctx ctx).killed then s
  else if (s.ctx ctx).pending ≠ [] then s.modCtx ctx fun c => { c with pending := c.pending ++ [r] }
  else
    let w := s.tryRecord ctx r
    if w.2 then w.1 else w.1.modCtx ctx fun c => { c with pending := c.pending ++ [r] }

/-- A record of the launch core's, with no team (R29, R412, R414). -/
def launchCoreRec (cause : Nat) (pc detail : Word) (ltag : BitVec 16) : Rec where
  cause := cause
  kind := kindFatal
  pc := pc
  detail := detail
  mask := 0
  ltag := ltag
  team := 0
  hasTeam := false
  async := false
  inh := false

end Sys2Proof.Machine
end

