-- ==== Sys2Proof/Machine/Combine.lean ====
section
/-!
DEFINITION. The write-combining buffer of a core (R97): how stores merge into its entries, and how an entry is performed at its home
as one write, with the failures that it can meet (R363, R367).
-/

namespace Sys2Proof.Machine

/-- The teams that stored into an entry. -/
def WcEntry.teams (e : WcEntry) : List Nat := e.owners.map WcOwner.team

/-- The report to a team of the failure of its stores in an entry (R356, R362). -/
def WcOwner.report (w : WcOwner) (unit op loc : Nat) (vas : List Nat) : Report :=
  ⟨8, memDetail unit op loc, w.mask, w.pc, w.seq, none, 0, [], none, false, w.handler, some vas⟩

/-- The stored bits of an entry over the bytes that a line has at its home. -/
def WcEntry.over (e : WcEntry) (line : Nat → Byte) : List (Nat × Byte) :=
  e.bytes.map fun b => (b.1, (b.2.2 &&& b.2.1) ||| (line b.1 &&& ~~~b.2.1))

/-- The runs of bits of an entry that lie in one aligned word: byte of the word in the line, first bit and length. -/
def WcEntry.runs (e : WcEntry) : List (Nat × Nat × Nat) :=
  let set (i : Nat) : Bool := (tget (0, 0) e.bytes (i / 8)).1.getLsbD (i % 8)
  (List.range 16).flatMap fun w =>
    (List.range 64).filterMap fun i =>
      if set (64 * w + i) && (i = 0 || !set (64 * w + i - 1)) then
        some (8 * w, i, ((List.range (64 - i)).takeWhile fun j => set (64 * w + i + j)).length)
      else none

/-- The value of a run of an entry. -/
def WcEntry.bits (e : WcEntry) (w lo len : Nat) : Nat :=
  bitsOf (ofBytes ((List.range 8).map fun i => (tget (0, 0) e.bytes (w + i)).2)) lo len

/-- The operation that takes an entry out of the package: one write of the line (R97, R124, R125). -/
def WcEntry.op (e : WcEntry) (seq : Nat) : MemOp :=
  { askOp ⟨0, e.ctx, 0⟩ seq (e.runs.map fun r =>
      ⟨0, 128 * e.vline + r.1, 128 * e.line + r.1, r.2.1, r.2.2, 0, .write, BitVec.ofNat 64 (e.bits r.1 r.2.1 r.2.2), 0, [], 2, e.key, e.cmp, true,
        .waiting, 0⟩) with
    team := e.teams.headD 0, drain := e.owners, actor := none, quiet := false }

/-- What a drained entry does to the copies of its line: none in the quad is older (R90), and the die's RDC is updated
(R94), or drops the line where it may show a later store of the die. -/
def State.wcCopies (s : State) (core : Nat) (e : WcEntry) : State :=
  let s := s.quadDrop (quadOfCore core) e.line fun _ _ => false
  let upd (l : CLine) : CLine :=
    { l with data := BitVec.ofNat 1024 (e.runs.foldl (fun d r => withBits d (8 * r.1 + r.2.1) r.2.2 (e.bits r.1 r.2.1 r.2.2)) l.data.toNat) }
  if !(s.die (dieOfCore core)).rdc.any fun l => l.pline = e.line then s
  else if s.diePending (dieOfCore core) e.line then s.rdcDropLine (dieOfCore core) e.line
  else s.modDie (dieOfCore core) fun d => { d with rdc := d.rdc.map fun l => if l.pline = e.line then upd l else l }

/-- The team that a store came from has not ended. -/
def State.ownerHere (s : State) (ctx : Nat) (w : WcOwner) : Bool :=
  let b := s.block (blockKeyOf w.team)
  s.hasTeam w.team && !(s.team w.team).ended && b.bseq = w.bseq && b.ctx = ctx

/-- A record of a store, for its context. -/
def WcOwner.orphan (w : WcOwner) (cause : Nat) (detail : Word) : Rec :=
  ⟨cause, kindFatal, w.pc, detail, w.mask, 0, 0, false, true, w.handler⟩

/-- Stores of a write-combining entry have failed: a report to the team of each (R356, R362). Where its block has completed, the
failure goes on record as at the end of a team (log 33); another block in the slot is not concerned (R346). -/
def State.reportOwners (s : State) (ctx : Nat) (ws : List WcOwner) (unit op loc : Nat) (vas : List Nat) : State :=
  ws.foldl (fun s w =>
    if s.ownerHere ctx w then s.modTeam w.team fun t => t.addReport (w.report unit op loc vas)
    else s.fatal ctx (w.orphan 8 (memDetail unit op loc))) s

/-- Stores of an entry violate a region, and are not performed (R328, R367). -/
def State.ownersViol (s : State) (ctx : Nat) (ws : List WcOwner) (reason pa : Nat) : State :=
  match ws with
  | [] => s
  | w :: _ =>
    let d := BitVec.ofNat 64 (reason * 2 ^ 60 + pa % 2 ^ 52)
    s.fatal ctx (if s.ownerHere ctx w then s.recOf w.team 9 kindFatal w.pc d w.mask true else w.orphan 9 d)

/-- Perform an entry at its home as one write; a refused one is reported to the teams that stored into it (R363). -/
def State.wcPerform (s : State) (core : Nat) (e : WcEntry) : State :=
  let v := s.violation (s.ctx e.ctx).world (128 * e.line) e.key
  if isMem (128 * e.line) && v ≠ 0 then s.ownersViol e.ctx e.owners v (128 * e.line)
  else if isMem (128 * e.line) then
    let r := s.homeWrite e.key e.cmp e.line (e.over fun i => BitVec.ofNat 8 (s.rdNat e.key (128 * e.line + i) 1))
    let s := ((r.1.keepWorld s (s.ctx e.ctx).world e.cmp e.line).countL2 (128 * e.line) (r.1.vfOf e.ctx) 0x100).wcCopies core e
    match r.2 with
    | none => s
    | some u => s.reportOwners e.ctx e.owners u 1 (128 * e.line) [128 * e.vline]
  else
    let q := s.newSeq
    { q.2 with ops := q.2.ops ++ [e.op q.1] }.wcCopies core e

/-- Drain the entry at an index. -/
def State.wcDrain (s : State) (core i : Nat) : State :=
  match (s.core core).wcb[i]? with
  | none => s
  | some e => (s.modCore core fun c => { c with wcb := c.wcb.eraseIdx i }).wcPerform core e

/-- Drain every entry of a core that satisfies `p`. -/
def State.wcDrainIf (s : State) (core : Nat) (p : WcEntry → Bool) : State :=
  let es := (s.core core).wcb.filter p
  if es.isEmpty then s
  else es.foldl (fun s e => s.wcPerform core e) (s.modCore core fun c => { c with wcb := c.wcb.filter (!p ·) })

/-- Merge bits of a byte that were stored before with newer ones. -/
def mergeBits (old new : Byte × Byte) : Byte × Byte := (old.1 ||| new.1, (old.2 &&& ~~~new.1) ||| (new.2 &&& new.1))

/-- Merge an MT-10 store of an instruction into the entry of its line; a full buffer drains its oldest entry first. No L1 of the quad
keeps the line (R90). An entry of the line under another key or compression drains first, as one write has one of each (log 96). -/
def State.wcStore (s : State) (core ctx key : Nat) (w : WcOwner) (cmp : Bool) (line vline : Nat) (ws : List (Nat × Byte × Byte)) : State :=
  let s := s.quadDrop (quadOfCore core) line fun _ _ => false
  let merge (b : Table (Byte × Byte)) : Table (Byte × Byte) :=
    ws.foldl (fun t w => tins t w.1 (mergeBits (tget (0, 0) t w.1) w.2)) b
  let s := s.wcDrainIf core fun e => e.line = line && (e.key ≠ key || e.cmp ≠ cmp)
  if (s.core core).wcb.any fun e => e.line = line then
    s.modCore core fun c => { c with wcb := c.wcb.map fun e =>
      if e.line = line then
        { e with bytes := merge e.bytes, owners := if e.owners.contains w then e.owners else w :: e.owners, last := s.clock }
      else e }
  else
    let s := if 8 ≤ (s.core core).wcb.length then s.wcDrain core 0 else s
    s.modCore core fun c => { c with wcb := c.wcb ++ [⟨line, vline, ctx, key, cmp, merge [], [w], s.clock⟩] }

end Sys2Proof.Machine
end

