-- ==== Sys2Proof/Machine/Ops.lean ====
section
/-!
DEFINITION. The operations every instruction goes through: the arrival check (R33), retiring, waiting, holding, and
taking an exception (R338–R343) with the return from one (R341). A meaning says what it does as an `Eff`; `finish`
turns that into the outcome of the step.
-/

namespace Sys2Proof.Machine

abbrev Out1 := Host.Outcome State Fault Refusal

/-- What an instruction does: it completes and falls through; it completes having set PC itself; it waits at its
PC; it raises a trap with no other effect (cause, threads, DETAIL); or a deferred report stops the team before it (R356). -/
inductive Eff where
  | done (s : State)
  | jump (s : State)
  | wait (s : State) (k : WaitKind)
  | trap (s : State) (cause : Nat) (mask : Mask) (detail : Word)
  | late (s : State) (r : Report)

/-! ## Reconvergence (R33) -/

/-- TopJoin of R33. -/
def StackEntry.topJoin (e : StackEntry) : Word :=
  match e.kind with
  | .pend => e.jpc
  | .join => e.pc

/-- The arrival check of R33 on PC, mask and stack, top first. -/
def arrive : List StackEntry → Word → Mask → Word × Mask × List StackEntry
  | [], pc, em => (pc, em, [])
  | e :: st, pc, em =>
    if em = 0 || pc = e.topJoin then
      match e.kind with
      | .pend => arrive st e.pc e.mask
      | .join => arrive st pc e.mask
    else (pc, em, e :: st)

/-- The arrival check; a mask that a popped entry restores holds only live threads (R21). A waiting path that runs next is not in
sequence, and no block covers it (R139). -/
def Team.arrival (t : Team) : Team :=
  let live := t.live
  let r := arrive (t.stack.map fun e => { e with mask := e.mask &&& live }) t.pc t.em
  let popped := t.stack.take (t.stack.length - r.2.2.length)
  { t with
    pc := r.1
    em := r.2.1
    stack := if popped.isEmpty then t.stack else r.2.2
    pbs := if popped.any fun e => e.kind = .pend then { t.pbs with left := 0 } else t.pbs }

/-! ## Retiring and waiting -/

def MemOp.performed (o : MemOp) : Bool := o.parts.all Part.over

/-- A part has neither been performed nor failed and been reported. -/
def Part.unsettled (p : Part) : Bool := p.st ≠ .done

/-- Every operation of a team has been performed, and no failure waits to be reported. -/
def State.settled (s : State) (k : Nat) : Bool :=
  (s.ops.all fun o => !o.by k || !o.parts.any Part.unsettled) && (s.core (coreOf k)).tileOps.all fun o => o.who.team ≠ k

/-- The operations of a team that satisfy `p` and are not over. -/
def State.openOps (s : State) (k : Nat) (p : MemOp → Bool) : List Nat :=
  (s.ops.filter fun o => o.by k && p o && o.parts.any Part.unsettled).map MemOp.seq

/-- The operations and tile operations of a team that are not over. -/
def State.allOpen (s : State) (k : Nat) : List Nat :=
  s.openOps k (fun _ => true) ++ ((s.core (coreOf k)).tileOps.filter fun o => o.who.team = k).map TileOp.seq

/-- Registers, counted from the destination, that some part of an operation may write. -/
def MemOp.targets (o : MemOp) : List Nat :=
  (List.range 8).filter fun j => o.parts.any fun p => match p.kind with
    | .write | .red _ => false
    | .cas4 n => j < n
    | _ => p.dbit / 2048 = j

/-- Every operation of a team has been performed. -/
def State.allPerformed (s : State) (k : Nat) : Bool := s.ops.all fun o => !o.by k || o.performed

/-- The PC of the next instruction in sequence. -/
def State.nextPc (s : State) : Word := s.ct.pc + BitVec.ofNat 64 s.cur.len

/-- Change the issue slots of a core that serve a team. -/
def State.modSlotsOf (s : State) (k : Nat) (f : IssueSlot → IssueSlot) : State :=
  s.modCore (coreOf k) fun c => { c with slots := c.slots.map fun x => if x.team = some k then f x else x }

/-- The team gives up its issue slot; its served mark is set if it issued there (R43). -/
def State.leaveSlot (s : State) (k : Nat) : State :=
  let ran := (s.core (coreOf k)).slots.any fun x => x.team = some k && x.run ≠ 0
  let s := s.modSlotsOf k fun _ => .reset
  if ran then s.modTeam k fun t => { t with served := true } else s

/-- The team's wait ends without its instruction; a `bar` that has arrived resumes its wait later without arriving again
(R343, R348 WAITF). -/
def Team.unwait (t : Team) : Team :=
  { t with
    wait := none
    parkedWaitF := match t.wait with
      | some ⟨.bar b p, _, _⟩ => some (b, p)
      | _ => t.parkedWaitF }

/-- A team waits no longer at its `cx.claim`, which has no effect until it completes and is issued again (R348, log 94). -/
def State.dropClaim (s : State) (k : Nat) : State :=
  s.modQuad (quadOfCore (coreOf k)) fun q => { q with claims := q.claims.filter fun c => c.1 ≠ k }

/-- A team is held: it stops at its precise point, its frame is written, and a held record is queued (R351). -/
def State.hold (s : State) (k cause : Nat) (detail : Word) (mask : Mask) (pc : Word) (async : Bool) : State :=
  let r := s.recOf k cause kindHeld pc detail mask async
  let s := s.modTeam k fun t => { t.unwait with hold := some ⟨cause, t.wcnt⟩, mon := .none, newFrame := none, frameBad := false }
  ((s.leaveSlot k).dropClaim k).queueRecord (s.ctxOf k) r

/-- A team stands at a precise point when nothing it issued is outstanding on LDC or TLC (R343). -/
def Team.precise (t : Team) : Bool := t.count .ld = 0 && t.count .tl = 0

/-- The hold that ends a step, naming the cause met during it (R338, R351). -/
def State.stepHold (s : State) (k cause : Nat) : State :=
  s.hold k 0x18 (BitVec.ofNat 64 cause) (s.team k).active (s.team k).pc false

/-- A team that steps is held again once its instruction has retired and it stands at a precise point (R343, R351). -/
def State.stepDone (s : State) (k : Nat) : State :=
  match (s.team k).mon with
  | .step true c =>
    if (s.team k).precise then s.stepHold k c else (s.modTeam k fun t => { t with mon := .stepped c }).leaveSlot k
  | _ => s

/-- A team that has issued 256 instructions in a row gives up its slot (R43). -/
def State.capSlot (s : State) (k : Nat) : State :=
  if (s.core (coreOf k)).slots.any fun x => x.team = some k && 256 ≤ x.run then
    (s.modSlotsOf k fun _ => { IssueSlot.reset with capped := some k }).modTeam k fun t => { t with served := true }
  else s

/-- The instruction of the issuing team has completed: the run in its slot advances, the issue is counted, and at 256
instructions in a row the team gives up its slot (R43, R326). -/
def State.retireAt (s : State) : State :=
  let k := s.ck
  let s := s.modTeam k fun t => { t with wait := none, bpSkip := false }
  let s := s.modSlotsOf k fun x => { x with run := x.run + 1 }
  let s := s.countEv s.cur.core (s.ctxOf k) 0x2 1
  (s.capSlot k).stepDone k

/-- Retire and fall through; a covered instruction counts down its block (R139). -/
def State.retire (s : State) : State :=
  (s.modCur fun t => { t with pc := s.nextPc, pbs := { t.pbs with left := t.pbs.left - 1 } }).retireAt

/-- An instruction at which a team waited completes by an event; its PC has been set (R43, R326). -/
def State.retireWaiting (s : State) (k : Nat) : State :=
  ((s.modTeam k fun t => { t with wait := none, bpSkip := false }).countEv (coreOf k) (s.ctxOf k) 0x2
    1).stepDone k

/-- A wait of an instruction that has issued: a `bar` has arrived and a `yield` has set CONTPC, where every other instruction has no
effect until its wait is over (R348). -/
def WaitKind.issued (w : WaitKind) : Bool :=
  match w with
  | .yield .. | .bar .. => true
  | _ => false

/-- The team waits at its instruction: a stall that gives up its slot, having issued there where the instruction has (R43). -/
def State.waitAt (s : State) (k : WaitKind) : State :=
  let w : Wait := match s.ct.wait with
    | some w => { w with kind := k }
    | none => ⟨k, s.clock, false⟩
  let s := if k.issued then s.modSlotsOf s.ck fun x => { x with run := x.run + 1 } else s
  (s.modCur fun t => { t with wait := some w }).leaveSlot s.ck

/-! ## Taking an exception -/

/-- The launch record of a team's launch, with no handler and no flags where there is none. -/
def State.handlerOf (s : State) (k : Nat) : Word := ((s.launchOf? k).map fun l => l.rcd.handler).getD 0
def State.fholdOf (s : State) (k : Nat) : Bool := (s.launchOf? k).any fun l => l.rcd.fhold
def State.noswapOf (s : State) (k : Nat) : Bool := (s.launchOf? k).any fun l => l.rcd.noswap

/-- Handler entry (R340): the resume point, `em`, the stack and PBS are saved, x28–x31 are banked and take the record's
words, and PC becomes HANDLER. -/
def State.enterHandler (s : State) (k : Nat) (r : Rec) : State :=
  let ctx := s.ctxOf k
  let w := recBits ctx { r with kind := kindFatal, inh := false } (s.ctx ctx).seq 0
  let h := s.handlerOf k
  s.modTeam k fun t =>
    let t := t.unwait
    let t := { t with
      handler := some {
        resume := if r.cause = 5 then t.pc + 8 else t.pc
        em := t.em
        stack := t.stack
        pbs := t.pbs
        bank := [t.getX 28, t.getX 29, t.getX 30, t.getX 31]
        entry := t.pc
        seq := s.nextSeq
        waitF := t.parkedWaitF }
      stack := [], pbs := ⟨0, 0, 0, 0, 0⟩, pc := h, parkedWaitF := none, bpSkip := false }
    (((t.setX 28 (BitVec.ofNat 64 w)).setX 29 (BitVec.ofNat 64 (w / 2 ^ 64))).setX 30
      (BitVec.ofNat 64 (w / 2 ^ 128))).setX 31 (BitVec.ofNat 64 (w / 2 ^ 192))

/-- A cause that arises in handler mode is a double fault (R341). -/
def State.doubleFault (s : State) (k : Nat) (pc : Word) (mask : Mask) : State :=
  let entry := ((s.team k).handler.map fun h => h.entry).getD 0
  s.fatal (s.ctxOf k) (s.recOf k 0x10 kindFatal pc entry mask false)

/-- A fatal cause, or a hold where the kernel asks for one (R339). -/
def State.fatalOrHold (s : State) (k cause : Nat) (pc detail : Word) (mask : Mask) (async : Bool) : State :=
  if s.fholdOf k then s.hold k cause detail mask pc async
  else s.fatal (s.ctxOf k) (s.recOf k cause kindFatal pc detail mask async)

/-- A translation fault keeps its team from issuing until its pages are present (R47). -/
def State.pageFault (s : State) (k : Nat) (mask : Mask) (detail : Word) : State :=
  (s.modTeam k fun t => { t.unwait with
    fault := some ⟨.swapping, mask, detail, s.cur.walks, s.cur.wide⟩
    mon := match t.mon with
      | .step i _ => .step i 7
      | m => m }).leaveSlot k

/-- Take an exception now, at a precise point (R338–R341): `pc` is the PC the record reports. -/
def State.take (s : State) (k cause : Nat) (mask : Mask) (detail pc : Word) (async : Bool) : State :=
  let t := s.team k
  if cause = 6 then s.hold k cause detail mask pc async
  else if t.handler.isSome then s.doubleFault k (if async then t.pc else pc) mask
  else if cause = 9 then s.fatal (s.ctxOf k) (s.recOf k cause kindFatal pc detail mask async)
  else if cause = 7 then
    if s.noswapOf k then s.fatalOrHold k cause pc detail mask async else s.pageFault k mask detail
  else if s.handlerOf k ≠ 0 then
    let s := s.enterHandler k (s.recOf k cause kindFatal pc detail mask async)
    match t.mon with
    | .step .. | .stepped _ => s.stepHold k cause
    | _ => s
  else s.fatalOrHold k cause pc detail mask async

/-- Raise an exception at the team's instruction: it is taken at once at a precise point, and otherwise the team stops
and takes it when it stands at one (R343). A translation fault waits in the same way at its swap (R47). -/
def State.raise (s : State) (k cause : Nat) (mask : Mask) (detail pc : Word) (async : Bool) : State :=
  let t := s.team k
  if t.precise || (cause = 7 && t.handler.isNone && !s.noswapOf k) then s.take k cause mask detail pc async
  else (s.modTeam k fun t => { t.unwait with latched := some ⟨cause, mask, detail, pc, async⟩ }).leaveSlot k

/-- Take the exception that a team has waited to take. -/
def State.takeLatched (s : State) (k : Nat) : State :=
  match (s.team k).latched with
  | none => s
  | some l => (s.modTeam k fun t => { t with latched := none }).take k l.cause l.mask l.detail l.pc l.async

/-- Deliver a report: the team stops before its next instruction (R356). Until it stands at a precise point it issues nothing, and the
oldest report is delivered then. -/
def State.deliver (s : State) (k : Nat) (r : Report) : State :=
  if (s.team k).precise then
    (s.modTeam k fun t => { t with reports := t.reports.erase r }).raise k r.cause r.mask r.detail r.pc true
  else s.leaveSlot k

/-- The return from an exception (R341): what handler entry saved is restored, and the team continues at the resume
point. -/
def Team.rett (t : Team) : Team :=
  match t.handler with
  | none => t
  | some h =>
    let t := { t with pc := h.resume, em := h.em &&& t.live, stack := h.stack, pbs := h.pbs, handler := none,
                       parkedWaitF := h.waitF }
    (((t.setX 28 (h.bank.getD 0 0)).setX 29 (h.bank.getD 1 0)).setX 30 (h.bank.getD 2 0)).setX 31 (h.bank.getD 3 0)

/-! ## Outcomes -/

/-- The instruction falls through to a PC outside the address space (R395). A `yield` does not fall through. -/
def Eff.fallsOut (s0 : State) (e : Eff) : Bool :=
  nonCanonical s0.nextPc.toNat && match e with
    | .done _ => true
    | .wait _ (.yield ..) => false
    | .wait .. => true
    | .trap _ c _ _ => c = 4 || 7 ≤ c
    | .jump _ | .late .. => false

/-- The outcome of a meaning on the state it began in. A fall-through PC outside the address space raises the operand trap
instead, before any cause that R353 orders after it (R395). -/
def finish (s0 : State) (e : Eff) : Out1 :=
  if e.fallsOut s0 then .next (s0.raise s0.ck 2 s0.ct.active s0.cur.base s0.ct.pc false)
  else match e with
    | .done s => .next s.retire
    | .jump s => .next s.retireAt
    | .wait s k => .next (s.waitAt k)
    | .trap s c m d => .next (s.raise s.ck c m d s.ct.pc false)
    | .late s r => .next (s.deliver s.ck r)

/-- The illegal-instruction trap (R130): DETAIL is the 64 bits at PC, which for an instruction without a prefix are its
base instruction. -/
def illegal (s : State) : Eff := .trap s 1 s.ct.active s.cur.base

/-- The operand trap for the whole team (R148, R338). -/
def opTrap (s : State) : Eff := .trap s 2 s.ct.active s.cur.base

/-- The operand trap that some threads cause (R392). -/
def opTrapBy (s : State) (m : Mask) : Eff := .trap s 2 m s.cur.base

/-- An instruction with `em` = 0 passes its encoding checks and has no effect (R391). -/
def whenActive (s : State) (f : State → Eff) : Eff := if s.ct.em = 0 then .done s else f s

/-- An instruction that only changes the team. -/
def teamEff (s : State) (f : Team → Team) : Eff := whenActive s fun s => .done (s.modCur f)

/-- An instruction that writes one x register with a value of the team's. -/
def writeX (s : State) (d : BitVec 5) (f : Team → Word) : Out1 :=
  finish s (teamEff s fun t => t.setX d.toNat (f t))

end Sys2Proof.Machine
end

