-- ==== Sys2Proof/Machine/Operands.lean ====
section
/-!
DEFINITION. The operands of vector instructions: the checks of R175 (slots, registers, widths), the element and slice views
of registers (R72), and the writing of elements, slices and predicates under the active set and the prefix's mask (R136, R176).
-/

namespace Sys2Proof.Machine

/-! ## Slots -/

/-- The companding table a core holds for a context (R70). -/
def Core.curve? (c : Core) (ctx t : Nat) : Option Curve :=
  match tfind c.tbl t with
  | some e => if e.1 = ctx then some (curveOf e.2) else none
  | none => none

/-- Why a slot image cannot be used on a core by a context: the REASON of R375, 0 when it can. -/
def imgReason (c : Core) (ctx : Nat) (img : Word) : Nat :=
  let r := fmtReason img
  let t := (fmtOf img).cmpd
  if r ≠ 0 then r
  else if t = 0 then 0
  else match tfind c.tbl t with
    | none => 4
    | some e => if e.1 = ctx then 0 else 5

/-- A slot image made ready for use. -/
def readySlot (c : Core) (ctx : Nat) (xp : Option Xp) (img : Word) : Slot :=
  let f := fmtOf img
  ⟨img, f.override xp, if f.cmpd = 0 then none else c.curve? ctx f.cmpd⟩

/-- Slot `n` of the issuing team. -/
def State.slot (s : State) (xp : Option Xp) (n : BitVec 4) : Slot := readySlot s.cc s.cctx xp (s.ct.getFs n.toNat)

/-- DETAIL of a format trap (R375). -/
def formatDetail (reason slot role img : Nat) : Word :=
  BitVec.ofNat 64 (reason * 2 ^ 60 + slot % 16 * 2 ^ 56 + role * 2 ^ 52 + img % 2 ^ 52)

/-- The first slot that fails its check, as DETAIL; slots stand as (role, slot) in the order FS, FSA, FSB (R375). -/
def State.formatErr (s : State) : List (Nat × BitVec 4) → Option Word
  | [] => none
  | (role, n) :: l =>
    let img := s.ct.getFs n.toNat
    let r := imgReason s.cc s.cctx img
    if r ≠ 0 then some (formatDetail r n.toNat role img.toNat) else s.formatErr l

/-! ## Registers -/

/-- A vector operand: block-scaled, or not; and its register. -/
abbrev VOpd := Bool × BitVec 7

/-- A register below the allocated count; a block-scaled operand names the even register of an allocated pair (R175). -/
def opdOk (n : Nat) (o : VOpd) : Bool :=
  if o.1 then o.2.toNat % 2 = 0 && o.2.toNat + 1 < n else o.2.toNat < n

def State.opdsOk (s : State) (l : List VOpd) : Bool := l.all (opdOk s.cblock.vregs)

def Slot.blocked (sl : Slot) : Bool := sl.f.blk ≠ 0

/-- The checks of R175 before an effect on the machine: slots, then registers and conditions. -/
def checked (s : State) (slots : List (Nat × BitVec 4)) (opds : List VOpd) (cond : Bool) (f : State → Eff) : Eff :=
  whenActive s fun s =>
    match s.formatErr slots with
    | some d => .trap s 3 s.ct.active d
    | none => if s.opdsOk opds && cond then f s else opTrap s

/-- A vector instruction that changes only its team. -/
def vecOp (s : State) (slots : List (Nat × BitVec 4)) (opds : List VOpd) (cond : Bool) (f : Team → Team) : Out1 :=
  finish s (checked s slots opds cond fun s => .done (s.modCur f))

/-! ## Element view (R72) -/

/-- A register and its partner, as naturals. -/
structure View where
  even : Nat
  odd : Nat
  deriving DecidableEq, Repr

def Team.view (t : Team) (r : BitVec 7) : View := ⟨(t.getV r.toNat).toNat, (t.getV (r.toNat + 1)).toNat⟩

/-- Owner(i, W): the slot whose slice holds the element's lowest bit. -/
def ownerOf (w i : Nat) : Nat := i * w / 64

/-- The bits of element `i`. -/
def View.bits (v : View) (w i : Nat) : Nat := bitsOf v.even (i * w) w

/-- The block byte of element `i`. -/
def Slot.byteOf (sl : Slot) (odd i : Nat) : Nat :=
  if sl.f.block = 0 then 0 else bitsOf odd (8 * (i / sl.f.block)) 8

/-- Element `i` of an operand as a value. -/
def Slot.elem (sl : Slot) (v : View) (i : Nat) : Val :=
  sl.decode (v.bits sl.f.width i) (sl.byteOf v.odd i)

/-- A register with some of its elements replaced. -/
def putCodes (w old : Nat) (codes : List (Option Nat)) : Nat :=
  (codes.zipIdx.foldl (fun r e => match e.1 with
    | some c => withBits r (e.2 * w) w c
    | none => r) old)

/-- What happens to element `i` of width `w` that an instruction computes as `f i`: written when its owner is active and
allowed by the mask, zeroed under MZ 1 when it is not, otherwise left (R136). -/
def Team.elemWr (t : Team) (xp : Option Xp) (w : Nat) (f : Nat → Option Val) (i : Nat) : Wr :=
  match f i with
  | none => .keep
  | some v =>
    if (t.masked xp).getLsbD (ownerOf w i) then .val v
    else if (t.zeroed xp).getLsbD (ownerOf w i) then .zero else .keep

/-- Where stochastic rounding draws (R62). -/
def Team.draw (t : Team) : Draw := ⟨t.tmode.toNat / 2 ^ 32, (t.getX 30).toNat % 2 ^ 40, id⟩

/-- A slice all of whose bits lie in written elements of width `w`. -/
def sliceFull (w : Nat) (written : Nat → Bool) (i : Nat) : Bool :=
  (64 * i + 63) / w < 2048 / w && (List.range ((64 * i + 63) / w - 64 * i / w + 1)).all fun j => written (64 * i / w + j)

/-- Write rounded values into a destination under a slot (R72, R136, R176). -/
def Team.writeDrawn (t : Team) (draw : Draw) (xp : Option Xp) (sl : Slot) (d : BitVec 7) (f : Nat → Option Val) : Team :=
  let v := t.view d
  let w := sl.f.width
  let r := sl.encodeAll draw v.odd ((List.range sl.f.count).map (t.elemWr xp w f))
  let t := (t.setV d.toNat (BitVec.ofNat 2048 (putCodes w v.even r.2))).mend d.toNat
    (sliceFull w fun e => ((r.2[e]?).getD none).isSome)
  if r.1.isEmpty then t
  else (t.setV (d.toNat + 1) (BitVec.ofNat 2048 (r.1.foldl (fun o b => withBits o (8 * b.1) 8 b.2) v.odd))).mend (d.toNat + 1)
    (sliceFull 8 fun e => r.1.any fun b => b.1 = e)

def Team.writeElems (t : Team) (xp : Option Xp) (sl : Slot) (d : BitVec 7) (f : Nat → Option Val) : Team :=
  t.writeDrawn t.draw xp sl d f

/-- Write raw element bits of width `w` (R179, R180, R184, R187). -/
def Team.writeBits (t : Team) (xp : Option Xp) (w : Nat) (d : BitVec 7) (f : Nat → Nat) : Team :=
  let m := t.masked xp
  let z := t.zeroed xp
  let codes := (List.range (2048 / w)).map fun i =>
    if m.getLsbD (ownerOf w i) then some (f i) else if z.getLsbD (ownerOf w i) then some 0 else none
  (t.setV d.toNat (BitVec.ofNat 2048 (putCodes w (t.getV d.toNat).toNat codes))).mend d.toNat
    (sliceFull w fun e => ((codes[e]?).getD none).isSome)

/-- Write slices (R136, R189). -/
def Team.writeSlices (t : Team) (xp : Option Xp) (d : BitVec 7) (f : Nat → Word) : Team :=
  t.setVIn d.toNat (t.masked xp ||| t.zeroed xp) (regOfSlices fun i => if (t.masked xp).getLsbD i then f i else 0)

/-- Write a predicate: masked-off threads keep theirs under MZ 0 and get 0 under MZ 1 (R136, R179). -/
def Team.writePred (t : Team) (xp : Option Xp) (d : Nat) (f : Nat → Bool) : Team :=
  t.setPIn d (t.masked xp ||| t.zeroed xp) (maskOf f &&& t.masked xp)

/-- The logical ids that `vshfl` and `vrot` take a slice from (R189). -/
def Team.shflSrc (t : Team) (vb : BitVec 7) (i : Nat) : Nat := (sliceOf (t.getV vb.toNat) i).toNat % 2 ^ 10

def rotSrc (o : VRotOps) (own : Nat) : Option Nat :=
  let n : Int := own + o.n.toInt
  if o.wrap then some (own / 32 * 32 + (n % 32).toNat)
  else if 0 ≤ n && n ≤ 1023 then some n.toNat else none

/-- The elements of width `w` that a slot's thread owns. -/
def ownedBy (w i : Nat) : List Nat := (List.range (2048 / w)).filter fun e => ownerOf w e = i

end Sys2Proof.Machine
end

