-- ==== Sys2Proof/Machine/Reads.lean ====
section
/-!
DEFINITION. The bits of vector registers that an instruction reads, and for which thread: what decides whether it meets a
failed slice (R361) or a destination bit of a failed operation (R356).
-/

namespace Sys2Proof.Machine

/-- A read of register bits for the thread in a slot, or for the whole team at slot 32. -/
abbrev SlotRead := Nat × RegBits

/-- Slices of a register, or their low `n` bits, in the slots of `m`. -/
def sliceReads (m : Mask) (n : Nat) (r : Nat) : List SlotRead := (maskSlots m).map fun i => (i, ⟨r, 64 * i, n⟩)

/-- The whole of a register, for the team. -/
def wholeRead (r : BitVec 7) : List SlotRead := [(32, ⟨r.toNat, 0, 2048⟩)]

/-- Elements of a register under a format, without block bytes (R72). -/
def Fmt.rawReads (f : Fmt) (r : BitVec 7) (es : List (Nat × Nat)) : List SlotRead :=
  es.map fun e => (e.1, ⟨r.toNat, e.2 * f.width, f.width⟩)

/-- Elements of an operand with the bytes of their blocks (R65). -/
def Fmt.reads (f : Fmt) (r : BitVec 7) (es : List (Nat × Nat)) : List SlotRead :=
  f.rawReads r es ++ if f.block = 0 then [] else es.map fun e => (e.1, ⟨r.toNat + 1, 8 * (e.2 / f.block), 8⟩)

/-- The elements under a format whose owner is in `m`, with the owner. -/
def Fmt.owned (f : Fmt) (m : Mask) : List (Nat × Nat) :=
  (List.range f.count).filterMap fun i => if m.getLsbD (ownerOf f.width i) then some (ownerOf f.width i, i) else none

/-- The slices that a slice move reads: of the source thread of each allowed slot (R188, R189). -/
def Team.moveReads (t : Team) (xp : Option Xp) (va : BitVec 7) (src : Nat → Nat → Option Nat) : List SlotRead :=
  (maskSlots (t.masked xp)).filterMap fun i =>
    ((src i ((t.lid i).getD 0)).bind t.slotOfLid).map fun j => (i, ⟨va.toNat, 64 * j, 64⟩)

/-- The operand of an atomic or a reduction: the low bytes of the thread's slice. -/
def Team.aReads (t : Team) (xp : Option Xp) (o : AOps) (vd : Nat) : List SlotRead :=
  sliceReads (t.masked xp) 64 o.va.toNat ++ sliceReads (t.masked xp) vd o.vd.toNat

/-- The vector-register bits that an instruction reads. A slot that fails its check, which comes first (R353), reads nothing.
DESIGN CHOICE (log 101): R174 says that an instruction reads whole registers, and R361 and R356 leave open which bits of them count;
those of elements whose owner neither computes nor writes are not counted. -/
def Team.vbits (t : Team) (pat : Nat → Option VReg) (i : Instr) : List SlotRead :=
  let fmt (n : BitVec 4) : Fmt := if fmtReason (t.getFs n.toNat) = 0 then fmtOf (t.getFs n.toNat) else fmtOf 0
  let m (xp : Option Xp) : Mask := t.masked xp
  let own (xp : Option Xp) (n : BitVec 4) : List (Nat × Nat) := (fmt n).owned (m xp)
  let team (n : Nat) : List (Nat × Nat) := (List.range n).map fun e => (32, e)
  let dot (o : VDotOps) : List SlotRead :=
    let n := min (fmt o.fsa).count (fmt o.fsb).count / (o.g.toNat + 1) * (o.g.toNat + 1)
    (fmt o.fsa).reads o.va (team n) ++ (fmt o.fsb).reads o.vb (team n)
  match i with
  | .vadd xp o | .vsub xp o | .vmul xp o | .vdiv xp o | .vmin xp o | .vmax xp o =>
    (fmt o.fsa).reads o.va (own xp o.fs) ++ (fmt o.fsa).reads o.vb (own xp o.fs)
  | .vfma xp o | .vfms xp o | .vfnma xp o | .vfnms xp o =>
    (fmt o.fsa).reads o.va (own xp o.fs) ++ (fmt o.fsa).reads o.vb (own xp o.fs) ++ (fmt o.fs).reads (vcReg xp o.vd) (own xp o.fs)
  | .vabs xp o | .vneg xp o | .vrcp xp o | .vsqrt xp o | .vrsqrt xp o | .vexp2 xp o | .vlog2 xp o | .vsinpi xp o
  | .vcospi xp o | .vtanh xp o | .vrint xp o => (fmt o.fsa).reads o.va (own xp o.fs)
  | .vredsum xp o | .vredmax xp o | .vredmin xp o => (fmt o.fsa).reads o.va (own xp o.fsa)
  | .vcmpeq xp o | .vcmpne xp o | .vcmplt xp o | .vcmple xp o | .vcmpun xp o =>
    (fmt o.fs).reads o.va (own xp o.fs) ++ (fmt o.fs).reads o.vb (own xp o.fs)
  | .vclass xp o => (fmt o.fs).reads o.va (own xp o.fs)
  | .vsel xp o => (fmt o.fs).rawReads o.va (own xp o.fs) ++ (fmt o.fs).rawReads o.vb (own xp o.fs) ++ (fmt o.fs).rawReads o.vm (own xp o.fs)
  | .vdot _ o => dot o
  | .vdota xp o =>
    dot o ++ (fmt o.fs).reads (vcReg xp o.vd)
      ((own xp o.fs).filter fun e => e.2 < min (fmt o.fsa).count (fmt o.fsb).count / (o.g.toNat + 1))
  | .vand xp o | .vor xp o | .vxor xp o | .vandn xp o =>
    (fmt o.fs).rawReads o.va (own xp o.fs) ++ (fmt o.fs).rawReads o.vb (own xp o.fs)
  | .vshl xp o | .vshr xp o | .vsar xp o =>
    (fmt o.fs).rawReads o.va (own xp o.fs) ++ if o.immf then [] else (fmt o.fs).rawReads o.vb (own xp o.fs)
  | .vcvt _ o =>
    let f := 32 * o.from32.toNat
    (fmt o.fsa).reads o.va ((List.range (min ((fmt o.fsa).count - f) ((fmt o.fs).count - 32 * o.to32.toNat))).map fun e => (32, f + e))
  | .vmov xp va _ => t.moveReads xp va fun _ o => some o
  | .vbcastl xp id va _ => t.moveReads xp va fun _ _ => some id.toNat
  | .vshfl xp vb va _ => sliceReads (m xp) 10 vb.toNat ++ t.moveReads xp va fun s _ => some (t.shflSrc vb s)
  | .vrot xp o => t.moveReads xp o.va fun _ n => rotSrc o n
  | .vxchg xp x va _ => t.moveReads xp va fun _ n => some (n ^^^ x.toNat)
  | .vpat xp p va _ =>
    (maskSlots (m xp)).flatMap fun s => (List.range 8).map fun b =>
      (s, ⟨va.toNat, 8 * bitsOf ((pat p.toNat).getD 0).toNat (8 * (8 * s + b)) 8, 8⟩)
  | .vgetx o =>
    if o.elt then (fmt o.fs).rawReads o.v [(32, o.idx.toNat)]
    else (t.slotOfLid o.idx.toNat).toList.map fun j => (32, ⟨o.v.toNat, 64 * j, 64⟩)
  | .vpatld _ va | .fscmp _ va | .qpush _ _ _ va | .tcopy _ _ _ va | .cxLdc va _ _ _ => wholeRead va
  | .st8 xp o => sliceReads (m xp) 8 o.reg.toNat
  | .st16 xp o => sliceReads (m xp) 16 o.reg.toNat
  | .st32 xp o => sliceReads (m xp) 32 o.reg.toNat
  | .st64 xp o => sliceReads (m xp) 64 o.reg.toNat
  | .stp xp o => (fmt o.fs).reads o.reg (own xp o.fs)
  | .ldg xp o | .hgath xp o => sliceReads (m xp) 64 o.va.toNat
  | .stg xp o => t.aReads xp o (8 * 2 ^ o.wid.toNat)
  | .sst xp o => sliceReads (m xp) 64 o.reg.toNat
  | .aadd xp o | .aand xp o | .aor xp o | .axor xp o | .amin xp o | .amax xp o | .aminu xp o | .amaxu xp o | .aswp xp o
  | .redAdd xp o | .redAnd xp o | .redOr xp o | .redXor xp o | .redMin xp o | .redMax xp o | .redMinu xp o
  | .redMaxu xp o => t.aReads xp o (8 * 2 ^ o.wid.toNat)
  | .acas xp o => t.aReads xp o 64 ++ if o.wid = 3 then sliceReads (m xp) 64 (o.vd.toNat + 1) else []
  | .osRun xp o | .osEnq xp o | .osChase xp o => t.aReads xp o 64
  | .osCas4 xp o =>
    sliceReads (m xp) 64 o.va.toNat ++ (List.range (o.wid.toNat + 1)).flatMap fun j =>
      sliceReads (m xp) 64 (o.vd.toNat + j) ++ sliceReads (m xp) 64 (o.vd.toNat + 4 + j)
  | _ => []

/-- The scalar registers that an instruction reads: x30 as well where it rounds stochastically (R62). -/
def Team.xbits (t : Team) (i : Instr) : List Nat :=
  xreads t.blk i ++ match roundsUnder i with
    | some (xp, n) => if ((fmtOf (t.getFs n.toNat)).override xp).rnd = 5 then [30] else []
    | none => []

/-- The pattern store of a core as a context reads it (R191). -/
def State.patAt (s : State) (core ctx p : Nat) : Option VReg :=
  (tfind (s.core core).pat p).bind fun e => if e.1 = ctx then some e.2 else none

/-- The prefix, slot and register under which an instruction encodes values, and the elements that it computes; `bad` are those of a
tile row that hold errors. -/
def Team.encodes (t : Team) (bad : Nat → Bool) (i : Instr) : Option (Option Xp × BitVec 4 × BitVec 7 × (Nat → Bool)) :=
  let n (a : BitVec 4) : Nat := (fmtOf (t.getFs a.toNat)).count
  match i with
  | .vadd xp o | .vsub xp o | .vmul xp o | .vdiv xp o | .vmin xp o | .vmax xp o | .vfma xp o | .vfms xp o | .vfnma xp o
  | .vfnms xp o => some (xp, o.fs, o.vd, fun _ => true)
  | .vabs xp o | .vneg xp o | .vredsum xp o | .vredmax xp o | .vredmin xp o | .vrcp xp o | .vsqrt xp o | .vrsqrt xp o
  | .vexp2 xp o | .vlog2 xp o | .vsinpi xp o | .vcospi xp o | .vtanh xp o | .vrint xp o => some (xp, o.fs, o.vd, fun _ => true)
  | .vdot xp o | .vdota xp o => some (xp, o.fs, o.vd, fun e => e < min (n o.fsa) (n o.fsb) / (o.g.toNat + 1))
  | .vcvt xp o =>
    let f := 32 * o.from32.toNat
    let g := 32 * o.to32.toNat
    some (xp, o.fs, o.vd, fun e => g ≤ e && e < g + min (n o.fsa - f) (n o.fs - g))
  | .vtid xp _ fs vd => some (xp, fs, vd, fun _ => true)
  | .tld xp o => some (xp, o.fs, o.vd, fun e => 32 * o.row0.toNat + e < 1024 && !bad e)
  | _ => none

/-- The bytes of blocks that an instruction writes in part, which it encodes under them, for the threads whose elements it encodes
(R176). -/
def Team.partReads (t : Team) (bad : Nat → Bool) (i : Instr) : List SlotRead :=
  match t.encodes bad i with
  | none => []
  | some (xp, fs, vd, wr) =>
    let img := t.getFs fs.toNat
    let f := fmtOf img
    if fmtReason img ≠ 0 || f.block = 0 then []
    else
      let all := f.owned (t.masked xp ||| t.zeroed xp)
      (f.owned (t.masked xp)).filterMap fun e =>
        let b := e.2 / f.block
        let whole := ((List.range f.block).map (b * f.block + ·)).all fun x =>
          f.count ≤ x || (wr x && all.any fun y => y.2 = x)
        if wr e.2 && !whole then some (e.1, ⟨vd.toNat + 1, 8 * b, 8⟩) else none

/-- The elements of the tile row that a `tld` starts at which hold errors. -/
def State.badRow (s : State) (k : Nat) (t : Team) (i : Instr) : Nat → Bool :=
  match i with
  | .tld _ o => match t.tiles.find? fun e => e.1 = o.t.toNat with
    | some e => let bad := ((tfind (s.core (coreOf k)).tiles e.2).map Tile.bad).getD []; fun x => bad.contains (32 * o.row0.toNat + x)
    | none => fun _ => false
  | _ => fun _ => false

/-- The bits that the next instruction of a team reads. -/
def State.vbits (s : State) (k : Nat) (t : Team) (i : Instr) : List SlotRead :=
  t.vbits (s.patAt (coreOf k) (s.ctxOf k)) i ++ t.partReads (s.badRow k t i) i

/-- Two runs of register bits meet. -/
def RegBits.meets (a b : RegBits) : Bool := a.reg = b.reg && a.lo < b.lo + b.len && b.lo < a.lo + a.len

/-- The threads that read a failed slice at this instruction, and the first slice, as register and slot (R361). -/
def State.badRead (s : State) (k : Nat) (t : Team) (i : Instr) : Option (Mask × Nat × Nat) :=
  if t.badSlices = [] || t.em = 0 then none
  else
    let hits := (s.vbits k t i).flatMap fun r =>
      (t.badSlices.filter fun b => r.2.meets ⟨b.1, 64 * b.2, 64⟩).map fun b => (r.1, b)
    match hits with
    | [] => none
    | h :: hs =>
      let low := hs.foldl (fun a b => if b.1 < a.1 then b else a) h
      some (if hits.any fun x => 32 ≤ x.1 then t.active else maskOfList (hits.map Prod.fst), low.2.1, low.2.2)

end Sys2Proof.Machine
end

