-- ==== Sys2Proof/Machine/Issue.lean ====
section
/-!
DEFINITION. Issue: fetching an instruction's words through a translation with EX (R127), and what happens before an
instruction runs: the arrival check (R33), an exception the team waits to take, a hold that the monitor asked for, a
breakpoint (R335), deferred reports (R356), predicate-block coverage (R139) and the stalls of R79, R120 and R143.
-/

namespace Sys2Proof.Machine

/-! ## Fetch -/

inductive FetchRes where
  | ok (ws : List Nat)
  | trap (cause : Nat) (detail : Word)
  deriving DecidableEq, Repr

/-- The set of a line in the instruction cache: 8 ways of 64 sets (log 85). -/
def l1iSet (l : CLine) : Nat := l.vline % 64

/-- Fill the instruction cache, which holds normal memory of the package only (log 85). -/
def State.l1iFill (s : State) (core : Nat) (l : CLine) : State :=
  if l.mt = 0 then s.modCore core fun c => { c with l1i := cacheFill 8 l1iSet c.l1i l false } else s

/-- The line that holds an instruction in the package's memory: from the die's RDC, or from the home, which then fills the RDC
where the line may stand there (R92, R94). -/
def State.fetchLine (s : State) (core ctx va pa : Nat) (e : TlbEntry) : State × Except Nat CLine :=
  let die := dieOfCore core
  let far := e.mt = 0 && rdcHolds die pa
  match if far then rdcFind (s.die die).rdc ctx va pa else none with
  | some l => (s.countEv core ctx 0x11 1, .ok l)
  | none =>
    match s.failedAt (lineOf pa) with
    | some u => (s, .error u)
    | none =>
      let l : CLine := ⟨ctx, va / 128, pa / 128, e.mt, e.key, e.cmp, e.wr && e.dirty,
        BitVec.ofNat 1024 (s.lineView (lineOf pa) (s.keyMat e.key))⟩
      let s := s.countL2 pa (s.vfOf ctx) 0x100
      (if far && !s.diePending die (lineOf pa) then s.rdcFill die l false else s, .ok l)

/-- One 32-bit word of instructions: from the core's instruction cache, or through a translation with EX (R92, R127). The
failure is a trap's cause and DETAIL. -/
def State.fetchWord (s : State) (w : Actor) (core : Nat) (va : Nat) : State × Except (Nat × Word) Nat :=
  match l1Find (s.core core).l1i w.ctx va with
  | some l => (s, .ok (bitsOf l.data.toNat (8 * (va % 128)) 32))
  | none =>
    if nonCanonical va then (s, .error (7, faultDetail 0 7 va .fetch))
    else
      let x := s.xlate core w va .fetch
      match x.2 with
      | .ok pa e =>
        let pa := x.1.localPa pa
        let v := x.1.violation (x.1.ctx w.ctx).world pa e.key
        if v ≠ 0 then (x.1, .error (9, BitVec.ofNat 64 (v * 2 ^ 60 + pa)))
        else if isMem pa then
          let f := x.1.fetchLine core w.ctx va pa e
          match f.2 with
          | .error u => (f.1, .error (8, memDetail u 0 (128 * lineOf pa)))
          | .ok l => (f.1.l1iFill core l, .ok (bitsOf l.data.toNat (8 * (va % 128)) 32))
        else if homeOf pa = .devreg then (x.1, .ok (x.1.devRegRead (x.1.ctx w.ctx).world pa (8 * (pa % 8)) 32).toNat)
        else
          let r := x.1.remote w (remotePart .read pa (8 * (pa % 8)) 32 0 0 e.key e.mt e.cmp) false
          match r.2 with
          | some (.ok d) => (r.1, .ok (d.toNat % 2 ^ 32))
          | some (.error (u, op, loc)) => (r.1, .error (8, memDetail u op loc))
          | none => (r.1, .ok 0)
      | .fault r l a => (x.1, .error (7, faultDetail r l a .fetch))
      | .mem loc => (x.1, .error (8, memDetail 7 0 loc))

/-- The words of the instruction at `va`, at most `fuel` more. -/
def fetchWords (w : Actor) (core va : Nat) : Nat → List Nat → State → State × FetchRes
  | 0, ws, s => (s, .ok ws)
  | fuel + 1, ws, s =>
    if wordsNeeded ws ≤ ws.length then (s, .ok ws)
    else
      let f := s.fetchWord w core (va + 4 * ws.length)
      match f.2 with
      | .ok x => fetchWords w core va fuel (ws ++ [x]) f.1
      | .error (c, d) => (f.1, .trap c d)

/-- The words of the instruction at a team's PC. -/
def State.fetchAt (s : State) (k : Nat) : State × FetchRes :=
  fetchWords (s.teamActor k) (coreOf k) (s.team k).pc.toNat 4 [] s

/-- The first 64 bits of the words fetched. -/
def bits64 (ws : List Nat) : Word := BitVec.ofNat 64 (ws.getD 0 0 + ws.getD 1 0 * 2 ^ 32)

/-- The 64 bits at the PC of an illegal sequence (R338): a word of a reserved prefix kind ends the fetch, and the word after
it is read for the record; where it cannot be fetched it reads 0 (log 43). -/
def State.illegalBits (s : State) (w : Actor) (core va : Nat) (ws : List Nat) : State × Word :=
  if 2 ≤ ws.length then (s, bits64 ws)
  else
    let f := s.fetchWord w core (va + 4)
    match f.2 with
    | .ok x => (f.1, bits64 (ws ++ [x]))
    | .error _ => (f.1, bits64 ws)

/-! ## Deferred reports (R356) -/

/-- A `waitc` whose threshold requires the operation of a report to be complete. -/
def waitcNeeds (t : Team) (r : Report) (i : Instr) : Bool :=
  match i, r.cls with
  | .waitc l s c tl, some k =>
    let a := match k with
      | .ld => l
      | .st => s
      | .cp => c
      | .tl => tl
    a.toNat ≠ 63 && a.toNat + r.ord ≤ tget 0 t.issued k.code
  | _, _ => false

/-- A report stops the team before this instruction, which runs as `t` (R356), or before whichever comes next where a release that is
held waits for it to be reported (R407). -/
def State.reportHit (s : State) (k : Nat) (t : Team) (i : Instr) (r : Report) : Bool :=
  r.due || r.cause = 0xA || (r.cause = 0xB && r.detail.toNat / 2 ^ 60 = 4 && isCx i)
    || (match i with
      | .exit => true
      | _ => false)
    || waitcNeeds t r i || releasesAll i
    || s.ops.any (fun o => o.by k && o.carry.any fun c => 4 ≤ c.sco && r.seq < c.seq)
    || (r.dst ≠ [] && (s.vbits k t i).any fun x => r.dst.any x.2.meets) || r.dstX.any fun d => (t.xbits i).contains d

/-- The report that is delivered before this instruction: where one is due, the oldest that may be delivered (R356). In handler
mode those of operations issued before it wait. -/
def State.reportDue (s : State) (k : Nat) (t : Team) (i : Instr) : Option Report :=
  let l := t.reports.filter fun r => t.handler.isNone || r.handler
  if l.any (s.reportHit k t i) then l.head? else none

/-- A report that has become due in handler mode is held, and delivered when `rett` returns (R356). -/
def State.holdReports (s : State) (k : Nat) (t : Team) (i : Instr) : State :=
  if t.handler.isNone || t.reports = [] then s
  else s.modTeam k fun x => { x with reports := x.reports.map fun r => if !r.handler && s.reportHit k t i r then { r with due := true } else r }

/-! ## Before an instruction runs -/

/-- The operations in flight whose destination the instruction reads or writes (R79). -/
def State.pendingDest (s : State) (k : Nat) (i : Instr) : List Nat :=
  let t := s.team k
  let vs := vreads t.blk i ++ vwrites t.blk i
  let xs := t.xbits i ++ xwrites i
  (s.ops.filter fun o => o.by k &&
    match o.dest with
    | .vreg d => o.targets.any fun j => vs.contains (d + j)
    | .xreg d => xs.contains d
    | .none => false).map MemOp.seq

/-- The tile reads in flight whose destination the instruction names (R240). -/
def State.pendingTile (s : State) (k : Nat) (i : Instr) : List Nat :=
  let t := s.team k
  let vs := vreads t.blk i ++ vwrites t.blk i
  ((s.core (coreOf k)).tileOps.filter fun o => o.who.team = k &&
    match o.kind with
    | .load ds => ds.any fun d => vs.contains d
    | _ => false).map TileOp.seq

/-- What the issue of a decoded instruction does first: it may run; or something else happens instead. -/
inductive Prep where
  | run (i : Instr)
  | other (o : Out1)

/-- The acquire in flight before which the team makes no later access (R120). -/
def State.acquiring (s : State) (k : Nat) : Option Nat :=
  (s.team k).acqBlock.filter fun q => s.ops.any fun o => o.seq = q && o.parts.any Part.unsettled

/-- An exit or a release that waits for earlier operations (R356). -/
def State.orderStall (s : State) (k : Nat) (i : Instr) : Option WaitKind :=
  if waitsAll i && !s.settled k then some (.memory (s.allOpen k) false) else none

/-- The stalls at issue of an instruction that runs as `t`, as the wait they begin. One with no thread to act for raises no counter
(R143, R144). -/
def State.stall (s : State) (k : Nat) (t : Team) (i : Instr) : Option WaitKind :=
  let dests := s.pendingDest k i ++ s.pendingTile k i
  if dests ≠ [] then some (.operand dests)
  else match cntClass i with
    | some c => if c ≠ .cp && 63 ≤ t.count c && t.masked i.xp ≠ 0 then some (.counter c) else s.orderStall k i
    | none => s.orderStall k i

/-- The block state that a PB word records (R139). A first covered instruction that issues again, with nothing of its block
completed, does so under the same coverage: the state that it began with, or that a return restored, stands (R140). -/
def Team.begin (t : Team) (pb : Option Pb) : Team :=
  match pb with
  | some p =>
    let new : Pbs := ⟨t.getP p.pr.toNat, p.pat, p.len.toNat + 1, p.len, p.pr⟩
    if t.pbs = { new with snap := t.pbs.snap } then t else { t with pbs := new }
  | none => t

/-- An instruction has been decoded at the team's PC. DESIGN CHOICE (log 102): the order of R353 does not name a failed register slice
(R361); it is reported before the format, operand and table checks of the instruction that reads it. -/
def State.prepared (s : State) (k : Nat) (d : Decoded) : State × Prep :=
  let t := (s.team k).begin d.pb
  match s.reportDue k t d.instr with
  | some r => let s' := s.deliver k r; (s', .other (.next s'))
  | none =>
    let s := s.holdReports k t d.instr
    let begun := s.modTeam k fun x => x.begin d.pb
    let masked := match d.instr.xp with
      | some x => x.km ≠ 0
      | none => false
    if t.pbs.left ≠ 0 && (!d.instr.pbOk || masked) then
      let s' := begun.raise k 1 t.active s.cur.base t.pc false
      (s', .other (.next s'))
    else
      match s.stall k t d.instr with
      | some w => let s' := { s with cur := { s.cur with len := d.len, base := d.base } }.waitAt w; (s', .other (.next s'))
      | none =>
        match s.badRead k t d.instr with
        | some (m, r, slot) =>
          let s' := begun.raise k 8 m (memDetail 4 0 (slot * 128 + r)) t.pc false
          (s', .other (.next s'))
        | none =>
          let s := { begun with cur := { s.cur with len := d.len, base := d.base } }
          let s := match t.mon with
            | .step false c => s.modTeam k fun t => { t with mon := .step true c }
            | _ => s
          (s, .run d.instr)

/-- What comes before the fetch: an exception to take, a hold, a breakpoint. `none` lets the team fetch. -/
def State.interrupt (s : State) (k : Nat) : Option State :=
  let t := s.team k
  if t.latched.isSome then some (if t.precise then s.takeLatched k else s.leaveSlot k)
  else if t.mon = .halt then
    some (if t.precise then s.hold k 0x19 0 t.active t.pc false else s.leaveSlot k)
  else if let .stepped c := t.mon then
    some (if t.precise then s.stepHold k c else s.leaveSlot k)
  else if !t.bpSkip && (s.ctx (s.ctxOf k)).bps.contains t.pc then
    some ((s.modTeam k fun t => { t with bpSkip := true }).raise k 6 t.active 0xFFFF t.pc false)
  else none

/-- Issue for a team that a slot serves. The fetch is an access, which an acquire in flight holds back (R111, R120). -/
def State.issueTeam (s : State) (k : Nat) : State × Prep :=
  let s := s.modTeam k Team.arrival
  match s.interrupt k with
  | some s' => (s', .other (.next s'))
  | none =>
    let t := s.team k
    let s := { s with cur := ⟨coreOf k, slotOf k, idxOf k, 8, 0, [], true⟩ }
    match s.acquiring k with
    | some q => let s' := s.waitAt (.memory [q] false); (s', .other (.next s'))
    | none =>
    let f := s.fetchAt k
    let s := f.1
    match f.2 with
    | .trap c d => let s' := s.raise k c t.active d t.pc false; (s', .other (.next s'))
    | .ok ws =>
      let s := { s with cur := { s.cur with base := bits64 ws } }
      match decodeWords ws with
      | .ok d => s.prepared k d
      | .error _ =>
        let b := s.illegalBits (s.teamActor k) (coreOf k) t.pc.toNat ws
        let s' := b.1.raise k 1 t.active b.2 t.pc false
        (s', .other (.next s'))

end Sys2Proof.Machine
end

