-- ==== Sys2Proof/Machine/Sched.lean ====
section
/-!
DEFINITION. Which team an issue slot serves next (R43), when a waiting team is ready again, and the passing of clocks.
-/

namespace Sys2Proof.Machine

def State.barrier (s : State) (b : BarRef) : Barrier :=
  match b with
  | .core c sl => (s.block (c * 32 + sl)).bar
  | _ => tget .reset s.barriers (barKey b)

/-- (completed − phase) mod 2^32 lies in 1 to 2^31 (R159). -/
def phaseOver (completed phase : BitVec 32) : Bool :=
  let d := (completed - phase).toNat
  1 ≤ d && d ≤ 2 ^ 31

/-- The entries of the pop port that a queue register names (R218). -/
def Core.popPort (c : Core) (b : QBind) : List PortEntry :=
  match b.port with
  | 2 => if b.idx = 0 then c.eng0.cpl else c.eng1.cpl
  | 5 => c.clause
  | 9 => c.ostr
  | _ => []

/-- How many commands or strips a push port holds at most (R218). -/
def portCap (port : Nat) : Nat :=
  match port with
  | 1 => 16
  | 6 | 7 => 8
  | _ => 4

def Core.eng (c : Core) (e : Nat) : CopyEngine := if e = 0 then c.eng0 else c.eng1

/-- The commands of a push port that its engine has not begun. -/
def State.portCmds (s : State) (core port idx : Nat) : List Cmd :=
  match port with
  | 1 => ((s.core core).eng idx).cmds
  | 6 => (s.die (4 + idx)).offl
  | 7 => ((s.die (dieOfCore core)).jobs.filter fun j => j.state = 0).map Job.cmd
  | 8 => (s.core core).ostc
  | _ => []

def Matrix.streamA (m : Matrix) (i : Nat) : Stream := tget .reset m.a i
def Matrix.streamB (m : Matrix) (i : Nat) : Stream := tget .reset m.b i

/-- The strip at a position. -/
def Stream.at? (st : Stream) (pos : BitVec 16) : Option Strip := st.strips[(pos - st.head).toNat]?

/-- A team whose `tmma` waits on its core, with its turn (R297). -/
def Team.stripTurn (t : Team) : Option StripTurn :=
  match t.wait with
  | some ⟨.strip x _, _, _⟩ => if t.place = .resident && t.hold.isNone then some x else none
  | _ => none

/-- No `tmma` of another team of the core that names one of the streams is earlier than `ticket` (R297). -/
def State.stripFirst (s : State) (k ticket sa sb : Nat) : Bool :=
  s.teams.all fun e => e.1 = k || coreOf e.1 ≠ coreOf k ||
    e.2.stripTurn.all fun x => ticket ≤ x.ticket || (x.sa ≠ sa && x.sb ≠ sb)

/-- The strips at the positions that a `tmma` names from the heads as the instructions issued so far leave them (R297). -/
def Matrix.named (m : Matrix) (x : StripTurn) : Option Strip × Option Strip :=
  ((m.streamA x.sa).at? ((m.streamA x.sa).issueHead + x.offA), (m.streamB x.sb).at? ((m.streamB x.sb).issueHead + x.offB))

/-- Operations that a team waits for are over: performed and reported, or gone. -/
def State.opsOver (s : State) (core : Nat) (l : List Nat) : Bool :=
  l.all fun q => !(s.ops.any fun o => o.seq = q && if o.actor.isSome then !o.performed else o.parts.any Part.unsettled)
    && !(s.core core).tileOps.any fun o => o.seq = q

/-- The 8 stored bytes at an address, as they stand. -/
def State.rawWord (s : State) (pa : Nat) : Word := BitVec.ofNat 64 (ofBytes ((List.range 8).map fun i => s.rdByte (pa + i)))

/-- LDC, STC, CPC and TLC are all zero (R35). -/
def Team.quiet (t : Team) : Bool := t.out = []

/-- Every unexited thread of the block is in a team that waits at a `regroup home:1` at this PC, with its counters zero
(R36); `me` is a team that is about to wait there. -/
def State.homeReady (s : State) (blk : Nat) (pc : Word) (me : Option Nat) : Bool :=
  (s.blockTeams blk).all fun k =>
    let t := s.team k
    t.empty || ((some k = me || (t.pc = pc && (match t.wait with
      | some w => w.kind = .regroup true
      | none => false))) && t.quiet)

/-- A team that waits would find its wait over. -/
def State.waitOver (s : State) (k : Nat) (w : WaitKind) : Bool :=
  let t := s.team k
  match w with
  | .waitc l st c tl => t.count .ld ≤ l && t.count .st ≤ st && t.count .cp ≤ c && t.count .tl ≤ tl
  | .yield .. => false
  | .bar b p | .barwt b p => phaseOver (s.barrier b).completed p
  | .qpop q => match tfind (s.core (coreOf k)).q q with
    | some b => (s.core (coreOf k)).popPort b ≠ []
    | none => true
  | .regroup home => home && s.homeReady (blockKeyOf k) t.pc none
  | .cxClaim => (s.quad (quadOfCore (coreOf k))).owner = some k
  | .cxProp => (s.quad (quadOfCore (coreOf k))).prop = none
  | .operand l => l.all fun q => !(s.ops.any fun o => o.seq = q) && !(s.core (coreOf k)).tileOps.any fun o => o.seq = q
  | .counter c => t.count c < 63
  | .memory l drain => s.opsOver (coreOf k) l && !(drain && (s.core (coreOf k)).wcb.any fun e => e.teams.contains k)
  | .tile l | .tfree l => s.opsOver (coreOf k) l
  | .talloc => (s.core (coreOf k)).tiles.length < 16
  | .strip x l =>
    let n := (s.core (coreOf k)).mx.named x
    s.opsOver (coreOf k) l && s.stripFirst k x.ticket x.sa x.sb && n.1.isSome && n.2.isSome
  | .own l => l.isEmpty
  | .qpush p i => (s.portCmds (coreOf k) p i).length < portCap p
  | .launch pa old => !isMem pa || s.rawWord pa ≠ old

/-- The monitor stops the team before its next instruction. -/
def MonReq.stops : MonReq → Bool
  | .halt | .stepped _ => true
  | .none | .step .. => false

/-- A team could issue if its block were bound and unparked (R42, R43, R48). One that is to be pre-empted issues nothing
outside handler mode, but first takes the exception that it has waited to take (R353). One whose active threads have exited with
no path waiting issues no more, whether or not unexited threads stand outside `em`, which nothing can set again (log 95). -/
def State.couldRun (s : State) (k : Nat) : Bool :=
  let t := s.team k
  s.hasTeam k && !t.ended && t.place = .resident && t.hold = none
    && t.fault = none && (t.em ≠ 0 || t.stack ≠ [])
    && (t.latched = none || t.precise) && (!t.mon.stops || t.precise) && (t.preempt = none || t.handler.isSome || t.latched.isSome)
    && (match t.wait with
      | none => true
      | some w => s.waitOver k w.kind)

/-- A team of a bound, unparked block may issue (R43, R48). -/
def State.ready (s : State) (k : Nat) : Bool := (s.block (blockKeyOf k)).st = .bound && s.couldRun k

/-- Older than: by BSEQ of the block, block slot, team index (R43). -/
def State.older (s : State) (a b : Nat) : Bool :=
  let x := (s.block (blockKeyOf a)).bseq
  let y := (s.block (blockKeyOf b)).bseq
  if x = y then a < b else (y - x).toNat < 2 ^ 31

def State.oldest (s : State) (ks : List Nat) : Option Nat :=
  ks.foldl (fun b k => match b with
    | none => some k
    | some x => if s.older k x then some k else some x) none

/-- Ready teams of a core that no slot serves. -/
def State.candidates (s : State) (core : Nat) : List Nat :=
  (tkeys s.teams).filter fun k => coreOf k = core && s.ready k && !(s.core core).slots.any fun x => x.team = some k

/-- Some ready team of the core has not been served while this one began two holds of an issue slot (R48, R302). -/
def State.mustWait (s : State) (k : Nat) : Bool :=
  s.teams.any fun e => coreOf e.1 = coreOf k && e.1 ≠ k && 2 ≤ e.2.ahead.count k && s.ready e.1

/-- An issue slot chooses the team it serves next (R43), among those that may begin another hold (R48). -/
def State.chooseTeam (s : State) (core slot : Nat) : State :=
  match ((s.core core).slots)[slot]? with
  | none => s
  | some x =>
    if x.team.isSome then s
    else
      let put (s : State) (k : Nat) : State := s.modCore core fun c => { c with slots := c.slots.set slot ⟨some k, 0, none, false⟩ }
      let cand := (s.candidates core).filter fun k => !s.mustWait k
      match s.oldest (cand.filter fun k => !(s.team k).served) with
      | some k => put s k
      | none =>
        let s := { s with teams := tmap (fun k t => if coreOf k = core then { t with served := false } else t) s.teams }
        match s.oldest (cand.filter fun k => some k ≠ x.capped) with
        | some k => put s k
        | none => match s.oldest cand with
          | some k => put s k
          | none => s

/-- The functions whose contexts are resident on a core (R327). -/
def State.residentFns (s : State) (core : Nat) : List Nat :=
  ((s.teams.filter fun t => coreOf t.1 = core && !t.2.ended && t.2.place = .resident).map fun t => s.vfOf (s.ctxOf t.1)).eraseDups

/-- Issue slots of a core that have no ready team (R326). -/
def State.idleSlots (s : State) (core : Nat) : Nat :=
  ((s.core core).slots.filter fun x => !(x.team.any s.ready)).length - (s.candidates core).length

/-- Clocks pass; every core's counters of clocks, and of slots without a ready team, advance for the functions resident
there (R326, R327). -/
def State.tick (s : State) (n : Nat) : State :=
  let s := { s with clock := s.clock + n }
  s.cores.foldl (fun s e =>
    if e.2.ev = [] then s
    else
      let idle := s.idleSlots e.1
      (s.residentFns e.1).foldl (fun s f => (List.range 8).foldl (fun s i =>
        (s.countOne e.1 f 0x1 n i).countOne e.1 f 0x3 (n * idle) i) s) s) s

/-- The team of a slot is served: with the first service its hold begins, which every other ready team of the core sees (R48).
A team's record of the holds ends when it is served itself or is not ready. -/
def State.noteHold (s : State) (core slot : Nat) : State :=
  match ((s.core core).slots[slot]?) with
  | some ⟨some k, _, _, begun⟩ =>
    let seen (j : Nat) (t : Team) : List Nat :=
      if j = k || !s.ready j then [] else if begun then t.ahead else k :: t.ahead
    let s' : State := { s with teams := tmap (fun j t =>
      if coreOf j ≠ core || (begun && t.ahead = []) then t else { t with ahead := seen j t }) s.teams }
    if !s.ready k then s else s'.modCore core fun c => { c with slots := c.slots.map fun x => if x.team = some k then { x with begun := true } else x }
  | _ => s

/-- A clock passes, a free slot chooses a team, and its team is served (R43, R48). -/
def State.serveSlot (s : State) (core slot : Nat) : State := ((s.tick 1).chooseTeam core slot).noteHold core slot

/-- Issue from a slot: a free slot first chooses a team; with no ready team nothing issues (R43). -/
def State.issueSlot (s : State) (core slot : Nat) : State × Prep :=
  let s := s.serveSlot core slot
  match ((s.core core).slots[slot]?).bind IssueSlot.team with
  | none => (s, .other (.next s))
  | some k =>
    if s.ready k then s.issueTeam k
    else let s := s.leaveSlot k; (s, .other (.next s))

end Sys2Proof.Machine
end

