-- ==== Sys2Proof/Machine/Residency.lean ====
section
/-!
DEFINITION. What a core keeps resident (R39, R42, R44), which launches are runnable and which block is promised (R48).
-/

namespace Sys2Proof.Machine

/-! ## Functions -/

/-- The context's function is a virtual function that is not active (R315). -/
def State.switchedOut (s : State) (ctx : Nat) : Bool := s.vfOf ctx ≠ 0 && s.vfOf ctx ≠ s.activeVf

/-- The context's function is being switched out: its teams leave as they can (R315, R342). -/
def State.switching (s : State) (ctx : Nat) : Bool := s.vfNext.isSome && s.vfOf ctx ≠ 0 && s.vfOf ctx = s.activeVf

/-! ## Launches -/

def LaunchRec.blocks (r : LaunchRec) : Nat := r.gx * r.gy * r.gz

/-- The vector registers that a block of the kernel takes (R39). -/
def LaunchRec.regs (r : LaunchRec) : Nat := r.teams * r.vrb8 * 8

/-- Admitted with unfinished blocks, in a context that runs (R48, R315). -/
def State.runnable (s : State) (ctx : Nat) (l : Launch) : Bool :=
  (s.ctx ctx).en && !(s.ctx ctx).killed && !s.switchedOut ctx && !s.switching ctx && !l.done && l.finished.length < l.rcd.blocks

/-- Served before: higher priority, then earlier admitted (R40). -/
def Launch.before (a b : Launch) : Bool := b.pri < a.pri || (a.pri = b.pri && a.order < b.order)

/-- The runnable launches: context, handle and launch. -/
def State.runnables (s : State) : List (Nat × Nat × Launch) :=
  s.ctxs.flatMap fun c => (c.2.launches.filter fun l => s.runnable c.1 l.2).map fun l => (c.1, l.1, l.2)

/-- The launch of a list that is served first. -/
def firstLaunch (ls : List (Nat × Nat × Launch)) : Option (Nat × Nat × Launch) :=
  ls.foldl (fun b x => match b with
    | none => some x
    | some y => if x.2.2.before y.2.2 then some x else some y) none

/-- The lowest-numbered unfinished block of a launch. -/
def Launch.lowest (l : Launch) : Nat :=
  ((List.range (l.finished.length + 1)).find? fun i => !l.finished.contains i).getD 0

/-- The promised block: context, launch handle and block index (R48). -/
def State.promised (s : State) : Option (Nat × Nat × Nat) :=
  (firstLaunch s.runnables).map fun x => (x.1, x.2.1, x.2.2.lowest)

/-- A bound block is the promised one. -/
def State.isPromised (s : State) (b : Nat) : Bool :=
  let x := s.block b
  s.promised = some (x.ctx, x.lnh, x.bidx)

/-! ## Registers -/

/-- Blocks of a core, by key. -/
def State.coreBlocks (s : State) (core : Nat) : List Nat := (tkeys s.blocks).filter fun b => b / 32 = core

/-- Teams of a core that hold registers: those that are resident, have not ended and stand in no parked block (R39,
R42). -/
def State.residents (s : State) (core : Nat) : List Nat :=
  (tkeys s.teams).filter fun k => coreOf k = core && !(s.team k).ended && (s.team k).place = .resident
    && (s.block (blockKeyOf k)).st ≠ .parked

def State.regsOf (s : State) (k : Nat) : Nat := (s.block (blockKeyOf k)).vregs

def State.regsUsed (s : State) (core : Nat) : Nat := ((s.residents core).map s.regsOf).sum

def State.regsFree (s : State) (core : Nat) : Nat := 2048 - s.regsUsed core

/-! ## Coming back -/

/-- The stall range of an evicted block is free (R45); a block that kept its stalls has them. -/
def State.stallsBack (s : State) (b : Nat) : Bool :=
  let x := s.block b
  x.stalls.isNone || (s.coreBlocks (b / 32)).all fun c =>
    let y := s.block c
    c = b || y.stalls.isSome || x.stb + x.stn ≤ y.stb || y.stb + y.stn ≤ x.stb

/-- An evicted team lacks nothing to return but registers and, where it held it, the clause array (R44, R45, R47, R243). -/
def State.mayReturn (s : State) (k : Nat) : Bool :=
  let t := s.team k
  s.hasTeam k && !t.ended && t.place = .evicted && !s.switchedOut (s.ctxOf k)
    && (t.fault.all fun f => f.stage = .present) && s.stallsBack (blockKeyOf k)
    && (s.core (coreOf k)).tiles.length + t.tileSave.length ≤ 16

/-- An evicted team returns to a parked block that has kept teams of its own: it stands with them in the paddock, and its
registers are found when the block is unparked (R42). -/
def State.joinsParked (s : State) (k : Nat) : Bool :=
  let b := blockKeyOf k
  (s.block b).st = .parked && (s.blockTeams b).any fun j => (s.team j).place = .resident

/-- The registers that a returning team needs now. -/
def State.regsBack (s : State) (k : Nat) : Nat := if s.joinsParked k then 0 else s.regsOf k

end Sys2Proof.Machine
end

