-- ==== Sys2Proof/Machine/Order.lean ====
section
/-!
DEFINITION. Acquires and releases as a team performs them: what must have been performed before, what is dropped, and the
race detector's counters (R91, R115, R119–R121, R126); barrier instances (R159); and the accesses that an instruction
performs at once for its team.
-/

namespace Sys2Proof.Machine

/-- SCO as a number (R30). -/
def scoNum (s : Scope) : Nat := s.code

/-- Every operation of a team before sequence number `q` that satisfies `f` has been performed. -/
def State.performedBefore (s : State) (k q : Nat) (f : MemOp → Bool) : Bool :=
  s.ops.all fun o => !(o.by k && o.seq < q && f o) || o.performed

/-- A release by a team at core scope or wider advances CSEQ and stamps RELSEQ (R126). -/
def State.noteRelease (s : State) (k sco : Nat) : State :=
  if sco = 0 then s
  else
    let c := s.ctxOf k
    let n := (s.ctx c).cseq + 1
    (s.modCtx c fun x => { x with cseq := n }).modTeam k fun t => { t with relSeq := n, relSco := sco }

/-- An acquire likewise (R126). -/
def State.noteAcquire (s : State) (k sco : Nat) : State :=
  if sco = 0 then s
  else
    let c := s.ctxOf k
    let n := (s.ctx c).cseq + 1
    (s.modCtx c fun x => { x with cseq := n }).modTeam k fun t => { t with acqSeq := n, acqSco := sco }

/-- What an acquire of a team at a scope drops, over the addresses that `p` covers: at device scope and wider the core's L1
and the die's RDC, at core and quad scope nothing (R91). -/
def State.acquire (s : State) (k sco : Nat) (p : Nat → Bool) : State :=
  if sco = 0 then s
  else (if 3 ≤ sco then (s.acquireDrop (coreOf k) (s.ctxOf k) p).quadStale (coreOf k) (s.ctxOf k) p else s).noteAcquire k sco

/-- A release drains the write-combining entries that the team stored into (R97). -/
def State.releaseDrain (s : State) (k : Nat) : State := s.wcDrainIf (coreOf k) fun e => e.teams.contains k

/-! ## Barriers (R158–R160) -/

def State.setBarrier (s : State) (b : BarRef) (v : Barrier) : State :=
  match b with
  | .core c sl => s.modBlock (c * 32 + sl) fun x => { x with bar := v }
  | _ => { s with barriers := tins s.barriers (barKey b) v }

/-- The instance that a team's barrier instruction names (R158). -/
def State.barRef (s : State) (k : Nat) (sco : Scope) (id : Nat) : BarRef :=
  match sco with
  | .core | .team | .system => .core (coreOf k) (slotOf k)
  | .quad => .quad (quadOfCore (coreOf k)) id
  | .device => .device id
  | .pod => .pod (s.ctx (s.ctxOf k)).podgrp.toNat id

/-- The block of an arrival: its slot and BSEQ. -/
def Arrival.block (a : Arrival) : Nat × BitVec 32 := (blockKeyOf a.team, a.bseq)

/-- The blocks that have joined a phase. -/
def Phase.blocks (p : Phase) : List (Nat × BitVec 32) := (p.arrived.map Arrival.block).eraseDups

/-- An arrival does not join this phase: its team has arrived in it, or N other blocks have joined it (R159, log 87). -/
def Phase.closedTo (p : Phase) (core : Bool) (a : Arrival) : Bool :=
  (p.arrived.any fun x => x.team = a.team && x.bseq = a.bseq) || (!core && !p.blocks.contains a.block && p.n ≤ p.blocks.length)

/-- Join the first open phase that an arrival may join, or open the next; `none` when its count differs (R159). -/
def joinPhase (a : Arrival) (n : Nat) (core : Bool) (next : BitVec 32) : List Phase → Option (List Phase × BitVec 32)
  | [] => some ([⟨next, n, [a]⟩], next)
  | p :: ps =>
    if p.closedTo core a then (joinPhase a n core next ps).map fun r => (p :: r.1, r.2)
    else if !core && p.n ≠ n then none
    else some ({ p with arrived := p.arrived ++ [a] } :: ps, p.num)

/-- The number of the phase after those open. -/
def Barrier.next (x : Barrier) : BitVec 32 := x.completed + BitVec.ofNat 32 x.phases.length

/-- An arrival: a release at the scope that joins a phase (R159, R160). `none` is the operand trap of another N. -/
def State.arriveAt (s : State) (k : Nat) (b : BarRef) (n sco : Nat) : Option (State × BitVec 32) :=
  let s := s.releaseDrain k
  let x := s.barrier b
  let core := match b with
    | .core .. => true
    | _ => false
  match joinPhase ⟨k, (s.block (blockKeyOf k)).bseq, s.nextSeq⟩ n core x.next x.phases with
  | none => none
  | some r => some ((s.newSeq.2.setBarrier b { x with phases := r.1 }).noteRelease k sco, r.2)

/-- The key under which a block of another device arrives: beyond the keys of this device's teams. -/
def remoteKey (dev block : Nat) : Nat := 2 ^ 18 * (dev + 1) + 32 * (block % 2 ^ 13)

/-- A block of another device of a pod group arrives, as the management channel tells this one (R158, R159, log 12). Where it
names another count than the phase's, the trap is that device's and nothing changes here. -/
def State.podArrive (s : State) (group id dev block n : Nat) : State :=
  let b : BarRef := .pod group id
  let x := s.barrier b
  if dev = s.podNum || !bitOf (bitsOf group 0 16) dev || !bitOf group s.podNum || 256 ≤ id then s
  else
    match joinPhase ⟨remoteKey dev block, 0, 0⟩ n false x.next x.phases with
    | none => s
    | some r => s.setBarrier b { x with phases := r.1 }

/-- A team stands empty: no unexited thread is in its slots, and one whose home team it is lives elsewhere (R35). One without such
a thread that waits for its counters does not stand, and has not ended (R153). -/
def State.stands (s : State) (k : Nat) : Bool := (s.team k).empty && s.homeAway (blockKeyOf k) (idxOf k)

/-- Teams of a block that its arrivals must include: those that have not ended and do not stand empty (R35, R158). -/
def State.arrivers (s : State) (blk : Nat) : List Nat := (s.blockTeams blk).filter fun k => !s.stands k

/-- A block that has joined a phase has arrived: every team that must has; one that is over, or of another device, has. -/
def State.blockArrived (s : State) (p : Phase) (x : Nat × BitVec 32) : Bool :=
  match tfind s.blocks x.1 with
  | some b => b.bseq ≠ x.2 || (s.arrivers x.1).all fun k => p.arrived.any fun a => a.team = k && a.bseq = x.2
  | none => true

/-- The phase is complete: at core scope when every team of the block has arrived, otherwise when N blocks have (R159),
and every arrival's earlier accesses are performed (R160). A remote block's arrival came when it was complete. -/
def State.phaseComplete (s : State) (b : BarRef) : Bool :=
  match (s.barrier b).phases with
  | [] => false
  | p :: _ =>
    p.arrived.all (fun a => s.performedBefore a.team a.seq fun _ => true) &&
    match b with
    | .core c sl => (s.arrivers (c * 32 + sl)).all fun k => p.arrived.any fun a => a.team = k
    | .quad .. | .device .. | .pod .. => p.n ≤ p.blocks.length && p.blocks.all (s.blockArrived p)

/-- Count a completed phase (R159). -/
def State.completePhase (s : State) (b : BarRef) : State :=
  let x := s.barrier b
  s.setBarrier b { completed := x.completed + 1, phases := x.phases.drop 1 }

/-! ## Accesses that an instruction performs at once -/

/-- Why an access of a team cannot be made: a trap with its DETAIL. -/
inductive Bad where
  | trap (cause : Nat) (detail : Word)
  deriving DecidableEq, Repr

/-- What a failed access of the device's own means for the team whose instruction made it; `acc` is the access. -/
def DevRes.bad (d : DevRes) (acc : Acc) : Bad :=
  match d with
  | .noXlate (.fault r l a) => .trap 7 (faultDetail r l a acc)
  | .noXlate (.mem loc) => .trap 8 (memDetail 7 0 loc)
  | .noXlate (.ok ..) | .ok _ => .trap 8 0
  | .mem u op loc => .trap 8 (memDetail u op loc)
  | .viol v pa => .trap 9 (BitVec.ofNat 64 (v * 2 ^ 60 + pa % 2 ^ 52))

/-- The translation of an access that an actor makes for a team, with the world and key check (R328, R367). -/
def State.actorXlate (s : State) (w : Actor) (k va : Nat) (acc : Acc) : State × Except Bad (Nat × TlbEntry) :=
  let x := s.xlate (coreOf k) w va acc
  match x.2 with
  | .ok pa e =>
    let pa := x.1.localPa pa
    let v := x.1.violation (x.1.ctx (x.1.ctxOf k)).world pa e.key
    if v ≠ 0 then (x.1, .error ((DevRes.viol v pa).bad acc)) else (x.1, .ok (pa, e))
  | r => (x.1, .error ((DevRes.noXlate r).bad acc))

/-- The translation of a team's access at its instruction. -/
def State.teamXlate (s : State) (k va : Nat) (acc : Acc) : State × Except Bad (Nat × TlbEntry) := s.actorXlate (s.teamActor k) k va acc

/-- Read bytes of one line for a team at their home. `op` is the OP code of an uncorrectable error (R362). -/
def State.teamRead (s : State) (k va n op : Nat) (acc : Acc) : State × Except Bad (List Byte × Nat × TlbEntry) :=
  let x := s.teamXlate k va acc
  match x.2 with
  | .error e => (x.1, .error e)
  | .ok (pa, e) =>
    let r : State × DevRes :=
      if isMem pa then
        match x.1.failedAt (lineOf pa) with
        | some u => (x.1, .mem u op (128 * lineOf pa))
        | none => (x.1.countL2 pa (x.1.vfOf (x.1.ctxOf k)) 0x100, .ok (bytesOf n (x.1.rdNat e.key pa n)))
      else if homeOf pa = .devreg then (x.1, .ok (x.1.regRun (x.1.ctx (x.1.ctxOf k)).world pa n))
      else x.1.remoteRun (x.1.teamActor k) e pa n
    match r.2 with
    | .ok bs => (r.1, .ok (bs, pa, e))
    | d => (r.1, .error (d.bad acc))

/-- Write bytes of one line for a team at their home; no copy above the home outlives the write. -/
def State.teamWrite (s : State) (k pa : Nat) (e : TlbEntry) (bytes : List Byte) : State :=
  (if isMem pa then
    ((s.writeRun e.key e.cmp pa bytes).1.keepWorld s (s.ctx (s.ctxOf k)).world e.cmp (lineOf pa)).countL2 pa (s.vfOf (s.ctxOf k)) 0x100
  else if homeOf pa = .devreg then s.regStore (s.ctx (s.ctxOf k)).world (s.vfOf (s.ctxOf k)) pa bytes
  else (s.remoteStore (s.teamActor k) e pa bytes).1).dropCopies (coreOf k) pa

def Bad.eff (b : Bad) (s : State) (m : Mask) : Eff :=
  match b with
  | .trap c d => .trap s c m d

end Sys2Proof.Machine
end

