-- ==== Sys2Proof/Machine/Race.lean ====
section
/-!
DEFINITION. The race detector (R126, R366): the scopes of R112, the shadow record of a sector, its test and its update.
-/

namespace Sys2Proof.Machine

/-- Teams `a` and `b` lie in one team, core, quad, device, pod or system (R112); all teams of a package share its device. -/
def sameScope (sco a b : Nat) : Bool :=
  match sco with
  | 0 => a = b
  | 1 => coreOf a = coreOf b
  | 2 => quadOfCore (coreOf a) = quadOfCore (coreOf b)
  | _ => true

/-- a > b between 41-bit sequence values: (a − b) mod 2^41 lies in 1 to 2^40 − 1. -/
def serialGt (a b : BitVec 41) : Bool :=
  let d := (a - b).toNat
  1 ≤ d && d < 2 ^ 40

/-- The shadow record that a write leaves (R126). -/
def shadowWord (watm : Bool) (sco k : Nat) (seq : BitVec 41) : Word :=
  BitVec.ofNat 64 (2 ^ 63 + (if watm then 2 ^ 62 + sco % 8 * 2 ^ 59 else 0) + coreOf k % 256 * 2 ^ 51 + slotOf k * 2 ^ 46
    + idxOf k * 2 ^ 41 + seq.toNat)

/-- WTEAM of a shadow record, as a team. -/
def shadowTeam (sh : Word) : Nat := teamKey (bitsOf sh.toNat 51 8) (bitsOf sh.toNat 46 5) (bitsOf sh.toNat 41 5)

/-- An access that is atomic or has SEM ≠ 00, and its scope. -/
structure RaceAcc where
  sync : Bool
  sco : Nat
  writes : Bool
  deriving DecidableEq, Repr

/-- The test of R126: an access of team `k` conflicts with the shadow record. -/
def State.conflicts (s : State) (k : Nat) (a : RaceAcc) (sh : Word) : Bool :=
  let n := sh.toNat
  let u := shadowTeam sh
  let tu := s.team u
  let tk := s.team k
  let synced := bitOf n 62 && a.sync && sameScope (bitsOf n 59 3) u k && sameScope a.sco u k
  let ordered := serialGt tu.relSeq (BitVec.ofNat 41 n) && sameScope tu.relSco u k
    && serialGt tk.acqSeq tu.relSeq && sameScope tk.acqSco u k
  bitOf n 63 && u ≠ k && !synced && !ordered

/-- The virtual address of a sector's shadow record (R314). -/
def State.shadowVa (s : State) (ctx sector : Nat) : Nat := ((s.ctx ctx).shadow + BitVec.ofNat 64 (8 * sector)).toNat

/-- A record 2^40 or more events behind CSEQ may be judged either way: a free value decides. -/
def State.judge (s : State) (k : Nat) (a : RaceAcc) (sh : Word) : State × Bool :=
  let behind := ((s.ctx (s.ctxOf k)).cseq - BitVec.ofNat 41 sh.toNat).toNat
  if bitOf sh.toNat 63 && shadowTeam sh ≠ k && 2 ^ 40 ≤ behind then
    let f := s.freeVal
    (f.2, f.1 % 2 = 1)
  else (s, s.conflicts k a sh)

/-- Translate a shadow word for the read-modify-write (R357 REASON 5, R366). -/
def State.shadowXlate (s : State) (w : Actor) (k sector : Nat) : State × Except Bad (Nat × TlbEntry) :=
  let va := s.shadowVa (s.ctxOf k) sector
  let fault (l : Nat) : Except Bad (Nat × TlbEntry) := .error (.trap 7 (faultDetail 5 l va .rmw))
  if nonCanonical va then (s, fault 7)
  else
    let x := s.actorXlate w k va .rmw
    match x.2 with
    | .error (.trap 7 d) => (x.1, fault (bitsOf d.toNat 58 3))
    | r => (x.1, r)

/-- What a check came to: no conflict, the record in conflict, or a failure of the shadow word's access (R363). -/
inductive RaceRes where
  | none
  | conflict (sh : Word)
  | failed (unit op loc : Nat)
  deriving DecidableEq, Repr

/-- The shadow word at `pa`, and, of an access that writes, the new record put there in the same read-modify-write at its home
(R126, R366); or why it was not performed (R363). -/
def State.shadowSwap (s : State) (w : Actor) (pa : Nat) (e : TlbEntry) (new : Option Word) : State × Except (Nat × Nat × Nat) Word :=
  let base := pa / 8 * 8
  let c := s.ctx w.ctx
  if isMem pa then
    match s.failedAt (lineOf pa) with
    | some u => (s, .error (u, if new.isSome then 2 else 0, 128 * lineOf pa))
    | none =>
      let s' := s.countL2 pa (s.vfOf w.ctx) 0x100
      (match new with
        | some v => (s'.wrNat e.key e.cmp base 8 v.toNat).keepWorld s' c.world e.cmp (lineOf pa)
        | none => s', .ok (s.rdWord e.key base))
  else if homeOf pa = .devreg then
    (match new with
      | some v => s.regStore c.world c.vf base (bytesOf 8 v.toNat)
      | none => s, .ok (s.devRegRead c.world base 0 64))
  else
    let r := s.remote w (match new with
      | some v => remotePart (.atomic .swap) base 0 64 v 0 e.key e.mt e.cmp
      | none => remotePart .read base 0 64 0 0 e.key e.mt e.cmp) true
    (r.1, match r.2 with
      | some x => x
      | none => .ok 0)

/-- The check and update of one sector (R126, R366). -/
def State.raceAt (s : State) (w : Actor) (k : Nat) (a : RaceAcc) (pa : Nat) (e : TlbEntry) : State × RaceRes :=
  let new := shadowWord a.sync a.sco k (s.ctx (s.ctxOf k)).cseq
  let r := s.shadowSwap w pa e (if a.writes then some new else none)
  match r.2 with
  | .error (u, op, loc) => (r.1, .failed u op loc)
  | .ok sh => let j := r.1.judge k a sh; (j.1, if j.2 then .conflict sh else .none)

/-- RDET of a team (R126). -/
def Team.rdet (t : Team) : Nat := bitsOf t.tmode.toNat 4 2

/-- DETAIL of a race conflict: the writer's core and block slot, and the sector (R366). -/
def raceDetail (sh : Word) (sector : Nat) : Word :=
  BitVec.ofNat 64 (bitsOf sh.toNat 46 13 * 2 ^ 51 + sector % 2 ^ 51)

/-- The outcomes of an instruction's checks: slot, sector and what the check came to, in slot order. -/
abbrev Races := List (Nat × Nat × RaceRes)

/-- The threads that a list of slots names; slot 32 stands for the whole team. -/
def Team.slotMask (t : Team) (l : List Nat) : Mask := if l.any fun i => 32 ≤ i then t.active else maskOfList l

/-- Report what the checks of one instruction found: a conflict as a notice or a deferred report (R366), and a shadow word that
could not be accessed as a memory error of the instruction (R356, R363). `r` says whose the reports are. -/
def State.reportRaces (s : State) (k : Nat) (r : Report) (l : Races) : State :=
  let t := s.team k
  let hits := l.filterMap fun x => match x.2.2 with
    | .conflict sh => some (x.1, x.2.1, sh)
    | _ => none
  let s := match hits with
    | [] => s
    | x :: _ =>
      let d := raceDetail x.2.2 x.2.1
      let mask := t.slotMask (hits.map Prod.fst)
      if t.rdet = 1 then s.notice (s.ctxOf k) (s.recOf k 0xA kindNotice r.pc d mask true)
      else s.modTeam k fun t => t.addReport { r with cause := 0xA, detail := d, mask := mask, cls := none }
  let bads := l.filterMap fun x => match x.2.2 with
    | .failed u op loc => some (x.1, u, op, loc)
    | _ => none
  match bads with
  | [] => s
  | x :: _ => s.modTeam k fun t =>
      t.addReport { r with cause := 8, detail := memDetail x.2.1 x.2.2.1 x.2.2.2, mask := t.slotMask (bads.map Prod.fst) }

/-- Whose the reports of an operation's late checks are. -/
def State.lateReport (s : State) (o : MemOp) : Report :=
  ⟨0, 0, 0, o.pc, o.seq, o.cls, tget 0 (s.team o.team).issued ((o.cls.map Cnt.code).getD 0), [], none, false, o.handler, none⟩

/-- The race detector checks the accesses of an operation. -/
def State.raceChecks (s : State) (o : MemOp) : Bool := (s.team o.team).rdet ≠ 0 && o.ostc.isNone

/-- The check of an access that an operation in flight makes for itself: a hop of `os.chase`, or the link of `os.enq`. Where the shadow
word does not translate, a hop, which never faults (R210), goes unchecked. A link is not made yet: the fault, of REASON 5, is
reported once, and the check is made again (R366, log 88). The second component says that the access may be made. -/
def State.lateRace (s : State) (o : MemOp) (a : RaceAcc) (slot va : Nat) : State × Bool :=
  if !s.raceChecks o then (s, true)
  else
    let w := opActor o.ctx o.seq
    let x := s.shadowXlate w o.team (va / 32)
    let report (c : Nat) (d : Word) : State :=
      x.1.modTeam o.team fun t => t.addReport { s.lateReport o with cause := c, detail := d, mask := maskOfList [slot], due := true }
    match x.2 with
    | .error (.trap c d) =>
      if c = 9 then (x.1.fatal o.ctx (x.1.recOf o.team 9 kindFatal o.pc d (maskOfList [slot]) true), true)
      else if c = 8 then (report c d, true)
      else if !a.writes then (x.1, true)
      else
        let t := s.team o.team
        (if t.fault.isSome || t.reports.any fun r => r.cause = 7 && r.seq = o.seq then x.1 else report c d, false)
    | .ok (pa, e) =>
      let y := x.1.raceAt w o.team a pa e
      (y.1.reportRaces o.team (s.lateReport o) [(slot, va / 32, y.2)], true)

end Sys2Proof.Machine
end

