-- ==== Sys2Proof/Machine/Routine.lean ====
section
/-!
DEFINITION. Ostler routines: the loader's checks of the code and the running of a routine on a copy of one line (R214, R215).
-/

namespace Sys2Proof.Machine

/-- The fields of a routine instruction (R215). -/
structure OsrIns where
  opc : Nat
  d : Nat
  a : Nat
  b : Nat
  imm : Int
  deriving DecidableEq, Repr

def osrOf (w : BitVec 32) : OsrIns :=
  let n := w.toNat
  ⟨bitsOf n 27 5, bitsOf n 24 3, bitsOf n 21 3, bitsOf n 18 3, sextNat 18 (bitsOf n 0 18)⟩

/-- The checks the loader makes of instruction `i` of `n` (R215). -/
def osrOk (n i : Nat) (w : BitVec 32) : Bool :=
  let x := osrOf w
  let fwd := 1 ≤ x.imm && x.imm ≤ (n : Int) - i
  if x.opc = 0 then x.a = 0 && x.b = 0 && x.imm = 0
  else if x.opc = 1 || x.opc = 8 then x.b = 0
  else if x.opc = 2 then x.d = 0
  else if x.opc = 0xB then x.a = 0 && x.b = 0
  else if x.opc ≤ 0x10 then x.imm = 0
  else if x.opc ≤ 0x14 then x.d = 0 && fwd
  else if x.opc = 0x15 then x.d = 0 && x.a = 0 && x.b = 0 && fwd
  else false

/-- A routine that passes every check (R215). -/
def routineOk (code : List (BitVec 32)) : Bool :=
  1 ≤ code.length && code.length ≤ 64 && code.zipIdx.all fun e => osrOk code.length e.2 e.1

/-- A run: the registers, the copy of the line, and the words written. -/
structure OsrRun where
  regs : List Word
  line : List Word
  written : List Nat
  deriving DecidableEq, Repr

def OsrRun.reg (r : OsrRun) (n : Nat) : Word := r.regs.getD n 0
def OsrRun.setReg (r : OsrRun) (n : Nat) (v : Word) : OsrRun := { r with regs := r.regs.set n v }

/-- The word of the copy that a register and a displacement name. -/
def OsrRun.idx (r : OsrRun) (x : OsrIns) : Nat := ((r.reg x.a + BitVec.ofInt 64 x.imm).toNat) % 16

/-- What an arithmetic instruction computes (R215). -/
def osrAlu (opc : Nat) (a b : Word) (imm : Int) : Word :=
  match opc with
  | 0x03 => a + b
  | 0x04 => a - b
  | 0x05 => a &&& b
  | 0x06 => a ||| b
  | 0x07 => a ^^^ b
  | 0x08 => a + BitVec.ofInt 64 imm
  | 0x09 => a <<< (b.toNat % 64)
  | 0x0A => a >>> (b.toNat % 64)
  | 0x0B => BitVec.ofInt 64 imm
  | 0x0C => if a.toNat ≤ b.toNat then a else b
  | 0x0D => if a.toNat ≤ b.toNat then b else a
  | 0x0E => if a.toInt ≤ b.toInt then a else b
  | 0x0F => if a.toInt ≤ b.toInt then b else a
  | _ => a * b

/-- Whether a branch is taken. -/
def osrTaken (opc : Nat) (a b : Word) : Bool :=
  match opc with
  | 0x11 => a = b
  | 0x12 => a ≠ b
  | 0x13 => a.toNat < b.toNat
  | 0x14 => a.toInt < b.toInt
  | _ => true

/-- Run from instruction `i` with at most `fuel` more instructions: the value returned and the final copy. -/
def osrStep (code : List (BitVec 32)) : Nat → Nat → OsrRun → Word × OsrRun
  | 0, _, r => (r.reg 0, r)
  | fuel + 1, i, r =>
    match code[i]? with
    | none => (r.reg 0, r)
    | some w =>
      let x := osrOf w
      if x.opc = 0 then (r.reg x.d, r)
      else if x.opc = 1 then osrStep code fuel (i + 1) (r.setReg x.d (r.line.getD (r.idx x) 0))
      else if x.opc = 2 then
        osrStep code fuel (i + 1) { r with line := r.line.set (r.idx x) (r.reg x.b), written := r.idx x :: r.written }
      else if x.opc ≤ 0x10 then
        osrStep code fuel (i + 1) (r.setReg x.d (osrAlu x.opc (r.reg x.a) (r.reg x.b) x.imm))
      else if osrTaken x.opc (r.reg x.a) (r.reg x.b) then osrStep code fuel (i + x.imm.toNat) r
      else osrStep code fuel (i + 1) r

/-- Run a routine with an argument and an address on the words of the line (R214). -/
def osrRun (code : List (BitVec 32)) (arg addr : Word) (line : List Word) : Word × OsrRun :=
  osrStep code code.length 0
    ⟨[arg, addr, BitVec.ofNat 64 (addr.toNat / 8 % 16), 0, 0, 0, 0, 0], line, []⟩

end Sys2Proof.Machine
end

