-- ==== Sys2Proof/Machine/MemOps.lean ====
section
/-!
DEFINITION. Memory operations in flight: what a home does for one request (R93, R95, R206–R211, R363), when a part of an
operation may be performed (R114, R115, R121, R125, R407), and what follows once it has its value.
-/

namespace Sys2Proof.Machine

/-! ## What a home does (R93, R95) -/

/-- The bits a request reaches, as a start in bits and a length. -/
def spanOf (kind : ReqKind) (pa lo len : Nat) : Nat × Nat :=
  match kind with
  | .cas4 n => (8 * pa, 64 * n)
  | .enq => (8 * pa, 128)
  | .run => (1024 * (pa / 128), 1024)
  | _ => (64 * (pa / 8) + lo, len)

/-- Write bits [lo + len − 1 : lo] of the aligned word at `pa`. -/
def State.writeBitsAt (s : State) (key : Nat) (cmp : Bool) (pa lo len v : Nat) : State :=
  let base := pa / 8 * 8
  let w := withBits (s.rdNat key base 8) lo len v
  let b0 := lo / 8
  let b1 := (lo + len + 7) / 8
  s.writeLine key cmp (lineOf pa) ((List.range (b1 - b0)).map fun i =>
    (base % 128 + b0 + i, BitVec.ofNat 8 (bitsOf w (8 * (b0 + i)) 8)))

/-- The OP code with which a request on a failed line is reported (R363). -/
def failOp (kind : ReqKind) : Nat :=
  match kind with
  | .read => 0
  | .write => 1
  | _ => 2

/-- Words of a line from word `i` on. -/
def State.lineWords (s : State) (key pa n : Nat) : List Word := (List.range n).map fun i => s.rdWord key (pa + 8 * i)

/-- One request performed at its home as one access: the words it returns; or the unit and OP of its refusal. -/
def State.homeDo (s : State) (kind : ReqKind) (key : Nat) (cmp : Bool) (pa lo len : Nat) (a b : Word) (words : List Word) :
    State × Except (Nat × Nat) (List Word) :=
  let base := pa / 8 * 8
  match s.failedAt (lineOf pa) with
  | some u => (s, .error (u, failOp kind))
  | none =>
    match kind with
    | .read => (s, .ok [BitVec.ofNat 64 (bitsOf (s.rdNat key base 8) lo len)])
    | .write => (s.writeBitsAt key cmp pa lo len a.toNat, .ok [])
    | .atomic op | .red op =>
      let old := bitsOf (s.rdNat key base 8) lo len
      (s.writeBitsAt key cmp pa lo len (rmwApply op len old (a.toNat % 2 ^ len) (b.toNat % 2 ^ len)), .ok [BitVec.ofNat 64 old])
    | .cas4 n =>
      let olds := s.lineWords key pa n
      let s := if olds = words.take n then
          (List.range n).foldl (fun s i => s.wrNat key cmp (pa + 8 * i) 8 (words.getD (n + i) 0).toNat) s
        else s
      (s, .ok olds)
    | .enq =>
      let node := a.toNat
      let old := s.rdWord key (pa + 8)
      let s := if old = 0 then s.wrNat key cmp pa 8 node else s
      (s.wrNat key cmp (pa + 8) 8 node, .ok [old])
    | .run =>
      let line := 128 * lineOf pa
      let r := osrRun (words.map fun w => w.truncate 32) a b (s.lineWords key line 16)
      let s := (List.range 16).foldl (fun s i =>
        if r.2.written.contains i then s.wrNat key cmp (line + 8 * i) 8 (r.2.line.getD i 0).toNat else s) s
      (s, .ok [r.1])

/-! ## Operations and their parts -/

def State.op? (s : State) (seq : Nat) : Option MemOp := s.ops.find? fun o => o.seq = seq

def State.modOp (s : State) (seq : Nat) (f : MemOp → MemOp) : State :=
  { s with ops := s.ops.map fun o => if o.seq = seq then f o else o }

def State.modPart (s : State) (seq i : Nat) (f : Part → Part) : State :=
  s.modOp seq fun o => { o with parts := o.parts.modify i f }

def Part.span (p : Part) : Nat × Nat := spanOf p.kind p.pa p.lo p.len

def Part.overlaps (p q : Part) : Bool :=
  p.span.1 < q.span.1 + q.span.2 && q.span.1 < p.span.1 + p.span.2

def semAcquires (m : Sem) : Bool := m = .acquire || m = .acqRel
def semReleases (m : Sem) : Bool := m = .release || m = .acqRel

/-- The sync object of an access: the aligned 8-byte word that contains it (R111). -/
def Part.obj (p : Part) : Nat := p.va / 8 * 8

/-- An `os.chase` walk of the part's thread has hops left. -/
def MemOp.chaseOf (o : MemOp) (slot : Nat) : Option Chase := o.chase.find? fun c => c.slot = slot

/-- A request that only an ostler performs. -/
def ostlerKind : ReqKind → Bool
  | .cas4 _ | .enq | .run => true
  | _ => false

/-- The operation is performed at ostlers. -/
def MemOp.atOstler (o : MemOp) : Bool := o.chase ≠ [] || o.parts.any fun p => ostlerKind p.kind

/-- Two addresses have one ostler: that of one home controller, of this device or of a peer (log 89). -/
def sameOstler (a b : Nat) : Bool := homeOf a = homeOf b && homeOf (a % 2 ^ 46) = homeOf (b % 2 ^ 46)

/-- The earlier accesses of its team that a release of the part's object waits for are over: every read, and every write to an
address that belongs to the object, by the bindings of its fence or as they stand (R117), or at system scope every write (R115,
R119, R121, R124, R407). At pod scope and wider a failed one has been reported, or waits for the end of a handler (R371). -/
def State.carried (s : State) (o : MemOp) (p : Part) (c : Carry) : Bool :=
  let t := s.team o.team
  s.ops.all (fun e => !(e.by o.team && e.seq < c.seq) || e.parts.all fun x =>
    (x.over && !(4 ≤ c.sco && match x.st with | .failed .. => true | _ => false)) ||
    (x.writes && c.sco ≠ 5 && !belongsIn (c.binds.getD (s.ctx o.ctx).binds) p.obj x.va)) &&
  !(4 ≤ c.sco && t.reports.any fun r => r.cause = 8 && r.seq < c.seq && (t.handler.isNone || r.handler))

/-- What a release of the part carries is performed. -/
def State.releaseReady (s : State) (o : MemOp) (p : Part) : Bool :=
  o.carry.all fun c => !p.writes || c.words.contains p.obj || s.carried o p c

/-- The operations of the package's own teams come in the order of their issue; what leaves the write-combining buffer was stored
before any access to its line that is still to be performed. -/
def MemOp.before (e o : MemOp) : Bool :=
  if o.drain = [] then e.drain ≠ [] || e.seq < o.seq else e.drain ≠ [] && e.seq < o.seq

/-- Two reads of one aligned word: their order is that of the writes they return (R114). -/
def Part.rereads (p q : Part) : Bool := p.kind = .read && q.kind = .read && p.pa / 8 = q.pa / 8

/-- A zero-length read, which tells of the end of the writes before it on its way to the host (R124). -/
def Part.flush (p : Part) : Bool := p.kind = .read && p.len = 0

/-- An earlier operation of the team holds back a part: overlapping accesses of the team are in program order (R114), one
thread's writes to one line likewise, those that a write-combining entry carries among them (R125), and MT-11 accesses (R96); and
no access is made while the word that an `os.enq` links is unknown, which may be any (R119, log 89). -/
def MemOp.holds (e : MemOp) (p : Part) : Bool :=
  e.parts.any fun x => !x.over && !x.flush && (x.overlaps p || x.rereads p
    || (x.writes && p.writes && (x.slot = p.slot || e.drain ≠ []) && lineOf x.pa = lineOf p.pa)
    || (x.mt = 3 && p.mt = 3) || x.kind = .enq || (p.flush && x.writes && homeOf x.pa = .host))

/-- An earlier operation of the die holds back a part: its caches show their stores in the order of issue, and the home keeps
that order (R114, R119, log 106). -/
def MemOp.shadows (e : MemOp) (p : Part) : Bool := e.parts.any fun x => !x.over && x.writes && x.overlaps p

/-- Earlier parts of the operation itself: the same bytes, and MT 11, in slot order; a node before its header; the zero-length reads
of a release before what it writes (R124); and the threads bound for one ostler in slot order (R114, R96, R207). -/
def MemOp.partHolds (o : MemOp) (i : Nat) (p : Part) : Bool :=
  (o.parts.take i).any fun x => !x.over && (x.overlaps p || x.rereads p || (x.mt = 3 && p.mt = 3 && !x.flush) || (p.kind = .enq && x.slot = p.slot)
    || (x.flush && p.writes)
    || (o.atOstler && x.slot ≠ p.slot && sameOstler x.pa p.pa && x.kind = p.kind))

/-- Under the race detector the threads of an operation at ostlers that checks what it finds go one after another, by slot, so that
their checks do (R366). -/
def MemOp.checkHolds (o : MemOp) (p : Part) : Bool :=
  (p.kind = .enq || (o.chaseOf p.slot).isSome) && o.parts.any fun x => x.slot < p.slot && !x.over && !x.overlaps p

/-- Part `i` of an operation may be performed now. -/
def State.guard (s : State) (o : MemOp) (i : Nat) (p : Part) : Bool :=
  let die := dieOfCore (coreOf o.team)
  let earlier (e : MemOp) : Bool := e.actor.isNone && e.before o
  o.actor.isSome ||
  ((o.ostc.isSome || s.ops.all fun e => !(e.by o.team && earlier e) || !e.holds p) &&
    s.ops.all (fun e => !(earlier e && dieOfCore (coreOf e.team) = die) || !e.shadows p) &&
    !o.partHolds i p && !o.unchecked.contains i && !(s.raceChecks o && o.checkHolds p) &&
    -- records of an ostler command in their order (R252)
    s.ops.all (fun e => e.performed || match o.ostc, e.ostc with
      | some a, some b => !(b.1 = a.1 && b.2 < a.2)
      | _, _ => true) &&
    -- bytes of the line that wait in a write-combining buffer of the die (R97)
    (o.drain ≠ [] || s.cores.all fun c => dieOfCore c.1 ≠ die || !c.2.wcb.any fun e => e.line = lineOf p.pa) &&
    s.releaseReady o p)

/-! ## When a value has arrived -/

/-- A read performed at its home fills the core's L1 and the RDC where it may, and otherwise leaves no other value of its bits
there (R89, R91, R94, R114, R195). -/
def State.fillAfter (s : State) (o : MemOp) (p : Part) (v : Word) : State :=
  let core := coreOf o.team
  let die := dieOfCore core
  if o.install && p.mt = 0 && isMem p.pa && !s.diePending die (lineOf p.pa) then
    let l : CLine := ⟨o.ctx, p.va / 128, lineOf p.pa, p.mt, p.key, p.cmp, p.wr,
      BitVec.ofNat 1024 (s.lineView (lineOf p.pa) (s.keyMat p.key))⟩
    let s := s.dropStale core p.key p.pa p.lo p.len v.toNat
    let s := if rdcHolds die p.pa && !o.noRdc.contains l.vline then s.rdcFill die l o.stream else s
    if o.noL1.contains l.vline then s else s.l1Fill core l o.stream
  else s.dropStale core p.key p.pa p.lo p.len v.toNat

/-- Reads of one operation that a peer or the host has answered together fill the core's L1 with the lines that they read
whole (R89, R409, log 17). -/
def State.fillOutside (s : State) (o : MemOp) (idxs : List Nat) : State :=
  let ps : List Part := match s.op? o.seq with
    | none => []
    | some n => idxs.filterMap fun i => (n.parts[i]?).bind fun p =>
        if p.kind = .read && p.mt = 0 && p.st = .done && !isMem p.pa then some p else none
  let at0 (p : Part) : Nat := 8 * (p.pa % 128 / 8 * 8) + p.lo
  let whole (qs : List Part) : Bool := (List.range 128).all fun b => qs.any fun q => at0 q ≤ 8 * b && 8 * b + 8 ≤ at0 q + q.len
  if !o.install || o.chase ≠ [] then s
  else ps.foldl (fun s p =>
    let line := lineOf p.pa
    let qs := ps.filter fun q => lineOf q.pa = line
    if s.diePending (dieOfCore (coreOf o.team)) line || o.noL1.contains (p.va / 128) || qs.head? ≠ some p || !whole qs then s
    else s.l1Fill (coreOf o.team) ⟨o.ctx, p.va / 128, line, 0, p.key, p.cmp, p.wr,
      BitVec.ofNat 1024 (qs.foldl (fun d q => withBits d (at0 q) q.len q.val.toNat) 0)⟩ o.stream) s

/-- Which row of R207 the targets of an instruction must meet. -/
inductive Need where
  | any
  | atomic (op : Rmw)
  | home
  deriving DecidableEq, Repr

/-- A target that R207 allows. -/
def Need.ok (n : Need) (pa mt : Nat) : Bool :=
  match n, homeOf pa with
  | .any, _ => true
  | _, .hbm _ | _, .tier2 _ | _, .peer _ => mt ≤ 1
  | .atomic op, .host => mt ≤ 1 && (op = .add || op = .swap || op = .cas)
  | _, _ => false

/-- Where the next hop of an `os.chase` goes: to a word; nowhere, with the walk's result; or nowhere because of a violation, with
its REASON and address. -/
inductive Hop where
  | word (va pa : Nat) (e : TlbEntry)
  | stop (v : Word)
  | viol (v : Word) (reason pa : Nat)
  deriving DecidableEq, Repr

/-- The next hop of an `os.chase` from pointer `v` (R210, R367). -/
def State.nextHop (s : State) (w : Actor) (c : Chase) (v : Word) : State × Hop :=
  if c.hops = 0 || v = 0 then (s, .stop v)
  else
    let q := (v + BitVec.ofInt 64 c.off).toNat
    if q % 8 ≠ 0 || nonCanonical q then (s, .stop (v ||| 1))
    else
      let x := s.walk w q .read true
      match x.2 with
      | .ok pa e =>
        let pa := x.1.localPa pa
        let r := x.1.violation (x.1.ctx w.ctx).world pa e.key
        if r ≠ 0 then (x.1, .viol (v ||| 1) r pa)
        else if Need.home.ok pa e.mt then (x.1, .word q pa e)
        else (x.1, .stop (v ||| 1))
      | _ => (x.1, .stop (v ||| 1))

/-- A violation by an access that an operation makes of itself kills its context (R367). -/
def State.opViol (s : State) (o : MemOp) (slot reason pa : Nat) : State :=
  s.fatal o.ctx (s.recOf o.team 9 kindFatal o.pc (BitVec.ofNat 64 (reason * 2 ^ 60 + pa % 2 ^ 52))
    (if slot < 32 then maskOfList [slot] else o.slots) true)

/-- An enqueued node's predecessor is linked to it: a write at its own home that the operation completes after (R209). A
predecessor whose address does not translate, or is no target of an ostler operation, is not written (R207, log 25). -/
def State.linkPart (s : State) (o : MemOp) (p : Part) (old : Word) : State :=
  if old = 0 then s
  else
    let x := if old.toNat % 8 ≠ 0 then (s, XRes.fault 0 7 0) else s.xlateDev (opActor o.ctx o.seq) old.toNat .write
    match x.2 with
    | .ok pa e =>
      let pa := x.1.localPa pa
      let r := x.1.violation (x.1.ctx o.ctx).world pa e.key
      if r ≠ 0 then x.1.opViol o p.slot r pa
      else if !Need.home.ok pa e.mt then x.1
      else
        let q : Part := { p with
          va := old.toNat, pa := pa, lo := 0, len := 64, kind := .write, st := .waiting, key := e.key, cmp := e.cmp, mt := e.mt }
        let y := x.1.lateRace o ⟨true, o.sco, true⟩ p.slot old.toNat
        (y.1.modOp o.seq fun o => { o with
          parts := o.parts ++ [q], unchecked := if y.2 then o.unchecked else o.parts.length :: o.unchecked }).dropCopies (coreOf o.team) pa
    | _ => x.1

/-- The check of a link is made again. -/
def State.checkLink (s : State) (o : MemOp) (i : Nat) (p : Part) : State :=
  let y := s.lateRace o ⟨true, o.sco, true⟩ p.slot p.va
  if y.2 then y.1.modOp o.seq fun o => { o with unchecked := o.unchecked.filter (· ≠ i) } else y.1

/-- The bits of a write as its die's caches show them once it is performed: where later stores of the die, which they show already
and the home performs next, overlap it, the later bits stand (R114, R119). -/
def State.shownBits (s : State) (o : MemOp) (p : Part) : Nat :=
  let die := dieOfCore (coreOf o.team)
  s.ops.foldl (fun v e =>
    if e.seq ≤ o.seq || e.actor.isSome || dieOfCore (coreOf e.team) ≠ die || e.carry ≠ [] then v
    else e.parts.foldl (fun v x =>
      if x.over || x.kind ≠ .write || x.pa / 8 ≠ p.pa / 8 then v else withBits v x.lo x.len x.a.toNat) v)
    (withBits 0 p.lo p.len p.a.toNat) / 2 ^ p.lo % 2 ^ p.len

/-- A performed write of an operation that is not a release has shown itself to the caches at its issue; a release does so now
(R89, R90, R94). -/
def State.writeShown (s : State) (o : MemOp) (p : Part) : State :=
  if p.kind ≠ .write || o.carry = [] || o.ostc.isSome || p.mt = 2 then s
  else if o.nt || o.atOstler then s.dropCopies (coreOf o.team) p.pa
  else s.storeCopies (coreOf o.team) o.ctx p.va p.pa p.lo p.len (s.shownBits o p)

/-- Part `i` has been performed and returned `ws`. -/
def State.partDone (s : State) (o : MemOp) (i : Nat) (p : Part) (ws : List Word) : State :=
  let v := ws.headD 0
  let finishPart (s : State) (v : Word) : State :=
    s.modPart o.seq i fun p => { p with st := .done, val := v, words := if ws.length ≤ 1 then p.words else ws }
  let acq (s : State) (obj : Nat) : State :=
    if semAcquires o.sem then s.acquire o.team o.sco fun a => s.belongs o.ctx obj a else s
  let rel (s : State) : State := if semReleases o.sem && p.writes && o.ostc.isNone then s.noteRelease o.team o.sco else s
  if o.actor.isSome then finishPart s v
  else match o.chaseOf p.slot with
    | some c =>
      let c := { c with hops := c.hops - 1 }
      let h := (s.dropStale (coreOf o.team) p.key p.pa p.lo p.len v.toNat).nextHop (opActor o.ctx o.seq) c v
      match h.2 with
      | .stop r => acq (finishPart h.1 r) p.obj
      | .viol r reason pa => finishPart (h.1.opViol o p.slot reason pa) r
      | .word va pa e =>
        ((h.1.lateRace o ⟨o.sem ≠ .relaxed, o.sco, false⟩ p.slot va).1.modOp o.seq fun o =>
          { o with chase := o.chase.map fun x => if x.slot = p.slot then c else x }).modPart o.seq i
          fun p => { p with va := va, pa := pa, lo := 0, mt := e.mt, key := e.key, cmp := e.cmp, st := .waiting }
    | none =>
      let s := rel (finishPart s v)
      if p.kind = .read then (acq s p.obj).fillAfter o p v
      else
        let s := if p.kind = .enq then s.linkPart o p v else s
        if p.kind = .write then s.writeShown o p else acq (s.dropCopies (coreOf o.team) p.pa) p.obj

/-- The OP with which a failure of an operation's part is reported: an ostler operation's is 2 whatever the access (R363). -/
def MemOp.failOp (o : MemOp) (op : Nat) : Nat := if o.atOstler && op ≤ 2 then 2 else op

/-- The address that LOC names for a part: its line, in the window of the peer or host for those (R362). -/
def Part.loc (p : Part) : Nat := p.pa / 128 * 128

/-- Part `i` of an operation performed at a home of this package, where the line is not of another world by now (R328, R367). -/
def State.performPart (s : State) (o : MemOp) (i : Nat) (p : Part) : State :=
  let gone := (o.parts.take i).find? fun x => x.slot = p.slot && match x.st with
    | .failed .. => true
    | _ => false
  let v := s.violation (s.ctx o.ctx).world p.pa p.key
  if p.kind = .enq && gone.isSome then s.modPart o.seq i fun p => { p with st := (gone.map Part.st).getD .waiting }
  else if v ≠ 0 then (s.modPart o.seq i fun p => { p with st := .done }).opViol o p.slot v p.pa
  else
  let r := s.homeDo p.kind p.key p.cmp p.pa p.lo p.len p.a p.b p.words
  let s := (r.1.keepWorld s (s.ctx o.ctx).world p.cmp (lineOf p.pa)).countL2 p.pa (r.1.vfOf o.ctx) 0x100
  let s := match p.kind with
    | .red _ => s.countL2 p.pa (s.vfOf o.ctx) 0x101
    | _ => if o.gather then s.countL2 p.pa (s.vfOf o.ctx) 0x101 else s
  match r.2 with
  | .ok ws => s.partDone o i p ws
  | .error (u, op) => s.modPart o.seq i fun p => { p with st := .failed u (o.failOp op) p.loc }

/-- The operation as it looks to the parts of a group that is performed as one: they do not wait for one another. -/
def MemOp.together (o : MemOp) (l : List Nat) : MemOp :=
  { o with parts := o.parts.zipIdx.map fun e => if l.contains e.2 then { e.1 with st := .done } else e.1 }

/-- The waiting parts of an operation in one line, by index. -/
def MemOp.waitingIn (o : MemOp) (line : Nat) : List (Part × Nat) :=
  o.parts.zipIdx.filter fun e => e.1.st = .waiting && lineOf e.1.pa = line

/-- The waiting writes of an operation to one line cover all of it. -/
def MemOp.coversLine (o : MemOp) (line : Nat) : Bool :=
  let ws := o.parts.filter fun p => p.st = .waiting && p.kind = .write && lineOf p.pa = line
  (List.range 128).all fun b => ws.any fun p => p.pa / 8 * 8 % 128 * 8 + p.lo ≤ 8 * b && 8 * b + 8 ≤ p.pa / 8 * 8 % 128 * 8 + p.lo + p.len

/-- The writes of one instruction that together cover a line are one write of the whole line (R363, R408, log 26); under MT 01 and
11 each is sent singly (R96). -/
def State.performLine (s : State) (o : MemOp) (line : Nat) : State :=
  let s := if o.parts.any fun p => lineOf p.pa = line && s.violation (s.ctx o.ctx).world p.pa p.key ≠ 0 then s
    else { s with failed := s.failed.filter fun e => e.1 ≠ line }
  o.parts.zipIdx.foldl (fun s e =>
    if e.1.st = .waiting && e.1.kind = .write && lineOf e.1.pa = line then s.performPart o e.2 e.1 else s) s

/-- A home performs a part that waits, if it may be performed now. `here` says which homes the event is for. -/
def State.homeEvent (s : State) (seq i : Nat) (here : Home → Bool) (ostler : Bool) : State :=
  match s.op? seq with
  | none => s
  | some o =>
    match o.parts[i]? with
    | none => s
    | some p =>
      let os := ostlerKind p.kind || o.chase ≠ []
      if o.unchecked.contains i then s.checkLink o i p
      else if p.st ≠ .waiting || !here (homeOf p.pa) || os ≠ ostler || !s.guard o i p then s
      else if p.kind = .write && p.mt % 2 = 0 && o.coversLine (lineOf p.pa)
          && (o.waitingIn (lineOf p.pa)).all (fun e => s.guard (o.together ((o.waitingIn (lineOf p.pa)).map Prod.snd)) e.2 e.1) then
        s.performLine o (lineOf p.pa)
      else s.performPart o i p

end Sys2Proof.Machine
end

