-- ==== Sys2Proof/Machine/FabricSend.lean ====
section
/-!
DEFINITION. Sending to pod peers: ports (R15), paths (R320), tags (R370), and the packets that carry the accesses of one
instruction to one line (R408).
-/

namespace Sys2Proof.Machine

/-- The place of a peer among the other devices of the pod. -/
def State.peerIdx (s : State) (n : Nat) : Nat := if n < s.podNum then n else n - 1

/-- The ports wired to a peer (R15): two in a pod of 8, one otherwise; those left over are unconnected. Ports 0–7 are IOD0's,
8–15 IOD1's; which port goes to which peer is the model's choice (log 27). -/
def State.peerPorts (s : State) (n : Nat) : List Nat :=
  let j := s.peerIdx n
  if s.podSize ≤ 8 then [j, j + 8] else [j]

/-- A port is wired to a device of the pod (R15). -/
def State.wired (s : State) (port : Nat) : Bool :=
  (List.range s.podSize).any fun n => n ≠ s.podNum && (s.peerPorts n).contains port

/-- The device that a port is wired to. -/
def State.portPeer (s : State) (port : Nat) : Nat :=
  ((List.range s.podSize).find? fun n => n ≠ s.podNum && (s.peerPorts n).contains port).getD 0

def State.portUp (s : State) (p : Nat) : Bool := tget false s.links p

/-- The die of a port. -/
def dieOfPort (p : Nat) : Nat := 4 + p / 8 % 2

/-- The words that a packet carries. -/
def packetWords (p : Packet) : Nat :=
  match p.body with
  | .req rs => rs.length
  | .resp r => r.vals.length
  | .announce | .halter _ => 0

def packetFlits (p : Packet) : Nat := max 1 ((8 * packetWords p + 63) / 64)

/-- The lane of a packet: its virtual channel, or the escape lane (R318). -/
def packetLane (p : Packet) : Nat := if p.hdr.esc then 4 else p.hdr.vc.toNat

/-- Put a packet in a buffer of a die. -/
def State.queuePkt (s : State) (die : Nat) (port : Option Nat) (p : Packet) : State :=
  s.modDie die fun d => { d with pkts := d.pkts ++ [⟨p, port, s.clock, false⟩] }

/-- A packet enters the output queue of a port (R320). -/
def State.emit (s : State) (port : Nat) (p : Packet) : State := s.queuePkt (dieOfPort port) (some port) p

/-! ### Paths (R320) -/

/-- The link between two other devices is up, as far as this one knows (log 18). -/
def State.farUp (s : State) (a b : Nat) : Bool := !tget false s.farDown (16 * min a b + max a b)

/-- The flits of a virtual channel that wait in the queue of a port. -/
def State.queued (s : State) (port lane : Nat) : Nat :=
  (((s.die (dieOfPort port)).pkts.filter fun x => x.port = some port && packetLane x.pkt = lane).map fun x => packetFlits x.pkt).sum

/-- The relays by which a packet may reach a target over links that are up at both ends. -/
def State.relays (s : State) (dst : Nat) : List Nat :=
  (List.range s.podSize).filter fun r => r ≠ s.podNum && r ≠ dst && (s.peerPorts r).any s.portUp && s.farUp r dst

/-- A packet addressed direct, or through a relay. -/
def packetDirect (p : Packet) : Packet := { p with hdr := { p.hdr with rv := false, rly := 0 } }
def packetThrough (p : Packet) (r : Nat) : Packet := { p with hdr := { p.hdr with rv := true, rly := BitVec.ofNat 4 r } }

/-- The live ways of a packet to its target: direct ports, then relays by number. -/
def State.ways (s : State) (p : Packet) : List (Nat × Packet) :=
  ((s.peerPorts p.dst).filter s.portUp).map (fun q => (q, packetDirect p)) ++
    (s.relays p.dst).flatMap fun r => ((s.peerPorts r).filter s.portUp).map fun q => (q, packetThrough p r)

/-- The path of a packet: the live way whose first queue holds the fewest flits on its virtual channel, ties to a direct port and
then to the lowest relay; with none, the direct port, dead, whose queue it waits in (R320, R369). -/
def State.route (s : State) (p : Packet) : Nat × Packet :=
  match s.ways p with
  | [] => ((s.peerPorts p.dst).headD 0, packetDirect p)
  | w :: ws => ws.foldl (fun a b => if s.queued b.1 (packetLane p) < s.queued a.1 (packetLane p) then b else a) w

def State.sendPacket (s : State) (p : Packet) : State :=
  let r := s.route p
  s.emit r.1 r.2

/-- The extension of a packet of this device to a peer. -/
def State.hdrTo (s : State) (peer : Nat) (vc : BitVec 2) (tag : BitVec 12) : PktHdr :=
  ⟨s.incarnation, (s.peer peer).inc.getD 0, 0, false, false, vc, tag⟩

/-! ### The passing of packets -/

/-- The first packet that waits on a lane of a port leaves it. -/
def State.leavePort (s : State) (port lane : Nat) : State :=
  match (s.die (dieOfPort port)).pkts.find? fun x => x.port = some port && packetLane x.pkt = lane with
  | none => s
  | some x =>
    { (s.modDie (dieOfPort port) fun d => { d with pkts := d.pkts.erase x }).countPort port 0 (packetFlits x.pkt) with
      outs := .packet port x.pkt :: s.outs }

/-- The first packet of each lane among some. -/
def laneHeads (l : List OutPkt) : List OutPkt :=
  l.foldl (fun h x => if h.any fun y => packetLane y.pkt = packetLane x.pkt then h else h ++ [x]) []

/-- Of each lane of a compute die one packet crosses to the I/O dies, where it takes its path (R318, R320). What an arriving packet or
an access of this package takes over the die links is the time until its home performs it (log 27). -/
def State.crossDies (s : State) : State :=
  s.dies.foldl (fun s e =>
    if 4 ≤ e.1 then s
    else (laneHeads e.2.pkts).foldl (fun s x => (s.modDie e.1 fun d => { d with pkts := d.pkts.erase x }).sendPacket x.pkt) s) s

/-- A clock of the fabric: of each live port and lane one packet leaves (R318, log 27). -/
def State.flowOnce (s : State) : State :=
  let busy := s.dies.flatMap fun e => e.2.pkts.filterMap fun x => x.port.map fun q => (q, packetLane x.pkt)
  (busy.eraseDups.filter fun x => s.portUp x.1).foldl (fun s x => s.leavePort x.1 x.2) s.crossDies

def State.flow : Nat → State → State
  | 0, s => s
  | n + 1, s => if s.dies.any fun e => e.2.pkts.any fun x => x.port.all s.portUp then s.flowOnce.flow n else s

/-! ## Tags (R370) -/

/-- T_e2e in clocks (R317). -/
def State.te2e (s : State) : Nat := s.regs.fabTe2e.toNat * clocksPerUs

/-- T_dl in clocks (R317). -/
def State.tdl (s : State) : Nat := s.regs.fabTdl.toNat * clocksPerUs

/-- A tag may be used: not outstanding, and 4 × T_e2e have passed since its last transmission. -/
def State.tagFree (s : State) (n : Nat) (t : BitVec 12) : Bool :=
  let p := s.peer n
  p.outs.length < 2048 && !(p.outs.any fun o => o.tag = t) &&
    match tfind p.freedAt t.toNat with
    | some c => c + 4 * s.te2e ≤ s.clock
    | none => true

def isOrderedWrite (r : HomeReq) : Bool := r.kind = .write

/-- A request of one operation to one line of a peer. -/
def State.sendGroup (s : State) (n : Nat) (o : MemOp) (idxs : List Nat) : State :=
  let p := s.peer n
  let reqs := idxs.filterMap fun i => (o.parts[i]?).map fun (q : Part) =>
    ({ kind := q.kind, pa := q.pa % 2 ^ 46, lo := q.lo, len := q.len, a := q.a, b := q.b, words := q.words, cmp := q.cmp,
       key := q.key, secure := (s.ctx o.ctx).world } : HomeReq)
  let ostler := o.gather || o.chase ≠ [] || reqs.any fun r => ostlerKind r.kind
  let pkt : Packet := ⟨s.hdrTo n (if ostler then 2 else 0) p.nextTag, s.podNum, n, .req reqs⟩
  let s := s.modPeer n fun p => { p with nextTag := p.nextTag + 1, outs := p.outs ++ [⟨p.nextTag, o.seq, idxs, pkt, 0, s.clock⟩] }
  let s := idxs.foldl (fun s i => s.modPart o.seq i fun q => { q with st := .sent }) s
  if o.actor.isSome then s.sendPacket pkt else s.queuePkt (dieOfCore (coreOf o.team)) none pkt

/-- Send a part's line to its peer when every access of the group may be performed, a tag is free, and fewer than 16
ordered writes are in flight to the target (R125). Under MT 01 and 11 each access goes alone (R96), and the header of an `os.enq`
after its node's link word (R209). -/
def State.trySend (s : State) (seq i : Nat) : State :=
  match s.op? seq with
  | none => s
  | some o =>
    match o.parts[i]? with
    | none => s
    | some p =>
      match homeOf p.pa with
      | .peer n =>
        if p.st ≠ .waiting then s
        else
          let early (e : Part × Nat) : Bool := e.1.kind = .enq && (o.parts.take e.2).any fun x => x.slot = e.1.slot && !x.over
          let g := if p.mt % 2 = 1 then [(p, i)] else (o.waitingIn (lineOf p.pa)).filter fun e => e.1.mt % 2 = 0 && !early e
          let writes := ((s.peer n).outs.filter fun r => r.pkt.reqs.any isOrderedWrite).length
          if !early (p, i) && g.all (fun e => s.guard (o.together (g.map Prod.snd)) e.2 e.1) && s.tagFree n (s.peer n).nextTag
              && (writes < 16 || p.kind ≠ .write) then s.sendGroup n o (g.map Prod.snd)
          else s
      | _ => s

/-- Send whatever may now be sent. -/
def State.pump (s : State) : State :=
  s.ops.foldl (fun s o => o.parts.zipIdx.foldl (fun s e =>
    match homeOf e.1.pa with
    | .peer _ => if e.1.st = .waiting then s.trySend o.seq e.2 else s
    | _ => s) s) s

end Sys2Proof.Machine
end

