-- ==== Sys2Proof/Machine/Memory.lean ====
section
/-!
DEFINITION. The issue of an instruction that accesses memory: what each thread asks for, the checks before any access (R193,
R207, R392), what an L1 or an RDC serves at once (R89, R94), what a store does to copies at once (R90, R97), the
race detector (R126), and the operation that is left in flight.
-/

namespace Sys2Proof.Machine

/-! ## What is asked for -/

/-- One access of an instruction before translation. -/
structure Want where
  slot : Nat
  va : Nat
  lo : Nat
  len : Nat
  dbit : Nat
  kind : ReqKind
  a : Word
  b : Word
  words : List Word
  deriving DecidableEq, Repr

/-- How an instruction accesses memory: its counter, ordering, destination, hints, and whether its faults name the whole
active set (R357). -/
structure Acs where
  cls : Cnt
  sem : Sem
  sco : Nat
  dest : Dest
  ext : Option Ext
  nt : Bool
  stream : Bool
  gather : Bool
  wide : Bool
  need : Need
  tile : Option Nat
  deriving DecidableEq, Repr

/-- The slot number that stands for the team as a whole. -/
def wideSlot : Nat := 32

/-- A plain access of the given class. -/
def Acs.plain (c : Cnt) (d : Dest) : Acs := ⟨c, .relaxed, 0, d, none, false, false, false, false, .any, none⟩

/-- What one access found: its value in a cache, or where its home is. -/
inductive Found where
  | hit (pa : Nat) (v : Word)
  | home (pa mt key : Nat) (cmp wr : Bool)
  deriving DecidableEq, Repr

/-- Keep the translations of an instruction for a retry (R357). -/
def State.noteWalks (s : State) (wide : Bool) (ws : List WalkReq) : State := { s with cur := { s.cur with walks := ws, wide := wide } }

/-- Why one access cannot be made. `target` is a target that R207 refuses. -/
inductive NoAccess where
  | target
  | bad (b : Bad)
  deriving DecidableEq, Repr

/-- What an access asks of its translation. -/
def Want.acc (w : Want) : Acc :=
  match w.kind with
  | .read => .read
  | .write => .write
  | _ => .rmw

def Want.walk (w : Want) : WalkReq := ⟨w.slot, w.va, accCode w.acc, false⟩

/-! ## Caches at issue -/

/-- A load that a cache may serve: a relaxed one, or an acquire below device scope (R89, R120, R123). -/
def Acs.cached (m : Acs) (w : Want) : Bool :=
  (m.sem = .relaxed || (m.sem = .acquire && m.sco < 3)) && !m.gather && w.kind = .read

/-- A copy serves a read of the team in the order of R114 and R119: no earlier access of it is unperformed that reads the word, or
that writes the bits, or may, and that the copy does not show. Otherwise the read is performed at the home after that access
(log 97). -/
def State.ownQuiet (s : State) (k : Nat) (w : Want) (pa : Nat) : Bool :=
  let sp := spanOf w.kind pa w.lo w.len
  (s.ops.all fun o => !o.by k || o.parts.all fun p => p.over || (p.kind = .write && o.carry = [] && !o.atOstler && o.drain = []) ||
    !(p.kind = .enq || (p.kind = .read && p.pa / 8 = pa / 8) || (p.span.1 < sp.1 + sp.2 && sp.1 < p.span.1 + p.span.2))) &&
    !(s.core (coreOf k)).wcb.any fun e => e.line = lineOf pa && e.teams.contains k

/-- The bits of an access in the line that holds it. -/
def Want.fromLine (w : Want) (l : CLine) : Word :=
  BitVec.ofNat 64 (bitsOf l.data.toNat (8 * (w.va % 128 / 8 * 8) + w.lo) w.len)

/-- A hit makes its line the most recently used (R88). -/
def State.l1Touch (s : State) (core : Nat) (l : CLine) : State :=
  s.modCore core fun c => { c with l1 := l :: c.l1.filter fun x => !(x.ctx = l.ctx && x.vline = l.vline) }

/-- A load that translated to normal memory on another die or tier and hits its die's RDC (R94). -/
def State.rdcServe (s : State) (k : Nat) (m : Acs) (w : Want) (pa : Nat) : Option (State × Word) :=
  let core := coreOf k
  match rdcFind (s.die (dieOfCore core)).rdc (s.ctxOf k) w.va pa with
  | none => none
  | some l =>
    let s := s.countEv core (s.ctxOf k) 0x11 1
    some (if m.nt then s else s.l1Fill core l m.stream, w.fromLine l)

/-- Find where an access goes (R89, R94, R103, R207). A load that hits the L1, and a store that hits a line with write permission,
take the line's recorded translation; what goes on to the home from there is checked as any access is (R328). -/
def State.find (s : State) (k : Nat) (m : Acs) (w : Want) : State × Except NoAccess Found :=
  let core := coreOf k
  let ctx := s.ctxOf k
  let l1 := l1Find (s.core core).l1 ctx w.va
  let translate (s : State) : State × Except NoAccess Found :=
    if nonCanonical w.va then (s, .error (.bad (.trap 7 (faultDetail 0 7 w.va w.acc))))
    else
      let x := s.teamXlate k w.va w.acc
      match x.2 with
      | .error b => (x.1, .error (.bad b))
      | .ok (pa, e) =>
        if !m.need.ok pa e.mt then (x.1, .error .target)
        else
          let home : Except NoAccess Found := .ok (.home pa e.mt e.key e.cmp (e.wr && e.dirty))
          if m.cached w && e.mt = 0 && rdcHolds (dieOfCore core) pa && x.1.ownQuiet k w pa then
            match x.1.rdcServe k m w pa with
            | some r => (r.1, .ok (.hit pa r.2))
            | none => (x.1, home)
          else (x.1, home)
  match l1 with
  | some l =>
    let pa := 128 * l.pline + w.va % 128
    if m.cached w && s.ownQuiet k w pa then (if m.stream then s else s.l1Touch core l, .ok (.hit pa (w.fromLine l)))
    else if (w.kind = .write && l.wr) || (w.kind = .read && !m.gather) then
      let v := s.violation (s.ctx ctx).world pa l.key
      (s, if !m.need.ok pa l.mt then .error .target
        else if v ≠ 0 then .error (.bad ((DevRes.viol v pa).bad w.acc))
        else .ok (.home pa l.mt l.key l.cmp l.wr))
    else translate s
  | none => translate (if w.kind = .read then s.countEv core ctx 0x10 1 else s)

/-- Find every access in order. -/
def State.findAll (s : State) (k : Nat) (m : Acs) (ws : List Want) : State × List (Want × Except NoAccess Found) :=
  ws.foldl (fun r w => let f := r.1.find k m w; (f.1, r.2 ++ [(w, f.2)])) (s, [])

/-! ## The first cause (R353, R392) -/

/-- Slots and DETAIL of the accesses that fail with a cause; DETAIL is the lowest slot's. -/
def failing (fs : List (Want × Except NoAccess Found)) (cause : Nat) : List (Nat × Word) :=
  fs.filterMap fun f => match f.2 with
    | .error (.bad (.trap c d)) => if c = cause then some (f.1.slot, d) else none
    | _ => none

/-- The trap that a set of failures raises: the lowest slot's DETAIL and every failing slot. -/
def trapOf (s : State) (wide : Bool) (cause : Nat) (l : List (Nat × Word)) : Option Eff :=
  match l with
  | [] => none
  | x :: xs =>
    let low := xs.foldl (fun a b => if b.1 < a.1 then b else a) x
    some (.trap s cause (if wide then s.ct.active else maskOfList (l.map Prod.fst)) low.2)

/-- What stops the instruction, in the order of R353; then a memory error of the walker, then a violation. -/
def firstCause (s : State) (m : Acs) (fs : List (Want × Except NoAccess Found)) : Option Eff :=
  let targets := fs.filterMap fun f => match f.2 with
    | .error .target => some f.1.slot
    | _ => none
  (if targets.isEmpty then none else some (opTrapBy s (maskOfList targets)))
    <|> trapOf s m.wide 7 (failing fs 7) <|> trapOf s m.wide 8 (failing fs 8) <|> trapOf s m.wide 9 (failing fs 9)

/-! ## The race detector at issue (R126, R366) -/

/-- The 32-byte sectors that a part of an operation touches. -/
def Part.sectors (p : Part) : List Nat :=
  let r : Nat × Nat := match p.kind with
    | .cas4 n => (p.va, 8 * n)
    | .enq => (p.va, 16)
    | .run => (p.va / 128 * 128, 128)
    | _ => (p.va / 8 * 8, 8)
  (List.range ((r.1 + r.2 - 1) / 32 - r.1 / 32 + 1)).map (r.1 / 32 + ·)

/-- A shadow word that a check needs: the part, the sector, and where the word is. -/
abbrev ShadowAt := Part × Nat × Nat × TlbEntry

/-- Translate the shadow words of an instruction, in order: where they are, and which failed, by slot. -/
def State.shadowAll (s : State) (k : Nat) (l : List (Part × Nat)) : State × List (Nat × Bad) × List ShadowAt :=
  l.foldl (fun r x =>
    let y := r.1.shadowXlate (r.1.teamActor k) k x.2
    match y.2 with
    | .error b => (y.1, r.2.1 ++ [(x.1.slot, b)], r.2.2)
    | .ok (pa, e) => (y.1, r.2.1, r.2.2 ++ [(x.1, x.2, pa, e)])) (s, [], [])

/-- What the checks came to, in slot order. -/
def State.raceAll (s : State) (k : Nat) (sync : Bool) (sco : Nat) (l : List ShadowAt) : State × Races :=
  l.foldl (fun r x =>
    let y := r.1.raceAt (r.1.teamActor k) k ⟨sync, sco, x.1.writes⟩ x.2.2.1 x.2.2.2
    (y.1, r.2 ++ [(x.1.slot, x.2.1, y.2)])) (s, [])

/-- The slots at which a shadow word failed with a cause, and their DETAIL. -/
def badSlots (l : List (Nat × Bad)) (cause : Nat) : List (Nat × Word) :=
  l.filterMap fun x => match x.2 with
    | .trap c d => if c = cause then some (x.1, d) else none

/-- The race detector's work for the parts of one instruction: its trap, or what its checks came to. -/
def State.races (s : State) (k : Nat) (wide sync : Bool) (sco : Nat) (parts : List Part) : Eff ⊕ (State × Races) :=
  if (s.team k).rdet = 0 then .inr (s, [])
  else
    let l := parts.flatMap fun p => p.sectors.map fun n => (p, n)
    let x := s.shadowAll k l
    let noted := x.1.noteWalks wide (s.cur.walks ++ l.map fun y => ⟨y.1.slot, s.shadowVa (s.ctxOf k) y.2, accCode .rmw, true⟩)
    match trapOf noted wide 7 (badSlots x.2.1 7) <|> trapOf noted wide 8 (badSlots x.2.1 8) <|> trapOf noted wide 9 (badSlots x.2.1 9) with
    | some e => .inl e
    | none => .inr (x.1.raceAll k sync sco x.2.2)

/-! ## The operation left in flight -/

/-- The part of an access. -/
def Want.part (w : Want) (f : Found) : Part :=
  match f with
  | .hit pa v => ⟨w.slot, w.va, pa, w.lo, w.len, w.dbit, w.kind, w.a, w.b, w.words, 0, 0, false, false, .done, v⟩
  | .home pa mt key cmp wr =>
    ⟨w.slot, w.va, pa, w.lo, w.len, w.dbit, w.kind, w.a, w.b, w.words, mt, key, cmp, wr, .waiting, 0⟩

/-- The release fences before that make a relaxed store or atomic a release of a word it writes: it is the team's next to the word
(R121). -/
def Team.turned (t : Team) (m : Acs) (objs : List Nat) : List Carry :=
  if m.sem = .relaxed then t.relFences.filter fun f => objs.any fun x => !f.words.contains x else []

/-- The words that parts write: the objects of a release (R111). -/
def writtenObjs (parts : List Part) : List Nat := (parts.filter Part.writes).map Part.obj

/-- The semantic and scope an instruction acts with: its own, or those of the fences that turn it into a release (R121). -/
def Team.semOf (t : Team) (m : Acs) (objs : List Nat) : Sem × Nat :=
  match t.turned m objs with
  | [] => (m.sem, m.sco)
  | fs => (.release, fs.foldl (fun a f => max a f.sco) 0)

/-- What an instruction carries as a release of its own, or of its fences (R119, R121). -/
def State.carryOf (s : State) (k : Nat) (m : Acs) (objs : List Nat) (seq : Nat) : List Carry :=
  if semReleases m.sem then [⟨seq, m.sco, none, []⟩] else (s.team k).turned m objs

/-- The fences take note of the words that a relaxed store or atomic has written (R121). -/
def Team.noteWords (t : Team) (m : Acs) (objs : List Nat) : Team :=
  if m.sem = .relaxed then
    { t with relFences := t.relFences.map fun f => { f with words := (objs.filter fun x => !f.words.contains x).eraseDups ++ f.words } }
  else t

/-- The bits that a write covers, by offset in its line: a mask and the value of each byte. -/
def Part.lineBits (p : Part) : List (Nat × Byte × Byte) :=
  let m := withBits 0 p.lo p.len (2 ^ 64 - 1)
  let v := withBits 0 p.lo p.len p.a.toNat
  ((List.range 8).filter fun i => bitsOf m (8 * i) 8 ≠ 0).map fun i =>
    (p.pa % 128 / 8 * 8 + i, BitVec.ofNat 8 (bitsOf m (8 * i) 8), BitVec.ofNat 8 (bitsOf v (8 * i) 8))

/-- A store that the write-combining buffer takes (R96, R97); a release goes to its home. -/
def Part.combines (p : Part) (rel : Bool) : Bool := p.kind = .write && p.mt = 2 && !rel

/-- What one write or atomic does at issue to the copies above its home (R89, R90, R94, R97). A release shows itself when it is
performed; an atomic or an ostler operation leaves no copy. -/
def State.atIssue (s : State) (w : WcOwner) (rel drop : Bool) (p : Part) : State :=
  let core := coreOf w.team
  let ctx := s.ctxOf w.team
  let s := if p.kind = .write then s.storeMiss core ctx p.va else s
  if !p.writes then s
  else if p.combines rel then s.wcStore core ctx p.key w p.cmp (lineOf p.pa) (p.va / 128) p.lineBits
  else if p.kind ≠ .write || drop then s.dropCopies core p.pa
  else if rel then s
  else s.storeCopies core ctx p.va p.pa p.lo p.len p.a.toNat

/-- A write that the write-combining buffer has taken is done; it drains later (R97). -/
def Part.taken (rel : Bool) (p : Part) : Part := if p.combines rel then { p with st := .done } else p

/-- The ways to the host on which writes of a context have left, or are still to leave for a team: PCIe (`false`) or CXL (`true`). -/
def State.hostUsed (s : State) (k : Nat) : List Bool :=
  (s.ctx (s.ctxOf k)).posted ++ (s.ops.filter fun o => o.by k).flatMap fun o =>
    (o.parts.filter fun p => !p.over && p.writes && homeOf p.pa = .host).map fun p => decide (p.mt = 0)

/-- The zero-length reads that a release at system scope waits for before its flag is written: on each way that the payload used,
but for PCIe where the flag takes it too (R124). -/
def State.flushParts (s : State) (k : Nat) (cs : List Carry) (parts : List Part) : List Part :=
  if !cs.any fun c => c.sco = 5 then []
  else
    let behind := (parts.filter Part.writes).all fun p => homeOf p.pa = .host && p.mt ≠ 0
    (s.hostUsed k).eraseDups.filterMap fun cxl =>
      if !cxl && behind then none
      else some ⟨wideSlot, 2 ^ 51, 2 ^ 51, 0, 0, 0, .read, 0, 0, [], if cxl then 0 else 1, 0, false, false, .waiting, 0⟩

/-- An acquire below device scope that a cache has served is performed (R91, R120). -/
def State.acquireHits (s : State) (k : Nat) (sem : Sem) (sco : Nat) (parts : List Part) : State :=
  if !semAcquires sem then s
  else parts.foldl (fun s p => if p.over then s.acquire k sco fun a => s.belongs (s.ctxOf k) p.obj a else s) s

/-- Put an operation in flight for the issuing team: copies, counters, ordering, and what can be sent at once. -/
def State.putOp (s : State) (m : Acs) (parts : List Part) (chase : List Chase) : State :=
  let k := s.ck
  let t := s.ct
  let words := writtenObjs parts
  let e := t.semOf m words
  let q := s.newSeq
  let rel := semReleases e.1
  let slots := if m.wide then t.active else maskOfList (parts.map Part.slot)
  let o : MemOp := {
    seq := q.1, team := k, ctx := s.ctxOf k, pc := t.pc, cls := some m.cls, sem := e.1, sco := e.2, dest := m.dest,
    ext := m.ext, slots := slots
    parts := s.flushParts k (s.carryOf k m words q.1) parts ++ parts.map (Part.taken rel), nt := m.nt, carry := s.carryOf k m words q.1,
    install := !m.nt && !m.gather, stream := m.stream, noL1 := [], noRdc := [], gather := m.gather, chase := chase, unchecked := [],
    tile := m.tile, ostc := none, drain := [], actor := none, quiet := false, handler := t.handler.isSome }
  let s := parts.foldl (fun s p => s.atIssue ⟨k, s.cblock.bseq, q.1, t.pc, slots, o.handler⟩ rel (m.nt || o.atOstler) p) q.2
  let s := s.acquireHits k e.1 e.2 parts
  let s := s.modTeam k fun t => { (t.addOut m.cls q.1).noteWords m words with
    acqBlock := if semAcquires e.1 then some q.1 else t.acqBlock }
  { s with ops := s.ops ++ [o] }.pump

/-- Operations that a write-combining store follows at its line's home: earlier stores of the die, whose caches show them before
it, its own team's accesses, and an `os.enq` of its team, whose link may be in any line (R114, R119). -/
def State.wcBlocked (s : State) (k : Nat) (parts : List Part) : List Nat :=
  let ls := (parts.filter fun p => p.kind = .write && p.mt = 2).map fun p => lineOf p.pa
  if ls = [] then []
  else (s.ops.filter fun o => o.actor.isNone && (o.by k || dieOfCore (coreOf o.team) = dieOfCore (coreOf k)) &&
    o.parts.any fun x => !x.over && (((x.writes || o.by k) && ls.contains (lineOf x.pa)) || (o.by k && x.kind = .enq))).map MemOp.seq

/-- The report of a check that an instruction's issue makes. -/
def State.raceReport (s : State) (m : Acs) : Report :=
  ⟨0, 0, 0, s.ct.pc, s.nextSeq, some m.cls, tget 0 s.ct.issued m.cls.code + 1, [], none, false, s.ct.handler.isSome, none⟩

/-- Race checks of `race`, then the operation; `zero` is the zeroing of masked threads (R136). -/
def raceAndPut (s : State) (m : Acs) (parts race : List Part) (chase : List Chase) (zero : Team → Team) : Eff :=
  let k := s.ck
  let e := s.ct.semOf m (writtenObjs parts)
  let sync := e.1 ≠ .relaxed || parts.any fun p => p.writes && p.kind ≠ .write
  let late := s.wcBlocked k parts
  if late ≠ [] then .wait s (.memory late false)
  else match s.races k m.wide sync e.2 race with
    | .inl trap => trap
    | .inr r => .done (((r.1.modCur zero).putOp m parts chase).reportRaces k (s.raceReport m) r.2)

/-- An address belongs to an object of a release, by what it carries or by the bindings as they stand (R115, R117, R124). -/
def Carry.releases (c : Carry) (binds : Table BindEntry) (objs : List Nat) (va : Nat) : Bool :=
  c.sco = 5 || objs.any fun x => !c.words.contains x && belongsIn (c.binds.getD binds) x va

/-- A read, or an access that returns a value. -/
def Part.loads (p : Part) : Bool := !(p.kind matches .write | .red _)

/-- A release that must not issue yet: a report of an operation that R115 orders before it stops the team, the oldest report first,
and in handler mode one of an operation before the handler is held for `rett` (R356). So that none can come after it, the release
waits until those operations are performed (log 44); but at pod and system scope it is held at the source for the writes among
them, and the team goes on (R407). Its write-combining stores drain first (R97). -/
def beforeRelease (s : State) (m : Acs) (objs : List Nat) (f : State → Eff) : Eff :=
  let k := s.ck
  if !semReleases (s.ct.semOf m objs).1 then f s
  else
    let s := s.releaseDrain k
    let t := s.ct
    let cs := s.carryOf k m objs s.nextSeq
    let rels (c : Carry) (va : Nat) : Bool := c.releases (s.ctx s.cctx).binds objs va
    let due (r : Report) : Bool := cs.any fun c => r.seq < c.seq && match r.stores with
      | none => true
      | some l => l.any (rels c)
    let here := t.reports.filter fun r => t.handler.isNone || r.handler
    match if here.any due then here.head? else none with
    | some r => .late s r
    | none =>
      let wait := s.openOps k fun o => cs.any fun c => o.seq < c.seq && o.parts.any fun p =>
        p.unsettled && (p.loads || (c.sco < 4 && rels c p.va))
      if wait ≠ [] then .wait s (.memory wait false)
      else f (if t.reports.any due then s.modCur fun t => { t with reports := t.reports.map fun r => { r with due := r.due || due r } } else s)

/-- Issue the accesses of an instruction whose operand checks have passed. With no thread to access memory, only masked
threads are zeroed (R144). -/
def issueMem (s : State) (m : Acs) (ws : List Want) (zero : Team → Team) : Eff :=
  if ws.isEmpty then .done (s.modCur zero)
  else beforeRelease s m ((ws.filter fun w => w.kind ≠ .read).map fun w => w.va / 8 * 8) fun s =>
    let f := s.findAll s.ck m ws
    let s := f.1.noteWalks m.wide (ws.map Want.walk)
    match firstCause s m f.2 with
    | some e => e
    | none =>
      let parts := f.2.filterMap fun x => match x.2 with
        | .ok y => some (x.1.part y)
        | .error _ => none
      raceAndPut s m parts parts [] zero

/-! ## Addresses (R193) -/

/-- An address that breaks R193. -/
def badAddr (align a : Nat) : Bool := nonCanonical a || a % align ≠ 0

/-- x[BASE] + sext(OFF). -/
def Team.baseOff {n : Nat} (t : Team) (base : BitVec 5) (off : BitVec n) : Word := t.getX base.toNat + BitVec.ofInt 64 off.toInt

/-- Slots of the masked active set whose thread fails a check. -/
def Team.failSlots (t : Team) (xp : Option Xp) (p : Nat → Bool) : Mask :=
  maskOf fun i => (t.masked xp).getLsbD i && p i

/-- Run `f` when no allowed thread fails its check (R392). -/
def perThread (s : State) (xp : Option Xp) (p : Nat → Bool) (f : State → Eff) : Eff :=
  let m := s.ct.failSlots xp p
  if m = 0 then f s else opTrapBy s m

/-- The zeroing of the masked slices of a register (R136). -/
def zeroSlices (xp : Option Xp) (d : Nat) (t : Team) : Team := t.setVIn d (t.zeroed xp) 0

/-- One access per allowed thread, in slot order. -/
def Team.perSlot (t : Team) (xp : Option Xp) (f : Nat → List Want) : List Want := (maskSlots (t.masked xp)).flatMap f

/-- A want of `n` bytes at `va`. -/
def wantBytes (kind : ReqKind) (slot va n dbit : Nat) (a b : Word) : Want :=
  ⟨slot, va, 8 * (va % 8), 8 * n, dbit, kind, a, b, []⟩

end Sys2Proof.Machine
end

