-- ==== Sys2Proof/Machine/LoadStore.lean ====
section
/-!
DEFINITION. Loads, stores, packed accesses, gathers and scatters, prefetch and cache maintenance (R196–R201, R203, R204).
-/

namespace Sys2Proof.Machine

/-! ## Thread view (R196, R197) -/

/-- The address of a thread: x[BASE] + sext(OFF) + s · L. -/
def Team.memAddr (t : Team) (o : MemOps) (size i : Nat) : Nat :=
  (t.baseOff o.base o.off + BitVec.ofNat 64 (size * (t.lid i).getD 0)).toNat

/-- The access of a thread-view load or store. -/
def memAcs (o : MemOps) (c : Cnt) (d : Dest) (e : Option Ext) : Acs :=
  { Acs.plain c d with sem := o.sem, sco := scoNum o.sco, ext := e, nt := o.cache = 2, stream := o.cache = 1 }

/-- A thread-view load of `size` bytes. -/
def threadLoad (size : Nat) (signed : Bool) (xp : Option Xp) (o : MemOps) (s : State) : Out1 :=
  finish s (checked s [] [(false, o.reg)] true fun s =>
    perThread s xp (fun i => badAddr size (s.ct.memAddr o size i)) fun s =>
      issueMem s (memAcs o .ld (.vreg o.reg.toNat) (some ⟨8 * size, signed⟩))
        (s.ct.perSlot xp fun i => [wantBytes .read i (s.ct.memAddr o size i) size (64 * i) 0 0]) (zeroSlices xp o.reg.toNat))

/-- A thread-view store of `size` bytes. -/
def threadStore (size : Nat) (xp : Option Xp) (o : MemOps) (s : State) : Out1 :=
  finish s (checked s [] [(false, o.reg)] true fun s =>
    perThread s xp (fun i => badAddr size (s.ct.memAddr o size i)) fun s =>
      issueMem s (memAcs o .st .none none)
        (s.ct.perSlot xp fun i =>
          [wantBytes .write i (s.ct.memAddr o size i) size 0 (sliceOf (s.ct.getV o.reg.toNat) i) 0]) id)

def execLd8 (xp : Option Xp) (o : MemOps) (s : State) : Out1 := threadLoad 1 false xp o s
def execLd16 (xp : Option Xp) (o : MemOps) (s : State) : Out1 := threadLoad 2 false xp o s
def execLd32 (xp : Option Xp) (o : MemOps) (s : State) : Out1 := threadLoad 4 false xp o s
def execLd64 (xp : Option Xp) (o : MemOps) (s : State) : Out1 := threadLoad 8 false xp o s
def execLd8s (xp : Option Xp) (o : MemOps) (s : State) : Out1 := threadLoad 1 true xp o s
def execLd16s (xp : Option Xp) (o : MemOps) (s : State) : Out1 := threadLoad 2 true xp o s
def execLd32s (xp : Option Xp) (o : MemOps) (s : State) : Out1 := threadLoad 4 true xp o s
def execSt8 (xp : Option Xp) (o : MemOps) (s : State) : Out1 := threadStore 1 xp o s
def execSt16 (xp : Option Xp) (o : MemOps) (s : State) : Out1 := threadStore 2 xp o s
def execSt32 (xp : Option Xp) (o : MemOps) (s : State) : Out1 := threadStore 4 xp o s
def execSt64 (xp : Option Xp) (o : MemOps) (s : State) : Out1 := threadStore 8 xp o s

/-! ## One access for the team (R198) -/

def xmemAcs (o : XMemOps) (c : Cnt) (d : Dest) (e : Option Ext) : Acs :=
  { Acs.plain c d with sem := o.sem, sco := scoNum o.sco, ext := e, nt := o.cache = 2, stream := o.cache = 1, wide := true }

/-- The address of `ldx` and `stx`, and its check. -/
def xmem (s : State) (o : XMemOps) (f : State → Nat → Nat → Eff) : Eff :=
  whenActive s fun s =>
    let a := (s.ct.baseOff o.base o.off).toNat
    if badAddr (2 ^ o.size.toNat) a then opTrap s else f s a (2 ^ o.size.toNat)

/-- `ldx` (R198). -/
def execLdx (o : XMemOps) (s : State) : Out1 :=
  finish s (xmem s o fun s a n =>
    issueMem s (xmemAcs o .ld (.xreg o.x.toNat) (some ⟨8 * n, o.sx⟩)) [wantBytes .read wideSlot a n 0 0 0] id)

/-- `stx` (R198). -/
def execStx (o : XMemOps) (s : State) : Out1 :=
  finish s (xmem s o fun s a n =>
    issueMem s (xmemAcs o .st .none none) [wantBytes .write wideSlot a n 0 (s.ct.getX o.x.toNat) 0] id)

/-! ## Packed accesses (R74, R199, R200) -/

/-- Bits [pos + len − 1 : pos] of memory as accesses within aligned 8-byte words; `dbit` is where they lie in the
register, `v` their value for a store. -/
def packPieces (kind : ReqKind) (slot pos len dbit v : Nat) : List Want :=
  let first := min len (64 - pos % 64)
  let one (p n d x : Nat) : Want := ⟨slot, p / 8, p % 64, n, d, kind, BitVec.ofNat 64 x, 0, []⟩
  if first = len then [one pos len dbit v] else [one pos first dbit v, one (pos + first) (len - first) (dbit + first) (v / 2 ^ first)]

/-- The origin of a packed access, as a bit address modulo 2^67. -/
def Team.packOrigin (t : Team) (o : PackOps) : Nat :=
  ((((t.getX o.base.toNat).toNat * 8 : Nat) + o.off.toInt : Int) % ((2 ^ 67 : Nat) : Int)).toNat

/-- The address of a block's scale byte. -/
def Team.scaleAddr (t : Team) (o : PackOps) (j : Nat) : Nat := (t.getX (o.base.toNat + 1) + BitVec.ofNat 64 j).toNat

/-- The elements that a packed access moves: those whose owner is allowed. -/
def Team.packElems (t : Team) (xp : Option Xp) (f : Fmt) : List Nat :=
  (List.range f.count).filter fun i => (t.masked xp).getLsbD (ownerOf f.width i)

/-- The accesses of a packed load or store: its elements, and a scale byte for each block with such an element, which the owner of the
first accesses, in slot order (R114, R402). -/
def Team.packWants (t : Team) (xp : Option Xp) (o : PackOps) (f : Fmt) (kind : ReqKind) : List Want :=
  let org := t.packOrigin o
  let v := t.view o.reg
  let es := t.packElems xp f
  let data := es.flatMap fun i =>
    packPieces kind (ownerOf f.width i) ((org + i * f.width) % 2 ^ 67) f.width (i * f.width) (v.bits f.width i)
  let blocks := if f.blk = 0 then [] else (es.map (· / f.block)).eraseDups
  let all := data ++ blocks.map fun j =>
    wantBytes kind (ownerOf f.width ((es.find? fun i => i / f.block = j).getD 0)) (t.scaleAddr o j) 1 (2048 + 8 * j)
      (BitVec.ofNat 64 (bitsOf v.odd (8 * j) 8)) 0
  if blocks = [] then all else (List.range 32).flatMap fun s => all.filter fun w => w.slot = s

/-- The zeroing of a packed load's masked elements (R199). -/
def Team.packZero (xp : Option Xp) (o : PackOps) (f : Fmt) (t : Team) : Team :=
  let codes := (List.range f.count).map fun i => if (t.zeroed xp).getLsbD (ownerOf f.width i) then some 0 else none
  (t.setV o.reg.toNat (BitVec.ofNat 2048 (putCodes f.width (t.getV o.reg.toNat).toNat codes))).mend o.reg.toNat
    (sliceFull f.width fun e => ((codes[e]?).getD none).isSome)

/-- The checks of a packed access, and its wants. -/
def packed (s : State) (xp : Option Xp) (o : PackOps) (kind : ReqKind) (f : State → Fmt → List Want → Eff) : Eff :=
  let fm := (s.slot xp o.fs).f
  checked s [(0, o.fs)] [(fm.blk ≠ 0, o.reg)] (fm.blk = 0 || o.base.toNat % 2 = 0) fun s =>
    if nonCanonical (s.ct.packOrigin o / 8) && s.ct.masked xp ≠ 0 then opTrapBy s (s.ct.masked xp)
    else
      let ws := s.ct.packWants xp o fm kind
      let bad := maskOfList ((ws.filter fun w => nonCanonical w.va).map Want.slot)
      if bad ≠ 0 then opTrapBy s bad else f s fm ws

/-- `ldp` (R199). -/
def execLdp (xp : Option Xp) (o : PackOps) (s : State) : Out1 :=
  finish s (packed s xp o .read fun s fm ws =>
    issueMem s { Acs.plain .ld (.vreg o.reg.toNat) with nt := o.cache = 2, stream := o.cache = 1 } ws (Team.packZero xp o fm))

/-- `stp` (R199). -/
def execStp (xp : Option Xp) (o : PackOps) (s : State) : Out1 :=
  finish s (packed s xp o .write fun s _ ws => issueMem s { Acs.plain .st .none with nt := o.cache = 2, stream := o.cache = 1 } ws id)

/-! ## Gathers and scatters (R201) -/

/-- The address of a format-A access: x[BASE] + sext(OFF) + the thread's VA slice. -/
def Team.aAddr (t : Team) (o : AOps) (i : Nat) : Nat := (t.baseOff o.base o.off + sliceOf (t.getV o.va.toNat) i).toNat

/-- `ldg` (R201). -/
def execLdg (xp : Option Xp) (o : AOps) (s : State) : Out1 :=
  let n := 2 ^ o.wid.toNat
  finish s (checked s [] [(false, o.va), (false, o.vd)] true fun s =>
    perThread s xp (fun i => badAddr n (s.ct.aAddr o i)) fun s =>
      issueMem s { Acs.plain .ld (.vreg o.vd.toNat) with ext := some ⟨8 * n, false⟩ }
        (s.ct.perSlot xp fun i => [wantBytes .read i (s.ct.aAddr o i) n (64 * i) 0 0]) (zeroSlices xp o.vd.toNat))

/-- `stg` (R201). -/
def execStg (xp : Option Xp) (o : AOps) (s : State) : Out1 :=
  let n := 2 ^ o.wid.toNat
  finish s (checked s [] [(false, o.va), (false, o.vd)] true fun s =>
    perThread s xp (fun i => badAddr n (s.ct.aAddr o i)) fun s =>
      issueMem s (Acs.plain .st .none)
        (s.ct.perSlot xp fun i => [wantBytes .write i (s.ct.aAddr o i) n 0 (sliceOf (s.ct.getV o.vd.toNat) i) 0]) id)

/-! ## Prefetch and cache maintenance (R203, R204) -/

/-- The reads of a whole line outside the package that a prefetch makes. -/
def State.prefetchOp (s : State) (k va pa seq : Nat) (e : TlbEntry) : MemOp :=
  { askOp ⟨0, s.ctxOf k, 0⟩ seq ((List.range 16).map fun i =>
      ⟨0, va / 128 * 128 + 8 * i, pa / 128 * 128 + 8 * i, 0, 64, 0, .read, 0, 0, [], 0, e.key, e.cmp, e.wr && e.dirty, .waiting, 0⟩) with
    team := k, actor := none, nt := false, install := true }

/-- The fill that `pf` asks for: nothing unless the address translates to a readable normal page. A line of a peer or of the host is
read for the L1 alone, as an operation that nothing waits for (R96, R203). -/
def State.prefetch (s : State) (k va : Nat) (stream : Bool) : State :=
  let core := coreOf k
  let die := dieOfCore core
  let x := s.teamXlate k va .read
  match x.2 with
  | .error _ => x.1
  | .ok (pa, e) =>
    if e.mt ≠ 0 || (x.1.failedAt (lineOf pa)).isSome || x.1.diePending die (lineOf pa) then x.1
    else if isMem pa then
      let l : CLine := ⟨x.1.ctxOf k, va / 128, lineOf pa, e.mt, e.key, e.cmp, e.wr && e.dirty,
        BitVec.ofNat 1024 (x.1.lineView (lineOf pa) (x.1.keyMat e.key))⟩
      let s := x.1.countL2 pa (x.1.vfOf (x.1.ctxOf k)) 0x100
      let s := if rdcHolds die pa then s.rdcFill die l false else s
      if stream then s else s.l1Fill core l false
    else if stream || homeOf pa = .devreg then x.1
    else
      let q := x.1.newSeq
      { q.2 with ops := q.2.ops ++ [q.2.prefetchOp k va pa q.1 e] }.pump

/-- `pf` (R203): a bad address raises the operand trap (R193, R400, log 74); it never takes a translation fault. -/
def execPf (off : BitVec 24) (cache : BitVec 2) (base : BitVec 5) (s : State) : Out1 :=
  finish s (whenActive s fun s =>
    let a := (s.ct.baseOff base off).toNat
    if nonCanonical a then opTrap s else .done (s.prefetch s.ck a (cache = 1)))

/-- Every earlier store of the team has been performed at its home (R204). -/
def State.storesDone (s : State) (k : Nat) : Bool :=
  (s.ops.all fun o => !o.by k || o.parts.all fun p => p.over || !p.writes) &&
    !(s.core (coreOf k)).wcb.any fun e => e.teams.contains k

/-- The cores that a maintenance instruction of scope SCO reaches (R204). -/
def maintCores (sco core : Nat) (c : Nat) : Bool :=
  match sco with
  | 1 => c = core
  | 2 => quadOfCore c = quadOfCore core
  | _ => true

/-- A line of a context that overlaps [lo, hi). -/
def lineMeets (ctx lo hi : Nat) (l : CLine) : Bool := l.ctx = ctx && 128 * l.vline < hi && lo < 128 * l.vline + 128

/-- The checks and the wait of `icinv` and `dcinv`, and the range they act on. -/
def maintain (s : State) (o : InvOps) (f : State → Nat → Nat → State) : Eff :=
  whenActive s fun s =>
    let a := (s.ct.baseOff o.base o.off).toNat
    let n := (s.ct.getX o.x.toNat).toNat
    if nonCanonical a || 2 ^ 32 ≤ n then opTrap s
    else if !s.storesDone s.ck then .wait s (.memory (s.openOps s.ck fun o => o.parts.any Part.writes) true)
    else .done (if n = 0 then s else f s a (a + n))

/-- `icinv` (R204). -/
def execIcinv (o : InvOps) (s : State) : Out1 :=
  finish s (maintain s o fun s lo hi =>
    { s with cores := tmap (fun c x => if maintCores (scoNum o.sco) s.cur.core c then
        { x with l1i := x.l1i.filter fun l => !lineMeets s.cctx lo hi l } else x) s.cores })

/-- `dcinv` (R204). -/
def execDcinv (o : InvOps) (s : State) : Out1 :=
  finish s (maintain s o fun s lo hi =>
    let s' := { s with cores := tmap (fun c x => if maintCores (scoNum o.sco) s.cur.core c then
        { x with l1 := x.l1.filter fun l => !lineMeets s.cctx lo hi l } else x) s.cores }
    if scoNum o.sco = 3 then
      { s' with dies := tmap (fun _ d => { d with rdc := d.rdc.filter fun l => !lineMeets s.cctx lo hi l }) s'.dies }
    else s')

end Sys2Proof.Machine
end

