-- ==== Sys2Proof/Machine/Atomics.lean ====
section
/-!
DEFINITION. Atomics and reductions (R205–R207), ostler operations and home gathers (R208–R212), fences (R121, R216), and the
binding table (R116, R217).
-/

namespace Sys2Proof.Machine

/-! ## Atomics (R205) -/

/-- The low `8 n` bits of a thread's slice. -/
def lowBits (n : Nat) (w : Word) : Word := BitVec.ofNat 64 (w.toNat % 2 ^ (8 * n))

/-- An atomic whose operands are `a` and `b` of a thread's slot. -/
def atomicOp (op : Rmw) (opds : List VOpd) (xp : Option Xp) (o : AOps) (s : State) (ab : Team → Nat → Word × Word) : Out1 :=
  let n := 2 ^ o.wid.toNat
  finish s (checked s [] opds true fun s =>
    perThread s xp (fun i => badAddr n (s.ct.aAddr o i)) fun s =>
      issueMem s { Acs.plain .ld (.vreg o.vd.toNat) with
          sem := o.sem, sco := scoNum o.sco, ext := some ⟨8 * n, false⟩, need := .atomic op }
        (s.ct.perSlot xp fun i =>
          [wantBytes (.atomic op) i (s.ct.aAddr o i) n (64 * i) (ab s.ct i).1 (ab s.ct i).2]) (zeroSlices xp o.vd.toNat))

/-- An atomic with one operand. -/
def atomic1 (op : Rmw) (xp : Option Xp) (o : AOps) (s : State) : Out1 :=
  atomicOp op [(false, o.va), (false, o.vd)] xp o s fun t i =>
    (lowBits (2 ^ o.wid.toNat) (sliceOf (t.getV o.vd.toNat) i), 0)

def execAadd (xp : Option Xp) (o : AOps) (s : State) : Out1 := atomic1 .add xp o s
def execAand (xp : Option Xp) (o : AOps) (s : State) : Out1 := atomic1 .and xp o s
def execAor (xp : Option Xp) (o : AOps) (s : State) : Out1 := atomic1 .or xp o s
def execAxor (xp : Option Xp) (o : AOps) (s : State) : Out1 := atomic1 .xor xp o s
def execAmin (xp : Option Xp) (o : AOps) (s : State) : Out1 := atomic1 .min xp o s
def execAmax (xp : Option Xp) (o : AOps) (s : State) : Out1 := atomic1 .max xp o s
def execAminu (xp : Option Xp) (o : AOps) (s : State) : Out1 := atomic1 .minu xp o s
def execAmaxu (xp : Option Xp) (o : AOps) (s : State) : Out1 := atomic1 .maxu xp o s
def execAswp (xp : Option Xp) (o : AOps) (s : State) : Out1 := atomic1 .swap xp o s

/-- `acas` (R205): an 8-byte one takes its new value from VD + 1. -/
def execAcas (xp : Option Xp) (o : AOps) (s : State) : Out1 :=
  atomicOp .cas [(false, o.va), (o.wid = 3, o.vd)] xp o s fun t i =>
    let a := sliceOf (t.getV o.vd.toNat) i
    if o.wid = 3 then (a, sliceOf (t.getV (o.vd.toNat + 1)) i)
    else (BitVec.ofNat 64 (bitsOf a.toNat 0 32), BitVec.ofNat 64 (bitsOf a.toNat 32 32))

/-! ## Reductions (R206) -/

def reduction (op : Rmw) (xp : Option Xp) (o : AOps) (s : State) : Out1 :=
  let n := 2 ^ o.wid.toNat
  finish s (checked s [] [(false, o.va), (false, o.vd)] true fun s =>
    perThread s xp (fun i => badAddr n (s.ct.aAddr o i)) fun s =>
      issueMem s { Acs.plain .st .none with sco := scoNum o.sco, need := .home }
        (s.ct.perSlot xp fun i =>
          [wantBytes (.red op) i (s.ct.aAddr o i) n 0 (lowBits n (sliceOf (s.ct.getV o.vd.toNat) i)) 0]) id)

def execRedAdd (xp : Option Xp) (o : AOps) (s : State) : Out1 := reduction .add xp o s
def execRedAnd (xp : Option Xp) (o : AOps) (s : State) : Out1 := reduction .and xp o s
def execRedOr (xp : Option Xp) (o : AOps) (s : State) : Out1 := reduction .or xp o s
def execRedXor (xp : Option Xp) (o : AOps) (s : State) : Out1 := reduction .xor xp o s
def execRedMin (xp : Option Xp) (o : AOps) (s : State) : Out1 := reduction .min xp o s
def execRedMax (xp : Option Xp) (o : AOps) (s : State) : Out1 := reduction .max xp o s
def execRedMinu (xp : Option Xp) (o : AOps) (s : State) : Out1 := reduction .minu xp o s
def execRedMaxu (xp : Option Xp) (o : AOps) (s : State) : Out1 := reduction .maxu xp o s

/-! ## Ostler operations (R208–R211) and home gathers (R212) -/

/-- The access of an ostler operation: it counts on LDC and its results go to registers from VD on. -/
def ostlerAcs (o : AOps) : Acs :=
  { Acs.plain .ld (.vreg o.vd.toNat) with sem := o.sem, sco := scoNum o.sco, need := .home }

/-- Zero the masked slices of `n` registers (R136). -/
def zeroRun (xp : Option Xp) (d n : Nat) (t : Team) : Team := (List.range n).foldl (fun t k => zeroSlices xp (d + k) t) t

/-- The first register of a run of `n` allocated ones, at a multiple of 8. -/
def runOk (s : State) (vd : BitVec 7) (n : Nat) : Bool := vd.toNat % 8 = 0 && vd.toNat + n ≤ s.cblock.vregs

/-- `os.cas4` (R208). -/
def execOsCas4 (xp : Option Xp) (o : AOps) (s : State) : Out1 :=
  let n := o.wid.toNat + 1
  finish s (checked s [] [(false, o.va)] (runOk s o.vd 8) fun s =>
    perThread s xp (fun i => badAddr 8 (s.ct.aAddr o i) || 128 < s.ct.aAddr o i % 128 + 8 * n) fun s =>
      let t := s.ct
      let word (k i : Nat) : Word := sliceOf (t.getV (o.vd.toNat + k)) i
      issueMem s (ostlerAcs o)
        (t.perSlot xp fun i => [{ wantBytes (.cas4 n) i (t.aAddr o i) 8 (64 * i) 0 0 with
          words := ((List.range n).map fun k => word k i) ++ (List.range n).map fun k => word (4 + k) i }])
        (zeroRun xp o.vd.toNat n))

/-- `os.enq` (R209): the node's link is written at its own home, then the header is updated. -/
def execOsEnq (xp : Option Xp) (o : AOps) (s : State) : Out1 :=
  finish s (checked s [] [(false, o.va), (false, o.vd)] true fun s =>
    let node (i : Nat) : Word := sliceOf (s.ct.getV o.vd.toNat) i
    perThread s xp (fun i => badAddr 16 (s.ct.aAddr o i) || node i = 0 || badAddr 8 (node i).toNat) fun s =>
      issueMem s (ostlerAcs o)
        (s.ct.perSlot xp fun i =>
          [wantBytes .write i (node i).toNat 8 0 0 0, wantBytes .enq i (s.ct.aAddr o i) 8 (64 * i) (node i) 0])
        (zeroSlices xp o.vd.toNat))

/-- The start pointer of an `os.chase`. -/
def Team.chaseStart (t : Team) (o : AOps) (i : Nat) : Word := t.getX o.base.toNat + sliceOf (t.getV o.va.toNat) i

/-- The first hop of a thread's walk: its part and its place, or its result at once (R210); or a violation (R367). -/
def State.chaseFirst (s : State) (o : AOps) (i : Nat) : State × Except Bad (Part × Option Chase) :=
  let t := s.ct
  let p := t.chaseStart o i
  let c : Chase := ⟨i, (sliceOf (t.getV o.vd.toNat) i).toNat, o.off.toInt, true⟩
  let blank : Part := ⟨i, 0, 0, 0, 64, 64 * i, .read, 0, 0, [], 0, 0, false, false, .done, 0⟩
  let h := s.nextHop (s.teamActor s.ck) c p
  match h.2 with
  | .stop v => (h.1, .ok ({ blank with val := v }, none))
  | .viol _ r pa => (h.1, .error ((DevRes.viol r pa).bad .read))
  | .word va pa e => (h.1, .ok ({ blank with va := va, pa := pa, mt := e.mt, key := e.key, cmp := e.cmp, st := .waiting }, some c))

/-- `os.chase` (R210). -/
def execOsChase (xp : Option Xp) (o : AOps) (s : State) : Out1 :=
  finish s (checked s [] [(false, o.va), (false, o.vd)] true fun s =>
    let hops (i : Nat) : Nat := (sliceOf (s.ct.getV o.vd.toNat) i).toNat
    perThread s xp (fun i => hops i = 0 || 16 < hops i) fun s =>
      let slots := maskSlots (s.ct.masked xp)
      if slots.isEmpty then .done (s.modCur (zeroSlices xp o.vd.toNat))
      else
        let r := slots.foldl (fun (r : State × List (Nat × Except Bad (Part × Option Chase))) i =>
          let f := r.1.chaseFirst o i
          (f.1, r.2 ++ [(i, f.2)])) (s, [])
        let bad := r.2.filterMap fun x => match x.2 with
          | .error b => some (x.1, b)
          | .ok _ => none
        match trapOf r.1 false 9 (badSlots bad 9) with
        | some e => e
        | none =>
          let l := r.2.filterMap fun x => x.2.toOption
          let parts := l.map Prod.fst
          raceAndPut r.1 (ostlerAcs o) parts (parts.filter fun p => !p.over) (l.filterMap Prod.snd) (zeroSlices xp o.vd.toNat))

/-- `os.run` (R211): the routine must be loaded; it gets the thread's slice and the address. -/
def execOsRun (xp : Option Xp) (o : AOps) (s : State) : Out1 :=
  let code := tfind (s.ctx s.cctx).routines o.wid.toNat
  finish s (checked s [] [(false, o.va), (false, o.vd)] code.isSome fun s =>
    perThread s xp (fun i => nonCanonical (s.ct.aAddr o i)) fun s =>
      issueMem s (ostlerAcs o)
        (s.ct.perSlot xp fun i =>
          [⟨i, s.ct.aAddr o i, 0, 64, 64 * i, .run, sliceOf (s.ct.getV o.vd.toNat) i, BitVec.ofNat 64 (s.ct.aAddr o i),
            (code.getD []).map fun w => w.zeroExtend 64⟩])
        (zeroSlices xp o.vd.toNat))

/-- The address of word k of a home gather (R212). -/
def Team.gatherAddr (t : Team) (o : AOps) (i k : Nat) : Nat :=
  (t.baseOff o.base o.off + BitVec.ofInt 64 (8 * sextNat 8 (bitsOf (sliceOf (t.getV o.va.toNat) i).toNat (8 * k) 8))).toNat

/-- `hgath` (R212). -/
def execHgath (xp : Option Xp) (o : AOps) (s : State) : Out1 :=
  let n := o.wid.toNat + 1
  finish s (checked s [] [(false, o.va)] (runOk s o.vd n) fun s =>
    perThread s xp (fun i => (List.range n).any fun k => badAddr 8 (s.ct.gatherAddr o i k)) fun s =>
      issueMem s { Acs.plain .ld (.vreg o.vd.toNat) with gather := true, need := .home }
        (s.ct.perSlot xp fun i => (List.range n).map fun k =>
          wantBytes .read i (s.ct.gatherAddr o i k) 8 (2048 * k + 64 * i) 0 0)
        (zeroRun xp o.vd.toNat n))

/-! ## Fences (R121, R216) -/

/-- A fence that another covers: it comes later, with the same bindings, and its scope is as wide. -/
def Carry.covers (c f : Carry) : Bool := f.sco ≤ c.sco && f.binds = c.binds

/-- The release half of a fence: write-combining entries drain, and the team's next relaxed store or atomic to each word becomes a
release at its scope, which carries what the bindings give at the fence (R121). Earlier fences stand beside it. -/
def State.fenceRelease (s : State) (sco : Nat) : State :=
  let k := s.ck
  let q := (s.releaseDrain k).newSeq
  let f : Carry := ⟨q.1, sco, some (s.ctx (s.ctxOf k)).binds, []⟩
  (q.2.noteRelease k sco).modTeam k fun t => { t with relFences := f :: t.relFences.filter fun x => !f.covers x }

/-- `fence` (R216): an acquire waits for the team's earlier loads, an `sem:ar` fence for every earlier access, to be
performed. SEM 00 is no fence, and an illegal instruction (R194, R399). -/
def execFence (sem : Sem) (sco : Scope) (s : State) : Out1 :=
  let c := scoNum sco
  finish s (if sem = .relaxed then illegal s else whenActive s fun s =>
    let k := s.ck
    match sem with
    | .relaxed | .release => .done (s.fenceRelease c)
    | .acquire =>
      if s.performedBefore k s.nextSeq fun o => o.parts.any fun p => !p.writes then .done (s.acquire k c fun _ => true)
      else .wait s (.memory (s.openOps k fun o => o.parts.any fun p => !p.writes) false)
    | .acqRel =>
      let s := s.releaseDrain k
      if s.allPerformed k then .done ((s.fenceRelease c).acquire k c fun _ => true)
      else .wait s (.memory (s.openOps k fun _ => true) false))

/-! ## Bindings (R116, R217) -/

def State.setBind (s : State) (ctx n : Nat) (e : Option BindEntry) : State :=
  s.modCtx ctx fun c => { c with binds := match e with
    | some e => tins c.binds n e
    | none => tdel c.binds n }

/-- `bind` (R217). The entry is in force at once, on every core. -/
def execBind (ent : BitVec 6) (xo xb xl : BitVec 5) (s : State) : Out1 :=
  finish s (whenActive s fun s =>
    let t := s.ct
    let o := t.getX xo.toNat
    let b := t.getX xb.toNat
    let l := t.getX xl.toNat
    if badAddr 8 o.toNat || badAddr 128 b.toNat || badAddr 128 l.toNat then opTrap s
    else .done (s.setBind s.cctx ent.toNat (some ⟨o, l, b⟩)))

/-- `unbind` (R217). -/
def execUnbind (ent : BitVec 6) (s : State) : Out1 :=
  finish s (whenActive s fun s => .done (s.setBind s.cctx ent.toNat none))

end Sys2Proof.Machine
end

