-- ==== Sys2Proof/Machine/Flags.lean ====
section
/-!
DEFINITION. Conditions and status words: the branch conditions of R149, the truth values that comparisons write (R168), the
words that `rdsr` composes (R171, R173), and the clause array's status word (R256).
-/

namespace Sys2Proof.Machine

/-- 1 or 0 (R168). -/
def truth (b : Bool) : Word := if b then 1 else 0

/-- Threads in which a per-thread condition holds (R149); a uniform condition has none of its own. -/
def condThreads (c : Cond) (p : Mask) : Option Mask :=
  match c with
  | .t => some p
  | .f => some (~~~p)
  | .any | .all | .none | .nall => none

/-- A uniform condition over the active threads (R149). -/
def condUniform (c : Cond) (em p : Mask) : Bool :=
  match c with
  | .any => em &&& p ≠ 0
  | .all => em &&& ~~~p = 0
  | .none => em &&& p = 0
  | .nall => em &&& ~~~p ≠ 0
  | .t | .f => false

/-- SELF (R173). -/
def selfWord (ctx key : Nat) : Word :=
  BitVec.ofNat 64 (coreOf key + slotOf key * 2 ^ 8 + idxOf key * 2 ^ 13 + ctx * 2 ^ 18)

/-- LAUNCH (R171). -/
def launchWord (lnh : Nat) (ltag : BitVec 16) : Word := BitVec.ofNat 64 (ltag.toNat + lnh % 1024 * 2 ^ 16)

/-- Three coordinates packed as GRID packs them (R171). -/
def gridWord (x y z : Nat) : Word := BitVec.ofNat 64 (x % 2 ^ 21 + y % 2 ^ 21 * 2 ^ 21 + z % 2 ^ 21 * 2 ^ 42)

/-- The status word of the clause array (R256); a team that does not hold the claim reads zero (R272). -/
def cxStatus (a : CxArray) (own : Bool) : Word :=
  if own then
    BitVec.ofNat 64 ((if a.conf then a.ccol.toNat + 2 ^ 11 else 0) + a.cl.toNat * 2 ^ 12 + a.trail.length * 2 ^ 21
      + a.sweeps.toNat * 2 ^ 31 + a.nforce.toNat * 2 ^ 41 + 2 ^ 51)
  else 0

end Sys2Proof.Machine
end

