-- ==== Sys2Proof/Machine/Launch.lean ====
section
/-!
DEFINITION. Launches: queue descriptors (R25, R27, R412), admission (R24, R26, R280, R281, R414), the dispatch of blocks to
cores (R22, R37–R40), stealing between dies (R41), and the completion of a launch (R28, R29, R380).
-/

namespace Sys2Proof.Machine

/-! ## Reading for a launch (R29, R367) -/

/-- The record of a rejected launch (R29, R412, R414). -/
def rejectRec (pc detail : Nat) (ltag : BitVec 16) : Rec :=
  launchCoreRec 0x13 (BitVec.ofNat 64 pc) (BitVec.ofNat 64 detail) ltag

/-- The record of a world or key violation by a launch's own operation (R367). -/
def launchViolRec (reason pa : Nat) (ltag : BitVec 16) : Rec :=
  { launchCoreRec 9 0 (BitVec.ofNat 64 (reason * 2 ^ 60 + pa)) ltag with async := true }

/-- Read `n` bytes at `va` for a launch; a failure gives the record that `reject` makes. -/
def State.launchRead (s : State) (w : Actor) (acc : Acc) (va n : Nat) (reject : Rec) : State × Except Rec Nat :=
  let r := s.devRead w acc va n
  match r.2.1 with
  | .ok bs => (r.1, .ok (ofBytes bs))
  | .viol reason pa => (r.1, .error (launchViolRec reason pa reject.ltag))
  | _ => (r.1, .error reject)

/-! ## Queue descriptors (R25, R412) -/

structure QDesc where
  va : Nat
  rbase : Nat
  log2n : Nat
  pri : Nat
  en : Bool
  dbgh : Bool
  ridx : Nat
  widx : Nat
  deriving DecidableEq, Repr

def qdescOf (va d : Nat) : QDesc where
  va := va
  rbase := bitsOf d 0 64
  log2n := bitsOf d 64 5
  pri := bitsOf d 69 2
  en := bitOf d 71
  dbgh := bitOf d 72
  ridx := bitsOf d 128 64
  widx := bitsOf d 192 64

/-- An enabled descriptor that fails a check (R412). -/
def qdescBad (q : QDesc) (d : Nat) : Bool :=
  q.en && (q.log2n < 4 || 16 < q.log2n || q.rbase % 4096 ≠ 0 || nonCanonical q.rbase || bitsOf d 73 55 ≠ 0)

/-- Read and check a queue's descriptor; a failure kills the context (R412). -/
def State.readQueue (s : State) (ctx q : Nat) : State × Option QDesc :=
  let va := (s.ctx ctx).qtable.toNat + 32 * q
  let r := s.launchRead (launchActor ctx q) .rmw va 32 (rejectRec va va 0)
  match r.2 with
  | .error e => (r.1.fatal ctx e, none)
  | .ok d =>
    let x := qdescOf va d
    if qdescBad x d then (r.1.fatal ctx (rejectRec va va 0), none) else (r.1, some x)

/-- The launch core serves the context's queues. -/
def State.serves (s : State) (ctx q : Nat) : Bool := s.boot = .running && (s.ctx ctx).en && !(s.ctx ctx).killed && q < 128

/-- LAUNCH_QUEUE_POLL: the launch core reads a queue's descriptor (R27, R412). -/
def execLaunchQueuePoll (ctx q : Nat) (s : State) : Out1 :=
  .next (if s.serves ctx q then (s.readQueue ctx q).1 else s)

/-! ## The record and the kernel (R24, R280, R281, R414) -/

/-- A launch record fails step 2 of R414. -/
def recordBad (r : Nat) : Bool :=
  let addr (lo al : Nat) : Bool := bitsOf r lo 64 % al ≠ 0 || nonCanonical (bitsOf r lo 64)
  let gx := bitsOf r 128 21
  let gy := bitsOf r 149 21
  let gz := bitsOf r 170 21
  let dsco := bitsOf r 384 3
  bitsOf r 416 96 ≠ 0 || bitsOf r 388 12 ≠ 0 || bitOf r 191 || addr 0 64 || addr 192 8 || addr 320 8
    || gx = 0 || gy = 0 || gz = 0 || 2 ^ 40 < gx * gy * gz || dsco < 3 || 5 < dsco

/-- A template entry with ARGS added where it is relative: OBJ, LIMIT and BASE (R281). -/
def tmplVals (args e : Nat) : Nat × Nat × Nat :=
  let add (x : Nat) : Nat := if bitOf e 198 then (x + args) % 2 ^ 64 else x
  (add (bitsOf e 128 64), add (bitsOf e 64 64), add (bitsOf e 0 64))

/-- A template entry that rejects the launch (R281). -/
def tmplBad (args e : Nat) : Bool :=
  let v := tmplVals args e
  bitsOf e 199 57 ≠ 0 || v.1 % 8 ≠ 0 || v.2.1 % 128 ≠ 0 || v.2.2 % 128 ≠ 0 || nonCanonical v.1 || nonCanonical v.2.1
    || nonCanonical v.2.2

/-- Entry `i` of the template of a `.kmeta` record. -/
def tmplEntry (k i : Nat) : Nat := bitsOf k (1536 + 256 * i) 256

/-- A `.kmeta` record fails step 3 of R414. -/
def kmetaBad (args k : Nat) : Bool :=
  let teams := bitsOf k 208 8
  let vrb8 := bitsOf k 216 8
  let nbind := bitsOf k 232 8
  let entry := bitsOf k 0 64
  let tmode := bitsOf k 64 64
  let handler := bitsOf k 128 64
  bitsOf k 288 224 ≠ 0 || bitsOf k 242 14 ≠ 0 || teams = 0 || 32 < teams || vrb8 = 0 || 16 < vrb8
    || 128 < bitsOf k 224 8 || 64 < nbind || 2048 < teams * vrb8 * 8 || entry % 4 ≠ 0 || nonCanonical entry
    || handler % 4 ≠ 0 || nonCanonical handler || bitsOf tmode 6 26 ≠ 0 || bitsOf tmode 0 4 ≠ 0 || bitsOf tmode 4 2 = 3
    || ((List.range 16).any fun i => !bitOf k (192 + i) && bitsOf k (512 + 64 * i) 64 ≠ 0)
    || (List.range nbind).any fun i => tmplBad args (tmplEntry k i)

/-- The launch that a checked record and kernel describe. -/
def launchRecOf (addr r k : Nat) : LaunchRec where
  addr := addr
  ltag := BitVec.ofNat 16 (bitsOf r 400 16)
  irq := bitOf r 387
  dsco := bitsOf r 384 3
  done := BitVec.ofNat 64 (bitsOf r 320 64)
  waitVal := BitVec.ofNat 64 (bitsOf r 256 64)
  waitAddr := BitVec.ofNat 64 (bitsOf r 192 64)
  gx := bitsOf r 128 21
  gy := bitsOf r 149 21
  gz := bitsOf r 170 21
  args := BitVec.ofNat 64 (bitsOf r 64 64)
  entry := BitVec.ofNat 64 (bitsOf k 0 64)
  tmode := BitVec.ofNat 64 (bitsOf k 64 64)
  handler := BitVec.ofNat 64 (bitsOf k 128 64)
  fsmask := BitVec.ofNat 16 (bitsOf k 192 16)
  fsimg := (List.range 16).map fun i => BitVec.ofNat 64 (bitsOf k (512 + 64 * i) 64)
  teams := bitsOf k 208 8
  vrb8 := bitsOf k 216 8
  stalls := bitsOf k 224 8
  noswap := bitOf k 240
  fhold := bitOf k 241
  htmo := bitsOf k 256 32
  tmpl := (List.range (bitsOf k 232 8)).map fun i => BitVec.ofNat 256 (tmplEntry k i)

/-- Steps 1 to 3 of R414 on the record at `va`. -/
def State.readLaunch (s : State) (w : Actor) (va : Nat) : State × Except Rec LaunchRec :=
  let r := s.launchRead w .read va 64 (rejectRec va va 0)
  match r.2 with
  | .error e => (r.1, .error e)
  | .ok rec1 =>
    let ltag := BitVec.ofNat 16 (bitsOf rec1 400 16)
    let km := bitsOf rec1 0 64
    if recordBad rec1 then (r.1, .error (rejectRec va va ltag))
    else
      let h := r.1.launchRead w .read km 192 (rejectRec km va ltag)
      match h.2 with
      | .error e => (h.1, .error e)
      | .ok k0 =>
        let t := h.1.launchRead w .read (km + 192) (32 * min 64 (bitsOf k0 232 8)) (rejectRec km va ltag)
        match t.2 with
        | .error e => (t.1, .error e)
        | .ok k1 =>
          let k := k0 + k1 * 2 ^ 1536
          if kmetaBad (bitsOf rec1 64 64) k then (t.1, .error (rejectRec km va ltag))
          else (t.1, .ok (launchRecOf va rec1 k))

/-! ## Admission -/

/-- The kernel's template, entry by entry, as binds (R281). -/
def State.applyTemplate (s : State) (ctx : Nat) (r : LaunchRec) : State :=
  r.tmpl.foldl (fun s e =>
    let v := tmplVals r.args.toNat e.toNat
    s.setBind ctx (bitsOf e.toNat 192 6) (some ⟨BitVec.ofNat 64 v.1, BitVec.ofNat 64 v.2.1, BitVec.ofNat 64 v.2.2⟩)) s

/-- The launch is split among the dies (R40). -/
def State.splitLaunch (s : State) (ctx lnh n : Nat) : State :=
  (List.range 4).foldl (fun s d =>
    let lo := n * d / 4
    let hi := n * (d + 1) / 4
    if lo < hi then s.modDie d fun x => { x with ranges := x.ranges ++ [⟨ctx, lnh, lo, hi⟩] } else s) s

/-- Step 5 of R414: the template is applied, RIDX advances, and the launch stands admitted under the lowest free handle. Where
the context has all 1,024 in use, the record waits unadmitted (log 30). -/
def State.admitRec (s : State) (ctx q : Nat) (d : QDesc) (r : LaunchRec) : State × Bool :=
  match (List.range 1024).find? fun h => ((tfind (s.ctx ctx).launches h).all fun l => l.done) with
  | none => (s, false)
  | some h =>
    let s := (s.devWrite (launchActor ctx q) (d.va + 16) (bytesOf 8 ((d.ridx + 1) % 2 ^ 64))).1
    let s := s.applyTemplate ctx r
    let l : Launch := ⟨r, q, d.pri, s.admitted, 0, [], false⟩
    let s := { s with admitted := s.admitted + 1 }
    let s := s.modCtx ctx fun c => { c with launches := tins c.launches h l, queues := tdel c.queues q }
    (s.splitLaunch ctx h r.blocks, true)

/-- The record at RIDX handled as R414 orders; a debug-held queue is served only for the monitor's ADMIT (R352). The
result says whether a record was admitted. -/
def State.admitOne (s : State) (ctx q : Nat) (monitor : Bool) : State × Bool :=
  if !s.serves ctx q then (s, false)
  else
    let d := s.readQueue ctx q
    let s := d.1
    match d.2 with
    | none => (s, false)
    | some d =>
      if !d.en || d.dbgh ≠ monitor || d.ridx = d.widx then (s, false)
      else
        let va := (d.rbase + d.ridx % 2 ^ d.log2n * 64) % 2 ^ 64
        let known := (tfind (s.ctx ctx).queues q).bind fun x => if x.ridx.toNat = d.ridx then some x.rcd else none
        let r : State × Except Rec LaunchRec := match known with
          | some r => (s, .ok r)
          | none => s.readLaunch (launchActor ctx q) va
        match r.2 with
        | .error e => (r.1.fatal ctx e, false)
        | .ok l =>
          if l.waitAddr = 0 then r.1.admitRec ctx q d l
          else
            let w := r.1.launchRead (launchActor ctx q) .read l.waitAddr.toNat 8 (rejectRec l.waitAddr.toNat va l.ltag)
            match w.2 with
            | .error e => (w.1.fatal ctx e, false)
            | .ok v =>
              if l.waitVal.toNat ≤ v then w.1.admitRec ctx q d l
              else (w.1.modCtx ctx fun c => { c with queues := tins c.queues q ⟨l, BitVec.ofNat 64 d.ridx⟩ }, false)

/-- ADMIT_LAUNCH (R414). -/
def execAdmitLaunch (ctx q : Nat) (s : State) : Out1 := .next (s.admitOne ctx q false).1

/-! ## Binding blocks (R22, R37–R40) -/

/-- A team at team start (R22). -/
def startTeam (l : LaunchRec) (bidx idx : Nat) : Team :=
  let t := { Team.blank with
    pc := l.entry
    em := BitVec.allOnes 32
    tmode := l.tmode
    remap := (List.range 32).map fun i => some (BitVec.ofNat 10 (32 * idx + i)) }
  let t := (List.range 16).foldl (fun t i =>
    t.setFs i (if l.fsmask.getLsbD i then l.fsimg.getD i 0 else resetImage i)) t
  (((t.setX 1 l.args).setX 2 (BitVec.ofNat 64 bidx)).setX 3
    (gridWord (bidx % l.gx) (bidx / l.gx % l.gy) (bidx / l.gx / l.gy))).setX 4 (BitVec.ofNat 64 idx)

/-- Stalls [lo, lo + n) lie in no range of another block of the core (R39). -/
def State.stallsFree (s : State) (core lo n : Nat) : Bool :=
  lo + n ≤ 128 && (s.coreBlocks core).all fun b =>
    let x := s.block b
    x.stalls.isSome || x.stb + x.stn ≤ lo || lo + n ≤ x.stb

/-- The stalls of a new block: its teams own them, and they hold zero (R85). -/
def Core.clearStalls (c : Core) (lo n : Nat) : Core :=
  let mine (w : Nat) : Bool := 512 * lo ≤ w && w < 512 * (lo + n)
  { c.setOwners lo n 0 with
    scratch := c.scratch.filter fun e => !mine e.1, scratchBad := c.scratchBad.filter fun w => !mine w }

/-- The valid, readable and well-formed descriptors of a context are loaded when its first team starts on a quad (R103). -/
def State.firstTeam (s : State) (quad ctx : Nat) : State :=
  if (s.quad quad).ctxs.contains ctx then s
  else
    let r := s.readRanges (launchActor ctx (4096 + quad)) true
    r.1.modQuad quad fun q => { q with ctxs := ctx :: q.ctxs, ranges := r.2.1.foldl (fun t e => tlbFill 32 t e) q.ranges }

/-- Take the first block of a launch's range on a die (R40). -/
def Die.takeBlock (d : Die) (ctx lnh : Nat) : Die :=
  let rec go : List URange → List URange
    | [] => []
    | r :: rs =>
      if r.ctx = ctx && r.lnh = lnh then (if r.lo + 1 < r.hi then { r with lo := r.lo + 1 } :: rs else rs) else r :: go rs
  { d with ranges := go d.ranges }

/-- The launch that a die's dispatcher serves: the first among the runnable launches with a range there (R40). -/
def State.serving (s : State) (die : Nat) : Option (Nat × Nat × Launch) :=
  firstLaunch (s.runnables.filter fun x => (s.die die).ranges.any fun r => r.ctx = x.1 && r.lnh = x.2.1)

/-- Start a block in a slot. Its core-scope barrier begins at phase 0: the manual gives one instance for each block slot and does not
say whether its phase number outlives a block (log 105; DESIGN CHOICE). No copy of the context's lines that its core or die holds is
older than what the launch core's acquire made visible (R27, R28). -/
def State.startBlock (s : State) (ctx lnh core slot stb bidx : Nat) (l : Launch) : State :=
  let r := l.rcd
  let s := ((s.firstTeam (quadOfCore core) ctx).dropContext core ctx).modDie (dieOfCore core) fun d => d.takeBlock ctx lnh
  let b : Block := {
    bseq := (s.core core).nextBseq, bidx := bidx, stb := stb, stn := r.stalls, tms := r.teams - 1, vrb := r.vrb8 - 1,
    lnh := lnh, ctx := ctx, pri := l.pri, st := .bound, stalls := none, bar := .reset, regroups := [] }
  let s := s.modCore core fun c => { c.clearStalls stb r.stalls with nextBseq := c.nextBseq + 1 }
  let s := { s with blocks := tins s.blocks (core * 32 + slot) b }
  let s := s.modCtx ctx fun c => { c with launches := tins c.launches lnh { l with bound := l.bound + 1 } }
  (List.range r.teams).foldl (fun s i => s.setTeam (teamKey core slot i) (startTeam r bidx i)) s

/-! ## Stealing (R41) -/

/-- The largest range of a launch on a die. -/
def Die.largest (d : Die) (ctx lnh : Nat) : Option URange :=
  (d.ranges.filter fun r => r.ctx = ctx && r.lnh = lnh).foldl (fun b r => match b with
    | none => some r
    | some x => if x.hi - x.lo < r.hi - r.lo then some r else some x) none

def rangeLen (r : Option URange) : Nat := (r.map fun r => r.hi - r.lo).getD 0

/-- The die that holds the largest range of a launch; ties go to the lower die. -/
def State.victim (s : State) (ctx lnh : Nat) : Option Nat :=
  (List.range 4).foldl (fun b d =>
    let n := rangeLen ((s.die d).largest ctx lnh)
    match b with
    | none => if n = 0 then none else some d
    | some x => if rangeLen ((s.die x).largest ctx lnh) < n then some d else some x) none

/-- A core of the die has a free block slot. -/
def State.slotOnDie (s : State) (die : Nat) : Bool :=
  (List.range 64).any fun i => (s.coreBlocks (64 * die + i)).length < 32

/-- STEAL_REQUEST (R41). Of the runnable launches, in their order, the first that has an undispatched range is stolen from
(log 90). -/
def execStealRequest (die : Nat) (s : State) : Out1 :=
  .next (
    if 4 ≤ die || (s.die die).steal.isSome || (s.serving die).isSome || !s.slotOnDie die then s
    else match firstLaunch (s.runnables.filter fun x => (s.victim x.1 x.2.1).isSome) with
      | none => s
      | some x => match s.victim x.1 x.2.1 with
        | none => s
        | some v => s.modDie die fun d => { d with steal := some ⟨v, x.1, x.2.1⟩ })

/-- The victim keeps the lower part of its range and gives the rest; a range of one block stays whole. -/
def State.split (s : State) (die : Nat) (q : Steal) (r : URange) : State :=
  let mid := r.lo + (r.hi - r.lo + 1) / 2
  if mid < r.hi then
    (s.modDie q.victim fun d => { d with ranges := d.ranges.map fun x => if x = r then { x with hi := mid } else x }).modDie
      die fun d => { d with ranges := d.ranges ++ [{ r with lo := mid }] }
  else s

/-- STEAL_ANSWER (R41). -/
def execStealAnswer (die : Nat) (s : State) : Out1 :=
  .next (match (s.die die).steal with
    | none => s
    | some q =>
      let s := s.modDie die fun d => { d with steal := none }
      match (s.die q.victim).largest q.ctx q.lnh with
      | none => s
      | some r => s.split die q r)

/-! ## The end of a launch (R28, R29, R380) -/

/-- One field of a watch record after an addition of `n`. -/
def watchField (old n : Nat) : Nat := min (2 ^ 32 - 1) (old + n)

/-- Add a launch's counts for a tensor id into its record of the watch area (R380). A record that cannot be reached is left
as it is (log 31). -/
def State.addWatch (s : State) (ctx lnh tid : Nat) (ltag : BitVec 16) : State :=
  let n (e : Nat) : Nat := tget 0 (s.ctx ctx).watchCounts ((lnh * 256 + tid) * 4 + e)
  if n 0 = 0 && n 1 = 0 && n 2 = 0 then s
  else
    let va := (s.ctx ctx).watch.toNat + 16 * tid
    let w := launchActor ctx (8192 + lnh)
    let r := s.devRead w .rmw va 16
    match r.2.1 with
    | .ok bs =>
      let o := ofBytes bs
      let w' := watchField (bitsOf o 0 32) (n 0) + watchField (bitsOf o 32 32) (n 1) * 2 ^ 32
        + watchField (bitsOf o 64 32) (n 2) * 2 ^ 64 + bitsOf o 96 16 * 2 ^ 96 + ltag.toNat * 2 ^ 112
      (r.1.devWrite w va (bytesOf 16 w')).1
    | _ => r.1

/-- The tensor ids with counts of a launch. -/
def Ctx.watchTids (c : Ctx) (lnh : Nat) : List Nat :=
  ((c.watchCounts.filter fun e => e.1 / 1024 = lnh).map fun e => e.1 / 4 % 256).eraseDups

/-- The watch counts of a launch go to the watch area. -/
def State.flushWatch (s : State) (ctx lnh : Nat) (ltag : BitVec 16) : State :=
  let s := ((s.ctx ctx).watchTids lnh).foldl (fun s tid => s.addWatch ctx lnh tid ltag) s
  s.modCtx ctx fun c => { c with watchCounts := c.watchCounts.filter fun e => e.1 / 1024 ≠ lnh }

/-- The write-combining entries of a launch are drained (R28), and with them those of its context's other launches, which may
drain at any time (R97). -/
def State.drainLaunch (s : State) (ctx : Nat) : State :=
  s.cores.foldl (fun s c => s.wcDrainIf c.1 fun e => e.ctx = ctx) s

/-- Add 1 to DONEADDR; a failure kills the context (R29). -/
def State.signalDone (s : State) (w : Actor) (r : LaunchRec) : State × Bool :=
  let s := if r.dsco = 5 then s.flushPosted w r.done.toNat else s
  if r.done = 0 then (s, true)
  else
    let x := s.devAddOne w r.done.toNat
    match x.2 with
    | .ok _ => (x.1, true)
    | .viol reason pa => (x.1.fatal w.ctx (launchViolRec reason pa r.ltag), false)
    | _ => (x.1.fatal w.ctx (rejectRec r.done.toNat r.addr r.ltag), false)

/-- The write-combining stores of a context have been performed, and its non-temporal ones (R28). -/
def State.drained (s : State) (ctx : Nat) : Bool :=
  s.ops.all fun o => !(o.ctx = ctx && (o.drain ≠ [] || o.nt) && o.actor.isNone && !o.quiet) || o.performed

/-- LAUNCH_COMPLETION: every block has completed; writes are drained, the watch counts added, the release performed,
DONEADDR advanced and the interrupt raised (R28, R380). Where DONEADDR is outside the package, watch counts that are due are added
by one event, and it is advanced by the next. -/
def execLaunchCompletion (ctx lnh : Nat) (s : State) : Out1 :=
  .next (match tfind (s.ctx ctx).launches lnh with
    | none => s
    | some l =>
      if l.done || !(s.ctx ctx).en || (s.ctx ctx).killed || l.finished.length < l.rcd.blocks then s
      else
        let s := s.drainLaunch ctx
        if !s.drained ctx then s.pump
        else
        let w := launchActor ctx (8192 + lnh)
        let counts := (s.ctx ctx).watchTids lnh
        let s := s.flushWatch ctx lnh l.rcd.ltag
        if counts ≠ [] && !s.releasedHere w l.rcd.done.toNat then s
        else
        let d := (s.modCtx ctx fun c => { c with launches := tdel c.launches lnh }).signalDone w l.rcd
        if d.2 && l.rcd.irq then d.1.irq (d.1.vfOf ctx) (8 + l.q) else d.1)

end Sys2Proof.Machine
end

