-- ==== Sys2Proof/Machine/Plan.lean ====
section
/-!
DEFINITION. Room on a core: whom eviction takes, for the next block of a launch and for the promised block (R44, R45, R48); who
returns first (R44), and the evicted holder of a clause array that is to receive it first (R257, R258); the binding of a
block (R37–R40).
-/

namespace Sys2Proof.Machine

/-- The teams of a block whose state is on the core or, with a parked block, in its registers' image. -/
def State.present (s : State) (b : Nat) : List Nat := (s.blockTeams b).filter fun k => (s.team k).place = .resident

/-- The registers that an unparked block takes. -/
def State.parkedRegs (s : State) (b : Nat) : Nat :=
  ((s.present b).map s.regsOf).sum

/-! ## Choosing whom to evict (R44, R45, R48) -/

/-- The launch of a block. -/
def State.launchAt (s : State) (b : Nat) : Option Launch := tfind (s.ctx (s.block b).ctx).launches (s.block b).lnh

/-- A block may be evicted from for a block of launch `l`: its launch has lower priority, or the incoming block is the
promised one (R44, R48). -/
def State.yields (s : State) (b : Nat) (l : Launch) (promised : Bool) : Bool :=
  !s.isPromised b && (promised || (s.block b).pri < l.pri)

/-- Chosen sooner: of a lower-priority launch, then the later admitted, then the higher BSEQ (R44). -/
def State.sooner (s : State) (a b : Nat) : Bool :=
  let o (x : Nat) : Nat := ((s.launchAt x).map fun l => l.order).getD 0
  let p (x : Nat) : Nat := (s.block x).pri
  p a < p b || (p a = p b && (o b < o a || (o a = o b && s.older (teamKey (b / 32) (b % 32) 0) (teamKey (a / 32) (a % 32) 0))))

/-- Put a block in the order of choice. -/
def State.insertBlock (s : State) (b : Nat) : List Nat → List Nat
  | [] => [b]
  | x :: xs => if s.sooner b x then b :: x :: xs else x :: s.insertBlock b xs

/-- The blocks of a core that may be evicted from, in the order of choice. -/
def State.victims (s : State) (core : Nat) (l : Launch) (promised : Bool) : List Nat :=
  ((s.coreBlocks core).filter fun b => s.yields b l promised).foldr (fun b r => s.insertBlock b r) []

/-- Some range of `n` stalls of a core is free when the blocks `out` are gone. -/
def State.stallsFit (s : State) (core n : Nat) (out : List Nat) : Bool :=
  (List.range (129 - n)).any fun lo => (s.coreBlocks core).all fun b =>
    let x := s.block b
    out.contains b || x.stalls.isSome || x.stb + x.stn ≤ lo || lo + n ≤ x.stb

/-- The fewest blocks, in order, whose stalls make room. -/
def State.blocksOut (s : State) (core n : Nat) : List Nat → List Nat → Option (List Nat)
  | [], out => if s.stallsFit core n out then some out else none
  | b :: bs, out => if s.stallsFit core n out then some out else s.blocksOut core n bs (out ++ [b])

/-- The fewest teams, in order, whose registers and tiles make room. -/
def State.teamsOut (s : State) (need tiles : Nat) : List Nat → List Nat → Nat → Nat → Option (List Nat)
  | ks, out, room, free =>
    if need ≤ room && tiles ≤ free then some out
    else match ks with
      | [] => none
      | k :: ks => s.teamsOut need tiles ks (out ++ [k]) (room + s.regsOf k) (free + (s.team k).tiles.length)

/-- Blocks `bo` leave a core whole, and of the blocks `bs` the fewest teams that make room for `need` registers and `tiles`
tiles. -/
def State.teamsPlan (s : State) (core need tiles : Nat) (bo : List Nat) (order : List Nat) : Option (List Nat × List Nat) :=
  let ks0 := bo.flatMap s.present
  let room := s.regsFree core + ((ks0.filter fun k => (s.residents core).contains k).map s.regsOf).sum
  let free := 16 - (s.core core).tiles.length + (ks0.map fun k => (s.team k).tiles.length).sum
  (s.teamsOut need tiles (order.filter fun k => !ks0.contains k) ks0 room free).map fun ks => (bo, ks)

/-- Teams of blocks in order, the highest index first; holders of a clause array come last (R44). -/
def State.teamOrder (s : State) (core : Nat) (bs : List Nat) : List Nat :=
  let ks := bs.flatMap fun b => ((s.residents core).filter fun k => blockKeyOf k = b).reverse
  let holds (k : Nat) : Bool := (s.quad (quadOfCore core)).owner = some k
  ks.filter (!holds ·) ++ ks.filter holds

/-- No engine has yet to hand back a stall of the block: a block is evicted whole only then (log 32). -/
def State.stallsHome (s : State) (b : Nat) : Bool :=
  let x := s.block b
  let c := s.core (b / 32)
  let busy (e : CopyEngine) : Bool := e.cur.isSome || e.cmds ≠ []
  (List.range x.stn).all fun i => match (tget 3 c.owner (x.stb + i)).toNat with
    | 1 => !busy c.eng0
    | 2 => !busy c.eng1
    | _ => true

/-- Blocks in order, that of a team which holds the quad's clause array last (R44, R45). -/
def State.blockOrder (s : State) (core : Nat) (bs : List Nat) : List Nat :=
  let holds (b : Nat) : Bool := (s.quad (quadOfCore core)).owner.any fun k => blockKeyOf k = b
  bs.filter (!holds ·) ++ bs.filter holds

/-- What must leave a core for a block of a launch: whole blocks, and teams, theirs among them. -/
def State.evictionPlan (s : State) (core : Nat) (r : LaunchRec) (bs : List Nat) : Option (List Nat × List Nat) :=
  match s.blocksOut core r.stalls (s.blockOrder core (bs.filter s.stallsHome)) [] with
  | none => none
  | some bo => s.teamsPlan core r.regs 0 bo (s.teamOrder core bs)

/-- The launch that a die serves, and whether its next block there is the promised one (R40, R48). -/
def State.incoming (s : State) (die : Nat) : Option (Nat × Nat × Launch × Bool) :=
  (s.serving die).map fun x =>
    let next := (s.die die).ranges.find? fun r => r.ctx = x.1 && r.lnh = x.2.1
    (x.1, x.2.1, x.2.2, next.any fun r => s.promised = some (x.1, x.2.1, r.lo))

/-! ## Room for the promised block (R48) -/

/-- A team whose state is off its core and that nothing keeps there but room: it is evicted or swapped out, and its pages are
present. -/
def State.awaitsRoom (s : State) (k : Nat) : Bool :=
  let t := s.team k
  !t.ended && t.place ≠ .resident && t.hold.isNone && t.fault.all fun f => f.stage = .present

/-- Registers and tiles that a bound block lacks: those of its image where it is parked, and of its teams that are away. -/
def State.lacks (s : State) (b : Nat) : Nat × Nat :=
  let away := (s.blockTeams b).filter s.awaitsRoom
  let back := if (s.block b).st = .parked then s.present b else []
  (((away ++ back).map s.regsOf).sum, (away.map fun k => (s.team k).tileSave.length).sum)

/-- The promised block, where it is bound to the core and not all there. -/
def State.wanted (s : State) (core : Nat) : Option Nat :=
  (s.coreBlocks core).find? fun b => s.isPromised b && (s.lacks b).1 ≠ 0

/-- What must leave the core of the promised block for it: the blocks that stand in its stalls, and teams (R45, R48). -/
def State.returnPlan (s : State) (b : Nat) : Option (List Nat × List Nat) :=
  let core := b / 32
  let x := s.block b
  let bs := ((s.coreBlocks core).filter (· ≠ b)).foldr (fun b r => s.insertBlock b r) []
  let bo := bs.filter fun c => let y := s.block c
    x.stalls.isSome && y.stalls.isNone && !(x.stb + x.stn ≤ y.stb || y.stb + y.stn ≤ x.stb)
  if bo.all s.stallsHome then s.teamsPlan core (s.lacks b).1 (s.lacks b).2 bo (s.teamOrder core bs) else none

/-- What must leave a core: for the promised block where it is bound there, and otherwise for the next block of the launch that
the die serves; with the context and the handle of the launch it is for. -/
def State.planOf (s : State) (core : Nat) : Option (Nat × Nat × List Nat × List Nat) :=
  match s.wanted core with
  | some b => (s.returnPlan b).map fun p => ((s.block b).ctx, (s.block b).lnh, p.1, p.2)
  | none => (s.incoming (dieOfCore core)).bind fun (c, h, l, promised) =>
    if 32 ≤ (s.coreBlocks core).length then none
    else (s.evictionPlan core l.rcd (s.victims core l promised)).map fun p => (c, h, p.1, p.2)

/-- Room on the core is wanted for a block that may evict from block `b`: what has left it for such a block comes back only when
that one stands there (R44, R48, log 46). -/
def State.outranked (s : State) (b : Nat) : Bool :=
  let core := b / 32
  match s.wanted core with
  | some p => p ≠ b
  | none => match s.incoming (dieOfCore core) with
    | none => false
    | some (_, _, l, promised) => s.yields b l promised && (s.planOf core).isSome

/-! ## Returning -/

/-- The clause array of a returning holder is free. -/
def State.cxBack (s : State) (k : Nat) : Bool :=
  (s.team k).cxSave.isNone || (s.quad (quadOfCore (coreOf k))).owner.isNone


/-- The evicted teams of a core that lack nothing but registers to return, where `free` stands for a clause array that is free. -/
def State.returners (s : State) (core : Nat) (free : Nat → Bool) : List Nat :=
  (tkeys s.teams).filter fun k => coreOf k = core && s.mayReturn k && (s.cxBack k || free k) && !s.outranked (blockKeyOf k)

/-- An evicted holder of the quad's clause array that waits only for it: its registers are free, and it is the next team to return
to its core (R257). -/
def State.returningHolder (s : State) (quad : Nat) : Option Nat :=
  (tkeys s.teams).find? fun k => quadOfCore (coreOf k) = quad && (s.team k).cxSave.isSome
    && s.oldest (s.returners (coreOf k) (· = k)) = some k && s.regsBack k ≤ s.regsFree (coreOf k)

/-- BIND_BLOCK: the firmware binds the next block of the launch that its die serves to a free slot of a core that has the
registers and the stalls, and where the promised block lacks nothing (R37–R40, R48). -/
def execBindBlock (ctx lnh core slot stb : Nat) (s : State) : Out1 :=
  .next (
    if 256 ≤ core || 32 ≤ slot || (tfind s.blocks (core * 32 + slot)).isSome || (s.wanted core).isSome then s
    else match s.serving (dieOfCore core) with
      | none => s
      | some x =>
        if x.1 ≠ ctx || x.2.1 ≠ lnh || s.regsFree core < x.2.2.rcd.regs || !s.stallsFree core stb x.2.2.rcd.stalls then s
        else match (s.die (dieOfCore core)).ranges.find? fun r => r.ctx = ctx && r.lnh = lnh with
          | none => s
          | some r => s.startBlock ctx lnh core slot stb r.lo x.2.2)

end Sys2Proof.Machine
end

