-- ==== Sys2Proof/Machine/ClauseArray.lean ====
section
/-!
DEFINITION. The clause array (R253–R272): propagation, backtracking, its instructions, its claims, and its failures
(R388, R389).
-/

namespace Sys2Proof.Machine

/-! ## Literals and columns -/

/-- VAL of a row: 00 unassigned, 01 true, 10 false (R253). -/
def CxArray.valOf (a : CxArray) (v : Nat) : BitVec 2 := tget 0 a.val v

/-- The value that makes a literal true. -/
def litValue (l : Lit) : BitVec 2 := if l.2 then 2 else 1

def CxArray.litTrue (a : CxArray) (l : Lit) : Bool := a.valOf l.1 = litValue l
def CxArray.litFree (a : CxArray) (l : Lit) : Bool := a.valOf l.1 = 0
def CxArray.litFalse (a : CxArray) (l : Lit) : Bool := !a.litFree l && !a.litTrue l

/-- The columns that take part in a sweep, by rising number (R254). -/
def CxArray.taking (a : CxArray) : List (Nat × List Lit) :=
  a.cols.filter fun c => c.2 ≠ [] && !tget false a.dis c.1

/-- The lowest column that is false in every literal (R259). -/
def CxArray.failedCol (a : CxArray) : Option Nat := (a.taking.find? fun c => c.2.all a.litFalse).map Prod.fst

/-- What a column forces: its one unassigned literal, when no literal is true and all others are false (R259). -/
def CxArray.forces (a : CxArray) (ls : List Lit) : Option Lit :=
  if ls.any a.litTrue then none
  else match ls.filter a.litFree with
    | [l] => some l
    | _ => none

/-- A trail entry (R255). -/
def trailEntry (kind rcol lvl : Nat) (neg : Bool) (var : Nat) : BitVec 32 :=
  BitVec.ofNat 32 (kind * 2 ^ 30 + rcol * 2 ^ 19 + lvl * 2 ^ 10 + (if neg then 0 else 2 ^ 9) + var)

def trailLevel (e : BitVec 32) : Nat := bitsOf e.toNat 10 9

/-- Assign the literal true at level CL with a trail entry of the kind. -/
def CxArray.assign (a : CxArray) (kind rcol : Nat) (l : Lit) : CxArray :=
  { a with
    val := tput 0 a.val l.1 (litValue l)
    lvl := tput 0 a.lvl l.1 a.cl
    trail := a.trail ++ [trailEntry kind rcol a.cl.toNat l.2 l.1] }

/-! ## Propagation (R259) -/

/-- The forcings of one sweep, tested on the rows at its start and applied in ascending column order. -/
def CxArray.applyForced (start : CxArray) (a : CxArray) : CxArray × List Nat :=
  start.taking.foldl (fun r c =>
    match start.forces c.2 with
    | some l =>
      if r.2.contains l.1 then r
      else ({ r.1.assign 1 c.1 l with nforce := r.1.nforce + 1 }, l.1 :: r.2)
    | none => r) (a, [])

def CxArray.conflict (a : CxArray) (c : Nat) : CxArray := { a with conf := true, ccol := BitVec.ofNat 11 c }

/-- Sweeps, at most `fuel` of them; 512 always suffice (R259). -/
def runSweeps : Nat → CxArray → CxArray
  | 0, a => a
  | fuel + 1, a =>
    let a := { a with sweeps := a.sweeps + 1 }
    match a.failedCol with
    | some c => a.conflict c
    | none =>
      let r := a.applyForced a
      if r.2 = [] then r.1
      else if 512 ≤ r.1.val.length then
        match r.1.failedCol with
        | some c => r.1.conflict c
        | none => r.1
      else runSweeps fuel r.1

/-- `cx.prop` on the array, as far as `n` sweeps (R259). -/
def CxArray.propN (n : Nat) (a : CxArray) : CxArray :=
  let a := { a with sweeps := 0, nforce := 0 }
  if a.conf then a else runSweeps n a

/-- `cx.prop` on the array (R259). -/
def CxArray.prop (a : CxArray) : CxArray := a.propN 513

/-! ## Backtracking (R261) -/

def CxArray.backtrack (a : CxArray) (l : Nat) : CxArray :=
  let keep (v : Nat) : Bool := (tget 0 a.lvl v).toNat ≤ l
  { a with
    val := tfilter (fun v _ => keep v) a.val
    lvl := tfilter (fun v _ => keep v) a.lvl
    trail := a.trail.filter fun e => trailLevel e ≤ l
    cl := BitVec.ofNat 9 l
    conf := false
    ccol := 0 }

/-! ## Clearing (R263) -/

def CxArray.clear (a : CxArray) (keep : Bool) : CxArray :=
  if keep then { CxArray.empty with cols := a.cols, dis := a.dis, badCells := a.badCells } else .empty

/-! ## Failures (R388) -/

/-- The DETAIL of the array's failure (R376). -/
def CxArray.failure (a : CxArray) : Option Word :=
  let d (code loc : Nat) : Word := BitVec.ofNat 64 (4 * 2 ^ 60 + code * 2 ^ 52 + loc)
  match a.badCells, a.badRows, a.badTrail with
  | c :: _, _, _ => some (d 1 (c.1 * 2 ^ 11 + c.2))
  | [], r :: _, _ => some (d 2 r)
  | [], [], e :: _ => some (d 3 e)
  | [], [], [] => none

/-! ## Instructions -/

def State.cq (s : State) : Nat := quadOfCore s.cur.core
def State.cx (s : State) : CxArray := (s.quad s.cq).cx
def State.setCx (s : State) (a : CxArray) : State := s.modQuad s.cq fun q => { q with cx := a }

/-- An instruction of the holder: the operand trap in any other team (R257), a wait while a propagation of the holder
is in flight (R262). -/
def holderEff (s : State) (f : State → Eff) : Eff :=
  whenActive s fun s =>
    if (s.quad s.cq).owner ≠ some s.ck then opTrap s
    else if (s.quad s.cq).prop.isSome then .wait s .cxProp
    else f s

/-- As `holderEff`, and an engine failure when the array is failed (R388). -/
def arrayEff (s : State) (f : State → Eff) : Eff :=
  holderEff s fun s =>
    match s.cx.failure with
    | some d => .trap s 0xB s.ct.em d
    | none => f s

/-- A vector register of the issuing team is allocated (R132). -/
def State.vOk (s : State) (r : Nat) : Bool := r < s.cblock.vregs

/-- The teams that wait to claim the quad's array, with the clock at which each issued its `cx.claim`. -/
def State.claimants (s : State) (quad : Nat) : List (Nat × Nat) :=
  (s.quad quad).claims.filter fun c => (s.team c.1).wait.any fun w => w.kind = .cxClaim

/-- `cx.claim` (R263): free, or held by this team, it is claimed; a waiting claimant is queued in issue order (R257). -/
def execCxClaim (xd : BitVec 5) (wait : Bool) (s : State) : Out1 :=
  finish s (whenActive s fun s =>
    let q := s.quad s.cq
    let k := s.ck
    let put (s : State) (v : Word) : Eff := .done (s.modCur fun t => t.setX xd.toNat v)
    if q.owner = some k then
      if q.prop.isSome then .wait s .cxProp
      else put (s.modQuad s.cq fun q => { q with claims := q.claims.filter fun c => c.1 ≠ k }) 1
    else if q.owner = none && ((s.claimants s.cq).filter fun c => c.1 ≠ k) = [] && s.returningHolder s.cq = none then
      put (s.modQuad s.cq fun q => { q with owner := some k, cx := .empty, claims := [] }) 1
    else if wait then
      .wait (s.modQuad s.cq fun q =>
        if q.claims.any fun c => c.1 = k then q else { q with claims := q.claims ++ [(k, s.clock)] }) .cxClaim
    else put s 0)

/-- The array is cleared and becomes free (R257, R263). A propagation that is still in flight as the holding team ends goes with
the claim, and places no entry (log 94). -/
def State.freeCx (s : State) (quad : Nat) : State :=
  s.modQuad quad fun q => { q with cx := .empty, owner := none, prop := none }

/-- `cx.free` (R263). -/
def execCxFree (s : State) : Out1 := finish s (holderEff s fun s => .done (s.freeCx s.cq))

/-- `cx.clr` (R263). -/
def execCxClr (keep : Bool) (s : State) : Out1 := finish s (holderEff s fun s => .done (s.setCx (s.cx.clear keep)))

/-- Put a literal into a column's list, by rising variable; `none` when the opposite literal is there (R264). -/
def addLit (l : Lit) : List Lit → Option (List Lit)
  | [] => some [l]
  | m :: ms =>
    if l.1 = m.1 then (if l.2 = m.2 then some (m :: ms) else none)
    else if l.1 < m.1 then some (l :: m :: ms)
    else (addLit l ms).map (m :: ·)

/-- The entries of a literal list up to the first whose V is 0 (R264). -/
def litList (v : VReg) : List Nat :=
  ((List.range 128).map fun j => bitsOf v.toNat (16 * j) 16).takeWhile fun e => bitOf e 15

/-- The literals of a list added to a column; `none` is the operand trap (R264). -/
def loadLits (start : List Lit) (es : List Nat) : Option (List Lit) :=
  es.foldl (fun r e => match r with
    | none => none
    | some c => if bitsOf e 10 5 ≠ 0 then none else addLit (bitsOf e 0 9, bitOf e 9) c) (some start)

/-- `cx.ldc` (R264). A bad entry anywhere in the register with V = 1 within the list traps. -/
def execCxLdc (va : BitVec 7) (xa : BitVec 5) (col : BitVec 11) (app : Bool) (s : State) : Out1 :=
  finish s (arrayEff s fun s =>
    let c := (s.ct.getX xa.toNat).toNat + col.toNat
    if !s.vOk va.toNat || 2048 ≤ c then opTrap s
    else
      match loadLits (if app then tget [] s.cx.cols c else []) (litList (s.ct.getV va.toNat)) with
      | none => opTrap s
      | some ls => .done (s.setCx { s.cx with cols := tput [] s.cx.cols c ls }))

/-- `cx.dis` (R265). -/
def execCxDis (xa : BitVec 5) (col : BitVec 11) (en : Bool) (s : State) : Out1 :=
  finish s (arrayEff s fun s =>
    let c := (s.ct.getX xa.toNat).toNat + col.toNat
    if 2048 ≤ c then opTrap s else .done (s.setCx { s.cx with dis := tput false s.cx.dis c (!en) }))

/-- `cx.asg` (R266). -/
def execCxAsg (xa : BitVec 5) (newl : Bool) (s : State) : Out1 :=
  finish s (arrayEff s fun s =>
    let e := (s.ct.getX xa.toNat).toNat
    let a := s.cx
    let l : Lit := (bitsOf e 0 9, bitOf e 9)
    if a.conf || 2 ^ 16 ≤ e || !bitOf e 15 || bitsOf e 10 5 ≠ 0 || a.valOf l.1 ≠ 0 || (newl && a.cl = 511) then opTrap s
    else
      let a := if newl then { a with cl := a.cl + 1 } else a
      .done (s.setCx (a.assign (if newl then 0 else 2) 0 l)))

/-- `cx.prop` starts a propagation; with ASYNC it retires at issue, otherwise the team waits for its status (R260,
R267). -/
def execCxProp (xd : BitVec 5) (async : Bool) (s : State) : Out1 :=
  finish s (arrayEff s fun s =>
    let p : Prop1 := ⟨if async then none else some xd.toNat, s.ct.pc, s.clock, none, s.nextSeq, s.ct.em, s.ct.handler.isSome⟩
    let s := s.newSeq.2.modQuad s.cq fun q => { q with prop := some p }
    if async then .done s else .wait s .cxProp)

/-- `cx.bt` (R268). -/
def execCxBt (xa : BitVec 5) (lvl : BitVec 9) (s : State) : Out1 :=
  finish s (arrayEff s fun s =>
    let l := lvl.toNat + (s.ct.getX xa.toNat).toNat
    if s.cx.cl.toNat < l then opTrap s else .done (s.setCx (s.cx.backtrack l)))

/-- `cx.lvl` (R269). -/
def execCxLvl (all : Bool) (xd xa : BitVec 5) (vd : BitVec 7) (s : State) : Out1 :=
  finish s (arrayEff s fun s =>
    let a := s.cx
    if all then
      if !s.vOk vd.toNat then opTrap s
      else
        let v := a.val.foldl (fun r e => r + (e.2.toNat <<< (2 * e.1))) 0
        .done (s.modCur fun t => t.setVIn vd.toNat t.em (BitVec.ofNat 2048 v))
    else
      let r := (s.ct.getX xa.toNat).toNat
      if 512 ≤ r then opTrap s
      else .done (s.modCur fun t =>
        t.setX xd.toNat (BitVec.ofNat 64 ((a.valOf r).toNat + (tget 0 a.lvl r).toNat * 4))))

/-- `cx.trl` (R270). -/
def execCxTrl (vd : BitVec 7) (xd xa : BitVec 5) (s : State) : Out1 :=
  finish s (arrayEff s fun s =>
    let a := s.cx
    let i := (s.ct.getX xa.toNat).toNat
    if !s.vOk vd.toNat || 512 ≤ i then opTrap s
    else
      let v := (List.range 64).foldl (fun r j => r + ((a.trail.getD (i + j) 0).toNat <<< (32 * j))) 0
      .done (s.modCur fun t =>
        (t.setX xd.toNat (BitVec.ofNat 64 a.trail.length)).setVIn vd.toNat t.em (BitVec.ofNat 2048 v)))

/-- The entry of a literal list (R264). -/
def litEntry (l : Lit) : Nat := 2 ^ 15 + (if l.2 then 2 ^ 9 else 0) + l.1

/-- `cx.cfl` (R271). -/
def execCxCfl (vd : BitVec 7) (xd xa : BitVec 5) (s : State) : Out1 :=
  finish s (arrayEff s fun s =>
    let a := s.cx
    let i := (s.ct.getX xa.toNat).toNat
    if !s.vOk vd.toNat || 512 ≤ i then opTrap s
    else
      let ls := ((tget [] a.cols a.ccol.toNat).filter fun l => i ≤ l.1).take 128
      let v := if a.conf then ((List.range ls.length).zip ls).foldl (fun r e => r + (litEntry e.2 <<< (16 * e.1))) 0 else 0
      let x : Word := if a.conf then BitVec.ofNat 64 a.ccol.toNat else BitVec.allOnes 64
      .done (s.modCur fun t => (t.setX xd.toNat x).setVIn vd.toNat t.em (BitVec.ofNat 2048 v)))

/-- `cx.st` (R272): any team of the quad may read it; the holder waits for its propagation to end. -/
def execCxSt (xd : BitVec 5) (s : State) : Out1 :=
  finish s (whenActive s fun s =>
    let q := s.quad s.cq
    let own := q.owner = some s.ck
    if own && q.prop.isSome then .wait s .cxProp
    else .done (s.modCur fun t => t.setX xd.toNat (cxStatus q.cx own)))

/-! ## Events -/

/-- The claimant that a free array goes to where no evicted holder returns (EVICTED_TEAM_RETURN serves that one): among the
waiting `cx.claim`s the earliest, then the lower core, then the lower team (R257). -/
def nextClaim (cs : List (Nat × Nat)) : Option Nat :=
  (cs.foldl (fun b c => match b with
    | none => some c
    | some x => if c.2 < x.2 || (c.2 = x.2 && c.1 < x.1) then some c else some x) none).map Prod.fst

/-- CX_CLAIM_GRANT: the free array, cleared, goes to the next claimant (R257). -/
def execCxClaimGrant (quad : Nat) (s : State) : Out1 :=
  let q := s.quad quad
  .next (match q.owner, s.returningHolder quad, nextClaim (s.claimants quad) with
    | none, none, some k => s.modQuad quad fun q =>
        { q with owner := some k, cx := .empty, claims := q.claims.filter fun c => c.1 ≠ k }
    | _, _, _ => s)

/-- The clocks that a propagation takes (R260). -/
def propClocks (a : CxArray) : Nat := 8 + 3 * a.prop.sweeps.toNat

/-- The array at the moment of an uncorrectable error: an asynchronous propagation in flight stops where its sweeps stand, of which
the first ends 8 clocks after the issue and each other 3 later (R260, R389). -/
def Quad.stopProp (q : Quad) (clock : Nat) : Quad :=
  match q.prop with
  | some p => if p.xd = none && p.ended = none && q.cx.failure = none then { q with cx := q.cx.propN ((clock - p.issued - 5) / 3) } else q
  | none => q

/-- CX_PROP_RETIRE: 8 + 3·S clocks after its issue the propagation ends; a blocking `cx.prop` writes the status and
retires (R260, R267). A failure met by a blocking one is its engine failure, and leaves the array unchanged (R388); one met by an
asynchronous one has stopped it and is reported later (R389). -/
def execCxPropRetire (quad : Nat) (s : State) : Out1 :=
  let q := s.quad quad
  .next (match q.prop, q.owner with
    | some p, some k =>
      if p.ended.isSome || (q.cx.failure = none && s.clock < p.issued + propClocks q.cx) then s
      else
        match p.xd, q.cx.failure with
        | none, some d =>
          let s := s.modQuad quad fun q => { q with prop := some { p with ended := some s.clock } }
          s.modTeam k fun t => t.addReport ⟨0xB, d, p.mask, p.pc, p.seq, none, 0, [], none, false, p.handler, none⟩
        | none, none => s.modQuad quad fun q => { q with cx := q.cx.prop, prop := some { p with ended := some s.clock } }
        | some _, some d =>
          let s := s.modQuad quad fun q => { q with prop := none }
          match (s.team k).wait with
          | some ⟨.cxProp, _, _⟩ => if (s.team k).pc = p.pc then s.raise k 0xB p.mask d p.pc false else s
          | _ => s
        | some d, none =>
          let a := q.cx.prop
          let s := s.modQuad quad fun q => { q with cx := a, prop := none }
          match (s.team k).wait with
          | some ⟨.cxProp, _, _⟩ =>
            if (s.team k).pc = p.pc then
              (s.modTeam k fun t => { t.setX d (cxStatus a true) with pc := p.pc + 8 }).retireWaiting k
            else s
          | _ => s
    | _, _ => s)

/-- CX_PROP_RESULT_PLACE: the result of an asynchronous propagation goes to the clause port of the holder's core once it
has room (R267). -/
def execCxPropResultPlace (quad : Nat) (s : State) : Out1 :=
  let q := s.quad quad
  .next (match q.prop, q.owner with
    | some p, some k =>
      if p.ended.isSome && p.xd = none && (s.core (coreOf k)).clause.length < 8 then
        let d := BitVec.ofNat 2048 ((cxStatus q.cx true).toNat + p.pc.toNat * 2 ^ 64)
        (s.modCore (coreOf k) fun c => { c with clause := c.clause ++ [⟨s.ctxOf k, d, k⟩] }).modQuad quad
          fun q => { q with prop := none }
      else s
    | _, _ => s)

end Sys2Proof.Machine
end

