-- ==== Sys2Proof/Machine/Queue.lean ====
section
/-!
DEFINITION. Queue registers and ports (R218–R222), the notices of engines (R376, R377), and stall owner flips (R223).
-/

namespace Sys2Proof.Machine

/-! ## Issuers and notices -/

/-- The issuing team as the issuer of a command. -/
def State.issuer (s : State) : Issuer where
  ctx := s.cctx
  team := s.ck
  lnh := s.cblock.lnh
  ltag := ((s.launchOf? s.ck).map fun l => l.rcd.ltag).getD 0
  pc := s.ct.pc
  mask := s.ct.active
  handler := s.ct.handler.isSome

/-- The record of an engine failure (R376, R377). -/
def engineRec (w : Issuer) (engine code loc : Nat) : Rec where
  cause := 0xB
  kind := kindNotice
  pc := w.pc
  detail := BitVec.ofNat 64 (engine * 2 ^ 60 + code % 256 * 2 ^ 52 + loc % 2 ^ 52)
  mask := w.mask
  ltag := w.ltag
  team := w.team
  hasTeam := true
  async := true
  inh := w.handler

/-- A failure that an engine reports as a notice (R377). -/
def State.engineNotice (s : State) (w : Issuer) (engine code loc : Nat) : State :=
  s.notice w.ctx (engineRec w engine code loc)

/-! ## Ports (R218) -/

/-- The greatest index of a port kind; none for a reserved kind. -/
def portTop (port : Nat) : Nat :=
  match port with
  | 1 | 2 | 6 => 1
  | 3 | 4 => 3
  | _ => 0

def Core.setEng (c : Core) (e : Nat) (x : CopyEngine) : Core := if e = 0 then { c with eng0 := x } else { c with eng1 := x }

/-- The port that a binding names holds an entry of a context (R219). -/
def State.portHolds (s : State) (core : Nat) (b : QBind) (ctx : Nat) : Bool :=
  (s.portCmds core b.port b.idx).any (fun c => c.who.ctx = ctx) || ((s.core core).popPort b).any fun e => e.ctx = ctx

/-- `qbind` (R219, R404). -/
def execQbind (q : BitVec 5) (port : BitVec 4) (idx : BitVec 2) (s : State) : Out1 :=
  finish s (whenActive s fun s =>
    let core := s.cur.core
    let held := match tfind s.cc.q q.toNat with
      | some b => b.ctx ≠ s.cctx && s.portHolds core b b.ctx
      | none => false
    if held || portTop port.toNat < idx.toNat
        || (port = 5 && (s.quad (quadOfCore core)).owner ≠ some s.ck) then opTrap s
    else .done (s.modCore core fun c => { c with
      q := if port = 0 then tdel c.q q.toNat else tins c.q q.toNat ⟨port.toNat, idx.toNat, s.cctx⟩ }))

/-! ## Pushing (R221, R222) -/

/-- A push port takes a command. -/
def State.accept (s : State) (core port idx : Nat) (c : Cmd) : State :=
  match port with
  | 1 => s.modCore core fun x =>
      x.setEng idx { x.eng idx with cmds := (x.eng idx).cmds ++ [c], accepted := (x.eng idx).accepted + 1 }
  | 6 => s.modDie (4 + idx) fun d => { d with offl := d.offl ++ [c] }
  | 7 => s.modDie (dieOfCore core) fun d => { d with jobs := d.jobs ++ [⟨c, 0, 0, [], s.snap, 0, [], none⟩] }
  | 8 => s.modCore core fun x => { x with ostc := x.ostc ++ [c] }
  | _ => s

/-- The predicate that a non-blocking push or pop writes. -/
def Team.nbPred (t : Team) (nb : Bool) (pd : BitVec 3) (v : Bool) : Team :=
  if nb then t.setPIn pd.toNat t.active (if v then BitVec.allOnes 32 else 0) else t

/-- A push of a register to a port. It is accepted once the team's earlier writes are performed (R222), and CPC is below 63
(R143). -/
def pushTo (s : State) (nb : Bool) (pd : BitVec 3) (port idx : Nat) (reg : BitVec 7) : Eff :=
  let core := s.cur.core
  if portCap port ≤ (s.portCmds core port idx).length then
    if nb then .done (s.modCur fun t => t.nbPred nb pd false) else .wait s (.qpush port idx)
  else if port = 1 && 63 ≤ s.ct.count .cp then .wait s (.counter .cp)
  else if !s.storesDone s.ck then .wait s (.memory (s.openOps s.ck fun o => o.parts.any Part.writes) true)
  else
    let q := s.newSeq
    let c : Cmd := ⟨s.ct.getV reg.toNat, s.issuer, q.1, s.ct.tmode.toNat / 2 ^ 32, s.cblock.pri,
      (s.cc.tbl.filter fun e => e.2.1 = s.cctx).map fun e => (e.1, e.2.2)⟩
    let s := q.2.accept core port idx c
    .done (s.modCur fun t => (if port = 1 then t.addOut .cp q.1 else t).nbPred nb pd true)

/-- The binding of a queue register that the issuing team may use. -/
def State.binding (s : State) (q : BitVec 5) : Option QBind :=
  (tfind s.cc.q q.toNat).bind fun b => if b.ctx = s.cctx then some b else none

/-- `qpush` (R220, R221). -/
def execQpush (nb : Bool) (pd : BitVec 3) (q : BitVec 5) (reg : BitVec 7) (s : State) : Out1 :=
  finish s (checked s [] [(false, reg)] true fun s =>
    match s.binding q with
    | some b =>
      if b.port = 1 || b.port = 6 || b.port = 7 || b.port = 8 then pushTo s nb pd b.port b.idx reg else opTrap s
    | none => opTrap s)

/-- `tcopy` (R220, R221). -/
def execTcopy (nb : Bool) (pd : BitVec 3) (eng : Bool) (reg : BitVec 7) (s : State) : Out1 :=
  finish s (checked s [] [(false, reg)] true fun s => pushTo s nb pd 1 (if eng then 1 else 0) reg)

/-! ## Popping (R221) -/

/-- Remove the oldest entry of a pop port. -/
def Core.dropPort (c : Core) (b : QBind) : Core :=
  match b.port with
  | 2 => c.setEng b.idx { c.eng b.idx with cpl := (c.eng b.idx).cpl.drop 1 }
  | 5 => { c with clause := c.clause.drop 1 }
  | 9 => { c with ostr := c.ostr.drop 1 }
  | _ => c

/-- `qpop` (R220, R221). -/
def execQpop (nb : Bool) (pd : BitVec 3) (q : BitVec 5) (reg : BitVec 7) (s : State) : Out1 :=
  finish s (checked s [] [(false, reg)] true fun s =>
    match s.binding q with
    | some b =>
      if b.port = 2 || b.port = 5 || b.port = 9 then
        match s.cc.popPort b with
        | [] => if nb then .done (s.modCur fun t => t.nbPred nb pd false) else .wait s (.qpop q.toNat)
        | e :: _ =>
          .done ((s.modCore s.cur.core fun c => c.dropPort b).modCur fun t =>
            (t.setVIn reg.toNat t.active e.data).nbPred nb pd true)
      else opTrap s
    | none => opTrap s)

/-! ## Stall owners (R85–R87, R223) -/

/-- The owner that a stall gets. -/
def Core.giveStall (c : Core) (stall : Nat) (dst : BitVec 2) : Core := { c with owner := tput 3 c.owner stall dst }

/-- The engine of a flip has completed the commands that it had accepted before the `own`. -/
def Core.flipDue (c : Core) (f : OwnFlip) : Bool := f.done ≤ (c.eng f.eng).completed

/-- The flips that an `own` makes of a run of stalls: none where the owner stands; else, of an engine's stall, after the commands
that the engine has accepted (R223). -/
def Core.flipsOf (c : Core) (dst : BitVec 2) (stalls : List Nat) : List OwnFlip :=
  stalls.filterMap fun i =>
    let o := tget 3 c.owner i
    if o = dst then none
    else match o.toNat with
      | 1 => some ⟨i, 0, c.eng0.accepted, dst⟩
      | 2 => some ⟨i, 1, c.eng1.accepted, dst⟩
      | _ => some ⟨i, 0, 0, dst⟩

/-- Make the flips that are due: the core, and those that wait. -/
def Core.makeFlips (c : Core) (fs : List OwnFlip) : Core × List OwnFlip :=
  ((fs.filter c.flipDue).foldl (fun c f => c.giveStall f.stall f.dst) c, fs.filter fun f => !c.flipDue f)

/-- The flips of the waiting `own`s of a core that an engine's completion has made due (R223). -/
def State.ownFlips (s : State) (core : Nat) : State :=
  (tkeys s.teams).foldl (fun s k =>
    match (s.team k).wait with
    | some ⟨.own fs, since, noted⟩ =>
      if coreOf k ≠ core then s
      else
        let r := (s.core core).makeFlips fs
        (s.setCore core r.1).modTeam k fun t => { t with wait := some ⟨.own r.2, since, noted⟩ }
    | _ => s) s

/-- `own` (R223): each flip is made once, when it is due, and the team stalls until all are made. -/
def execOwn (st n : BitVec 7) (dst : BitVec 2) (s : State) : Out1 :=
  finish s (whenActive s fun s =>
    let len := n.toNat + 1
    if s.cblock.stn < st.toNat + len then opTrap s
    else match s.ct.wait with
      | some ⟨.own [], _, _⟩ => .done s
      | some ⟨.own fs, _, _⟩ => .wait s (.own fs)
      | _ =>
        let r := s.cc.makeFlips (s.cc.flipsOf dst ((List.range len).map (s.cblock.stb + st.toNat + ·)))
        let s := s.setCore s.cur.core r.1
        if r.2 = [] then .done s else .wait s (.own r.2))

end Sys2Proof.Machine
end

