-- ==== Sys2Proof/Machine/Tiles.lean ====
section
/-!
DEFINITION. Accumulator tiles: `talloc`, `tfree`, `tzero`, `tld`, `tst` (R236, R240–R242), the accumulator-busy trap, and the
numerics watch (R380).
-/

namespace Sys2Proof.Machine

/-! ## The numerics watch (R380) -/

/-- The exact value is greater in magnitude than every finite value of the destination, or is infinite; `byte` is the scale code
or zero point it is stored under. A small negative value that an unsigned format cannot hold is not. -/
def Slot.exceeds (sl : Slot) (byte : Nat) (v : Val) : Bool :=
  let f := sl.f
  let fwd (q : Q) : Q := match sl.curve with
    | some c => forwardMag c q
    | none => q
  match v with
  | .inf _ => true
  | .fin q =>
    match f.kind with
    | 0 => (f.magOf f.maxCode).lt (if f.blk ≠ 0 then q.abs.shift (127 - (byte : Int)) else fwd q.abs)
    | 1 => (f.taperMag (2 ^ (f.mfw - 1) - 1)).lt q.abs
    | 2 =>
      let z := sextNat 8 byte
      (Q.ofInt (max z.natAbs ((2 ^ f.width - 1 : Nat) - z).natAbs)).lt q.abs
    | _ => (Q.ofInt (max f.intMax.natAbs f.intMin.natAbs)).lt (fwd q.abs)
  | _ => false

/-- A nonzero exact value encoded as zero; a subnormal code is none, even where it reads as zero (R60). -/
def Slot.flushes (sl : Slot) (byte : Nat) (v : Val) (code : Nat) : Bool :=
  match v with
  | .fin _ => (match { sl with f := { sl.f with subn := 0 } }.decode code byte with
      | .zero _ => true
      | _ => false)
  | _ => false

/-- One count of an event (0 SAT, 1 FTZ, 2 NAN) for a launch and tensor id, when the context's watch is on. -/
def State.countWatch (s : State) (ctx lnh tid event n : Nat) : State :=
  if n = 0 || !(s.ctx ctx).wmode.getLsbD 0 then s
  else
    let k := (lnh * 256 + tid) * 4 + event
    s.modCtx ctx fun c => { c with watchCounts := tins c.watchCounts k (tget 0 c.watchCounts k + n) }

/-- The byte that element `i` was stored under: a new one, or the old one. -/
def byteUnder (sl : Slot) (odd : Nat) (new : List (Nat × Nat)) (i : Nat) : Nat :=
  match new.find? fun b => sl.f.block ≠ 0 && b.1 = i / sl.f.block with
  | some b => b.2
  | none => sl.byteOf odd i

/-- Count the events of values rounded into codes: (byte, value, code). -/
def State.countRounded (s : State) (ctx lnh tid : Nat) (sl : Slot) (l : List (Nat × Val × Nat)) : State :=
  let n (p : Nat × Val × Nat → Bool) : Nat := (l.filter p).length
  ((s.countWatch ctx lnh tid 0 (n fun e => sl.exceeds e.1 e.2.1)).countWatch ctx lnh tid 1
    (n fun e => sl.flushes e.1 e.2.1 e.2.2)).countWatch ctx lnh tid 2 (n fun e => e.2.1.isNan)

/-- The place of an operation among the operations of its class since team start. -/
def Team.ordOf (t : Team) (c : Cnt) (seq : Nat) : Nat :=
  tget 0 t.issued c.code - (t.out.filter fun r => r.cls = c && seq < r.seq).length

/-! ## Handles -/

/-- The tile that a handle of the issuing team names. -/
def State.handle? (s : State) (t : BitVec 4) : Option Nat := tfind s.ct.tiles t.toNat

def Tile.blank (team : Nat) : Tile := ⟨team, 0, List.replicate 1024 0, []⟩

def Core.tile (c : Core) (i : Nat) : Tile := tget (Tile.blank 0) c.tiles i

def State.modTile (s : State) (core i : Nat) (f : Tile → Tile) : State :=
  s.modCore core fun c => { c with tiles := tins c.tiles i (f (c.tile i)) }

/-- The lowest free tile of a core (R236). -/
def Core.freeTile (c : Core) : Option Nat := (List.range 16).find? fun i => (tfind c.tiles i).isNone

/-- Give a tile to the issuing team under a handle. -/
def State.giveTile (s : State) (td : BitVec 4) (i : Nat) : State :=
  (s.modCore s.cur.core fun c => { c with tiles := tins c.tiles i (.blank s.ck) }).modCur fun t =>
    { t with tiles := tins t.tiles td.toNat i }

/-- `talloc` (R236). -/
def execTalloc (td : BitVec 4) (s : State) : Out1 :=
  finish s (whenActive s fun s =>
    if (s.handle? td).isSome then opTrap s
    else match s.cc.freeTile with
      | some i => .done (s.giveTile td i)
      | none => .wait s .talloc)

/-- TALLOC_GRANT: a team that waits in `talloc` receives a tile that has become free (R236). -/
def execTallocGrant (t : TeamId) (s : State) : Out1 :=
  let k := teamIdKey t
  match (s.team k).wait with
  | some ⟨.talloc, _, _⟩ =>
    if !s.ready k then .next s
    else
      let f := s.fetchAt k
      match f.2 with
      | .ok ws =>
        match decodeWords ws with
        | .ok d =>
          match d.instr with
          | .talloc td => execTalloc td { f.1 with cur := ⟨coreOf k, slotOf k, idxOf k, d.len, d.base, [], true⟩ }
          | _ => .next f.1
        | .error _ => .next f.1
      | _ => .next f.1
  | _ => .next s

/-! ## Operations in flight -/

/-- Operations of a core on a tile, oldest first. -/
def Core.opsOn (c : Core) (i : Nat) : List TileOp := c.tileOps.filter fun o => o.tile = i

def TileOp.isRead (o : TileOp) : Bool :=
  match o.kind with
  | .load _ => true
  | _ => false

/-- The `tld`s and `tst`s of the tile that are incomplete (R242). -/
def State.tileReads (s : State) (core i : Nat) : List Nat :=
  (((s.core core).opsOn i).filter TileOp.isRead).map TileOp.seq
    ++ (s.ops.filter fun o => coreOf o.team = core && o.tile = some i).map MemOp.seq

def State.tileRead (s : State) (core i : Nat) : Bool := s.tileReads core i ≠ []

/-- The operations on a tile that are not over. -/
def State.tileBusy (s : State) (core i : Nat) : List Nat :=
  ((s.core core).opsOn i).map TileOp.seq ++ (s.ops.filter fun o => coreOf o.team = core && o.tile = some i).map MemOp.seq

/-- The oldest `tmma` or `tzero` in flight on a tile. -/
def State.tileWrite (s : State) (core i : Nat) : Option TileOp := ((s.core core).opsOn i).find? fun o => !o.isRead

/-- Put a tile operation of the issuing team in flight, counted on TLC. -/
def State.putTileOp (s : State) (i : Nat) (td : BitVec 4) (kind : TileOpKind) : State :=
  let q := s.newSeq
  let o : TileOp := ⟨q.1, i, td.toNat, s.issuer, kind⟩
  (q.2.modCore s.cur.core fun c => { c with tileOps := c.tileOps ++ [o] }).modCur fun t => t.addOut .tl q.1

/-- `tfree` waits for every operation on the tile, then frees it (R236). -/
def execTfree (td : BitVec 4) (s : State) : Out1 :=
  finish s (whenActive s fun s =>
    match s.handle? td with
    | none => opTrap s
    | some i =>
      if s.tileRead s.cur.core i || (s.tileWrite s.cur.core i).isSome then .wait s (.tfree (s.tileBusy s.cur.core i))
      else .done ((s.modCore s.cur.core fun c => { c with tiles := tdel c.tiles i }).modCur fun t =>
        { t with tiles := tdel t.tiles td.toNat }))

/-- `tzero` (R236): it waits for a read of the tile (R242). -/
def execTzero (td : BitVec 4) (s : State) : Out1 :=
  finish s (whenActive s fun s =>
    match s.handle? td with
    | none => opTrap s
    | some i =>
      if s.tileRead s.cur.core i then .wait s (.tile (s.tileReads s.cur.core i))
      else .done ((s.modTile s.cur.core i fun t => { t with tid := 0 }).putTileOp i td .zero))

/-- A tile operation that is not a matrix product completes: `tzero` in its turn clears the tile (R236, R383). -/
def State.completeTileOp (s : State) (core : Nat) (o : TileOp) : State :=
  let fin (s : State) : State :=
    (s.modCore core fun c => { c with tileOps := c.tileOps.filter fun x => x.seq ≠ o.seq }).modTeam o.who.team
      fun t => t.complete .tl o.seq
  match o.kind with
  | .load _ => fin s
  | .mma .. => s
  | .zero =>
    if ((s.core core).opsOn o.tile).all fun x => o.seq ≤ x.seq then
      fin (s.modTile core o.tile fun t => { t with elems := List.replicate 1024 0, bad := [] })
    else s

/-! ## Reading a tile (R240, R241) -/

/-- The check of a tile read: the handle, then the accumulator-busy trap (R242, R338). -/
def tileReader (s : State) (t : BitVec 4) (f : State → Nat → Eff) : Eff :=
  match s.handle? t with
  | none => opTrap s
  | some i =>
    match s.tileWrite s.cur.core i with
    | some o => .trap s 4 s.ct.active (BitVec.ofNat 64 (t.toNat * 2 ^ 60 + o.who.pc.toNat % 2 ^ 56))
    | none => f s i

/-- A report of failed accumulator elements (R356, R362). -/
def badAccum (s : State) (seq : Nat) (h : Nat) (bad : List Nat) (mask : Mask) (dst : List RegBits) : Option Report :=
  match bad with
  | [] => none
  | e :: _ => some ⟨8, memDetail 6 0 (e * 16 + h), mask, s.ct.pc, seq, some .tl, tget 0 s.ct.issued Cnt.tl.code + 1, dst, none, false,
      s.ct.handler.isSome, none⟩

def Team.addIf (t : Team) (r : Option Report) : Team :=
  match r with
  | some r => t.addReport r
  | none => t

/-- `tld` (R240). Elements with uncorrectable errors keep their destination bits (R361). -/
def execTld (xp : Option Xp) (o : TldOps) (s : State) : Out1 :=
  let sl := s.slot xp o.fs
  finish s (checked s [(0, o.fs)] [(sl.blocked, o.vd)] (s.handle? o.t).isSome fun s =>
    tileReader s o.t fun s i =>
      let tile := s.cc.tile i
      let e0 := 32 * o.row0.toNat
      let n := min sl.f.count (1024 - e0)
      let val (e : Nat) : Val := decodeA96 (tile.elems.getD (e0 + e) 0)
      let bad := (List.range n).filter fun e => tile.bad.contains (e0 + e)
      let draw := { s.ct.draw with elem := fun e => e0 + e }
      let r := sl.encodeAll draw 0 ((List.range n).map fun e => .val (val e))
      let l := ((List.range n).filter fun e => !bad.contains e).map fun e => (byteUnder sl 0 r.1 e, val e, (r.2.getD e none).getD 0)
      let seq := s.nextSeq
      let mask := maskOfList (bad.map (ownerOf sl.f.width)) &&& s.ct.masked xp
      let mine := bad.filter fun e => (s.ct.masked xp).getLsbD (ownerOf sl.f.width e)
      let rep := badAccum s seq o.t.toNat (mine.map (e0 + ·)) mask (mine.map fun e => ⟨o.vd.toNat, e * sl.f.width, sl.f.width⟩)
      let s := s.countRounded s.cctx s.cblock.lnh tile.tid.toNat sl l
      let s := s.putTileOp i o.t (.load (pair sl.blocked o.vd))
      .done (s.modCur fun t =>
        (t.writeDrawn draw xp sl o.vd fun e => if e < n && !bad.contains e then some (val e) else none).addIf rep))

/-- The stores of a `tst`: the elements in a packed array, then a code for each block (R241). -/
def tstWants (sl : Slot) (org scale : Nat) (codes : List (Option Nat)) (bytes : List (Nat × Nat)) : List Want :=
  let w := sl.f.width
  (codes.zipIdx.flatMap fun e => match e.1 with
    | some c => packPieces .write wideSlot ((org + e.2 * w) % 2 ^ 67) w 0 c
    | none => []) ++
  bytes.map fun b => wantBytes .write wideSlot ((scale + b.1) % 2 ^ 64) 1 0 (BitVec.ofNat 64 b.2) 0

/-- The codes and block bytes of a tile's elements, row by row (R241); failed elements are left out. -/
def tstCodes (sl : Slot) (draw : Draw) (tile : Tile) : List (Nat × Nat) × List (Option Nat) :=
  let ws := tile.elems.map fun a => Wr.val (decodeA96 a)
  if sl.f.block = 0 then sl.encodeAll draw 0 ws
  else
    let b := sl.f.block
    let blocks := (List.range (1024 / b)).map fun j =>
      let es := (List.range b).filterMap fun i =>
        if tile.bad.contains (j * b + i) then none else some (j * b + i, decodeA96 (tile.elems.getD (j * b + i) 0))
      let byte := sl.freshByte draw es
      (j, byte, (List.range b).map fun i => sl.roundUnder byte (draw.h (j * b + i)) (decodeA96 (tile.elems.getD (j * b + i) 0)))
    (blocks.map fun x => (x.1, x.2.1), blocks.flatMap fun x => x.2.2.map some)

/-- `tst` (R241). The values are those of the tile when it issues. -/
def execTst (xp : Option Xp) (o : TstOps) (s : State) : Out1 :=
  let sl := s.slot xp o.fs
  finish s (checked s [(0, o.fs)] [] ((s.handle? o.t).isSome && (!sl.blocked || o.base.toNat % 2 = 0)) fun s =>
    let org := 8 * (s.ct.baseOff o.base o.off).toNat
    let scale := (s.ct.getX (o.base.toNat + 1)).toNat
    let w := sl.f.width
    let nb := if sl.f.block = 0 then 0 else 1024 / sl.f.block
    let badAt := (List.range 1024).any (fun i => nonCanonical ((org + i * w) % 2 ^ 67 / 8)
        || nonCanonical ((org + i * w + w - 1) % 2 ^ 67 / 8)) ||
      (List.range nb).any fun j => nonCanonical ((scale + j) % 2 ^ 64)
    if badAt then opTrap s
    else tileReader s o.t fun s i =>
      let tile := s.cc.tile i
      let r := tstCodes sl s.ct.draw tile
      let l := ((List.range 1024).filter fun e => !tile.bad.contains e).map fun e =>
        (byteUnder sl 0 r.1 e, decodeA96 (tile.elems.getD e 0), (r.2.getD e none).getD 0)
      let codes := r.2.zipIdx.map fun e => if tile.bad.contains e.2 then none else e.1
      let m : Acs := { Acs.plain .tl .none with nt := o.cache = 2, stream := o.cache = 1, wide := true, tile := some i }
      match issueMem s m (tstWants sl org scale codes r.1) id with
      | .done s' =>
        let rep := badAccum s ((s'.ct.out.getLast?.map OutRec.seq).getD 0) o.t.toNat tile.bad s.ct.active []
        .done ((s'.countRounded s'.cctx s'.cblock.lnh tile.tid.toNat sl l).modCur fun t => t.addIf rep)
      | e => e)

end Sys2Proof.Machine
end

