-- ==== Sys2Proof/Machine/Complete.lean ====
section
/-!
DEFINITION. The events of memory operations: an access performed at a home (R93, R95) or at an ostler (R208–R211), a drain of
the write-combining buffer (R97), a page walk (R103), and the completion of an operation, which writes its destination,
reports its failures (R356, R363) and lets its counter fall (R143).
-/

namespace Sys2Proof.Machine

/-! ## Homes -/

/-- An L2 slice performs part `part` of operation `op` (R93). -/
def execL2HomeAccess (op part : Nat) (s : State) : Out1 :=
  .next (s.homeEvent op part (fun h => h matches .hbm _) false).pump

/-- A second-tier controller performs part `part` of operation `op` (R95). -/
def execSecondTierHomeAccess (op part : Nat) (s : State) : Out1 :=
  .next (s.homeEvent op part (fun h => h matches .tier2 _) false).pump

/-- The ostler of the home performs part `part` of operation `op` (R208–R211). -/
def execOstlerOperation (op part : Nat) (s : State) : Out1 :=
  .next (s.homeEvent op part (fun h => h matches .hbm _ | .tier2 _) true).pump

/-- An entry drains 1 µs after its last store (R97). -/
def execWcEntryDrain (core entry : Nat) (s : State) : Out1 :=
  match (s.core core).wcb[entry]? with
  | none => .next s
  | some e => .next (if e.last + clocksPerUs ≤ s.clock then (s.wcDrain core entry).pump else s)

/-- The walker resolves a miss of every TLB and fills them (R103). -/
def execPageWalk (core ctx va : Nat) (acc : Acc) (s : State) : Out1 :=
  if nonCanonical va || !(s.ctx ctx).en || s.tlbHit core ctx va then .next s
  else .next (s.walkFill core (walkerActor ctx core) va acc).1

/-! ## Completion (R142, R143, R356) -/

/-- What a part delivers: bit position in the destination, length and value. The run of a routine that was not performed
returns 0 (R214). -/
def Part.results (p : Part) : List (Nat × Nat × Nat) :=
  match p.st, p.kind with
  | .done, .read | .done, .atomic _ => [(p.dbit, p.len, p.val.toNat)]
  | .done, .enq | .done, .run => [(p.dbit, 64, p.val.toNat)]
  | .done, .cas4 n => (List.range n).map fun k => (p.dbit + 2048 * k, 64, if n = 1 then p.val.toNat else (p.words.getD k 0).toNat)
  | .failed .., .run => [(p.dbit, 64, 0)]
  | _, _ => []

/-- The part's slice is extended: always for a read, for an atomic only when it was performed (R363). -/
def Part.extends (p : Part) : Bool :=
  match p.st, p.kind with
  | .done, .read | .done, .atomic _ | .failed .., .read => true
  | _, _ => false

/-- Extend the low bits of a word (R196). -/
def Ext.apply (e : Ext) (w : Nat) : Word :=
  if e.signed then wordOfInt (sextNat e.bits w) else BitVec.ofNat 64 (w % 2 ^ e.bits)

/-- A register with what the parts of an operation deliver to it; `j` counts registers from the destination. -/
def MemOp.deliver (o : MemOp) (j : Nat) (old : VReg) : VReg :=
  let v := o.parts.foldl (fun v p => p.results.foldl (fun v r =>
    if r.1 / 2048 = j then withBits v (r.1 % 2048) r.2.1 r.2.2 else v) v) old.toNat
  match o.ext with
  | none => BitVec.ofNat 2048 v
  | some e => BitVec.ofNat 2048 (o.parts.foldl (fun v p =>
      if p.dbit / 2048 = j && p.extends then withBits v (64 * p.slot) 64 (e.apply (bitsOf v (64 * p.slot) 64)).toNat else v) v)

/-- A slice of target `j` that some part has written whole. -/
def MemOp.wrote (o : MemOp) (j i : Nat) : Bool :=
  o.parts.any fun p => (o.ext.isSome && p.extends && p.st = .done && p.slot = i) ||
    p.results.any fun r => r.1 = 2048 * j + 64 * i && r.2.1 = 64

/-- Write an operation's destination (R196, R198, R208–R212). -/
def Team.take (t : Team) (o : MemOp) : Team :=
  match o.dest with
  | .none => t
  | .vreg d => o.targets.foldl (fun t j => (t.setV (d + j) (o.deliver j (t.getV (d + j)))).mend (d + j) (o.wrote j)) t
  | .xreg d =>
    let w := o.parts.foldl (fun w p => p.results.foldl (fun w r => withBits w r.1 r.2.1 r.2.2) w) (t.getX d).toNat
    t.setX d (match o.ext with
      | some e => e.apply w
      | none => BitVec.ofNat 64 w)

/-- Slot, UNIT, OP and LOC of the parts of an operation that failed, lowest slot first. -/
def MemOp.failures (o : MemOp) : List (Nat × Nat × Nat × Nat) :=
  let l := o.parts.filterMap fun p => match p.st with
    | .failed u c loc => some (p.slot, u, c, loc)
    | _ => none
  (List.range 33).flatMap fun i => l.filter fun f => f.1 = i

/-- The addresses that a failed operation was to write, where it reads nothing. -/
def MemOp.failedStores (o : MemOp) : Option (List Nat) :=
  let bad := o.parts.filter fun p => match p.st with
    | .failed .. => true
    | _ => false
  if bad.all fun p => match p.kind with
    | .write | .red _ => true
    | _ => false
  then some (bad.map Part.va) else none

/-- The destination bits that the parts of an operation that failed were to write. -/
def MemOp.failedBits (o : MemOp) (d : Nat) : List RegBits :=
  o.parts.flatMap fun p => match p.st, p.kind with
    | .failed .., .cas4 n => (List.range n).map fun j => ⟨d + p.dbit / 2048 + j, p.dbit % 2048, 64⟩
    | .failed .., .write | .failed .., .red _ => []
    | .failed .., _ => if o.ext.isSome then [⟨d + p.dbit / 2048, 64 * p.slot, 64⟩] else [⟨d + p.dbit / 2048, p.dbit % 2048, p.len⟩]
    | _, _ => []

/-- The report of an operation's failures: one for the instruction (R356, R362). -/
def MemOp.report (o : MemOp) (t : Team) : Option Report :=
  match o.failures with
  | [] => none
  | f :: fs =>
    let bad := maskOfList ((f :: fs).map Prod.fst)
    let mask := if 32 ≤ f.1 then o.slots else bad
    let regs := match o.dest with
      | .vreg d => o.failedBits d
      | _ => []
    let x := match o.dest with
      | .xreg d => some d
      | _ => none
    some ⟨8, memDetail f.2.1 f.2.2.1 f.2.2.2, mask, o.pc, o.seq, o.cls, (o.cls.map fun c => t.ordOf c o.seq).getD 0, regs, x,
      false, o.handler, o.failedStores⟩

/-- The team's part of a completion. -/
def Team.finishOp (t : Team) (o : MemOp) : Team :=
  let r := o.report t
  let t := t.take o
  let t := t.addIf r
  match o.cls with
  | some c => t.complete c o.seq
  | none => t

/-! ### Accesses that leave the package -/

/-- A part in the device-register range (R411). -/
def State.devPart (s : State) (o : MemOp) (i : Nat) (p : Part) : State :=
  let secure := (s.ctx o.ctx).world
  match p.kind with
  | .write => (s.devRegWrite secure (s.vfOf o.ctx) p.pa p.lo p.len p.a).partDone o i p []
  | _ => s.partDone o i p [s.devRegRead secure p.pa p.lo p.len]

/-- The aligned word that a part lies in. -/
def Part.word (p : Part) : Nat := p.pa - p.pa % 8

/-- A part in the host window, with the host's answer for a read, an atomic, or a store of part of a byte (R207, R311). -/
def State.hostPart (s : State) (o : MemOp) (i : Nat) (p : Part) (r : Resp) : State :=
  let v := (r.vals.headD 0).toNat
  match r.err with
  | some _ => s.modPart o.seq i fun p => { p with st := .failed 9 5 p.pa }
  | none =>
    match p.kind with
    | .write =>
      let w := withBits v p.lo p.len p.a.toNat
      let b0 := p.lo / 8
      let b1 := (p.lo + p.len + 7) / 8
      (s.toHost o.ctx p.mt (p.word + b0) (.write (bytesOf (b1 - b0) (w / 2 ^ (8 * b0))))).partDone o i p []
    | .atomic op =>
      (s.toHost o.ctx p.mt (p.word + p.lo / 8) (.atomic op p.len p.a p.b)).partDone o i p [BitVec.ofNat 64 (v % 2 ^ p.len)]
    | _ =>
      let b1 := (p.lo + p.len + 7) / 8
      (s.toHost o.ctx p.mt (p.word + p.lo / 8) (.read (b1 - p.lo / 8))).partDone o i p [BitVec.ofNat 64 (v % 2 ^ p.len)]

/-- A host part needs an answer before it can be performed. -/
def Part.needsHost (p : Part) : Bool := p.kind ≠ .write || p.lo % 8 ≠ 0 || p.len % 8 ≠ 0

/-- A drained entry of a line of the host leaves as one write (R97). -/
def State.hostDrain (s : State) (o : MemOp) : State :=
  let ps := o.parts.zipIdx.filter fun e => e.1.st = .waiting && decide (homeOf e.1.pa = .host)
  match o.drain, ps with
  | _ :: _, e :: _ =>
    if !ps.all fun e => s.guard o e.2 e.1 then s
    else
      let bits := (ps.flatMap fun e => e.1.lineBits).foldl (fun t w => tins t w.1 (mergeBits (tget (0, 0) t w.1) w.2)) []
      ps.foldl (fun s e => s.partDone o e.2 e.1 []) (s.toHost o.ctx 2 (e.1.pa / 128 * 128) (.gathered bits))
  | _, _ => s

/-- Perform the parts of an operation that lie outside homes and peers, with the host's answers in order. -/
def outsideParts (seq : Nat) : List Nat → List Resp → State → State
  | [], _, s => s
  | i :: is, ext, s =>
    match (s.op? seq).bind fun o => o.parts[i]?.map fun p => (o, p) with
    | none => s
    | some (o, p) =>
      if p.st ≠ .waiting || o.drain ≠ [] || !s.guard o i p then outsideParts seq is ext s
      else
        match homeOf p.pa with
        | .devreg => outsideParts seq is ext (s.devPart o i p)
        | .host =>
          if p.needsHost then
            match ext with
            | [] => outsideParts seq is [] s
            | r :: rs => outsideParts seq is rs (s.hostPart o i p r)
          else outsideParts seq is ext (s.hostPart o i p ⟨[], none⟩)
        | _ => outsideParts seq is ext s

/-- The failure of a drained entry is reported to the teams whose stores it held (R97, R356). -/
def State.drainReports (s : State) (o : MemOp) : State :=
  match o.failures with
  | [] => s
  | f :: _ => s.reportOwners o.ctx o.drain f.2.1 f.2.2.1 f.2.2.2 ((o.failedStores).getD [])

/-- An operation whose every part is over completes: its destination is written, its failures reported, and its counter
falls as R143 allows. A prefetch ends without a report (R203), and an access of an actor when its answer has been used. -/
def State.completeOp (s : State) (seq : Nat) : State :=
  match s.op? seq with
  | none => s
  | some o =>
    if !o.performed || o.ostc.isSome || o.actor.isSome then s
    else
      let s := { s with ops := s.ops.filter fun x => x.seq ≠ seq }
      (if o.quiet then s else if o.drain ≠ [] then s.drainReports o else s.modTeam o.team fun t => t.finishOp o).pump

/-- The core and the tile operation of a sequence number. -/
def State.tileOp? (s : State) (seq : Nat) : Option (Nat × TileOp) :=
  s.cores.findSome? fun c => (c.2.tileOps.find? fun o => o.seq = seq).map fun o => (c.1, o)

/-- The parts of an operation that wait for the host. -/
def MemOp.hostWaits (o : MemOp) : List Nat :=
  (o.parts.zipIdx.filter fun e => decide (e.1.st = .waiting) && decide (homeOf e.1.pa = .host)).map Prod.snd

/-- OPERATION_COMPLETE (R142, R143). -/
def execOperationComplete (op : Nat) (ext : List Resp) (s : State) : Out1 :=
  match s.tileOp? op with
  | some x => .next (s.completeTileOp x.1 x.2)
  | none =>
    match s.op? op with
    | none => .next s
    | some o => .next (((outsideParts op (List.range o.parts.length) ext (s.hostDrain o)).fillOutside o o.hostWaits).completeOp op)

/-! ## Deferred reports -/

/-- A deferred report is delivered when the team stands before an instruction that R356 names: the instruction at its PC is
fetched to see. -/
def execDeferredReport (t : TeamId) (s : State) : Out1 :=
  let k := teamIdKey t
  let x := s.team k
  if !s.hasTeam k || x.reports.isEmpty || !s.ready k || (s.acquiring k).isSome then .next s
  else
    let f := s.fetchAt k
    match f.2 with
    | .ok ws =>
      match decodeWords ws with
      | .ok d => match f.1.reportDue k (x.begin d.pb) d.instr with
        | some r => .next (f.1.deliver k r)
        | none => .next f.1
      | .error _ => .next f.1
    | _ => .next f.1

end Sys2Proof.Machine
end

