-- ==== Sys2Proof/Machine/MlDsa.lean ====
section
/-!
DEFINITION. Verifying a signature of ML-DSA-44 (FIPS 204), which the manual names for firmware and routine images (R213, R331): the
pure form with an empty context string, over the 32 bytes of a digest (log 84). Polynomials are lists of 256 coefficients modulo q,
the lowest first.
-/

namespace Sys2Proof.Machine

abbrev Poly := List Nat

def dsaQ : Nat := 8380417

/-! ## The number-theoretic transform -/

/-- The eight bits of an index reversed. -/
def bitRev8 (i : Nat) : Nat := (List.range 8).foldl (fun r k => 2 * r + i / 2 ^ k % 2) 0

/-- A power of the 512-th root of unity. -/
def zetaPow (n : Nat) : Nat := 1753 ^ n % dsaQ

def Poly.eval (w : Poly) (x : Nat) : Nat := w.foldr (fun c r => (c + x * r) % dsaQ) 0

/-- Item i is the value at the root with exponent 2 · BitRev(i) + 1. -/
def ntt (w : Poly) : Poly := (List.range 256).map fun i => Poly.eval w (zetaPow (2 * bitRev8 i + 1))

/-- Coefficient j of the inverse is the sum of the values times the roots' powers −j, divided by 256. -/
def nttInv (w : Poly) : Poly :=
  let u := (List.range 256).map fun b => w.getD (bitRev8 b) 0
  (List.range 256).map fun j => 8347681 * zetaPow (512 - j) * Poly.eval u (zetaPow (1024 - 2 * j)) % dsaQ

/-! ## Sampling -/

/-- Three bytes as a coefficient, where they give one below q. -/
def coeffs : List Byte → List Nat
  | a :: b :: c :: l =>
    let z := a.toNat + b.toNat * 2 ^ 8 + c.toNat % 128 * 2 ^ 16
    if z < dsaQ then z :: coeffs l else coeffs l
  | _ => []

/-- The entry of the public matrix at a row and column, in the transformed domain: ten blocks give 560 candidates for its 256
coefficients. -/
def matrixEntry (rho : List Byte) (row col : Nat) : Poly :=
  (coeffs (shake128 10 (rho ++ [BitVec.ofNat 8 col, BitVec.ofNat 8 row]))).take 256

/-- The challenge: 39 coefficients of 1 or −1, by the bytes of an expansion, the first eight of which give the signs. -/
def challengeOf (seed : List Byte) : Poly :=
  let out := shake256 2 seed
  let signs := ofBytes (out.take 8)
  ((out.drop 8).foldl (fun (r : Nat × Poly) b =>
    let j := b.toNat
    if r.1 < 256 && j ≤ r.1 then
      (r.1 + 1, (r.2.set r.1 (r.2.getD j 0)).set j (if signs.testBit (r.1 + 39 - 256) then dsaQ - 1 else 1))
    else r) (256 - 39, List.replicate 256 0)).2

/-! ## Encodings -/

/-- The 256 fields of `n` bits of an encoded polynomial. -/
def unpackPoly (n : Nat) (bs : List Byte) : List Nat := let v := ofBytes bs; (List.range 256).map fun i => bitsOf v (n * i) n

/-- The hints of row `i`, from their 84 bytes: the positions between the previous row's count and its own. -/
def hintRow (y : List Byte) (i : Nat) : List Nat :=
  let upTo (k : Nat) : Nat := if k = 0 then 0 else (y.getD (79 + k) 0).toNat
  ((y.map BitVec.toNat).take (upTo (i + 1))).drop (upTo i)

def rising : List Nat → Bool
  | a :: b :: l => a < b && rising (b :: l)
  | _ => true

/-- The counts rise to at most 80, each row's positions rise, and unused bytes are 0. -/
def hintsOk (y : List Byte) : Bool :=
  let n (k : Nat) : Nat := (y.getD (80 + k) 0).toNat
  n 0 ≤ n 1 && n 1 ≤ n 2 && n 2 ≤ n 3 && n 3 ≤ 80 && (List.range 4).all (fun i => rising (hintRow y i)) &&
    ((y.take 80).drop (n 3)).all (· = 0)

/-- UseHint: the high part of a coefficient, moved to its neighbour by a hint. -/
def useHint (hint : Bool) (r : Nat) : Nat :=
  let low : Int := if r % 190464 ≤ 95232 then r % 190464 else (r % 190464 : Nat) - (190464 : Int)
  let top : Bool := r - low = 8380416
  let r1 : Nat := if top then 0 else ((r - low) / 190464).toNat
  let r0 : Int := if top then low - 1 else low
  if !hint then r1 else if 0 < r0 then (r1 + 1) % 44 else (r1 + 43) % 44

/-! ## Verification -/

/-- Whether a signature over a digest verifies under a public key. -/
def mlDsaVerify (pk : List Byte) (digest : BitVec 256) (sig : List Byte) : Bool :=
  let rho := pk.take 32
  let seed := sig.take 32
  let y := sig.drop (32 + 4 * 576)
  -- z has coefficients γ1 − field, which must be within γ1 − β of 0
  let fields := (List.range 4).map fun j => unpackPoly 18 ((sig.drop (32 + 576 * j)).take 576)
  let small := fields.all fun f => f.all fun v => 78 < v && v < 2 ^ 18 - 78
  let z := fields.map fun f => ntt (f.map fun v => (2 ^ 17 + dsaQ - v) % dsaQ)
  let c := ntt (challengeOf seed)
  let mu := (shake256 1 ((shake256 1 pk).take 64 ++ [0, 0] ++ bytesOf 32 digest.toNat)).take 64
  let w1 := (List.range 4).map fun i =>
    let t := ntt ((unpackPoly 10 ((pk.drop (32 + 320 * i)).take 320)).map fun v => v * 2 ^ 13 % dsaQ)
    let a := (List.range 4).map fun j => matrixEntry rho i j
    let w := nttInv ((List.range 256).map fun n =>
      (((List.range 4).map fun j => (a.getD j []).getD n 0 * (z.getD j []).getD n 0).sum + dsaQ * dsaQ
        - c.getD n 0 * t.getD n 0) % dsaQ)
    let h := hintRow y i
    (w.zipIdx).map fun e => useHint (h.contains e.2) e.1
  let packed := w1.flatMap fun w => bytesOf 192 (w.zipIdx.foldl (fun a e => a + e.1 * 2 ^ (6 * e.2)) 0)
  pk.length = 1312 && sig.length = 2420 && hintsOk y && small && (shake256 1 (mu ++ packed)).take 32 = seed

end Sys2Proof.Machine
end

