-- ==== Sys2Proof/Machine/Context.lean ====
section
/-!
DEFINITION. Context records and their enabling (R314), the loading of ostler routines (R213), TLB invalidation (R106, R316),
register writes (R310, R317, R332), key loading (R330) and device reset (R321, R331).
-/

namespace Sys2Proof.Machine

/-! ## Context records (R314) -/

/-- The physical address of a context's record. -/
def State.recordPa (s : State) (ctx : Nat) : Nat := s.regs.ctxtBase.toNat + 128 * ctx

/-- The launch core at the enabling of a context. -/
def enableActor (ctx : Nat) : Actor := launchActor ctx 12288

/-- A record by physical address; none stands where R14 gives no memory and no window (log 86). -/
def State.readRecord (s : State) (ctx : Nat) : State × Option Nat :=
  let pa := s.recordPa ctx
  match homeOf pa with
  | .hbm _ | .tier2 _ => (s, if (s.runFailed pa 128).isSome then none else some (s.rdNat 0 pa 128))
  | .devreg => (s, some (ofBytes (s.regRun true pa 128)))
  | .peer _ | .host =>
    let r := s.remoteRun (enableActor ctx) (rangeEntry ctx 0 0) pa 128
    (r.1, match r.2 with
      | .ok bs => some (ofBytes bs)
      | _ => none)
  | .reserved => (s, none)

/-- The fields of a record; the breakpoints that the monitor has set for the context and its counter CSEQ outlive it
(R126, R355, log 38). -/
def ctxOfRecord (r : Nat) (old : Ctx) : Ctx :=
  { Ctx.reset with
    en := true
    world := bitOf r 13
    vf := bitsOf r 8 5
    fgrant := bitOf r 15
    cgrant := bitOf r 14
    trapq := BitVec.ofNat 64 (bitsOf r 960 64)
    watch := BitVec.ofNat 64 (bitsOf r 896 64)
    tring := BitVec.ofNat 64 (bitsOf r 832 64)
    ostrt := BitVec.ofNat 64 (bitsOf r 768 64)
    shadow := BitVec.ofNat 64 (bitsOf r 704 64)
    rtable := BitVec.ofNat 64 (bitsOf r 640 64)
    qtable := BitVec.ofNat 64 (bitsOf r 576 64)
    ptroot := BitVec.ofNat 64 (bitsOf r 512 64)
    podgrp := BitVec.ofNat 16 (bitsOf r 496 16)
    rcount := bitsOf r 490 6
    trlog2 := bitsOf r 484 6
    wsamp := bitsOf r 480 4
    wmode := BitVec.ofNat 2 (bitsOf r 478 2)
    bps := old.bps
    cseq := old.cseq }

/-! ## Routines (R213) -/

/-- The public key of an image is Flaentac's or a locked one. -/
def State.signerOk (s : State) (pk : List Byte) : Bool :=
  let d := sha3_256 pk
  d = Config.fusedKeyDigest || (List.range 4).any fun k => s.regs.rkeyLocked.getLsbD k && s.regs.rkeyDig.getD k 0 = d

/-- The code of an image that passes every check of R213, with the image's digest. -/
def State.checkImage (s : State) (img : List Byte) (n : Nat) : Option (Routine × BitVec 256) :=
  let f (off k : Nat) : Nat := ofBytes ((img.drop off).take k)
  let code : Routine := (List.range n).map fun i => BitVec.ofNat 32 (f (0x530 + 4 * i) 4)
  let d := sha3_256 (img.take (0x530 + 4 * n))
  let pk := (img.drop 0x10).take 1312
  if f 0 4 = 0x4E54524F && f 4 2 = 1 && f 6 2 = n && 1 ≤ n && n ≤ 64 && f 8 8 = 0 && s.signerOk pk
      && mlDsaVerify pk d ((img.drop (0x530 + 4 * n)).take 2420) && routineOk code then some (code, d)
  else none

/-- Load routine `k` of a context, or leave it absent (R213). -/
def State.loadRoutine (s : State) (ctx k : Nat) : State :=
  let w := enableActor ctx
  let e := s.devRead w .read ((s.ctx ctx).ostrt.toNat + 8 * k) 8
  match e.2.1 with
  | .ok bs =>
    let x := ofBytes bs
    if !bitOf x 0 then e.1
    else
      let va := bitsOf x 12 44 * 4096
      let h := e.1.devRead w .read va 8
      match h.2.1 with
      | .ok hb =>
        let n := bitsOf (ofBytes hb) 48 16
        let i := h.1.devRead w .read va (if n ≤ 64 then 0x530 + 4 * n + 2420 else 8)
        match i.2.1 with
        | .ok img => match i.1.checkImage img n with
          | some (code, d) => (i.1.modCtx ctx fun c => { c with routines := tins c.routines k code }).extendMeas 2 d
          | none => i.1
        | _ => i.1
      | _ => h.1
  | _ => e.1

/-- CONTEXT_ENABLE: EN has changed from 0 to 1; the record takes effect and its routines are loaded (R213, R314). A change of
the WORLD bit is measured (R332, log 24). -/
def execContextEnable (ctx : Nat) (s : State) : Out1 :=
  if 64 ≤ ctx || (s.ctx ctx).en || s.boot ≠ .running then .next s
  else
    let x := s.readRecord ctx
    match x.2 with
    | none => .next x.1
    | some r =>
      if !bitOf r 0 then .next x.1
      else
        let s := x.1.modCtx ctx fun c => ctxOfRecord r c
        let f := s.freeVal
        let s := if (x.1.ctx ctx).world = bitOf r 13 then s else f.2.extendMeas 4 (BitVec.ofNat 256 f.1)
        .next ((List.range 8).foldl (fun s k => s.loadRoutine ctx k) s)

/-- CONTEXT_DISABLE: EN has changed from 1 to 0; the context's work ends as a kill ends it, without a record (R314). -/
def execContextDisable (ctx : Nat) (s : State) : Out1 :=
  if 64 ≤ ctx || !(s.ctx ctx).en then .next s
  else
    let x := s.readRecord ctx
    .next (if x.2.all (bitOf · 0) then x.1
      else (x.1.endWork ctx).modCtx ctx fun c => { c with en := false, killed := false, entries := [] })

/-! ## TLB invalidation (R106, R316) -/

/-- TLBI_CTL is written. -/
def execTlbiCtl (fn : Nat) (v : Word) (s : State) : Out1 := .next (if fn ≤ 16 then s.startTlbi fn v else s)

/-- An access of the context to the range is in flight: a part of an operation, a store in a write-combining buffer, or an access
of an engine, of the walker or of a copy command that has begun, whatever its address. -/
def State.inFlight (s : State) (ctx lo hi : Nat) : Bool :=
  (s.ops.any fun o => o.ctx = ctx && o.parts.any fun p => !p.over && (o.actor.isSome || (lo < p.va + 8 && p.va < hi))) ||
  s.cores.any fun c =>
    (c.2.wcb.any fun e => e.ctx = ctx && 128 * e.vline < hi && lo < 128 * e.vline + 128) ||
    [c.2.eng0, c.2.eng1].any fun e => e.cur.any fun r => r.cmd.who.ctx = ctx && !r.performed

/-- TLB_INVALIDATION_COMPLETE: the accesses in flight are performed, the entries and lines are gone, and entry 3 is raised. -/
def execTlbInvalidationComplete (fn : Nat) (s : State) : Out1 :=
  let t := s.tlbi fn
  let c := t.ctx.toNat % 64
  .next (
    if !t.busy || s.inFlight c t.base.toNat t.limit.toNat then s
    else ((s.tlbInvalidate c t.base.toNat t.limit.toNat).modTlbi fn fun t => { t with busy := false }).irq fn 3)

/-! ## Registers -/

/-- REGISTER_WRITE: a host's write to a BAR 0; the BAR 0 of virtual function n stands at n · 0x1_0000 + o (R310, R317, log
39). -/
def execRegisterWrite (off : Nat) (v : Word) (secure : Bool) (s : State) : Out1 :=
  .next (if off < 0x10000 then s.writeBar0 (.host secure) 0 off v
    else if off / 0x10000 ≤ 16 then s.writeVfBar0 (off / 0x10000) (off % 0x10000) v else s)

/-- MEXT_GO is written (R332). -/
def execMextGo (v : Word) (s : State) : Out1 := .next (s.mextGo v)

/-- RKEY_LOCK is written (R317). -/
def execRkeyLock (v : Word) (s : State) : Out1 := .next (s.rkeyLock v)

/-- A number of no key id under which nothing stands. -/
def State.spareKey (s : State) : Nat := (tkeys s.keys).foldl (fun m k => max m (k + 1)) 128

/-- Accesses in flight under key `k` keep the key that they began under, by the number `spare` (R330). -/
def State.keepKey (s : State) (k spare : Nat) : State :=
  let part (p : Part) : Part := if p.key = k && isMem p.pa && !p.over then { p with key := spare } else p
  { s with
    keys := match tfind s.keys k with
      | some old => tins s.keys spare old
      | none => s.keys
    ops := s.ops.map fun (o : MemOp) => { o with parts := o.parts.map part }
    cores := tmap (fun _ c => { c with wcb := c.wcb.map fun e => if e.key = k then { e with key := spare } else e }) s.cores }

/-- KEY_LOAD: a key of 1 to 127, received inside a secured session; it takes effect for accesses that begin later (R330). -/
def execKeyLoad (k : Nat) (key : BitVec 512) (s : State) : Out1 :=
  .next (if 1 ≤ k && k < 128 && s.spdm.session then
      let s := if (tfind s.keys k).isSome then s.keepKey k s.spareKey else s
      { s with keys := tins s.keys k key }
    else s)

/-! ## Device reset (R321, R331) -/

/-- The incarnation after a reset: one more than the stored value; where the flash fails, the random number `rnd`, or the next where
that is a stored value that could be read (R321). -/
def newIncarnation (rnd stored : BitVec 16) (reads writes : Bool) : BitVec 16 :=
  if reads && writes then stored + 1 else if reads && rnd = stored then rnd + 1 else rnd

/-- DEVICE_RESET: the first stage runs only when its signature verifies under the key whose digest is fused; every stage is
measured before it runs. The incarnation is written back to the flash where that can be; a random one is a free value, fresh at each
reset (log 104). What stands in DRAM after a reset
is the model's choice (log 40). -/
def execDeviceReset (image sig : List Byte) (flashReads flashWrites : Bool) (s : State) : Out1 :=
  let d := sha3_256 image
  let rnd := s.freeVal
  let inc := newIncarnation (BitVec.ofNat 16 rnd.1) s.flash flashReads flashWrites
  let r : State := { State.reset with
    agenda := s.agenda, free := rnd.2.free, nextSeq := s.nextSeq, outs := s.outs, irqs := s.irqs
    incarnation := inc, flash := if flashWrites then inc else s.flash }
  .next (if sha3_256 Config.fusedKey = Config.fusedKeyDigest && mlDsaVerify Config.fusedKey d sig then
      (((r.extendMeas 0 d).extendMeas 1 (Config.stageDigest 1)).extendMeas 2 (Config.stageDigest 2)).extendMeas 3
        Config.monitorDigest
    else { r with boot := .failed })

end Sys2Proof.Machine
end

