-- ==== Sys2Proof/Machine/Control.lean ====
section
/-!
DEFINITION. Team control, branches and barriers (R149–R160).
-/

namespace Sys2Proof.Machine

/-- `nop` (R152). -/
def execNop (s : State) : Out1 := finish s (.done s)

/-- `exit`: the active threads leave their team for good; the arrival check runs (R153). In handler mode it is an illegal
instruction (R341, R397). -/
def execExit (s : State) : Out1 :=
  finish s (if s.ct.handler.isSome then illegal s
    else whenActive s fun s =>
      if nonCanonical s.nextPc.toNat then opTrap s
      else .jump (s.modCur fun t => { t with exited := t.exited ||| t.em, em := 0, pc := s.nextPc }.arrival))

/-- `waitc` completes when all four counters lie at or below their thresholds (R154). -/
def execWaitc (ld st cp tl : BitVec 6) (s : State) : Out1 :=
  finish s (whenActive s fun s =>
    let t := s.ct
    if t.count .ld ≤ ld.toNat && t.count .st ≤ st.toNat && t.count .cp ≤ cp.toNat && t.count .tl ≤ tl.toNat then .done s
    else .wait s (.waitc ld.toNat st.toNat cp.toNat tl.toNat))

/-- A PC displaced by a signed number of 4-byte words. -/
def wordTarget (pc : Word) (off : Int) : Word := pc + BitVec.ofInt 64 (4 * off)

/-- `yield` sets CONTPC and gives up the slot; the team continues there when the counter allows (R155). -/
def execYield (cnt : BitVec 2) (k : BitVec 6) (off : BitVec 33) (s : State) : Out1 :=
  finish s (whenActive s fun s =>
    let c := wordTarget s.ct.pc off.toInt
    if nonCanonical c.toNat then opTrap s
    else .wait (s.modCur fun t => { t with contpc := c }) (.yield (cntOf cnt.toNat) k.toNat))

/-- `locq` (R157). -/
def execLocq (xd : BitVec 5) (s : State) : Out1 :=
  writeX s xd fun _ => BitVec.ofNat 64 (dieOfCore s.cur.core)

/-- What `homeq` returns for a translation (R157). -/
def homeqValue (s : State) (x : XRes) : Nat :=
  match x with
  | .ok pa _ => match homeOf (s.localPa pa) with
    | .hbm d => d
    | .tier2 i => 4 + i
    | .devreg => 6
    | .peer _ => 7
    | .host => 8
    | .reserved => 15
  | _ => 15

/-- `homeq` (R157). -/
def execHomeq (xd xa : BitVec 5) (s : State) : Out1 :=
  finish s (whenActive s fun s =>
    let x := s.peek s.cur.core (s.teamActor s.ck) (s.ct.getX xa.toNat).toNat
    .done (x.1.modCur fun t => t.setX xd.toNat (BitVec.ofNat 64 (homeqValue s x.2))))

/-! ## Branches -/

/-- A jump of the whole team; a destination outside the address space raises the operand trap (R395). -/
def jumpTo (s : State) (f : Team → Team) (target : Word) : Eff :=
  whenActive s fun s =>
    if nonCanonical target.toNat then opTrap s else .jump (s.modCur fun t => { f t with pc := target })

/-- `br` (R149, R150). -/
def execBr (tgt : BitVec 42) (s : State) : Out1 :=
  finish s (jumpTo s id (wordTarget s.ct.pc tgt.toInt))

/-- `call` writes PC + 8 into x31 (R149). -/
def execCall (tgt : BitVec 42) (s : State) : Out1 :=
  finish s (jumpTo s (fun t => t.setX 31 (t.pc + 8)) (wordTarget s.ct.pc tgt.toInt))

/-- Divergence: a loop exit merges into the waiting path on top; otherwise two entries are pushed (R32). -/
def Team.diverge (t : Team) (target join : Word) (taken nottaken : Mask) : Option Team :=
  let ft := t.pc + 8
  let push : Option Team :=
    if 14 < t.stack.length then none
    else some { t with
      stack := ⟨.pend, ft, nottaken, join⟩ :: ⟨.join, join, t.em, 0⟩ :: t.stack, em := taken, pc := target }
  match t.stack with
  | e :: st =>
    if e.kind = .pend && e.jpc = join && e.pc = ft then
      some { t with stack := { e with mask := e.mask ||| nottaken } :: st, em := taken, pc := target }
    else push
  | [] => push

/-- Target and join of a branch (R134). -/
def brTargets (pc : Word) (join : Bool) (tgt : BitVec 42) : Word × Word :=
  if join then (wordTarget pc (tgt.extractLsb' 0 21).toInt, wordTarget pc (tgt.extractLsb' 21 21).toInt)
  else (wordTarget pc tgt.toInt, 0)

/-- `brp` (R150). Where it diverges, some of its threads fall through, to a PC that must be in the address space (R395). -/
def execBrp (pr : BitVec 3) (cond : Cond) (join : Bool) (tgt : BitVec 42) (s : State) : Out1 :=
  finish s (whenActive s fun s =>
    let t := s.ct
    let a := brTargets t.pc join tgt
    let p := t.getP pr.toNat
    let go (pc : Word) : Eff := .jump (s.modCur fun t => { t with pc := pc })
    let diverges := match condThreads cond p with
      | some m => t.em &&& m ≠ t.em && t.em &&& ~~~m ≠ t.em
      | none => false
    if nonCanonical a.1.toNat || nonCanonical a.2.toNat || (diverges && nonCanonical (t.pc + 8).toNat) then opTrap s
    else
      match condThreads cond p with
      | some m =>
        let taken := t.em &&& m
        let nottaken := t.em &&& ~~~m
        if taken = t.em then go a.1
        else if nottaken = t.em then .done s
        else if !join then opTrap s
        else
          match t.diverge a.1 a.2 taken nottaken with
          | some t' => .jump (s.modCur fun _ => t')
          | none => opTrap s
      | none => if condUniform cond t.em p then go a.1 else .done s)

/-- A jump through a register: misaligned or out-of-range destinations raise the operand trap (R151). -/
def jumpReg (s : State) (target : Word) : Eff :=
  whenActive s fun s => if target.toNat % 4 ≠ 0 then opTrap s else jumpTo s id target

/-- `jr` (R151). -/
def execJr (xa : BitVec 5) (imm : BitVec 35) (s : State) : Out1 :=
  finish s (jumpReg s (s.ct.getX xa.toNat + imm.signExtend 64))

/-- `ret` (R151). -/
def execRet (xa : BitVec 5) (s : State) : Out1 :=
  finish s (jumpReg s (s.ct.getX xa.toNat))

/-! ## Barriers -/

/-- The wait for a phase is over: an acquire at the barrier's scope that covers every address (R160). -/
def State.barrierAcquire (s : State) (sco : Scope) : State := s.acquire s.ck (scoNum sco) fun _ => true

/-- `bar` arrives once, and waits for the phase it joined (R159). A restored team resumes the wait (R348, WAITF). -/
def execBar (sco : Scope) (id : BitVec 8) (n : BitVec 24) (s : State) : Out1 :=
  finish s (whenActive s fun s =>
    let b := s.barRef s.ck sco id.toNat
    let joined : Option (BitVec 32) := match s.ct.wait, s.ct.parkedWaitF with
      | some ⟨.bar b' p, _, _⟩, _ => if b' = b then some p else none
      | _, some (b', p) => if b' = b then some p else none
      | _, none => none
    let go (s : State) (p : BitVec 32) : Eff :=
      if phaseOver (s.barrier b).completed p then .done ((s.modCur fun t => { t with parkedWaitF := none }).barrierAcquire sco)
      else .wait s (.bar b p)
    match joined with
    | some p => go s p
    | none =>
      match s.arriveAt s.ck b (n.toNat + 1) (scoNum sco) with
      | some r => go r.1 r.2
      | none => opTrap s)

/-- `barar` arrives and writes the phase it joined (R159). -/
def execBarar (xd : BitVec 5) (sco : Scope) (id : BitVec 8) (n : BitVec 24) (s : State) : Out1 :=
  finish s (whenActive s fun s =>
    match s.arriveAt s.ck (s.barRef s.ck sco id.toNat) (n.toNat + 1) (scoNum sco) with
    | some r => .done (r.1.modCur fun t => t.setX xd.toNat (r.2.zeroExtend 64))
    | none => opTrap s)

/-- `barwt` waits until the phase in x[A] is complete (R159). -/
def execBarwt (xa : BitVec 5) (sco : Scope) (id : BitVec 8) (s : State) : Out1 :=
  finish s (whenActive s fun s =>
    let b := s.barRef s.ck sco id.toNat
    let p := (s.ct.getX xa.toNat).truncate 32
    if phaseOver (s.barrier b).completed p then .done (s.barrierAcquire sco) else .wait s (.barwt b p))

/-! ## Launch (R156, R412) -/

/-- `launch`: the descriptor is checked, the record read, the ring checked, the record written and WIDX advanced, as one operation
after every earlier access of the team. What the descriptor breaks comes before what the record's address does (R353). A WIDX outside the
package is advanced once the record is at its home. -/
def execLaunch (x : BitVec 5) (q : BitVec 7) (s : State) : Out1 :=
  finish s (whenActive s fun s =>
    let k := s.ck
    let m := s.ct.em
    let ra := (s.ct.getX x.toNat).toNat
    let da := (s.ctx s.cctx).qtable.toNat + 32 * q.toNat
    if ra % 64 ≠ 0 || nonCanonical ra then opTrap s
    else
      let s := s.releaseDrain k
      if !s.allPerformed k then .wait s (.memory (s.openOps k fun _ => true) false)
      else
      if nonCanonical da then .trap s 7 m (faultDetail 0 7 da .rmw)
      else
      let d := s.teamRead k da 32 2 .rmw
      match d.2 with
      | .error b => b.eff d.1 m
      | .ok (ds, dpa, de) =>
        let desc := ofBytes ds
        let base := bitsOf desc 0 64
        let log := bitsOf desc 64 5
        let ridx := bitsOf desc 128 64
        let widx := bitsOf desc 192 64
        if log < 4 || 16 < log || base % 4096 ≠ 0 || 2 ≤ de.mt then opTrap d.1
        else
        let r := d.1.teamRead k ra 64 2 .read
        match r.2 with
        | .error b => b.eff r.1 m
        | .ok (bytes, _, _) =>
          if (widx + 2 ^ 64 - ridx) % 2 ^ 64 = 2 ^ log then .wait r.1 (.launch (dpa + 16) (r.1.rawWord (dpa + 16)))
          else
            let wa := (base + widx % 2 ^ log * 64) % 2 ^ 64
            if nonCanonical wa then .trap r.1 7 m (faultDetail 0 7 wa .write)
            else
            let w := r.1.teamXlate k wa .write
            match w.2 with
            | .error b => b.eff w.1 m
            | .ok (pa, e) =>
              match w.1.failedAt (lineOf pa) with
              | some u => .trap w.1 8 m (memDetail u 2 (128 * lineOf pa))
              | none =>
                let s := w.1.teamWrite k pa e bytes
                if isMem pa && !isMem dpa && w.1.rdBytes e.key pa 64 ≠ bytes then .wait s (.memory [] false)
                else .done ((s.teamWrite k (dpa + 24) de (bytesOf 8 ((widx + 1) % 2 ^ 64))).noteRelease k 3))

end Sys2Proof.Machine
end

