-- ==== Sys2Proof/Machine/Matrix.lean ====
section
/-!
DEFINITION. The matrix engine: `tmma` (R237, R238, R297), fused passes (R239), self-tests and failed strips (R382, R383), and
the sampled recompute (R381).
-/

namespace Sys2Proof.Machine

/-- A world or key violation by an engine kills the context on whose behalf it acted (R367). -/
def State.engineViol (s : State) (w : Issuer) (reason pa : Nat) : State :=
  s.fatal w.ctx { engineRec w 0 0 0 with cause := 9, detail := BitVec.ofNat 64 (reason * 2 ^ 60 + pa % 2 ^ 52) }

/-! ## Streams (R235, R297) -/

/-- Pop at most `n` strips that no quarter operation still names. -/
def Stream.settle (refs : List (BitVec 16)) : Nat → Stream → Stream
  | 0, st => st
  | n + 1, st =>
    if refs.contains st.head then st else Stream.settle refs n { st with head := st.head + 1, strips := st.strips.drop 1 }

/-- The pops of a stream that may be performed: those of instructions whose quarters have all read their strips (R238). -/
def Stream.pops (st : Stream) (pending : List Nat) : Nat := (st.issueHead - st.head).toNat - pending.eraseDups.length

/-- Perform the pops that R238 allows. -/
def Matrix.settle (m : Matrix) : Matrix :=
  let ops := m.queue ++ m.pass
  { m with
    a := tmap (fun i st =>
      let mine := ops.filter fun o => o.sa = i
      st.settle (mine.map QuarterOp.posA) (st.pops ((mine.filter QuarterOp.popA).map QuarterOp.seq))) m.a
    b := tmap (fun i st =>
      let mine := ops.filter fun o => o.sb = i
      st.settle (mine.map QuarterOp.posB) (st.pops ((mine.filter QuarterOp.popB).map QuarterOp.seq))) m.b }

/-- The turn of the `tmma` at hand: the ticket with which it has waited, or a new one, after every `tmma` that waits (R297). -/
def State.turn (s : State) (sa sb : Nat) (offA offB : BitVec 16) : State × StripTurn :=
  match s.ct.wait with
  | some ⟨.strip x _, _, _⟩ => (s, ⟨x.ticket, sa, offA, sb, offB⟩)
  | _ => let q := s.newSeq; (q.2, ⟨q.1, sa, offA, sb, offB⟩)

/-! ## Segments and their cost -/

/-- Element `i` of a strip under a slot. -/
def Strip.val (st : Strip) (sl : Slot) (i : Nat) : Val := sl.decode (st.elems.getD i 0).toNat (st.codes.getD i 0).toNat

/-- The products of an element in increasing k. -/
def products (a b : List Val) (row col : Nat) : List Val :=
  (List.range 32).map fun k => Val.mul (a.getD (32 * row + k) .nan) (b.getD (32 * col + k) .nan)

/-- RoundA96 of the exact sum (R76). -/
def segVal (ps : List Val) : Val := roundA96 ((segmentSum ps).getD (.zero false))

/-- The segments of a quarter, row by row; `a` holds the eight rows of the quarter. -/
def segsOf (a b : List Val) : List A96 :=
  (List.range 256).map fun e => encodeA96 (segVal (products a b (e / 32) (e % 32)))

/-- A slot for each element under an image: where several tables may be taken, each element takes one of them freely (R70). -/
def State.slotsOf (s : State) (img : Word) (tabs : List VReg) : State × (Nat → Slot) :=
  let f := fmtOf img
  match tabs with
  | [] => (s, fun _ => ⟨img, f, none⟩)
  | [v] => (s, fun _ => ⟨img, f, some (curveOf v)⟩)
  | v :: _ => let r := s.freeVal; (r.2, fun n => ⟨img, f, some (curveOf (tabs.getD (r.1 / tabs.length ^ n % tabs.length) v))⟩)

/-- The values of elements `lo` on of a strip: each under a table that its slot named at issue, or that has been loaded since (R70). -/
def State.stripVals (s : State) (st : Strip) (img : Word) (tabs : List VReg) (lo n : Nat) : State × List Val :=
  let r := s.slotsOf img tabs
  (r.1, (List.range n).map fun i => st.val (r.2 i) (lo + i))

/-- Clocks of a pass for operands of the given precisions (R239). -/
def passCost (pa pb : Nat) : Nat := if pa ≤ 2 && pb ≤ 2 then 1 else 2 * ((pa + 3) / 4) * ((pb + 3) / 4)

/-! ## The sampled recompute (R381) -/

/-- The IEEE binary32 and binary64 formats under nearest-even, as slots. -/
def ieee32 : Slot := ⟨0xA01FD788, fmtOf 0xA01FD788, none⟩
def ieee64 : Slot := ⟨0xA0FFF4B8, fmtOf 0xA0FFF4B8, none⟩

def Slot.via (sl : Slot) (v : Val) : Val := sl.decode (sl.round 0 v) 0

/-- The products summed in increasing k, each product and partial sum rounded to binary32. -/
def refOf (ps : List Val) : Val :=
  match ps.map ieee32.via with
  | [] => .zero false
  | p :: l => l.foldl (fun a x => ieee32.via (Val.add 0 a x)) p

/-- The binary32 ulp of a value; 2^−149 for 0. -/
def ulp32 (q : Q) : Q := if q.num = 0 then Q.scaled 1 (-149) else Q.scaled 1 (max q.abs.log2 (-126) - 23)

/-- dev, for a finite segment and reference. -/
def devOf (seg ref : Val) : Option Q :=
  if seg.isFinite && ref.isFinite then some ((seg.toQ.sub ref.toQ).abs.div (ulp32 ref.toQ)) else none

/-- Element, segment, reference and dev of the largest dev, the lowest element on ties. -/
def worst (l : List (Nat × Val × Val)) : Option (Nat × Val × Val × Q) :=
  l.foldl (fun b e => match devOf e.2.1 e.2.2, b with
    | none, _ => b
    | some d, none => some (e.1, e.2.1, e.2.2, d)
    | some d, some x => if x.2.2.2.lt d then some (e.1, e.2.1, e.2.2, d) else b) none

/-- The telemetry record of a sampled `tmma`, SEQ left 0. Where every element is excluded the manual gives DEV alone, and
SEGV, REFV and ELEM are free. -/
def State.sample (s : State) (tid : BitVec 8) (a b : List Val) (qs : List Nat) : State × List Byte :=
  let es := (qs.flatMap fun q => (List.range 256).map (256 * q + ·)).map fun e =>
    let ps := products a b (e / 32) (e % 32)
    (e, segVal ps, refOf ps)
  let w := s.issuer
  let base := w.pc.toNat * 2 ^ 448 + w.ltag.toNat * 2 ^ 240 + tid.toNat * 2 ^ 232 + s.cur.core % 256 * 2 ^ 224
  match worst es with
  | some (e, seg, ref, d) =>
    (s, bytesOf 64 (base + ieee64.round 0 seg % 2 ^ 64 * 2 ^ 384 + ieee32.round 0 ref % 2 ^ 32 * 2 ^ 320
      + ieee32.round 0 (Val.ofQ false d) % 2 ^ 32 * 2 ^ 288 + e % 1024 * 2 ^ 214))
  | none =>
    let f := s.freeVal
    (f.2, bytesOf 64 (base + f.1 % 2 ^ 64 * 2 ^ 384 + f.1 / 2 ^ 64 % 2 ^ 32 * 2 ^ 320 + f.1 / 2 ^ 96 % 1024 * 2 ^ 214))

/-- Write a telemetry record with the context's next sequence number. -/
def State.telemetry (s : State) (w : Issuer) (rec0 : List Byte) : State :=
  let c := s.ctx w.ctx
  let bytes := rec0.take 32 ++ bytesOf 4 c.ringIdx ++ rec0.drop 36
  let x := s.devWrite (ringActor w.ctx c.ringIdx) (c.tring.toNat + 64 * (c.ringIdx % 2 ^ c.trlog2)) bytes
  match x.2.1 with
  | .viol r pa => x.1.engineViol w r pa
  | _ => x.1.modCtx w.ctx fun c => { c with ringIdx := c.ringIdx + 1 }

/-! ## `tmma` -/

/-- The stream of a queue register bound to a matrix port by the team's context. -/
def State.mxStream (s : State) (q : BitVec 5) (port : Nat) : Option Nat :=
  (s.binding q).bind fun b => if b.port = port then some b.idx else none

/-- Quarters with an active thread (R238). -/
def quartersOf (m : Mask) : List Nat := (List.range 4).filter fun q => (m >>> (8 * q)) &&& 0xFF ≠ 0

/-- Advance the head as the instructions issued so far name it (R297). -/
def Stream.issuePop (st : Stream) (pop : Bool) : Stream := if pop then { st with issueHead := st.issueHead + 1 } else st

/-- The effect of a `tmma` that has passed its checks: its quarter operations are gathered. A sampled one takes the tables of its
issue for its telemetry, which R70 allows. -/
def mmaIssue (s : State) (o : MmaOps) (i sa sb : Nat) (posA posB : BitVec 16) (stA stB : Strip) : State :=
  let core := s.cur.core
  let fa := s.slot none o.fsa
  let fb := s.slot none o.fsb
  let a := (List.range 1024).map (stA.val fa)
  let b := (List.range 1024).map (stB.val fb)
  let tab (sl : Slot) : List VReg := (sl.curve.bind fun _ => (tfind s.cc.tbl sl.f.cmpd).map Prod.snd).toList
  let qs := quartersOf s.ct.active
  let n := tget 0 s.cc.mx.issued s.cctx + 1
  let c := s.ctx s.cctx
  let smp := if c.wmode.getLsbD 1 && n % 2 ^ c.wsamp = 0 then let r := s.sample o.tid a b qs; (r.1, some r.2) else (s, none)
  let ops := qs.map fun q =>
    ({ seq := smp.1.nextSeq, tile := i, quarter := q, imgA := fa.img, tabA := tab fa, imgB := fb.img, tabB := tab fb, sa := sa, posA := posA, sb := sb, posB := posB,
       popA := o.popa, popB := o.popb, cost := passCost fa.f.precision fb.f.precision, issued := s.clock } : QuarterOp)
  let s := (smp.1.modTile core i fun t => { t with tid := o.tid }).putTileOp i o.td (.mma qs [] none smp.2)
  s.modCore core fun c =>
    let mx := { c.mx with
      a := tins c.mx.a sa ((c.mx.streamA sa).issuePop o.popa)
      b := tins c.mx.b sb ((c.mx.streamB sb).issuePop o.popb)
      queue := c.mx.queue ++ ops
      issued := tins c.mx.issued s.cctx n }
    { c with mx := mx.settle }

/-- `tmma` (R237, R238): slots, handle and bindings; its turn and its strips; then the checks of the strips. -/
def execTmma (o : MmaOps) (s : State) : Out1 :=
  let qa := s.mxStream o.qa 3
  let qb := s.mxStream o.qb 4
  finish s (checked s [(1, o.fsa), (2, o.fsb)] [] ((s.handle? o.td).isSome && qa.isSome && qb.isSome) fun s =>
    match s.handle? o.td, qa, qb with
    | some i, some sa, some sb =>
      let x := s.turn sa sb (o.aoff.zeroExtend 16) (o.boff.zeroExtend 16)
      let s := x.1
      let posA := (s.cc.mx.streamA sa).issueHead + x.2.offA
      let posB := (s.cc.mx.streamB sb).issueHead + x.2.offB
      if !s.stripFirst s.ck x.2.ticket sa sb || s.tileRead s.cur.core i then .wait s (.strip x.2 (s.tileReads s.cur.core i))
      else match s.cc.mx.named x.2 with
        | (some stA, some stB) =>
          if stA.ctx ≠ s.cctx || stB.ctx ≠ s.cctx || stA.width ≠ (s.slot none o.fsa).f.width
              || stB.width ≠ (s.slot none o.fsb).f.width then opTrap s
          else .done (mmaIssue s o i sa sb posA posB stA stB)
        | _ => .wait s (.strip x.2 [])
    | _, _, _ => opTrap s)

/-! ## Passes (R239) -/

/-- Choose the operations of a pass: up to four that name one B position, none before an earlier operation on its part of
its tile; `zeros` are tiles with a `tzero` in front. -/
def choosePass (held : QuarterOp → Bool) : List QuarterOp → List (Nat × Nat) → List QuarterOp → List QuarterOp
  | [], _, ch => ch
  | o :: os, stuck, ch =>
    let fits := match ch with
      | [] => true
      | c :: _ => c.sb = o.sb && c.posB = o.posB && ch.length < 4
    if fits && !held o && !stuck.contains (o.tile, o.quarter) then choosePass held os stuck (ch ++ [o])
    else choosePass held os ((o.tile, o.quarter) :: stuck) ch

/-- A `tzero` of the operation's tile stands before it. -/
def Core.zeroFirst (c : Core) (o : QuarterOp) : Bool :=
  (c.opsOn o.tile).any fun x => x.seq < o.seq && x.kind = .zero

/-- MATRIX_PASS_START: four operations have gathered, or 4 clocks have passed since the first of them issued (R239). -/
def execMatrixPassStart (core : Nat) (s : State) : Out1 :=
  let c := s.core core
  let ch := choosePass c.zeroFirst c.mx.queue [] []
  match ch with
  | [] => .next s
  | o :: _ =>
    if c.mx.pass ≠ [] || (ch.length < 4 && s.clock < o.issued + 4) then .next s
    else
      let rest := c.mx.queue.filter fun x => !ch.any fun y => y.seq = x.seq && y.quarter = x.quarter
      .next (s.modCore core fun c => { c with mx := { c.mx with queue := rest, pass := ch, passStart := s.clock } })

/-- The sub-arrays that are not fenced. -/
def Matrix.live (m : Matrix) : List Nat := (List.range 4).filter fun i => !m.fenced.getLsbD i

/-- Clocks that a pass takes: a round of its largest cost for as many operations as sub-arrays are live (R382). -/
def Matrix.passClocks (m : Matrix) : Nat :=
  let n := m.live.length
  if n = 0 then 0 else (m.pass.length + n - 1) / n * m.pass.foldl (fun a o => max a o.cost) 0

/-- The LOC of a failed strip (R383), when one of an operation's strips holds an uncorrectable error. -/
def Matrix.badStrip (m : Matrix) (o : QuarterOp) : Option Nat :=
  if ((m.streamA o.sa).at? o.posA).any Strip.bad then some (o.sa * 2 ^ 14)
  else if ((m.streamB o.sb).at? o.posB).any Strip.bad then some (2 ^ 16 + o.sb * 2 ^ 14) else none

/-- A tile's rows after the segments of a quarter; failed elements stay. -/
def Tile.addQuarter (t : Tile) (q : Nat) (segs : List A96) : Tile :=
  { t with elems := t.elems.zipIdx.map fun e =>
      if e.2 / 256 = q && !t.bad.contains e.2 then
        encodeA96 (roundA96 (Val.add 0 (decodeA96 e.1) (decodeA96 (segs.getD (e.2 % 256) 0))))
      else e.1 }

/-- The deferred reports of a `tmma` that is done (R382, R383). -/
def mmaReports (t : Team) (o : TileOp) (dead : Bool) (bad : List Nat) (strip : Option Nat) : List Report :=
  let ord := t.ordOf .tl o.seq
  let mk (cause : Nat) (d : Word) : Report := ⟨cause, d, o.who.mask, o.who.pc, o.seq, some .tl, ord, [], none, false, o.who.handler, none⟩
  let eng (code loc : Nat) : Report := mk 0xB (engineRec o.who 2 code loc).detail
  match strip with
  | some loc => [eng 3 loc]
  | none =>
    if dead then [eng 2 o.handle]
    else match bad with
      | [] => []
      | e :: _ => [mk 8 (memDetail 6 0 (e * 16 + o.handle))]

/-- The segments that a quarter operation computes from its strips. -/
def State.quarterSegs (s : State) (core : Nat) (q : QuarterOp) : State × List A96 :=
  let mx := (s.core core).mx
  match (mx.streamA q.sa).at? q.posA, (mx.streamB q.sb).at? q.posB with
  | some stA, some stB =>
    let a := s.stripVals stA q.imgA q.tabA (256 * q.quarter) 256
    let b := a.1.stripVals stB q.imgB q.tabB 0 1024
    (b.1, segsOf a.2 b.2)
  | _, _ => (s, [])

/-- A `tmma` whose quarters are done, and which is the oldest on its tile: its updates, its reports and its count (R238, R242,
R382, R383). -/
def State.finishMma (s : State) (core : Nat) (o : TileOp) (segs : List (Nat × List A96)) (strip : Option Nat)
    (smp : Option (List Byte)) : State :=
  let dead := (s.core core).mx.live = []
  let ok := strip.isNone && !dead
  let bad := if ok then ((s.core core).tile o.tile).bad.filter fun e => segs.any fun q => q.1 = e / 256 else []
  let s := if ok then s.modTile core o.tile fun t => segs.foldl (fun t q => t.addQuarter q.1 q.2) t else s
  let s := s.modCore core fun c => { c with tileOps := c.tileOps.filter fun x => x.seq ≠ o.seq }
  let s := s.modTeam o.who.team fun t => ((mmaReports t o dead bad strip).foldl Team.addReport t).complete .tl o.seq
  match smp with
  | some r => s.telemetry o.who r
  | none => s

/-- The operations of a tile take effect in the order of issue (R242): those at its front whose quarters are done. -/
def State.settleTile (core tile : Nat) : Nat → State → State
  | 0, s => s
  | n + 1, s =>
    match (s.core core).opsOn tile with
    | [] => s
    | o :: _ =>
      match o.kind with
      | .mma [] segs strip smp => (s.finishMma core o segs strip smp).settleTile core tile n
      | _ => s

/-- One quarter operation of a pass is done; with it, perhaps, its `tmma`. A strip that it meets failed fails the whole of the
instruction (R383). -/
def State.quarterDone (s : State) (core : Nat) (q : QuarterOp) : State :=
  match (s.core core).tileOps.find? fun o => o.seq = q.seq with
  | none => s
  | some o =>
    match o.kind with
    | .mma left segs strip smp =>
      let strip := strip <|> (s.core core).mx.badStrip q
      let r := if strip.isSome then (s, []) else s.quarterSegs core q
      let s := r.1.modCore core fun c => { c with tileOps := c.tileOps.map fun x =>
        if x.seq = q.seq then { x with kind := .mma (left.filter (· ≠ q.quarter)) (segs ++ [(q.quarter, r.2)]) strip smp } else x }
      s.settleTile core o.tile ((s.core core).tileOps.length)
    | _ => s

/-- Segment pairs that a quarter operation computes (R13, R326). -/
def QuarterOp.pairs (o : QuarterOp) : Nat := 4096 * o.cost

/-- MATRIX_PASS_COMPLETE: the self-test of each sub-array that the pass used has the outcome `failed` (R382). A failure
fences sub-arrays, reports, and reruns the pass; otherwise the updates are written, in issue order. -/
def execMatrixPassComplete (core : Nat) (failed : BitVec 4) (s : State) : Out1 :=
  let mx := (s.core core).mx
  match mx.pass with
  | [] => .next s
  | o :: _ =>
    if s.clock < mx.passStart + mx.passClocks then .next s
    else
      let used := mx.live.take mx.pass.length
      let new := used.filter failed.getLsbD
      if new ≠ [] then
        let fenced := mx.fenced ||| BitVec.ofNat 4 (new.foldl (fun a i => a + 2 ^ i) 0)
        let s := s.modCore core fun c => { c with mx := { c.mx with fenced := fenced, passStart := s.clock } }
        match (s.core core).tileOps.find? fun x => x.seq = o.seq with
        | some x => .next (s.engineNotice x.who 2 1 fenced.toNat)
        | none => .next s
      else
        let ctx := (((s.core core).tileOps.find? fun x => x.seq = o.seq).map fun x => x.who.ctx).getD 0
        let pairs := if mx.live = [] then 0 else mx.pass.foldl (fun a q => a + q.pairs) 0
        let s := if pairs = 0 then s else s.countEv core ctx 0x40 pairs
        let s := if mx.pass.length = 4 then s.countEv core ctx 0x41 1 else s
        let s := mx.pass.foldl (fun s q => s.quarterDone core q) s
        .next (s.modCore core fun c => { c with mx := { c.mx with pass := [] }.settle })

end Sys2Proof.Machine
end

