-- ==== Sys2Proof/Machine/Copy.lean ====
section
/-!
DEFINITION. Copy cards (R224–R230) and how an engine carries one out: its checks (R378), its elements, compressed lines, the
NVMe submission (R234), and strips for a matrix stream (R227, R233). An engine performs the accesses of a card as one act
between two steps of the package (log 28).
-/

namespace Sys2Proof.Machine

/-! ## The card -/

/-- A dimension record (R225). -/
structure CardDim where
  ext : Nat
  sstr : Int
  dstr : Int
  deriving DecidableEq, Repr

/-- A copy card (R224, R226). -/
structure Card where
  ndim : Nat
  csel : Nat
  dbo : Nat
  sbo : Nat
  tid : Nat
  xfm : Nat
  dcls : Nat
  scls : Nat
  kind : Nat
  dst : Nat
  src : Nat
  fs : Word
  fsa : Word
  dims : List CardDim
  spare : Bool
  dba : Nat
  dbv : Nat
  rcnt : Nat
  rstb : Nat
  tag : Nat
  dscl : Nat
  sscl : Nat
  deriving DecidableEq, Repr

def cardDim (d i : Nat) : CardDim :=
  let r := bitsOf d (256 + 128 * i) 128
  ⟨bitsOf r 0 32, sextNat 48 (bitsOf r 32 48), sextNat 48 (bitsOf r 80 48)⟩

def cardOf (v : VReg) : Card :=
  let d := v.toNat
  let n := bitsOf d 248 4
  { ndim := n, csel := bitsOf d 246 2, dbo := bitsOf d 243 3, sbo := bitsOf d 240 3, tid := bitsOf d 232 8,
    xfm := bitsOf d 229 3, dcls := bitsOf d 226 3, scls := bitsOf d 223 3, kind := bitsOf d 219 4,
    dst := bitsOf d 160 56, src := bitsOf d 104 56,
    fs := BitVec.ofNat 64 (bitsOf d 52 52), fsa := BitVec.ofNat 64 (bitsOf d 0 52),
    dims := (List.range (min n 10)).map (cardDim d)
    spare := (List.range 10).any fun i => n ≤ i && bitsOf d (256 + 128 * i) 128 ≠ 0
    dba := bitsOf d 1728 64, dbv := bitsOf d 1696 32, rcnt := bitsOf d 1688 8, rstb := bitsOf d 1680 7,
    tag := bitsOf d 1664 16, dscl := bitsOf d 1600 64, sscl := bitsOf d 1536 64 }

/-- The number of elements. -/
def Card.count (c : Card) : Nat := c.dims.foldl (fun a d => a * d.ext) 1

def Card.toStream (c : Card) : Bool := c.dcls = 2 || c.dcls = 3

def Card.ext (c : Card) (i : Nat) : Nat := ((c.dims[i]?).map CardDim.ext).getD 0

/-- The conditions of STAT 0x01 (R378). -/
def Card.reserved (c : Card) : Bool :=
  (c.kind ≠ 0 && c.kind ≠ 7) || 2 ≤ c.csel || 4 ≤ c.scls || 4 ≤ c.dcls || c.scls = 2 || c.scls = 3 || 5 ≤ c.xfm
  || (c.kind = 0 && (c.ndim = 0 || 10 < c.ndim)) || c.spare || (c.xfm = 0 && c.fs ≠ 0)
  || (c.xfm = 2 && (c.ext 0 ≠ 32 || c.ext 1 ≠ 32 || (fmtOf c.fs).blk = 0))
  || ((c.xfm = 3 || c.xfm = 4) && (c.ndim ≠ 1 || c.fs ≠ 0 || c.fsa ≠ 0 || c.sbo ≠ 0 || c.dbo ≠ 0
      || c.dims.any fun d => d.sstr ≠ 0 || d.dstr ≠ 0))
  || (c.kind = 7 && (c.xfm ≠ 0 || c.ndim ≠ 0 || c.fs ≠ 0 || c.fsa ≠ 0))
  || (c.toStream && c.count % 1024 ≠ 0)
  || (c.xfm = 1 && (fmtOf c.fs).blk ≠ 0)

/-- The conditions of STAT 0x02, as LOC (R378). -/
def Card.badImage (c : Card) (core : Core) (ctx : Nat) : Option Nat :=
  if c.kind = 0 && c.xfm ≤ 2 && imgReason core ctx c.fsa ≠ 0 then some 0
  else if c.kind = 0 && (c.xfm = 1 || c.xfm = 2) && imgReason core ctx c.fs ≠ 0 then some (2 ^ 51) else none

/-- The index vector's offsets of element `n`: soff and doff (R225). -/
def offsets : List CardDim → Nat → Int × Int
  | [], _ => (0, 0)
  | d :: ds, n =>
    let i : Int := (n % d.ext : Nat)
    let r := offsets ds (n / d.ext)
    (i * d.sstr + r.1, i * d.dstr + r.2)

/-! ## One access -/

/-- The outcome of one access of an engine: what it gives; a skipped access or a stop, by STAT and LOC (R378, R379); or a
violation (R367). -/
inductive Acs1 (α : Type) where
  | ok (v : α)
  | skip (stat loc : Nat)
  | stop (stat loc : Nat)
  | viol (reason pa : Nat)

/-- Where bits go: an aligned 8-byte word of memory, bits [lo + len − 1 : lo]; a scratchpad word; or a word outside the
package's memory, under the key and memory type of its translation. `off` counts from the lowest bit of the whole. -/
inductive Piece where
  | mem (pa key : Nat) (cmp : Bool) (lo len off : Nat)
  | stall (word lo len off : Nat)
  | out (pa key mt : Nat) (cmp : Bool) (lo len off : Nat)
  deriving DecidableEq, Repr

/-- The aligned word of a piece, as its space and its place there, with its first bit, length and offset. -/
def Piece.place : Piece → (Nat × Nat) × Nat × Nat × Nat
  | .mem pa _ _ lo len off => ((0, pa / 8), lo, len, off)
  | .stall word lo len off => ((1, word), lo, len, off)
  | .out pa _ _ _ lo len off => ((2, pa / 8), lo, len, off)

/-- The bits `v` of a run that has piece `p`, after a write of `x` to a run that has piece `q`. -/
def Piece.patch (p q : Piece) (v x : Nat) : Nat :=
  let (w, lo, len, off) := p.place
  let (w', lo', len', off') := q.place
  let a := max lo lo'
  let b := min (lo + len) (lo' + len')
  if w = w' && a < b then withBits v (off + a - lo) (b - a) (bitsOf x (off' + a - lo') (b - a)) else v

/-- Bits [pos + len − 1 : pos] as bits of aligned 64-bit words: word, lo, length, offset. -/
def wordPieces (pos len : Nat) : List (Nat × Nat × Nat × Nat) :=
  (List.range ((pos + len - 1) / 64 - pos / 64 + 1)).map fun j =>
    let w := pos / 64 + j
    let lo := if j = 0 then pos % 64 else 0
    let hi := min (pos + len - 64 * w) 64
    (w, lo, hi - lo, 64 * w + lo - pos)

/-- An engine at work: which, where and for whom, as whom it asks outside the package, and whether the places that it reads are
known beforehand. -/
structure Worker where
  core : Nat
  eng : Nat
  ctx : Nat
  actor : Actor
  free : Bool
  deriving DecidableEq, Repr

/-- The place of one piece of a memory-class address (R378, R379). -/
def State.locMem (s : State) (w : Worker) (acc : Acc) (p : Nat × Nat × Nat × Nat) : State × Acs1 Piece :=
  let va := (8 * p.1 + p.2.1 / 8) % 2 ^ 64
  if nonCanonical va then (s, .stop 3 va)
  else
    let x := s.xlateDev w.actor va acc
    match x.2 with
    | .ok pa e =>
      let pa := x.1.localPa pa
      let v := x.1.violation (x.1.ctx w.ctx).world pa e.key
      if v ≠ 0 then (x.1, .viol v pa)
      else if isMem pa then (x.1, .ok (.mem (pa / 8 * 8) e.key e.cmp p.2.1 p.2.2.1 p.2.2.2))
      else (x.1, .ok (.out (pa / 8 * 8) e.key e.mt e.cmp p.2.1 p.2.2.1 p.2.2.2))
    | .mem loc => (x.1, .skip 5 loc)
    | _ => (x.1, .stop 3 va)

/-- The place of one piece of a stall-class address (R86, R379). -/
def State.locStall (s : State) (w : Worker) (p : Nat × Nat × Nat × Nat) : Acs1 Piece :=
  let word := p.1 % 65536
  if tget 3 (s.core w.core).owner (word / 512) = BitVec.ofNat 2 (w.eng + 1) then .ok (.stall word p.2.1 p.2.2.1 p.2.2.2)
  else .skip 4 (8 * word + p.2.1 / 8)

/-- The places of a run of bits; a stop comes before a skip only where it is met first. -/
def State.locate (s : State) (w : Worker) (stall : Bool) (acc : Acc) (pos len : Nat) : State × Acs1 (List Piece) :=
  (wordPieces pos len).foldl (fun r p =>
    match r.2 with
    | .ok l =>
      let x := if stall then (r.1, r.1.locStall w p) else r.1.locMem w acc p
      (x.1, match x.2 with
        | .ok q => .ok (l ++ [q])
        | .skip a b => .skip a b
        | .stop a b => .stop a b
        | .viol a b => .viol a b)
    | _ => r) (s, .ok [])

/-- The bits at a piece; an uncorrectable error is STAT 0x05, and so is any failure of an access outside the package, with the
LOC of R362 (log 91). -/
def State.readPiece (s : State) (w : Worker) (p : Piece) : State × Acs1 Nat :=
  match p with
  | .mem pa key _ lo len off =>
    if (s.failedAt (lineOf pa)).isSome then (s, .skip 5 (pa + lo / 8))
    else (s.countL2 pa (s.vfOf w.ctx) 0x100, .ok (bitsOf (s.rdNat key pa 8) lo len <<< off))
  | .stall word lo len off =>
    if (s.core w.core).scratchBad.contains word then (s, .skip 5 (8 * word + lo / 8))
    else (s, .ok (bitsOf (tget 0 (s.core w.core).scratch word).toNat lo len <<< off))
  | .out pa key mt cmp lo len off =>
    match homeOf pa with
    | .devreg => (s, .ok ((s.devRegRead (s.ctx w.ctx).world pa lo len).toNat <<< off))
    | _ =>
      let r := s.remote w.actor (remotePart .read pa lo len 0 0 key mt cmp) w.free
      (r.1, match r.2 with
        | some (.ok v) => .ok ((v.toNat % 2 ^ len) <<< off)
        | some (.error (_, _, loc)) => .skip 5 loc
        | none => .ok 0)

/-- Read what has been located. -/
def readOf (w : Worker) (x : State × Acs1 (List Piece)) : State × Acs1 Nat :=
  match x.2 with
  | .ok ps => ps.foldl (fun r p =>
      match r.2 with
      | .ok a =>
        let y := r.1.readPiece w p
        (y.1, match y.2 with
          | .ok b => .ok (a + b)
          | e => e)
      | _ => r) (x.1, .ok 0)
  | .skip a b => (x.1, .skip a b)
  | .stop a b => (x.1, .stop a b)
  | .viol a b => (x.1, .viol a b)

/-- Read a run of bits. -/
def State.readRun (s : State) (w : Worker) (stall : Bool) (pos len : Nat) : State × Acs1 Nat :=
  readOf w (s.locate w stall .read pos len)

/-- Write the bits of a value that a piece takes; the LOC of a failure outside the package. No copy above a home in the quad or the
die outlives the write (R122, R231). -/
def State.writePiece (s : State) (w : Worker) (v : Nat) (p : Piece) : State × Option Nat :=
  match p with
  | .mem pa key cmp lo len off =>
    ((((s.writeBitsAt key cmp pa lo len (bitsOf v off len)).keepWorld s (s.ctx w.ctx).world cmp (lineOf pa)).countL2 pa (s.vfOf w.ctx)
      0x100).dropCopies w.core pa, none)
  | .stall word lo len off =>
    (s.modCore w.core fun c => { c with
      scratch := tput 0 c.scratch word (BitVec.ofNat 64 (withBits (tget 0 c.scratch word).toNat lo len (bitsOf v off len)))
      scratchBad := if len = 64 then c.scratchBad.filter (· ≠ word) else c.scratchBad }, none)
  | .out pa key mt cmp lo len off =>
    match homeOf pa with
    | .devreg => (s.devRegWrite (s.ctx w.ctx).world (s.vfOf w.ctx) pa lo len (BitVec.ofNat 64 (bitsOf v off len)), none)
    | _ =>
      let r := s.remote w.actor (remotePart .write pa lo len (BitVec.ofNat 64 (bitsOf v off len)) 0 key mt cmp) false
      (r.1.dropCopies w.core pa, match r.2 with
        | some (.error (_, _, loc)) => some loc
        | _ => none)

/-! ## A card's work -/

/-- What one unit of a card writes: its number, the pieces, the value, and how many elements or bytes it counts. -/
structure Unit1 where
  n : Nat
  pieces : List Piece
  v : Nat
  weight : Nat
  deriving DecidableEq, Repr

/-- Conditions met (number, STAT, LOC), the first number not carried out, and a violation. -/
structure Found1 where
  conds : List (Nat × Nat × Nat)
  stop : Option Nat
  viol : Option (Nat × Nat)
  deriving DecidableEq, Repr

def Found1.none : Found1 := ⟨[], Option.none, Option.none⟩

def Found1.add (f : Found1) (n : Nat) : Acs1 α → Found1
  | .ok _ => f
  | .skip a b => { f with conds := f.conds ++ [(n, a, b)] }
  | .stop a b => { f with conds := f.conds ++ [(n, a, b)], stop := some n }
  | .viol a b => { f with stop := some n, viol := some (a, b) }

/-- The condition reported: the lowest number, then the lowest code (R378). -/
def Found1.first (f : Found1) : Option (Nat × Nat × Nat) :=
  f.conds.foldl (fun b c => match b with
    | Option.none => some c
    | some x => if c.1 < x.1 || (c.1 = x.1 && c.2.1 < x.2.1) then some c else some x) Option.none

/-- The memory lines that units write and that are failed and not wholly covered by them (R363). -/
def State.partialFailed (s : State) (us : List Unit1) : List Nat :=
  let ps := us.flatMap Unit1.pieces
  let lines := (ps.filterMap fun p => match p with
    | .mem pa .. => if (s.failedAt (lineOf pa)).isSome then some (lineOf pa) else none
    | _ => none).eraseDups
  lines.filter fun l => !(List.range 1024).all fun b => ps.any fun p => match p with
    | .mem pa _ _ lo len _ => 8 * pa + lo ≤ 1024 * l + b && 1024 * l + b < 8 * pa + lo + len
    | _ => false

/-- A unit's first piece in one of some lines, as its physical address. -/
def Unit1.inLines (u : Unit1) (ls : List Nat) : Option Nat :=
  u.pieces.findSome? fun p => match p with
    | .mem pa _ _ lo _ _ => if ls.contains (lineOf pa) then some (pa + lo / 8) else none
    | _ => none

/-- Write the units in order; a partial write of a failed line is discarded. The result gives the conditions added and the
count. -/
def State.writeUnits (s : State) (w : Worker) (us : List Unit1) (f : Found1) : State × Found1 × Nat :=
  let bad := s.partialFailed us
  let lines := (us.flatMap Unit1.pieces).filterMap fun p => match p with
    | .mem pa .. => some (lineOf pa)
    | _ => none
  let s := { s with failed := s.failed.filter fun e => bad.contains e.1 || !lines.contains e.1 }
  us.foldl (fun r u =>
    match u.inLines bad with
    | some pa => (r.1, { r.2.1 with conds := r.2.1.conds ++ [(u.n, 5, pa)] }, r.2.2)
    | none =>
      let x := u.pieces.foldl (fun (x : State × Option Nat) p => let y := x.1.writePiece w u.v p; (y.1, x.2 <|> y.2)) (r.1, none)
      match x.2 with
      | some loc => (x.1, { r.2.1 with conds := r.2.1.conds ++ [(u.n, 5, loc)] }, r.2.2)
      | none => (x.1, r.2.1, r.2.2 + u.weight)) (s, f, 0)

/-- An element read and placed: number, doff, source bits and where they were, source code, its destination and that of its
block's code. -/
structure Elem1 where
  n : Nat
  doff : Int
  bits : Nat
  src : List Piece
  code : Nat
  dst : List Piece
  sdst : List Piece
  deriving DecidableEq, Repr

/-- Widths, blocks and classes of a card under its images. -/
def Card.wa (c : Card) : Nat := (fmtOf c.fsa).width
def Card.wd (c : Card) : Nat := if c.xfm = 0 then c.wa else (fmtOf c.fs).width
def Card.sblock (c : Card) : Nat := (fmtOf c.fsa).block
def Card.dblock (c : Card) : Nat := if c.xfm = 2 then (fmtOf c.fs).block else 0

/-- A bit position of a base, bit offset and element offset, modulo 2^67. -/
def bitPos (base bo : Nat) (w : Nat) (off : Int) : Nat := ((8 * base + bo : Int) + w * off) % ((2 ^ 67 : Nat) : Int) |>.toNat

/-- The bit position of a block's code. -/
def codePos (base block : Nat) (off : Int) : Nat := (((base : Int) + off / block) % ((2 ^ 64 : Nat) : Int)).toNat * 8

/-- Read one element: its bits, where they were, and its block's code. -/
def State.readElem (s : State) (w : Worker) (c : Card) (n : Nat) (f : Found1) : State × Found1 × Option (Nat × List Piece × Nat) :=
  let o := offsets c.dims n
  let l := s.locate w (c.scls = 1) .read (bitPos c.src c.sbo c.wa o.1) c.wa
  let r := readOf w l
  let useCode := c.sblock ≠ 0 && (c.xfm ≠ 0 || c.toStream)
  let sc := if useCode then r.1.readRun w false (codePos c.sscl c.sblock o.1) 8 else (r.1, .ok 0x7F)
  (sc.1, (f.add n r.2).add n sc.2, match l.2, r.2, sc.2 with
    | .ok src, .ok b, .ok cd => some (b, src, cd)
    | _, _, _ => none)

/-- Find the destination of one element, and of its block's code. -/
def State.placeElem (s : State) (w : Worker) (c : Card) (n : Nat) (x : Option (Nat × List Piece × Nat)) (f : Found1) :
    State × Found1 × Option Elem1 :=
  let o := offsets c.dims n
  let far := c.toStream && (o.2 < 0 || (c.count : Int) ≤ o.2)
  let d := if c.toStream then (s, Acs1.ok []) else s.locate w (c.dcls = 1) .write (bitPos c.dst c.dbo c.wd o.2) c.wd
  let dc := if c.dblock = 0 || c.toStream then (d.1, Acs1.ok []) else d.1.locate w false .write (codePos c.dscl c.dblock o.2) 8
  (dc.1, (f.add n d.2).add n dc.2, match x, d.2, dc.2 with
    | some (b, src, cd), .ok ps, .ok qs => if far then none else some ⟨n, o.2, b, src, cd, ps, qs⟩
    | _, _, _ => none)

/-- The elements from `lo` on that are read together, all of them before any is placed: under XFM 010 a tile of 1,024, of which none
is written where a read stops (R228, R379). -/
def State.doGroup (s : State) (w : Worker) (c : Card) (lo len : Nat) (f : Found1) : State × Found1 × List Elem1 :=
  let rd := (List.range' lo len).foldl (fun (r : State × Found1 × List (Nat × Option (Nat × List Piece × Nat))) n =>
    if r.2.1.stop.isSome then r
    else let x := r.1.readElem w c n r.2.1; (x.1, x.2.1, r.2.2 ++ [(n, x.2.2)])) (s, f, [])
  if rd.2.1.stop.isSome then (rd.1, { rd.2.1 with stop := some lo }, [])
  else rd.2.2.foldl (fun (r : State × Found1 × List Elem1) e =>
    if r.2.1.stop.isSome then r
    else let x := r.1.placeElem w c e.1 e.2 r.2.1; (x.1, x.2.1, r.2.2 ++ x.2.2.toList)) (rd.1, rd.2.1, [])

/-- Every element of a card up to the first stop (R379). -/
def State.doElems (s : State) (w : Worker) (c : Card) : State × Found1 × List Elem1 :=
  let len := if c.xfm = 2 then 1024 else 1
  let r := (List.range (c.count / len)).foldl (fun (r : State × Found1 × List Elem1) g =>
    if r.2.1.stop.isSome then r
    else let x := r.1.doGroup w c (len * g) len r.2.1; (x.1, x.2.1, r.2.2 ++ x.2.2)) (s, .none, [])
  (r.1, r.2.1, r.2.2.filter fun e => r.2.1.stop.all fun k => e.n < k)

/-- An element's code under the transform, with what the flags and the watch ask: byte, value, code, and the slot it was encoded
under. -/
structure Coded where
  e : Elem1
  byte : Nat
  val : Val
  code : Nat
  sl : Slot

/-- The slots of a card's elements under an image: with the table that the card's context had when the card was accepted, or one
loaded since (R70). DESIGN CHOICE (log 98): a card that has started goes on with these where a kill has removed its table from the
store (R346) before its accesses are performed; the spec names no table then. -/
def State.cardSlots (s : State) (cmd : Cmd) (img : Word) : State × (Nat → Slot) :=
  let t := (fmtOf img).cmpd
  s.slotsOf img ((cmd.tabs.filter fun e => t ≠ 0 && e.1 = t).map Prod.snd)

/-- The stochastic parameters of a card (R230). -/
def Card.draw (c : Card) (cmd : Cmd) : Draw := ⟨cmd.seed, c.tag, fun n => n % 2 ^ 24⟩

/-- The code of an element of XFM 000 or 001 (R228). -/
def encodeElem (fa fd : Nat → Slot) (cmd : Cmd) (c : Card) (e : Elem1) : Coded :=
  let v := (fa e.n).decode e.bits e.code
  if c.xfm = 0 then ⟨e, e.code, .zero false, e.bits, fd e.n⟩
  else ⟨e, 0x7F, v, (fd e.n).round ((c.draw cmd).h e.n) v, fd e.n⟩

/-- Encode the elements (R228–R230): under XFM 010 the elements of one destination block together. -/
def encodeCard (fa fd : Nat → Slot) (cmd : Cmd) (c : Card) (es : List Elem1) : List Coded :=
  if c.xfm ≤ 1 then es.map (encodeElem fa fd cmd c)
  else
    let val (e : Elem1) : Val := (fa e.n).decode e.bits e.code
    let blocks := (es.map fun e => e.doff / (c.dblock : Int)).eraseDups
    let bytes := blocks.map fun b =>
      (b, (fd 0).freshByte (c.draw cmd) ((es.filter fun e => e.doff / (c.dblock : Int) = b).map fun e => (e.n, val e)))
    es.map fun e =>
      let byte := ((bytes.find? fun x => x.1 = e.doff / (c.dblock : Int)).map Prod.snd).getD 0
      ⟨e, byte, val e, (fd e.n).roundUnder byte ((c.draw cmd).h e.n) (val e), fd e.n⟩

/-! ### Source and destination that overlap (R233) -/

/-- The lowest and the highest word of one space among pieces. -/
def spanIn (k : Nat) (ps : List Piece) : Option (Nat × Nat) :=
  ps.foldl (fun b p =>
    let w := p.place.1
    if w.1 ≠ k then b
    else match b with
      | none => some (w.2, w.2)
      | some x => some (min x.1 w.2, max x.2 w.2)) none

/-- What a card reads and what it writes may have words in common. -/
def mayOverlap (es : List Elem1) : Bool :=
  (List.range 3).any fun k => match spanIn k (es.flatMap Elem1.src), spanIn k (es.flatMap Elem1.dst) with
    | some a, some b => a.1 ≤ b.2 && b.1 ≤ a.2
    | _, _ => false

/-- A list in the order that a number chooses; every order has a number. -/
def shuffle : Nat → List α → List α
  | _, [] => []
  | f, a :: l => (shuffle (f / (l.length + 1)) l).insertIdx (f % (l.length + 1)) a

/-- The source bits of an element after writes of other elements, of which the later in linear number stands. -/
def Elem1.after (e : Elem1) (ws : List Coded) : Nat :=
  ws.foldl (fun v x => e.src.foldl (fun v p => x.e.dst.foldl (fun v q => p.patch q v x.code) v) v) e.bits

/-- Put an element's code among others by linear number. -/
def insertCoded (x : Coded) : List Coded → List Coded
  | [] => [x]
  | y :: l => if x.e.n < y.e.n then x :: y :: l else y :: insertCoded x l

/-- Encode the elements of a card of XFM 000 or 001 whose source and destination overlap: the elements are carried out in any order,
each reading its source as it was before the card or as the writes so far leave it (R233). -/
def encodeFree (order bits : Nat) (fa fd : Nat → Slot) (cmd : Cmd) (c : Card) (es : List Elem1) : List Coded :=
  (shuffle order es).foldl (fun ws e =>
    insertCoded (encodeElem fa fd cmd c (if bits.testBit e.n then { e with bits := e.after ws } else e)) ws) []

/-- Encode the elements of a card; order and choices of R233 are free. DESIGN CHOICE (log 99): under XFM 010, and under 011 and 100,
everything is read before anything is written, so that a card whose source and destination overlap across tiles, lines or
records reads what was there before it; R233 speaks of 000 and 001 alone. -/
def State.encode (s : State) (cmd : Cmd) (c : Card) (es : List Elem1) : State × List Coded :=
  let fa := s.cardSlots cmd c.fsa
  let fd := fa.1.cardSlots cmd c.fs
  if 2 ≤ c.xfm || c.toStream || !mayOverlap es then (fd.1, encodeCard fa.2 fd.2 cmd c es)
  else
    let a := fd.1.freeVal
    let b := a.2.freeVal
    (b.2, encodeFree a.1 b.1 fa.2 fd.2 cmd c es)

/-- SATF, UNFF and NANF of what was encoded (R230). -/
def cardFlags (cs : List Coded) : BitVec 3 :=
  let nan (x : Coded) : Bool := (x.sl.f.kind = 0 && x.sl.f.blk ≠ 0 && x.byte = 255) || (x.sl.decode x.code x.byte).isNan
  BitVec.ofNat 3 ((if cs.any fun x => x.sl.exceeds x.byte x.val then 1 else 0)
    + (if cs.any fun x => x.sl.flushes x.byte x.val x.code then 2 else 0) + (if cs.any nan then 4 else 0))

/-- The strips that a card makes (R227); an element that it does not write has the code of its block where the card encoded that
(R229). -/
def cardStrips (cmd : Cmd) (c : Card) (cs : List Coded) : List Strip :=
  let img := if c.xfm = 0 then c.fsa else c.fs
  let coded := if c.xfm = 0 then c.sblock ≠ 0 else c.xfm = 2
  (List.range (c.count / 1024)).map fun (j : Nat) =>
    let mine := cs.filter fun x => x.e.doff / 1024 = Int.ofNat j
    let at_ (i : Nat) : Option Coded := mine.reverse.find? fun x => x.e.doff % 1024 = Int.ofNat i
    let blocks := if c.xfm = 2 then (mine.map fun x => (x.e.doff / (c.dblock : Int), x.byte)).eraseDups else []
    let rest (i : Nat) : Nat :=
      ((blocks.find? fun b => b.1 = Int.ofNat (1024 * j + i) / (c.dblock : Int)).map Prod.snd).getD 0x7F
    { ctx := cmd.who.ctx, img := img.truncate 52, width := (fmtOf img).width,
      elems := (List.range 1024).map fun i => BitVec.ofNat 64 (((at_ i).map Coded.code).getD 0),
      codes := (List.range 1024).map fun i => BitVec.ofNat 8 (if coded then ((at_ i).map Coded.byte).getD (rest i) else 0x7F),
      bad := false }

/-- What performing a card gives. -/
structure Done1 where
  s : State
  found : Found1
  count : Nat
  flags : BitVec 3
  strips : List Strip

/-- XFM 000, 001 and 010. -/
def State.cardElems (s : State) (w : Worker) (cmd : Cmd) (c : Card) : Done1 :=
  let r := s.doElems w c
  let z := r.1.encode cmd c r.2.2
  let cs := z.2
  let flags := if c.xfm = 0 then 0 else cardFlags cs
  let s := if c.xfm = 0 then z.1
    else cs.foldl (fun s x => s.countRounded cmd.who.ctx cmd.who.lnh c.tid x.sl [(x.byte, x.val, x.code)]) z.1
  if c.toStream then ⟨s, r.2.1, cs.length, flags, cardStrips cmd c cs⟩
  else
    let us := cs.flatMap fun x =>
      ⟨x.e.n, x.e.dst, x.code, 1⟩ :: (if x.e.sdst = [] then [] else [⟨x.e.n, x.e.sdst, x.byte, 0⟩])
    let y := s.writeUnits w us r.2.1
    ⟨y.1, y.2.1, y.2.2, flags, []⟩

/-- One line compressed: the record that goes to `pos`, and where the next goes (R228). A line that cannot be read gives no
record. -/
def State.compressOne (s : State) (w : Worker) (c : Card) (i pos : Nat) (f : Found1) : State × Found1 × Option Unit1 × Nat :=
  let r := s.readRun w (c.scls = 1) ((8 * (c.src + 128 * i)) % 2 ^ 67) 1024
  match r.2 with
  | .ok line =>
    let tag := lineTagOf line
    let img := BitVec.ofNat 8 tag :: lineImage tag line
    let d := r.1.locate w (c.dcls = 1) .write ((8 * pos) % 2 ^ 67) (8 * img.length)
    match d.2 with
    | .ok ps => (d.1, f, some ⟨i, ps, ofBytes img, img.length⟩, pos + img.length)
    | e => (d.1, f.add i e, none, pos + img.length)
  | e => (r.1, f.add i e, none, pos)

/-- One record expanded (R228, R378); a record whose tag cannot be read ends the card. -/
def State.expandOne (s : State) (w : Worker) (c : Card) (i pos : Nat) (f : Found1) : State × Found1 × Option Unit1 × Nat :=
  let r := s.readRun w (c.scls = 1) ((8 * pos) % 2 ^ 67) 8
  match r.2 with
  | .ok b =>
    let tag := b % 16
    if 8 ≤ tag then (r.1, f.add i (Acs1.stop (α := Nat) 6 pos), none, pos)
    else
      let n := imageLen tag
      let m := if n = 0 then (r.1, .ok 0) else r.1.readRun w (c.scls = 1) ((8 * (pos + 1)) % 2 ^ 67) (8 * n)
      match m.2 with
      | .ok v =>
        let d := m.1.locate w (c.dcls = 1) .write ((8 * (c.dst + 128 * i)) % 2 ^ 67) 1024
        match d.2 with
        | .ok ps => (d.1, f, some ⟨i, ps, lineOfImage tag (bytesOf n v), 128⟩, pos + 1 + n)
        | e => (d.1, f.add i e, none, pos + 1 + n)
      | e => (m.1, f.add i e, none, pos + 1 + n)
  | .skip a l => (r.1, f.add i (Acs1.stop (α := Nat) a l), none, pos)
  | e => (r.1, f.add i e, none, pos)

/-- XFM 011 and 100. A stream destination takes strips of which nothing is written (log 29). -/
def State.cardLines (s : State) (w : Worker) (cmd : Cmd) (c : Card) : Done1 :=
  if c.toStream then ⟨s, .none, 0, 0, cardStrips cmd c []⟩
  else
    let one := if c.xfm = 3 then State.compressOne else State.expandOne
    let r := (List.range c.count).foldl (fun (r : State × Found1 × List Unit1 × Nat) i =>
      if r.2.1.stop.isSome then r
      else
        let x := one r.1 w c i r.2.2.2 r.2.1
        (x.1, x.2.1, match x.2.2.1 with
          | some u => r.2.2.1 ++ [u]
          | none => r.2.2.1, x.2.2.2)) (s, .none, [], if c.xfm = 3 then c.dst else c.src)
    let y := r.1.writeUnits w r.2.2.1 r.2.1
    ⟨y.1, y.2.1, y.2.2, 0, []⟩

/-- The bytes that go to the host, as runs without a gap: memory type, address and bytes. -/
def hostRuns (v : Nat) : List Piece → List (Nat × Nat × List Byte)
  | [] => []
  | .out pa _ mt _ lo len off :: ps =>
    let a := pa + lo / 8
    let bs := bytesOf (len / 8) (bitsOf v off len)
    match hostRuns v ps with
    | (mt', a', bs') :: rs => if a + bs.length = a' then (mt, a, bs ++ bs') :: rs else (mt, a, bs) :: (mt', a', bs') :: rs
    | [] => [(mt, a, bs)]
  | _ :: ps => hostRuns v ps

/-- A piece lies in the host window. -/
def Piece.atHost : Piece → Bool
  | .out pa .. => homeOf pa = .host
  | _ => false

/-- Write whole bytes: what goes to the host leaves as one posted write, the rest goes home. No copy of either outlives the write
(R231). -/
def State.writeBytes (s : State) (w : Worker) (ps : List Piece) (v weight : Nat) : State × Found1 × Nat :=
  let s := (ps.filter Piece.atHost).foldl (fun s p => s.dropCopies w.core (8 * p.place.1.2)) s
  let s := (hostRuns v (ps.filter Piece.atHost)).foldl (fun s r => s.toHost w.ctx r.1 r.2.1 (.write r.2.2)) s
  s.writeUnits w [⟨0, ps.filter fun p => !p.atHost, v, weight⟩] .none

/-- KIND 0x7: the 64-byte entry (R234). -/
def State.cardEntry (s : State) (w : Worker) (c : Card) : Done1 :=
  let r := s.readRun w (c.scls = 1) (8 * c.src) 512
  match r.2 with
  | .ok v =>
    let d := r.1.locate w (c.dcls = 1) .write (8 * c.dst) 512
    match d.2 with
    | .ok ps => let y := d.1.writeBytes w ps v 1; ⟨y.1, y.2.1, y.2.2, 0, []⟩
    | e => ⟨d.1, Found1.none.add 0 e, 0, 0, []⟩
  | e => ⟨r.1, Found1.none.add 0 e, 0, 0, []⟩

def State.performCard (s : State) (w : Worker) (cmd : Cmd) (c : Card) : Done1 :=
  if c.kind = 7 then s.cardEntry w c else if c.xfm ≤ 2 then s.cardElems w cmd c else s.cardLines w cmd c

/-! ## The engine's steps (R231) -/

def State.engOf (s : State) (core eng : Nat) : CopyEngine := (s.core core).eng eng

def State.setRun (s : State) (core eng : Nat) (r : Option CopyRun) : State :=
  s.modCore core fun c => c.setEng eng { c.eng eng with cur := r }

/-- The engine of a core at a command. -/
def workerOf (core eng : Nat) (cmd : Cmd) : Worker :=
  ⟨core, eng, cmd.who.ctx, copyActor cmd.who.ctx cmd.seq, (cardOf cmd.data).xfm ≠ 4⟩

/-- Every store of the die that came before a sequence number is performed: what a team of it may have seen above the home stands
at the home (R298). -/
def State.dieStoresOver (s : State) (core seq : Nat) : Bool :=
  s.ops.all fun o => !(o.actor.isNone && o.seq < seq && dieOfCore (coreOf o.team) = dieOfCore core)
    || o.parts.all fun p => p.over || !p.writes

/-- Perform the accesses of the command in progress, once. -/
def State.performRun (s : State) (core eng : Nat) (r : CopyRun) : State :=
  if r.performed then s
  else
    let c := cardOf r.cmd.data
    let d := s.performCard (workerOf core eng r.cmd) r.cmd c
    let f := d.found.first
    let r := { r with
      performed := true, strips := d.strips, count := d.count, flags := d.flags,
      stat := (f.map fun x => x.2.1).getD 0, loc := (f.map fun x => x.2.2).getD 0,
      doorbell := c.kind = 7 && f.isNone && d.found.viol.isNone }
    let s := d.s.setRun core eng (some r)
    match d.found.viol with
    | some (a, b) => s.engineViol r.cmd.who a b
    | none => s

/-- COPY_COMMAND_START: the engine takes its next command and checks its fields and images (R378), once what its team may have seen
is at its home (R298). A submission entry is written at once (R234). -/
def execCopyCommandStart (core eng : Nat) (s : State) : Out1 :=
  let x := s.engOf core (eng % 2)
  match x.cur, x.cmds with
  | none, cmd :: rest =>
    if !s.dieStoresOver core cmd.seq then .next s
    else
    let c := cardOf cmd.data
    let bad : Option (Nat × Nat) :=
      if c.reserved then some (1, 0) else (c.badImage (s.core core) cmd.who.ctx).map fun l => (2, l)
    let r : CopyRun := {
      cmd := cmd, strips := [], performed := bad.isSome, appending := false, handed := false, doorbell := false, count := 0,
      stat := (bad.map Prod.fst).getD 0, loc := (bad.map Prod.snd).getD 0, flags := 0 }
    let s := s.modCore core fun k => k.setEng (eng % 2) { k.eng (eng % 2) with cur := some r, cmds := rest }
    .next (if c.kind = 7 then s.performRun core (eng % 2) r else s)
  | _, _ => .next s

/-- The other engine has begun to append a card's strips to the same stream (R233). -/
def State.otherAppends (s : State) (core eng : Nat) (c : Card) : Bool :=
  (s.engOf core (1 - eng)).cur.any fun r => r.appending && r.strips ≠ [] &&
    (cardOf r.cmd.data).dcls = c.dcls && (cardOf r.cmd.data).dst % 4 = c.dst % 4

/-- Append a strip to a stream. -/
def Matrix.append (m : Matrix) (c : Card) (st : Strip) : Matrix :=
  let i := c.dst % 4
  if c.dcls = 2 then { m with a := tins m.a i { m.streamA i with strips := (m.streamA i).strips ++ [st] } }
  else { m with b := tins m.b i { m.streamB i with strips := (m.streamB i).strips ++ [st] } }

def Matrix.room (m : Matrix) (c : Card) : Bool :=
  let i := c.dst % 4
  (if c.dcls = 2 then m.streamA i else m.streamB i).strips.length < 16

/-- STRIP_APPEND: the next strip of a card goes to its stream once a position is free (R233). -/
def execStripAppend (core eng : Nat) (s : State) : Out1 :=
  let e := eng % 2
  match (s.engOf core e).cur with
  | none => .next s
  | some r =>
    let c := cardOf r.cmd.data
    if !c.toStream then .next s
    else
      let s := s.performRun core e r
      match (s.engOf core e).cur with
      | none => .next s
      | some r =>
        match r.strips with
        | [] => .next s
        | st :: rest =>
          if !(s.core core).mx.room c || s.otherAppends core e c then .next s
          else
            let s := s.modCore core fun k => { k with mx := k.mx.append c st }
            .next (s.setRun core e (some { r with strips := rest, appending := true }))

/-- NVME_DOORBELL_WRITE: the doorbell follows the entry as one MT-11 write; `ok` is what the target answers (R234, R378). -/
def execNvmeDoorbellWrite (core eng : Nat) (ok : Bool) (s : State) : Out1 :=
  let e := eng % 2
  match (s.engOf core e).cur with
  | none => .next s
  | some r =>
    if !r.doorbell then .next s
    else
      let c := cardOf r.cmd.data
      let w := workerOf core e r.cmd
      let fin (s : State) (stat loc : Nat) : State := s.setRun core e (some { r with doorbell := false, stat := stat, loc := loc })
      let d := s.locate w false .write (8 * c.dba) 32
      match d.2 with
      | .ok ps =>
        let strong (p : Piece) : Piece := match p with
          | .out pa key _ cmp lo len off => .out pa key 3 cmp lo len off
          | p => p
        if ps.any Piece.atHost && !ok then .next (fin d.1 7 c.dba)
        else
          let y := d.1.writeBytes w (ps.map strong) c.dbv 0
          let x := y.2.1.first
          .next (fin y.1 ((x.map fun x => x.2.1).getD 0) ((x.map fun x => x.2.2).getD 0))
      | .stop a b | .skip a b => .next (fin d.1 a b)
      | .viol a b => .next ((fin d.1 0 0).engineViol r.cmd.who a b)

/-- Stalls handed back at the end of a command: those of the range that the engine owns (R231, R87). -/
def Core.handBack (k : Core) (c : Card) (eng : Nat) : Core :=
  { k with owner := (List.range (min (c.rstb + c.rcnt) 128 - c.rstb)).foldl (fun t i =>
      if tget 3 t (c.rstb + i) = BitVec.ofNat 2 (eng + 1) then tput 3 t (c.rstb + i) 0 else t) k.owner }

/-- A completion record (R232). -/
def copyRecord (r : CopyRun) : VReg :=
  BitVec.ofNat 2048 ((cardOf r.cmd.data).tag + r.stat * 2 ^ 16 + r.flags.toNat * 2 ^ 24 + r.count % 2 ^ 64 * 2 ^ 64
    + r.cmd.who.pc.toNat * 2 ^ 128)

/-- COPY_COMMAND_END: the rest of the command's accesses, the stalls handed back, the record, the counter, and the notice
of a nonzero STAT (R231, R377, R378). It waits for strips to be appended and for room on the completion port. -/
def execCopyCommandEnd (core eng : Nat) (s : State) : Out1 :=
  let e := eng % 2
  match (s.engOf core e).cur with
  | none => .next s
  | some r =>
    let s := s.performRun core e r
    match (s.engOf core e).cur with
    | none => .next s
    | some r =>
      let c := cardOf r.cmd.data
      if r.strips ≠ [] || r.doorbell then .next s
      else
        let s := if r.handed then s
          else (s.modCore core fun k => k.handBack c e).setRun core e (some { r with handed := true })
        let full := c.csel = 1 && 16 ≤ (s.engOf core e).cpl.length
        if full then .next s
        else
          let s := s.modCore core fun k =>
            let x := k.eng e
            k.setEng e { x with
              cur := none, completed := x.completed + 1
              cpl := if c.csel = 1 then x.cpl ++ [⟨r.cmd.who.ctx, copyRecord r, r.cmd.who.team⟩] else x.cpl }
          let s := (s.modTeam r.cmd.who.team fun t => t.complete .cp r.cmd.seq).ownFlips core
          .next (if r.stat = 0 then s else s.engineNotice r.cmd.who e r.stat r.loc)

end Sys2Proof.Machine
end

