-- ==== Sys2Proof/Machine/CrossLane.lean ====
section
/-!
DEFINITION. Thread numbers, broadcasts, slice moves, the pattern crossbar and companding tables (R69, R186–R192).
-/

namespace Sys2Proof.Machine

/-- `vtid` (R186). -/
def execVtid (xp : Option Xp) (sel : BitVec 2) (fs : BitVec 4) (vd : BitVec 7) (s : State) : Out1 :=
  let d := s.slot xp fs
  vecOp s [(0, fs)] [(d.blocked, vd)] true fun t =>
    t.writeElems xp d vd fun i =>
      let o := ownerOf d.f.width i
      let id := (t.lid o).getD 0
      some (Val.ofQ false (Q.ofInt ((match sel.toNat with
        | 0 => id
        | 1 => id % 32
        | 2 => o
        | _ => i) : Nat)))

/-- `vbcast` (R187). -/
def execVbcast (xp : Option Xp) (fs : BitVec 4) (xa : BitVec 5) (vd : BitVec 7) (s : State) : Out1 :=
  let w := (s.slot xp fs).f.width
  vecOp s [(0, fs)] [(false, vd)] true fun t => t.writeBits xp w vd fun _ => (t.getX xa.toNat).toNat % 2 ^ w

/-! ## Slice moves (R188, R189) -/

/-- The slice of the thread of a logical id; 0 where it is absent (R188). -/
def Team.sliceOfLid (t : Team) (v : VReg) (id : Nat) : Word :=
  match t.slotOfLid id with
  | some i => sliceOf v i
  | none => 0

/-- A slice move: `src` gives, from the slot and its thread's logical id, the source's logical id, none when absent. -/
def sliceMove (xp : Option Xp) (va vd : BitVec 7) (regs : List (BitVec 7)) (s : State)
    (src : Team → Nat → Nat → Option Nat) : Out1 :=
  vecOp s [] ((va :: vd :: regs).map fun r => (false, r)) true fun t =>
    let v := t.getV va.toNat
    t.writeSlices xp vd fun i =>
      match src t i ((t.lid i).getD 0) with
      | some id => t.sliceOfLid v id
      | none => 0

/-- `vmov` (R189). -/
def execVmov (xp : Option Xp) (va vd : BitVec 7) (s : State) : Out1 :=
  sliceMove xp va vd [] s fun _ _ own => some own

/-- `vbcastl` (R189). -/
def execVbcastl (xp : Option Xp) (id : BitVec 10) (va vd : BitVec 7) (s : State) : Out1 :=
  sliceMove xp va vd [] s fun _ _ _ => some id.toNat

/-- `vshfl` (R189). -/
def execVshfl (xp : Option Xp) (vb va vd : BitVec 7) (s : State) : Out1 :=
  sliceMove xp va vd [vb] s fun t i _ => some (t.shflSrc vb i)

/-- `vrot` (R189). -/
def execVrot (xp : Option Xp) (o : VRotOps) (s : State) : Out1 :=
  sliceMove xp o.va o.vd [] s fun _ _ own => rotSrc o own

/-- `vxchg` (R189). -/
def execVxchg (xp : Option Xp) (m : BitVec 5) (va vd : BitVec 7) (s : State) : Out1 :=
  sliceMove xp va vd [] s fun _ _ own => some (own ^^^ m.toNat)

/-! ## One slice or element (R190) -/

/-- `vgetx` (R190). -/
def execVgetx (o : VElt) (s : State) : Out1 :=
  let w := (s.slot none o.fs).f.width
  vecOp s (if o.elt then [(0, o.fs)] else []) [(false, o.v)] (!o.elt || o.idx.toNat < 2048 / w) fun t =>
    let v := t.getV o.v.toNat
    t.setX o.x.toNat (if o.elt then BitVec.ofNat 64 (bitsOf v.toNat (o.idx.toNat * w) w) else t.sliceOfLid v o.idx.toNat)

/-- `vsetx` (R190). -/
def execVsetx (o : VElt) (s : State) : Out1 :=
  let w := (s.slot none o.fs).f.width
  vecOp s (if o.elt then [(0, o.fs)] else []) [(false, o.v)] (!o.elt || o.idx.toNat < 2048 / w) fun t =>
    let v := t.getV o.v.toNat
    let x := t.getX o.x.toNat
    if o.elt then
      if t.active.getLsbD (ownerOf w o.idx.toNat) then
        (t.setV o.v.toNat (BitVec.ofNat 2048 (withBits v.toNat (o.idx.toNat * w) w x.toNat))).mend o.v.toNat
          (sliceFull w fun e => e = o.idx.toNat)
      else t
    else match t.slotOfLid o.idx.toNat with
      | some i => if t.active.getLsbD i then (t.setV o.v.toNat (withSlice v i x)).mend o.v.toNat (· = i) else t
      | none => t

/-! ## Patterns and companding tables (R69, R70, R191, R192) -/

/-- `vpatld` (R191). -/
def execVpatld (p : BitVec 3) (va : BitVec 7) (s : State) : Out1 :=
  finish s (checked s [] [(false, va)] true fun s =>
    .done (s.modCore s.cur.core fun c => { c with pat := tins c.pat p.toNat (s.cctx, s.ct.getV va.toNat) }))

/-- The pattern a core holds for a context (R192). -/
def State.pattern? (s : State) (p : Nat) : Option VReg :=
  match tfind s.cc.pat p with
  | some e => if e.1 = s.cctx then some e.2 else none
  | none => none

/-- `vpat` (R192). -/
def execVpat (xp : Option Xp) (p : BitVec 3) (va vd : BitVec 7) (s : State) : Out1 :=
  let pat := (s.pattern? p.toNat).getD 0
  vecOp s [] [(false, va), (false, vd)] (s.pattern? p.toNat).isSome fun t =>
    let v := (t.getV va.toNat).toNat
    t.writeSlices xp vd fun i => BitVec.ofNat 64 (ofBytes ((List.range 8).map fun b =>
      BitVec.ofNat 8 (bitsOf v (8 * bitsOf pat.toNat (8 * (8 * i + b)) 8) 8)))

/-- A table that is loaded while a command stands is one more that the command may take (R70). -/
def Cmd.loaded (t : Nat) (v : VReg) (c : Cmd) : Cmd := { c with tabs := c.tabs ++ [(t, v)] }

def CopyEngine.loaded (t : Nat) (v : VReg) (e : CopyEngine) : CopyEngine :=
  { e with cmds := e.cmds.map (Cmd.loaded t v), cur := e.cur.map fun r => { r with cmd := r.cmd.loaded t v } }

def QuarterOp.loaded (t : Nat) (v : VReg) (q : QuarterOp) : QuarterOp :=
  let add (img : Word) (l : List VReg) : List VReg := if (fmtOf img).cmpd = t then l ++ [v] else l
  { q with tabA := add q.imgA q.tabA, tabB := add q.imgB q.tabB }

/-- Table `t` of a core is replaced by one of a context: atomically for instructions, while a copy or matrix command that has been
accepted may take the old or the new for each element (R70). -/
def Core.loadTable (c : Core) (t ctx : Nat) (v : VReg) : Core := { c with
  tbl := tins c.tbl t (ctx, v)
  eng0 := c.eng0.loaded t v
  eng1 := c.eng1.loaded t v
  mx := { c.mx with queue := c.mx.queue.map (QuarterOp.loaded t v), pass := c.mx.pass.map (QuarterOp.loaded t v) } }

/-- `fscmp` (R69): the source register is checked first for being allocated. -/
def execFscmp (t : BitVec 4) (va : BitVec 7) (s : State) : Out1 :=
  finish s (checked s [] [(false, va)] true fun s =>
    let v := s.ct.getV va.toNat
    if tableOk v then .done (s.modCore s.cur.core fun c => c.loadTable t.toNat s.cctx v)
    else .trap s 3 s.ct.active (formatDetail 6 t.toNat 3 0))

end Sys2Proof.Machine
end

