-- ==== Sys2Proof/Machine/Preempt.lean ====
section
/-!
DEFINITION. Parking (R42), eviction of teams and of whole blocks and their return (R44–R46, R243, R258), page-fault swap (R47,
R344, R345, R350), the switch of functions (R315), the handler timeout (R342), and the end of teams and blocks (R153).
-/

namespace Sys2Proof.Machine

/-! ## Parking (R42) -/

/-- A wait that counts toward parking. -/
def WaitKind.parks (w : WaitKind) : Bool :=
  let wide (b : BarRef) : Bool := match b with
    | .core .. => false
    | _ => true
  match w with
  | .yield .. | .qpop _ => true
  | .bar b _ | .barwt b _ => wide b
  | _ => false

/-- Every resident team of the block waits as R42 says; a standing team waits for nothing (R35). -/
def State.parkable (s : State) (b : Nat) : Bool :=
  (s.blockTeams b).all fun k =>
    let t := s.team k
    t.place ≠ .resident || t.fault.isSome || t.empty || (!s.couldRun k && t.hold = none && t.latched = none &&
      t.wait.any fun w => w.kind.parks && !(match w.kind with
        | .yield c n => t.count c ≤ n
        | _ => false))

/-- PARK_BLOCK: the block's registers go to the paddock while another bound block is ready (R42); the promised block is
never parked (R48). -/
def execParkBlock (core slot : Nat) (s : State) : Out1 :=
  let b := core * 32 + slot
  .next (
    if (s.block b).st ≠ .bound || s.isPromised b || !s.parkable b
        || !((s.coreBlocks core).any fun c => c ≠ b && (s.blockTeams c).any fun k => s.ready k) then s
    else ((s.present b).foldl (fun s k => s.modTeam k fun t => { t with frameBad := false })
      (s.modBlock b fun x => { x with st := .parked })).countEv core (s.block b).ctx 0x51 1)

/-- A frame or paddock image that holds an uncorrectable error kills the context; DETAIL is its physical address, which the
manual leaves to the device (R350, R361). -/
def State.swapFailure (s : State) (k : Nat) : State :=
  let f := s.freeVal
  f.2.fatal (s.ctxOf k) (s.recOf k 0x12 kindFatal (s.team k).pc (BitVec.ofNat 64 (f.1 % 2 ^ 52)) (s.team k).active false)

/-- A team of a parked block has become ready: it could run, its `yield` may continue, or its pages are present. -/
def State.wakes (s : State) (k : Nat) : Bool :=
  let t := s.team k
  s.couldRun k || (t.place = .swapped && t.fault.any fun f => f.stage = .present)
    || (t.place = .resident && t.wait.any fun w => match w.kind with
      | .yield c n => t.count c ≤ n
      | _ => false)

/-! ## Saving and restoring a team (R44, R243, R258) -/

/-- The team stands where it may be taken off its core: at a precise point, outside handler mode, with no exception that it has
still to take and no propagation of its own in flight (R46, R342, R353, R258). -/
def State.evictable (s : State) (k : Nat) : Bool :=
  let t := s.team k
  let q := s.quad (quadOfCore (coreOf k))
  t.precise && t.handler.isNone && t.latched.isNone && !(q.owner = some k && q.prop.isSome)

/-- The team's tiles leave the core with it (R243). -/
def State.saveTiles (s : State) (k : Nat) : State :=
  let t := s.team k
  let c := s.core (coreOf k)
  let imgs := t.tiles.map fun e => let x := c.tile e.2; (⟨e.1, x.tid, x.elems, x.bad⟩ : TileImage)
  let s := { s with ops := s.ops.map fun (o : MemOp) => if o.team = k then { o with tile := none } else o }
  (s.modCore (coreOf k) fun c => { c with tiles := c.tiles.filter fun e => e.2.team ≠ k }).modTeam k fun t =>
    { t with tileSave := imgs, tiles := [] }

/-- The images come back into free tiles, under their handles. -/
def State.loadTiles (s : State) (k : Nat) : State :=
  let s := (s.team k).tileSave.foldl (fun s (x : TileImage) =>
    match (s.core (coreOf k)).freeTile with
    | none => s
    | some i => (s.modCore (coreOf k) fun c => { c with tiles := tins c.tiles i ⟨k, x.tid, x.elems, x.bad⟩ }).modTeam k
        fun t => { t with tiles := tins t.tiles x.handle i }) s
  s.modTeam k fun t => { t with tileSave := [] }

/-- A holder's clause array goes with it, and the array is free, cleared (R258). -/
def State.saveCx (s : State) (k : Nat) : State :=
  let q := quadOfCore (coreOf k)
  if (s.quad q).owner = some k then (s.modTeam k fun t => { t with cxSave := some (s.quad q).cx }).freeCx q else s

/-- The wait of an instruction that has taken a place in an order of its core or quad (R257, R297), which it loses where the team
leaves: the instruction is issued again when the team returns (R343, R353). -/
def WaitKind.reissued : WaitKind → Bool
  | .cxClaim | .strip .. => true
  | _ => false

/-- A team leaves its core for the paddock (R44). A waiting `cx.claim` is no longer queued, and a waiting `tmma` has no turn. -/
def State.evictTeam (s : State) (k : Nat) : State :=
  let s := (((s.saveTiles k).saveCx k).leaveSlot k).dropClaim k
  (s.modTeam k fun t => { t with
    place := .evicted, preempt := none, frameBad := false
    wait := t.wait.filter fun w => !w.kind.reissued }).countEv (coreOf k) (s.ctxOf k) 0x50 1

/-! ## Whole blocks (R45) -/

/-- The stalls of a block leave with their contents and owners; a team of it that is swapped out returns as the evicted do. -/
def State.saveStalls (s : State) (b : Nat) : State :=
  let x := s.block b
  let c := s.core (b / 32)
  let mine (w : Nat) : Bool := 512 * x.stb ≤ w && w < 512 * (x.stb + x.stn)
  let img : StallImage := ⟨(List.range x.stn).map fun i => tget 3 c.owner (x.stb + i), c.scratch.filter fun e => mine e.1,
    c.scratchBad.filter mine⟩
  let s := (s.modCore (b / 32) fun c => { c.clearStalls x.stb x.stn with owner := (c.setOwners x.stb x.stn 3).owner }).modBlock b
    fun x => { x with stalls := some img, st := .parked }
  { s with teams := tmap (fun k t => if blockKeyOf k = b && t.place = .swapped then { t with place := .evicted } else t) s.teams }

/-- They come back to the same range. -/
def State.loadStalls (s : State) (b : Nat) : State :=
  let x := s.block b
  match x.stalls with
  | none => s
  | some i =>
    let put (c : Core) : Core := { c.clearStalls x.stb x.stn with
      scratch := i.words.foldl (fun t e => tins t e.1 e.2) c.scratch
      scratchBad := i.bad ++ c.scratchBad
      owner := (List.range x.stn).foldl (fun t j => tput 3 t (x.stb + j) (i.owners.getD j 0)) c.owner }
    (s.modCore (b / 32) put).modBlock b fun x => { x with stalls := none }

/-- Mark the teams of a plan, and unmark those of the core that are not in it and that no switch of functions waits for. -/
def State.markPreempt (s : State) (core : Nat) (ks : List Nat) : State :=
  { s with teams := tmap (fun k t =>
      if coreOf k ≠ core then t
      else if ks.contains k then { t with preempt := t.preempt <|> some s.clock }
      else if s.switching (s.ctxOf k) then t
      else { t with preempt := none }) s.teams }

/-- Teams of a core that no plan takes any longer are unmarked. -/
def State.unmark (s : State) (core : Nat) : State :=
  if s.teams.all fun e => coreOf e.1 ≠ core || e.2.preempt = none then s
  else s.markPreempt core (((s.planOf core).map fun p => (p.2.2.2).filter fun k => (s.team k).preempt.isSome).getD [])

/-- EVICT_TEAMS: room is made on a core for the next block of the launch that its die serves, or for the promised block that is
bound there and lacks it (R44, R45, R48). Chosen teams issue
no more; once all stand at precise points they leave together (R46). -/
def execEvictTeams (core ctx lnh : Nat) (s : State) : Out1 :=
  .next (match s.planOf core with
    | none => s.unmark core
    | some (c, h, bs, ks) =>
      if 256 ≤ core || c ≠ ctx || h ≠ lnh then s
      else if ks.all s.evictable then
        bs.foldl (fun s b => s.saveStalls b) (ks.foldl (fun s k => s.evictTeam k) (s.markPreempt core []))
      else ks.foldl (fun s k => if (s.team k).handler.isNone then s.leaveSlot k else s) (s.markPreempt core ks))

/-! ## Coming back (R42, R44, R45, R47) -/

/-- UNPARK_BLOCK: a team of the block has become ready, or it is the promised block (R42, R48, log 46). -/
def execUnparkBlock (core slot : Nat) (s : State) : Out1 :=
  let b := core * 32 + slot
  let x := s.block b
  .next (
    if x.st ≠ .parked || x.stalls.isSome || s.switchedOut x.ctx || s.regsFree core < s.parkedRegs b
        || !(s.isPromised b || (s.blockTeams b).any fun k => s.wakes k) || s.outranked b then s
    else match (s.present b).find? fun k => (s.team k).frameBad with
      | some k => s.swapFailure k
      | none => s.modBlock b fun x => { x with st := .bound })

/-- A returning holder's array is written back, and the claim is its again (R258). -/
def State.loadCx (s : State) (k : Nat) : State :=
  match (s.team k).cxSave with
  | none => s
  | some a => (s.modQuad (quadOfCore (coreOf k)) fun q => { q with owner := some k, cx := a, prop := none }).modTeam k
      fun t => { t with cxSave := none }

/-- EVICTED_TEAM_RETURN: the oldest evicted team of the core that lacks nothing else returns when registers are free; a
block evicted whole takes its stalls back first (R44, R45), and a parked block that has kept teams stays parked (R42). A paddock
image that holds an uncorrectable error is lost (R361). -/
def execEvictedTeamReturn (t : TeamId) (s : State) : Out1 :=
  let k := teamIdKey t
  let core := coreOf k
  .next (
    if s.oldest (s.returners core fun _ => false) ≠ some k || s.regsFree core < s.regsBack k then s
    else if (s.team k).frameBad then s.swapFailure k
    else
      let s := if s.joinsParked k then s else (s.loadStalls (blockKeyOf k)).modBlock (blockKeyOf k) fun b => { b with st := .bound }
      let s := s.modTeam k fun t => { t.allDue with place := .resident, fault := none }
      (s.loadTiles k).loadCx k)

/-! ## Page-fault swap (R47, R344, R345, R350) -/

/-- Write or queue the replayable record of a team's fault (R344, R345). -/
def State.reportFault (s : State) (k : Nat) (f : PendingFault) : State :=
  let r := s.faultRec k kindReplayable f
  let s := s.queueRecord (s.ctxOf k) r
  let st : FaultStage := if (s.ctx (s.ctxOf k)).pending.contains r then .recording else .waiting
  s.modTeam k fun t => { t with fault := some { f with stage := st } }

/-- TRANSLATION_FAULT_SWAP: once the team stands at a precise point and its stores are performed too, its state goes to its frame,
its registers and tiles are freed, and its record is written (R47, R243, R344). An evicted team's save serves both. -/
def execTranslationFaultSwap (t : TeamId) (s : State) : Out1 :=
  let k := teamIdKey t
  .next (match (s.team k).fault with
    | none => s
    | some f =>
      if !s.hasTeam k || f.stage ≠ .swapping || !(s.team k).precise || (s.team k).count .st ≠ 0 then s
      else if (s.team k).place = .resident then
        let s := ((s.saveTiles k).modTeam k fun t => { t with
          place := .swapped, preempt := none, newFrame := none, frameBad := false }).countEv (coreOf k) (s.ctxOf k) 0x52 1
        s.reportFault k f
      else s.reportFault k f)

/-- The translations that a retry makes: those of every thread of the instruction; of a fetch, the word that DETAIL names, or the
first at `pc` where it names a descriptor; of a report, the word that DETAIL names. -/
def PendingFault.retries (f : PendingFault) (pc : Word) : List WalkReq :=
  let d := f.detail.toNat
  if f.walks.isEmpty then [⟨0, if bitsOf d 61 3 = 6 then pc.toNat else bitsOf d 0 56, bitsOf d 56 2, bitsOf d 61 3 = 5⟩] else f.walks

/-- One translation of a retry, and the slot and DETAIL of its fault. -/
def State.retryOne (s : State) (k : Nat) (w : WalkReq) : State × Option (Nat × Word) :=
  let acc := accOfCode w.acc
  let r := if nonCanonical w.va then (s, XRes.fault 0 7 w.va) else s.walk (s.teamActor k) w.va acc true
  (r.1, match r.2 with
    | .fault reason l a => some (w.slot, if w.shadow then faultDetail 5 l w.va acc else faultDetail reason l a acc)
    | _ => none)

/-- The translations of a retry in order, with those that fault. -/
def State.retryAll (s : State) (k : Nat) (ws : List WalkReq) : State × List (Nat × Word) :=
  ws.foldl (fun r w => let x := r.1.retryOne k w; (x.1, r.2 ++ x.2.toList)) (s, [])

/-- REPLAY_RETRY: after RESP 00 the walks of every thread are made again; a fault writes a new record (R345, R357). -/
def execReplayRetry (t : TeamId) (s : State) : Out1 :=
  let k := teamIdKey t
  .next (match (s.team k).fault with
    | none => s
    | some f =>
      if !s.hasTeam k || f.stage ≠ .retry then s
      else
        let r := s.retryAll k (f.retries (s.team k).pc)
        match r.2 with
        | [] => r.1.modTeam k fun t => { t with fault := some { f with stage := .present } }
        | x :: xs =>
          let low := xs.foldl (fun a b => if b.1 < a.1 then b else a) x
          r.1.reportFault k { f with
            detail := low.2, mask := if f.wide then f.mask else maskOfList (r.2.map Prod.fst) })

/-- SWAP_RESTORE: a team whose pages are present is restored when registers and tiles are free, and reissues its instruction
(R47, R243). -/
def execSwapRestore (t : TeamId) (s : State) : Out1 :=
  let k := teamIdKey t
  let x := s.team k
  .next (
    if !s.hasTeam k || x.place ≠ .swapped || x.hold.isSome || !(x.fault.all fun f => f.stage = .present)
        || (s.block (blockKeyOf k)).st ≠ .bound || s.regsFree (coreOf k) < s.regsOf k
        || 16 < (s.core (coreOf k)).tiles.length + x.tileSave.length || s.outranked (blockKeyOf k) then s
    else if x.frameBad then s.swapFailure k
    else (s.modTeam k fun t => { t.allDue with place := .resident, fault := none }).loadTiles k)

/-! ## Functions (R315, R327) -/

/-- The virtual functions that have an admitted, unfinished launch. -/
def State.vfWaiting (s : State) (n : Nat) : Bool :=
  s.ctxs.any fun c => c.2.vf = n && c.2.en && !c.2.killed
    && c.2.launches.any fun l => !l.2.done && l.2.finished.length < l.2.rcd.blocks

/-- The function that is active next, in ascending order with wrap-around. -/
def State.nextVf (s : State) : Nat :=
  (((List.range 16).map fun i => (s.activeVf + i) % 16 + 1).find? s.vfWaiting).getD s.activeVf

/-- The resident teams of the active function leave together (R315): their blocks stay bound with ST 10. -/
def State.clearFunction (s : State) (out : List Nat) : State :=
  let s := out.foldl (fun s k => s.evictTeam k) s
  { s with blocks := tmap (fun b x =>
      if s.switching x.ctx && x.st = .bound && (s.blockTeams b).all fun k => (s.team k).place ≠ .resident
      then { x with st := .parked } else x) s.blocks }

/-- VF_SLICE_SWITCH: a function that has been active for VFSLICE is followed by the next that has work. The switch waits until
every team of the outgoing function may leave (R315, R342). -/
def execVfSliceSwitch (s : State) : Out1 :=
  let next := s.vfNext.getD s.nextVf
  let due := s.vfNext.isSome || (next ≠ s.activeVf && (s.activeVf = 0 || !s.vfWaiting s.activeVf
    || s.sliceAt + s.regs.vfslice.toNat * clocksPerUs ≤ s.clock))
  .next (
    if !due then s
    else
      let s := { s with vfNext := some next }
      let out := (tkeys s.teams).filter fun k => s.switching (s.ctxOf k) && (s.team k).place = .resident && !(s.team k).ended
      if out.all s.evictable then { s.clearFunction out with activeVf := next, vfNext := none, sliceAt := s.clock }
      else out.foldl (fun s k => (if (s.team k).handler.isNone then s.leaveSlot k else s).modTeam k
        fun t => { t with preempt := t.preempt <|> some s.clock }) s)

/-- HANDLER_TIMEOUT: a pre-emption that has waited for a handler for HTMO kills the context (R342). -/
def execHandlerTimeout (t : TeamId) (s : State) : Out1 :=
  let k := teamIdKey t
  let x := s.team k
  let htmo := ((s.launchOf? k).map fun l => l.rcd.htmo).getD 0
  .next (match x.preempt, x.handler with
    | some c, some h =>
      if s.hasTeam k && c + (if htmo = 0 then 100 else htmo) * clocksPerUs ≤ s.clock then
        s.fatal (s.ctxOf k) (s.recOf k 0x11 kindFatal x.pc h.entry x.active false)
      else s
    | _, _ => s)

/-! ## Issue, waits and the end of a team -/

/-- ISSUE_SLOT_CHOICE (R43). -/
def execIssueSlotChoice (core slot : Nat) (s : State) : Out1 := .next (s.chooseTeam core slot)

/-- BARRIER_PHASE_COMPLETE (R159); its waiters acquire as they go on (R160). -/
def execBarrierPhaseComplete (b : BarRef) (s : State) : Out1 :=
  .next (if s.phaseComplete b then s.completePhase b else s)

/-- YIELD_RESUME: the counter allows it, and the team is served next from CONTPC (R155). -/
def execYieldResume (t : TeamId) (s : State) : Out1 :=
  let k := teamIdKey t
  let x := s.team k
  .next (match x.wait with
    | some ⟨.yield c n, _, _⟩ =>
      if s.hasTeam k && x.count c ≤ n && x.place = .resident && x.hold = none && (s.block (blockKeyOf k)).st = .bound then
        (s.modTeam k fun t => { t with pc := t.contpc }).retireWaiting k
      else s
    | _ => s)

/-- The number by which a long-stall notice names a wait (R354). -/
def WaitKind.stallNum (w : WaitKind) : Option Nat :=
  match w with
  | .bar .. => some 0
  | .talloc => some 1
  | .cxClaim => some 2
  | .qpop _ => some 3
  | .regroup _ => some 4
  | .waitc .. => some 5
  | .launch .. => some 6
  | .qpush .. => some 7
  | .yield .. => some 8
  | _ => none

/-- LONG_STALL: a wait of 2^31 clocks is reported once (R354). -/
def execLongStall (t : TeamId) (s : State) : Out1 :=
  let k := teamIdKey t
  let x := s.team k
  .next (match x.wait with
    | none => s
    | some w => match w.kind.stallNum with
      | none => s
      | some n =>
        if !s.hasTeam k || w.noted || s.clock < w.since + 2 ^ 31 then s
        else (s.modTeam k fun t => { t with wait := some { w with noted := true } }).notice (s.ctxOf k)
          (s.recOf k 0x14 kindNotice x.pc (BitVec.ofNat 64 n) x.active false))

/-- Bindings of a context leave a core with its last block there (R219). -/
def State.unbindQueues (s : State) (core ctx : Nat) : State :=
  if (s.coreBlocks core).any fun b => (s.block b).ctx = ctx then s
  else s.modCore core fun c => { c with q := c.q.filter fun e => e.2.ctx ≠ ctx }

/-- A block whose teams have all ended completes: its stalls go to no owner and its slot is empty (R85, R153). -/
def State.completeBlock (s : State) (b : Nat) : State :=
  if s.blockTeams b ≠ [] then s
  else
    let x := s.block b
    let s := s.modCore (b / 32) fun c => if x.stalls.isNone then c.setOwners x.stb x.stn 3 else c
    let s := { s with blocks := tdel s.blocks b, teams := s.teams.filter fun e => blockKeyOf e.1 ≠ b }
    (s.modCtx x.ctx fun c => { c with launches := tmap (fun h l =>
      if h = x.lnh then { l with finished := x.bidx :: l.finished } else l) c.launches }).unbindQueues (b / 32) x.ctx

/-- The team ends: its tiles and its claim are freed (R153). -/
def State.endTeam (s : State) (k : Nat) : State :=
  let q := quadOfCore (coreOf k)
  let s := s.modCore (coreOf k) fun c => { c with tiles := c.tiles.filter fun e => e.2.team ≠ k }
  let s := if (s.quad q).owner = some k then s.freeCx q else s
  let s := s.modTeam k fun t => { t with ended := true, tiles := [], tileSave := [] }
  (s.leaveSlot k).completeBlock (blockKeyOf k)

/-- TEAM_END: no unexited thread in its slots, its counters zero, and none of its home threads elsewhere (R153). A failure that
no instruction is left to report is reported as the team ends (log 33). -/
def execTeamEnd (t : TeamId) (s : State) : Out1 :=
  let k := teamIdKey t
  let x := s.team k
  .next (
    if !s.hasTeam k || x.ended || !x.empty || !x.quiet || s.homeAway (blockKeyOf k) (idxOf k)
        || s.ops.any (fun o => o.by k) || x.place ≠ .resident || x.hold.isSome then s
    else match x.reports with
      | [] => s.endTeam k
      | r :: rs => (s.modTeam k fun t => { t with reports := rs }).fatalOrHold k r.cause r.pc r.detail r.mask true)

/-! ## The trap queue -/

/-- TRAP_RECORD_WRITE: the oldest record that waits for room is written (R344, R345). -/
def execTrapRecordWrite (ctx : Nat) (s : State) : Out1 :=
  .next (match (s.ctx ctx).pending with
    | [] => s
    | r :: rs =>
      let w := s.tryRecord ctx r
      if !w.2 || (w.1.ctx ctx).killed then w.1
      else
        let s := w.1.modCtx ctx fun c => { c with pending := rs }
        if r.kind = kindReplayable then
          s.modTeam r.team fun t => { t with fault := t.fault.map fun f =>
            if f.stage = .recording then { f with stage := .waiting } else f }
        else s)

/-- TRAP_QUEUE_POLL: the device reads V and RESP of an entry it wrote (R344, R345, R413). -/
def execTrapQueuePoll (ctx entry : Nat) (s : State) : Out1 :=
  .next (match (s.ctx ctx).entries.find? fun e => e.idx = entry with
    | none => s
    | some e =>
      let r := s.pollEntry ctx e
      r.1.settle ctx r.2)

end Sys2Proof.Machine
end

