-- ==== Sys2Proof/Machine/Errors.lean ====
section
/-!
DEFINITION. Uncorrectable errors by structure (R361, R363, R365, R383, R388), and the overflow of a counter (R325, R327).
-/

namespace Sys2Proof.Machine

/-! ## Uncorrectable errors -/

/-- A line fails at its home (R363). -/
def State.failLine (s : State) (line unit : Nat) : State :=
  if isMem (128 * line) then { s with failed := (line, unit) :: s.failed.filter fun e => e.1 ≠ line } else s

/-- A line fails where it is written back: in HBM, or in the second tier. -/
def dramUnit (line : Nat) : Nat := if 128 * line < 2 ^ 39 then 0 else 2

/-- Add an item to a list of items that hold errors. -/
def addBad {α : Type} [DecidableEq α] (x : α) (l : List α) : List α := if l.contains x then l else x :: l

/-- The strip at a position of a stream is lost. -/
def Stream.spoil (t : Stream) (pos : Nat) : Stream := { t with strips := t.strips.modify pos fun x => { x with bad := true } }

def Matrix.spoil (m : Matrix) (b : Bool) (stream pos : Nat) : Matrix :=
  if b then { m with b := tmap (fun i t => if i = stream then t.spoil pos else t) m.b }
  else { m with a := tmap (fun i t => if i = stream then t.spoil pos else t) m.a }

/-- UNCORRECTABLE_ERROR (R361): a cached copy is dropped; anything else is marked failed. -/
def State.uncorrectable (s : State) (site : ErrSite) : State :=
  match site with
  | .l1 core line => s.modCore core fun c => { c with l1 := c.l1.filter fun l => l.pline ≠ line }
  | .l1i core line => s.modCore core fun c => { c with l1i := c.l1i.filter fun l => l.pline ≠ line }
  | .rdc die line => s.rdcDropLine die line
  | .coreTlb core e => s.modCore core fun c => { c with tlb := c.tlb.eraseIdx e }
  | .quadTlb quad e => s.modQuad quad fun q => { q with tlb := q.tlb.eraseIdx e }
  | .rangeTlb quad e => s.modQuad quad fun q => { q with ranges := q.ranges.eraseIdx e }
  | .l2Clean _ => s
  | .l2Dirty line => if 128 * line < 2 ^ 39 then s.failLine line 1 else s
  | .dram line => s.failLine line (dramUnit line)
  | .lineTag line tag => if isMem (128 * line) then { s.failLine line 3 with lineTag := tput 0 s.lineTag line tag } else s
  | .register t reg slot => s.modTeam (teamIdKey t) fun t => { t with badSlices := addBad (reg, slot) t.badSlices }
  | .scratch core word => if word < 65536 then s.modCore core fun c => { c with scratchBad := addBad word c.scratchBad } else s
  | .accumulator core tile elem =>
    if (tfind (s.core core).tiles tile).isNone || 1024 ≤ elem then s
    else s.modTile core tile fun x => { x with bad := addBad elem x.bad }
  | .strip core b stream pos => s.modCore core fun c => { c with mx := c.mx.spoil b stream pos }
  | .frame t => s.modTeam (teamIdKey t) fun t => if t.hold.isSome || t.place = .swapped then { t with frameBad := true } else t
  | .paddock core slot =>
    (s.blockTeams (core * 32 + slot)).foldl (fun s k => s.modTeam k fun t =>
      if t.place = .evicted || (t.place = .resident && (s.block (blockKeyOf k)).st = .parked) then { t with frameBad := true } else t) s
  | .cxCell quad row col => s.modQuad quad fun q => let q := q.stopProp s.clock; { q with cx := { q.cx with badCells := addBad (row, col) q.cx.badCells } }
  | .cxRow quad row => s.modQuad quad fun q => let q := q.stopProp s.clock; { q with cx := { q.cx with badRows := addBad row q.cx.badRows } }
  | .cxTrail quad e => s.modQuad quad fun q => let q := q.stopProp s.clock; { q with cx := { q.cx with badTrail := addBad e q.cx.badTrail } }

def execUncorrectableError (site : ErrSite) (s : State) : Out1 := .next (s.uncorrectable site)

/-! ## Counters -/

/-- The last count before a wrap. -/
def cntMax : BitVec 48 := BitVec.allOnes 48

/-- A counter that stands at its last count counts one more of its event (R325). -/
def Ev.wrap (e : Ev) : Ev × Bool := if e.cnt = cntMax then e.bump (e.sel.toNat % 2 ^ 16) 1 else (e, false)

/-- Raise entry 1 of a function when an overflow asks for it (R327). -/
def State.overflowIrq (s : State) (fn : Nat) (sel : Word) (wrapped : Bool) : State :=
  if wrapped && sel.getLsbD 30 then s.irq fn 1 else s

/-- COUNTER_OVERFLOW: an enabled counter at 2^48 − 1 wraps (R325), of a core for the functions resident there
(R327); a fabric-port counter has no select (R317, log 9). -/
def execCounterOverflow (c : CounterRef) (s : State) : Out1 :=
  .next (match c with
    | .core core n =>
      ((s.core core).ev.filter fun e => e.1 % 8 = n && (s.residentFns core).contains (e.1 / 8)).foldl (fun s e =>
        let r := e.2.wrap
        (s.modCore core fun c => { c with ev := tins c.ev e.1 r.1 }).overflowIrq (e.1 / 8) e.2.sel r.2) s
    | .l2 slice n =>
      match tfind s.regs.l2c (4 * slice + n) with
      | none => s
      | some x =>
        let r := Ev.wrap ⟨x.sel, x.cnt⟩
        ({ s with regs := { s.regs with l2c := tins s.regs.l2c (4 * slice + n) ⟨r.1.sel, r.1.cnt, x.fn⟩ } }).overflowIrq x.fn x.sel r.2
    | .port port n =>
      if tget 0 s.regs.fpc (16 * port + n) = cntMax then
        { s with regs := { s.regs with fpc := tput 0 s.regs.fpc (16 * port + n) 0 } }
      else s)

end Sys2Proof.Machine
end

