-- ==== Sys2Proof/Machine/Fabric.lean ====
section
/-!
DEFINITION. The Relser fabric from both ends (R318–R322, R369–R374, R408): links and incarnations, packets at their target,
answers at their source, resends, relays, the packet buffers and the halter.
-/

namespace Sys2Proof.Machine

/-! ## Links (R321, R369, R372) -/

/-- A packet of this device to a peer on a channel. -/
def State.packetTo (s : State) (peer : Nat) (vc : BitVec 2) (tag : BitVec 12) (b : Body) : Packet :=
  ⟨s.hdrTo peer vc tag, s.podNum, peer, b⟩

/-- LINK_UP: the port, if a peer is wired to it, is chosen again, and the device announces its incarnation there on the management
channel (R15, R321, R369). -/
def execLinkUp (port : Nat) (s : State) : Out1 :=
  .next (if 16 ≤ port || !s.wired port then s
    else ({ s with links := tins s.links port true }.emit port (s.packetTo (s.portPeer port) 3 0 .announce)).pump)

/-- LINK_DOWN: routing stops choosing the port; what was in flight on it is lost (R369). -/
def execLinkDown (port : Nat) (s : State) : Out1 := .next { s with links := tdel s.links port }

/-- The parts that a request carries fail with an OP code (R362, R371, R372). -/
def State.failReq (s : State) (r : OutReq) (op : Nat) : State :=
  let op := ((s.op? r.op).map fun o => o.failOp op).getD op
  r.parts.foldl (fun s i => s.modPart r.op i fun p => { p with st := .failed 8 op p.loc }) s

/-- INCARNATION_ANNOUNCE: a new incarnation of a peer fails what is outstanding toward it with OP 4 and starts the tags and
the target's window anew (R321, R372). -/
def execIncarnationAnnounce (peer : Nat) (inc : BitVec 16) (s : State) : Out1 :=
  .next (if (s.peer peer).inc = some inc then s
    else
      let outs := (s.peer peer).outs
      ((outs.foldl (fun s r => s.failReq r 4) s).modPeer peer fun _ => { Peer.reset with inc := some inc }).pump)

/-! ## At the target (R370, R125) -/

/-- The tag is the newest or one of the 2,047 before it. -/
def Peer.behind (p : Peer) (t : BitVec 12) : Bool := (p.newest - t).toNat < 2048

/-- The tag is marked done. -/
def Peer.isDone (p : Peer) (t : BitVec 12) : Bool :=
  p.behind t && (2048 ≤ (t - p.low).toNat || p.doneTags.contains t)

/-- `low` moves past the tags that are done. -/
def advanceLow : Nat → BitVec 12 → List (BitVec 12) → BitVec 12
  | 0, l, _ => l
  | n + 1, l, d => if d.contains l then advanceLow n (l + 1) d else l

/-- A tag received: one ahead becomes the newest, and the window moves with it. -/
def Peer.receive (p : Peer) (t : BitVec 12) : Peer :=
  if p.behind t then p
  else
    let low := if 2048 ≤ (t - p.low).toNat then t - 2047 else p.low
    { p with newest := t, low := low, doneTags := p.doneTags.filter fun d => (d - low).toNat < 2048
             cache := p.cache.filter fun e => (t - BitVec.ofNat 12 e.1).toNat < 2048 }

/-- A tag performed. -/
def Peer.markDone (p : Peer) (t : BitVec 12) : Peer :=
  let d := t :: p.doneTags
  let low := advanceLow 2048 p.low d
  { p with low := low, doneTags := d.filter fun x => (x - low).toNat < 2048 }

/-- Every earlier tag of the window is done. -/
def Peer.noGap (p : Peer) (t : BitVec 12) : Bool :=
  2048 ≤ (t - p.low).toNat || (List.range (t - p.low).toNat).all fun i => p.doneTags.contains (p.low + BitVec.ofNat 12 i)

/-- What an access by a peer may reach here (R312, R328, R367). -/
def State.peerMayReach (s : State) (r : HomeReq) : Bool := isMem r.pa && s.violation r.secure r.pa r.key = 0

/-- The requests of a packet are one write of a whole line (R363, R408). -/
def coversLine (rs : List HomeReq) : Bool :=
  rs.all (fun r => r.kind = .write) && (List.range 1024).all fun b => rs.any fun r =>
    r.pa / 8 * 8 % 128 * 8 + r.lo ≤ b && b < r.pa / 8 * 8 % 128 * 8 + r.lo + r.len

/-- Perform the requests of a packet one after the other: the words they return, and the OP of the first that failed. -/
def State.performReqs (s : State) (rs : List HomeReq) : State × Resp :=
  rs.foldl (fun x r =>
    let h := x.1.homeDo r.kind r.key r.cmp r.pa r.lo r.len r.a r.b r.words
    match h.2 with
    | .ok ws => (h.1.keepWorld x.1 r.secure r.cmp (lineOf r.pa), { x.2 with vals := x.2.vals ++ ws })
    | .error (_, op) => (h.1, { x.2 with err := x.2.err <|> some op })) (s, ⟨[], none⟩)

/-- Perform a packet at its home; an address that no peer may reach is refused whole (R312). -/
def State.performPacket (s : State) (p : Packet) : State × Resp :=
  if !p.reqs.all s.peerMayReach then (s, ⟨[], some 6⟩)
  else
    let line := lineOf ((p.reqs.map HomeReq.pa).headD 0)
    let s := if coversLine p.reqs then { s with failed := s.failed.filter fun e => e.1 ≠ line } else s
    s.performReqs p.reqs

/-- Atomics, ostler operations and gathers are answered from the response cache when they come again. -/
def packetCached (p : Packet) : Bool :=
  p.hdr.vc = 2 || p.reqs.any fun r => match r.kind with
    | .atomic _ => true
    | _ => false

def packetLoads (p : Packet) : Bool := p.reqs.all fun r => r.kind = .read

def packetWrites (p : Packet) : Bool := p.reqs.any isOrderedWrite

/-- A response to a request packet, on its channel (R318). -/
def State.respond (s : State) (p : Packet) (r : Resp) : State := s.sendPacket (s.packetTo p.src 1 p.hdr.tag (.resp r))

/-- Perform a packet, mark its tag done, keep its response where R370 asks, and answer. The refusal of a store is kept as well: a
resend is not acknowledged as performed (R374). -/
def State.serve (s : State) (p : Packet) : State :=
  let r := s.performPacket p
  (r.1.modPeer p.src fun q =>
    let q := q.markDone p.hdr.tag
    if packetCached p || (r.2.err.isSome && !packetLoads p) then { q with cache := tins q.cache p.hdr.tag.toNat r.2 } else q).respond p r.2

/-- Ordered writes whose gap has been filled are performed, in tag order. -/
def serveHeld (src : Nat) : Nat → State → State
  | 0, s => s
  | n + 1, s =>
    match (s.peer src).held.find? fun p => (s.peer src).noGap p.hdr.tag with
    | none => s
    | some p => serveHeld src n ((s.modPeer src fun q => { q with held := q.held.erase p }).serve p)

/-- A packet that comes again after it was performed. -/
def State.again (s : State) (p : Packet) : State :=
  match tfind (s.peer p.src).cache p.hdr.tag.toNat with
  | some r => s.respond p r
  | none =>
    if packetCached p then s
    else if packetLoads p then let r := s.performPacket p; r.1.respond p r.2
    else s.respond p ⟨[], none⟩

/-- A packet is for this device, from another of its pod, and carries the incarnations of both as they are (R321, R372). -/
def State.admits (s : State) (p : Packet) : Bool :=
  p.dst = s.podNum && p.src ≠ s.podNum && p.src < s.podSize && p.hdr.dinc = s.incarnation && (s.peer p.src).inc = some p.hdr.sinc

/-- FABRIC_PACKET_RECEIVE (R370, R372): an old incarnation's packet is dropped; a duplicate is answered without being
performed twice; an ordered write waits for the gaps before it in a window of 16 (R125). -/
def execFabricPacketReceive (p : Packet) (s : State) : Out1 :=
  let q := s.peer p.src
  .next (
    if !s.admits p || p.reqs = [] then s
    else if q.isDone p.hdr.tag then s.again p
    else
      let s := s.modPeer p.src fun q => q.receive p.hdr.tag
      let q := s.peer p.src
      if packetWrites p && !q.noGap p.hdr.tag then
        if 16 ≤ q.held.length || q.held.any fun h => h.hdr.tag = p.hdr.tag then s
        else s.modPeer p.src fun q => { q with held := q.held ++ [p] }
      else serveHeld p.src 16 (s.serve p))

/-- RELAY_FORWARD: the relay that a packet names passes it on without performing it (R320, R326). -/
def execRelayForward (p : Packet) (s : State) : Out1 :=
  .next (
    if !p.hdr.rv || p.hdr.rly.toNat ≠ s.podNum || p.dst = s.podNum || s.podSize ≤ p.dst then s
    else
      let port := match (s.peerPorts p.dst).filter s.portUp with
        | [] => (s.peerPorts p.dst).headD 0
        | q :: qs => qs.foldl (fun a b => if s.queued b (packetLane p) < s.queued a (packetLane p) then b else a) q
      (s.countPort port 1 1).emit port p)

/-! ## At the source (R370, R371) -/

/-- How many words of a response belong to a part. -/
def Part.answerWords (p : Part) : Nat :=
  match p.kind with
  | .write => 0
  | .cas4 n => n
  | _ => 1

/-- Hand the words of a response to the parts of an operation in order. -/
def giveParts (op : Nat) : List Nat → List Word → State → State
  | [], _, s => s
  | i :: is, ws, s =>
    match (s.op? op).bind fun o => (o.parts[i]?).map fun p => (o, p) with
    | none => s
    | some (o, p) => giveParts op is (ws.drop p.answerWords) (s.partDone o i p (ws.take p.answerWords))

/-- The words of a response reach the operation that asked, and the core's L1 (R370, R409). -/
def State.answered (s : State) (r : OutReq) (vals : List Word) : State :=
  let u := giveParts r.op r.parts vals s
  match s.op? r.op with
  | none => u
  | some o => u.fillOutside o r.parts

/-- The request with a tag is over. -/
def State.dropReq (s : State) (peer : Nat) (r : OutReq) : State :=
  s.modPeer peer fun q => { q with outs := q.outs.filter fun x => x.tag ≠ r.tag, freedAt := tins q.freedAt r.tag.toNat r.sentAt }

/-- FABRIC_ACK_RECEIVE: a response packet from `src`. The first answer for a tag ends its request; a later one is discarded (R370),
and so is one that carries another incarnation (R372). -/
def execFabricAckReceive (hdr : PktHdr) (src : Nat) (resp : Resp) (s : State) : Out1 :=
  .next (match (s.peer src).outs.find? fun r => r.tag = hdr.tag with
    | none => s
    | some r =>
      if !s.admits ⟨hdr, src, s.podNum, .resp resp⟩ then s
      else
        let s := s.dropReq src r
        (match resp.err with
          | some op => s.failReq r op
          | none => s.answered r resp.vals).pump)

/-- FABRIC_RESEND: an unacknowledged request is sent again every T_e2e; after eight resends it fails with OP 3 (R371). -/
def execFabricResend (peer : Nat) (tag : BitVec 12) (s : State) : Out1 :=
  .next (match (s.peer peer).outs.find? fun r => r.tag = tag with
    | none => s
    | some r =>
      if s.clock < r.sentAt + s.te2e then s
      else if 8 ≤ r.resends then ((s.dropReq peer r).failReq r 3).pump
      else (s.modPeer peer fun q => { q with outs := q.outs.map fun x =>
        if x.tag = tag then { x with resends := x.resends + 1, sentAt := s.clock } else x }).sendPacket r.pkt)

/-! ## Buffers and the halter (R322, R370, R373) -/

/-- PACKET_DISCARD: a packet that has waited longer than T_e2e in a buffer (R370). -/
def execPacketDiscard (die idx : Nat) (s : State) : Out1 :=
  .next (match (s.die die).pkts[idx]? with
    | none => s
    | some p => if p.since + s.te2e < s.clock then s.modDie die fun d => { d with pkts := d.pkts.eraseIdx idx } else s)

/-- PACKET_SUSPECT: a packet that has waited longer than T_dl in the buffer of a virtual channel (R322). -/
def execPacketSuspect (die idx : Nat) (s : State) : Out1 :=
  .next (match (s.die die).pkts[idx]? with
    | none => s
    | some p =>
      if p.since + s.tdl < s.clock && !p.pkt.hdr.esc then
        s.modDie die fun d => { d with pkts := d.pkts.modify idx fun p => { p with suspect := true } }
      else s)

/-- A packet on the escape lane. -/
def packetEscape (p : Packet) : Packet := { p with hdr := { p.hdr with esc := true } }

/-- The escape lane's way to a target: direct, or through the lowest-numbered live relay (R322). -/
def State.escapeRoute (s : State) (p : Packet) : Option (Nat × Packet) :=
  match (s.peerPorts p.dst).find? s.portUp with
  | some q => some (q, packetDirect (packetEscape p))
  | none => (s.relays p.dst).findSome? fun r => ((s.peerPorts r).find? s.portUp).map fun q => (q, packetThrough (packetEscape p) r)

/-- Move a suspect packet onto the escape lane, where a way is live. -/
def State.escape (s : State) (die : Nat) (p : OutPkt) : State :=
  match s.escapeRoute p.pkt with
  | none => s
  | some (port, q) =>
    ((s.modDie die fun d => { d with pkts := d.pkts.erase p }).countPort port 2 1).emit port q

/-- Put a packet in order of age. -/
def insertOld (p : OutPkt) : List OutPkt → List OutPkt
  | [] => [p]
  | x :: xs => if p.since ≤ x.since then p :: x :: xs else x :: insertOld p xs

/-- The port over which the halter leaves this device: to the next higher pod number, on IOD1 where there are two (R322). -/
def State.halterPort (s : State) : Nat := (s.peerPorts ((s.podNum + 1) % s.podSize)).getLastD 0

/-- The stops of the halter in a device: IOD0, CD0, CD1, CD3, CD2, IOD1 (R322). -/
def halterStops : List Nat := [4, 0, 1, 3, 2, 5]

/-- The stop at which a halter is due next; one that is not in the device comes to the first. -/
def State.halterNext (s : State) (gen : Nat) : Nat := (tfind s.halters gen).getD 0

/-- The halter at a stop of this device: up to 32 suspect packets of the die, oldest first, go onto the escape lane; then it goes to
the next stop, and from the last over its port to the next device, on the escape lane. -/
def State.visit (s : State) (n gen : Nat) : State :=
  let die := halterStops.getD n 0
  let s := s.modDie die fun d => { d with halterGen := gen, halterSeen := s.clock }
  let sus := (((s.die die).pkts.filter fun p => p.suspect).foldr insertOld []).take 32
  let s := sus.foldl (fun s p => s.escape die p) s
  if n < 5 then { s with halters := tins s.halters gen (n + 1) }
  else
    { s with halters := tdel s.halters gen }.emit s.halterPort
      (packetEscape (s.packetTo (s.portPeer s.halterPort) 3 0 (.halter gen)))

/-- HALTER_VISIT: the halter is at a die, the next in its order; one of a lower generation than the die has passed on is destroyed
(R322, R373). -/
def execHalterVisit (die generation : Nat) (s : State) : Out1 :=
  let n := s.halterNext generation
  .next (if halterStops[n]? ≠ some die then s
    else if generation < (s.die die).halterGen then { s with halters := tdel s.halters generation }
    else s.visit n generation)

/-- The highest generation that the device has seen. -/
def State.topGen (s : State) : Nat := s.dies.foldl (fun g d => max g d.2.halterGen) 0

/-- Another device is live, as this one can tell: a port to it is up, or a relay reaches it (log 18). -/
def State.reaches (s : State) (n : Nat) : Bool := (s.peerPorts n).any s.portUp || s.relays n ≠ []

/-- HALTER_TIMEOUT: IOD0 of the lowest-numbered live device makes a new halter (R373). -/
def execHalterTimeout (s : State) : Out1 :=
  .next (if !((List.range s.podNum).any s.reaches) && (s.die 4).halterSeen + 32 * s.tdl ≤ s.clock then s.visit 0 (s.topGen + 1)
    else s)

end Sys2Proof.Machine
end

