-- ==== Sys2Proof/Machine/HostAccess.lean ====
section
/-!
DEFINITION. Inbound accesses of hosts and drives through BAR 2 and CXL.mem (R18, R309, R324, R329, R358, R363). Requesters are
numbered 0 for function 0, 1 to 16 for its virtual functions and 17 for function 1. The event is the moment at which the
access is performed at its home.
-/

namespace Sys2Proof.Machine

/-- The function that OWN of a region names includes the requester (R329); only 31 includes function 1 (log 41). -/
def ownAllows (own fn : Nat) : Bool := own = 31 || (own ≤ 16 && own = fn)

/-- An inbound access to an address is allowed (R329, R358): in the memory that BAR 2 reaches, in no secure region, and where a
region covers it, with IN and the requester as its owner. -/
def State.inboundOk (s : State) (fn pa : Nat) : Bool :=
  isMem pa && fn ≤ 17 && match s.regionOf pa with
    | none => true
    | some r => bitOf r 1 && !bitOf r 2 && ownAllows (bitsOf r 36 5) fn && s.keyOk (bitsOf r 41 7)

/-- Every byte of a run is allowed. -/
def State.inboundRun (s : State) (fn pa n : Nat) : Bool := (List.range n).all fun i => s.inboundOk fn (pa + i)

/-- Write a run of bytes, line by line, each under the key of its region; a partial write of a failed line is discarded
(R363). WORLD of a context record stays as it is (R314). -/
def State.inboundWrite (s : State) (pa : Nat) (bytes : List Byte) : State :=
  (splitLines pa bytes).foldl (fun s l =>
    (s.homeWrite (s.regionKey (128 * l.1)) false l.1 l.2).1.keepWorld s false false l.1) s

/-- Answer the requester. -/
def State.answer (s : State) (o : Out) : State := { s with outs := o :: s.outs }

/-- An AtomicOp on an aligned word of 4 or 8 bytes; its old value is returned (R308). -/
def State.inboundAtomic (s : State) (fn pa size : Nat) (op : Rmw) (a b : Word) : State :=
  if (size ≠ 4 && size ≠ 8) || pa % size ≠ 0 || !s.inboundRun fn pa size then s.answer .unsupported
  else if (s.failedAt (lineOf pa)).isSome then s.answer .aborted
  else
    let n := 8 * size
    let old := s.rdNat (s.regionKey pa) pa size
    let new := rmwApply op n old (a.toNat % 2 ^ n) (b.toNat % 2 ^ n)
    (s.inboundWrite pa (bytesOf size new)).answer (.data (bytesOf size old))

/-- One inbound access (R309, R358, R363). -/
def State.inbound (s : State) (fn pa : Nat) (req : HostReq) (posted : Bool) : State :=
  match req with
  | .read n =>
    if !s.inboundRun fn pa n then s.answer .unsupported
    else if (s.runFailed pa n).isSome then s.answer .aborted
    else s.answer (.data ((List.range n).map fun i => BitVec.ofNat 8 (s.rdNat (s.regionKey (pa + i)) (pa + i) 1)))
  | .write bytes _ =>
    if !s.inboundRun fn pa bytes.length then s.answer .unsupported
    else if posted then s.inboundWrite pa bytes
    else (s.inboundWrite pa bytes).answer .done
  | .fetchAdd size v => s.inboundAtomic fn pa size .add v 0
  | .swap size v => s.inboundAtomic fn pa size .swap v 0
  | .cas size cmp new => s.inboundAtomic fn pa size .cas cmp new

/-- The payload of a write is one that the port takes: at most 512 bytes (R308). -/
def payloadOk (req : HostReq) : Bool :=
  match req with
  | .write bytes _ => bytes.length ≤ 512
  | _ => true

/-- INBOUND_BAR2_ACCESS: offset `off` of BAR 2 reaches physical address `off` (R309). A longer payload than the port's is refused
(R308, log 60). -/
def execInboundBar2Access (fn off : Nat) (req : HostReq) (s : State) : Out1 :=
  .next (if payloadOk req then s.inbound fn off req true else s.answer .unsupported)

/-- INBOUND_CXL_MEM_ACCESS: the host of a port reads or writes device memory (R308); port 0 belongs to function 0 and port 1
to function 1. CXL.mem carries reads and writes only. -/
def execInboundCxlMemAccess (port pa : Nat) (req : HostReq) (s : State) : Out1 :=
  let fn := if port = 0 then 0 else 17
  .next (match req with
    | .read _ | .write .. => s.inbound fn pa req false
    | _ => s.answer .unsupported)

end Sys2Proof.Machine
end

