-- ==== Sys2Proof/Machine/Monitor.lean ====
section
/-!
DEFINITION. Context frames (R347–R349) and the farrier monitor's commands (R334–R336, R351, R352, R355).
-/

namespace Sys2Proof.Machine

/-! ## Frames (R347, R348) -/

def maskIf (b : Bool) (n : Nat) : Nat := if b then 2 ^ n else 0

/-- The valid handles of a team, ascending, wherever its tiles are. -/
def Team.handles (t : Team) : List Nat := (tkeys t.tiles) ++ t.tileSave.map TileImage.handle

/-- The size of a frame in bytes. -/
def Team.frameSize (t : Team) (b : Block) : Nat := 0x420 + 256 * b.vregs + 12288 * t.handles.length

/-- The frame header as a number (R348). -/
def Team.frameHeader (t : Team) (b : Block) (wcnt : Nat) : Nat :=
  t.pc.toNat * 2 ^ 448 + t.contpc.toNat * 2 ^ 384 + t.tmode.toNat * 2 ^ 320 + t.em.toNat * 2 ^ 288 + t.pbs.snap.toNat * 2 ^ 256
    + t.pbs.pat.toNat * 2 ^ 248 + t.pbs.left * 2 ^ 244 + t.pbs.len.toNat * 2 ^ 241 + t.pbs.pr.toNat * 2 ^ 238
    + t.stack.length * 2 ^ 233 + maskIf t.parkedWaitF.isSome 232 + maskIf t.handler.isSome 231
    + (t.handles.map fun h => 2 ^ h).sum * 2 ^ 215 + b.vrb * 2 ^ 211 + wcnt * 2 ^ 187 + (t.frameSize b + 255) / 256 * 2 ^ 16 + 1

/-- A stack entry as 32 bytes. -/
def StackEntry.bits (e : StackEntry) : Nat :=
  e.jpc.toNat * 2 ^ 192 + e.pc.toNat * 2 ^ 128 + e.mask.toNat * 2 ^ 96 + match e.kind with
    | .join => 1
    | .pend => 2

/-- A remap entry as 2 bytes (R34). -/
def remapBits (l : Option (BitVec 10)) : Nat := match l with
  | some i => 2 ^ 10 + i.toNat
  | none => 0

/-- The elements of a team's tiles, by ascending handle. -/
def State.tileElems (s : State) (k : Nat) : List (List A96) :=
  let t := s.team k
  (t.tiles.map fun e => ((s.core (coreOf k)).tile e.2).elems) ++ t.tileSave.map TileImage.elems

/-- The frame of a held team: what WRITEFRAME has put there, or the state it stopped in. -/
def State.frameBytes (s : State) (k wcnt : Nat) : List Byte :=
  let t := s.team k
  let b := s.block (blockKeyOf k)
  bytesOf 64 (t.frameHeader b wcnt)
    ++ (List.range 32).flatMap (fun i => bytesOf 8 (t.getX i).toNat)
    ++ (List.range 16).flatMap (fun i => bytesOf 8 (t.getFs i).toNat)
    ++ (List.range 8).flatMap (fun i => bytesOf 4 (t.getP i).toNat)
    ++ (List.range 32).flatMap (fun i => bytesOf 2 (remapBits ((t.remap[i]?).getD none)))
    ++ (List.range 16).flatMap (fun i => bytesOf 32 (((t.stack.reverse)[i]?.map StackEntry.bits).getD 0))
    ++ (List.range b.vregs).flatMap (fun i => bytesOf 256 (t.getV i).toNat)
    ++ (s.tileElems k).flatMap fun es => es.flatMap fun e => bytesOf 12 e.toNat

def State.frameOf (s : State) (k : Nat) : List Byte :=
  (s.team k).newFrame.getD (s.frameBytes k (((s.team k).hold.map Hold.wcnt).getD 0))

/-- A number in a frame. -/
def frameField (f : List Byte) (off n : Nat) : Nat := ofBytes ((f.drop off).take n)

/-- Header bits that WRITEFRAME must not change: INH, TVALID, VRB, WCNT, the reserved bits, FSIZE and FVER. -/
def headerRO (h : Nat) : Nat := bitsOf h 0 232

/-- A frame that WRITEFRAME accepts over the frame in place (R349); remap entries are RO (R34). -/
def frameOk (old new : List Byte) : Bool :=
  headerRO (frameField old 0 64) = headerRO (frameField new 0 64) && frameField old 0x1E0 64 = frameField new 0x1E0 64

/-! ## Taking a written frame (R349, R351) -/

def stackEntryOf (n : Nat) : StackEntry :=
  ⟨if bitsOf n 0 2 = 1 then .join else .pend, BitVec.ofNat 64 (bitsOf n 128 64), BitVec.ofNat 32 (bitsOf n 96 32),
    BitVec.ofNat 64 (bitsOf n 192 64)⟩

/-- The stack images within STKD, bottom first. -/
def frameStack (f : List Byte) : List Nat :=
  (List.range (min 16 (bitsOf (frameField f 0 64) 233 5))).map fun i => frameField f (0x220 + 32 * i) 32

/-- What no instruction could have put in a frame (R349, log 92). A pattern longer than its block, or more instructions left than it
has, is what no PB prefix has (R138). `wrsr` refuses a TMODE or CONTPC (R172, R395); `emset` refuses to leave no thread
active over an empty stack (R164); a branch has its labels in the address space, and its entry is a JOIN or a PEND in one of
16 places (R32, R395). -/
def pbBad (h : Nat) : Bool := bitsOf h 248 8 / 2 ^ (bitsOf h 241 3 + 1) ≠ 0 || bitsOf h 241 3 + 1 < bitsOf h 244 4
def tmodeBad (h : Nat) : Bool := bitsOf h 326 26 ≠ 0 || bitsOf h 320 4 ≠ 0 || bitsOf h 324 2 = 3
def contpcBad (h : Nat) : Bool := nonCanonical (bitsOf h 384 64)
def emBad (live : Mask) (h : Nat) : Bool := BitVec.ofNat 32 (bitsOf h 288 32) &&& live = 0 && bitsOf h 233 5 = 0
def stackBad (f : List Byte) : Bool :=
  16 < bitsOf (frameField f 0 64) 233 5 || (frameStack f).any fun e =>
    nonCanonical (bitsOf e 128 64) || nonCanonical (bitsOf e 192 64) || bitsOf e 0 2 = 0 || bitsOf e 0 2 = 3
/-- A place to go on at that is no multiple of 4: the PC, or a label of a stack entry. -/
def placeBad (f : List Byte) : Bool :=
  bitsOf (frameField f 0 64) 448 2 ≠ 0 || (frameStack f).any fun e => bitsOf e 128 2 ≠ 0 || bitsOf e 192 2 ≠ 0

/-- The trap of the instruction that a field of the frame would have needed, for a team of which `live` have not exited. -/
def frameCause (live : Mask) (f : List Byte) : Option Nat :=
  let h := frameField f 0 64
  if placeBad f || pbBad h then some 1
  else if tmodeBad h || contpcBad h || nonCanonical (bitsOf h 448 64) || emBad live h || stackBad f then some 2
  else none

/-- The RW fields and the register images of a frame, every slice of a register being written; a field that its instruction would
refuse keeps its value. -/
def Team.takeFrame (t : Team) (vregs : Nat) (f : List Byte) : Team :=
  let h := frameField f 0 64
  let pc := bitsOf h 448 64
  let t := { t with
    pc := BitVec.ofNat 64 (pc / 4 * 4)
    contpc := if contpcBad h then t.contpc else BitVec.ofNat 64 (bitsOf h 384 64 / 4 * 4)
    tmode := if tmodeBad h then t.tmode else BitVec.ofNat 64 (bitsOf h 320 64)
    em := if emBad t.live h then t.em else BitVec.ofNat 32 (bitsOf h 288 32) &&& t.live
    pbs := if pbBad h then t.pbs
      else ⟨BitVec.ofNat 32 (bitsOf h 256 32), BitVec.ofNat 8 (bitsOf h 248 8), bitsOf h 244 4, BitVec.ofNat 3 (bitsOf h 241 3),
        BitVec.ofNat 3 (bitsOf h 238 3)⟩
    stack := if stackBad f || placeBad f then t.stack else ((frameStack f).map stackEntryOf).reverse
    badSlices := []
    parkedWaitF := if bitOf h 232 then t.parkedWaitF else none
    bpSkip := t.bpSkip && BitVec.ofNat 64 pc = t.pc
    newFrame := none }
  let t := (List.range 32).foldl (fun t i => t.setX i (BitVec.ofNat 64 (frameField f (0x40 + 8 * i) 8))) t
  let t := (List.range 16).foldl (fun t i => t.setFs i (BitVec.ofNat 64 (frameField f (0x140 + 8 * i) 8))) t
  let t := (List.range 8).foldl (fun t i => t.setP i (BitVec.ofNat 32 (frameField f (0x1C0 + 4 * i) 4))) t
  (List.range vregs).foldl (fun t i => t.setV i (BitVec.ofNat 2048 (frameField f (0x420 + 256 * i) 256))) t

/-- The elements of the `j`-th tile image. -/
def frameTile (f : List Byte) (vregs j : Nat) : List A96 :=
  (List.range 1024).map fun e => BitVec.ofNat 96 (frameField f (0x420 + 256 * vregs + 12288 * j + 12 * e) 12)

/-- Write the tile images of a frame. -/
def State.takeTiles (s : State) (k vregs : Nat) (f : List Byte) : State :=
  let t := s.team k
  let s := (t.tiles.zipIdx).foldl (fun s e => s.modTile (coreOf k) e.1.2 fun x => { x with elems := frameTile f vregs e.2, bad := [] }) s
  s.modTeam k fun t => { t with tileSave := t.tileSave.zipIdx.map fun e =>
    { e.1 with elems := frameTile f vregs (t.tiles.length + e.2), bad := [] } }

/-- The 64 bits at a PC, as far as they can be fetched. -/
def State.bitsAt (s : State) (k pc : Nat) : State × Word :=
  let get (x : State × Except (Nat × Word) Nat) : State × Nat := (x.1, match x.2 with
    | .ok n => n
    | .error _ => 0)
  let a := get (s.fetchWord (s.teamActor k) (coreOf k) pc)
  let b := get (a.1.fetchWord (s.teamActor k) (coreOf k) (pc + 4))
  (b.1, BitVec.ofNat 64 (a.2 + b.2 * 2 ^ 32))

/-- A held team is released with its frame, and its reports come before its next instruction (R356); a field written against the
rules traps at restoration, reported at the PC with bits [1:0] cleared (R349, log 92). -/
def State.release (s : State) (k : Nat) (m : MonReq) : State :=
  let s := s.modTeam k fun t => { t.allDue with hold := none, mon := m }
  match (s.team k).newFrame with
  | none => s
  | some f =>
    let n := (s.block (blockKeyOf k)).vregs
    let old := s.team k
    let s := (s.takeTiles k n f).modTeam k fun t => t.takeFrame n f
    let t := s.team k
    match frameCause old.live f with
    | none => s
    | some c => let w := s.bitsAt k t.pc.toNat; w.1.raise k c t.active w.2 t.pc false

/-! ## The mailbox (R334–R336) -/

def resDone : BitVec 8 := 0
def resNoTeam : BitVec 8 := 1
def resNotHeld : BitVec 8 := 2
def resBadArg : BitVec 8 := 3
def resNoRoom : BitVec 8 := 4

def State.mbxArg (s : State) (i : Nat) : Nat := (s.regs.mbx.args.getD i 0).toNat

/-- The command in progress has this code and SEQ and has not taken effect (R334, R355). -/
def State.mbxIs (s : State) (code : Nat) (seq : BitVec 8) : Bool :=
  s.regs.mbx.busy && s.regs.mbx.pend.isNone && bitsOf s.regs.mbx.cmd.toNat 0 16 = code && bitsOf s.regs.mbx.cmd.toNat 16 8 = seq.toNat

/-- The command has taken effect with a RES, and an ARG_3 to return. -/
def State.mbxRes (s : State) (r : BitVec 8) (arg3 : Option Word) : State :=
  s.modRegs fun g => { g with mbx := { g.mbx with pend := some (r, arg3) } }

/-- The command targets the monitor's own context (R355). -/
def State.mbxSelf (s : State) : Bool := s.mbxArg 0 = Config.monitorContext.toNat && (s.ctx (s.mbxArg 0)).world

/-- A command of a code, refused where it targets the monitor. -/
def State.mbxCommand (s : State) (code : Nat) (seq : BitVec 8) (f : State → State) : Out1 :=
  .next (if !s.mbxIs code seq then s else if s.mbxSelf then s.mbxRes resBadArg none else f s)

/-- The team that ARG_0 and ARG_1 name (R335). -/
def State.mbxTeam (s : State) : Option Nat :=
  let a := s.mbxArg 1
  let k := teamKey (a / 2 ^ 16) (a / 2 ^ 8 % 256) (a % 256)
  if a / 2 ^ 8 % 256 < 32 && a % 256 < 32 && s.hasTeam k && !(s.team k).ended && s.ctxOf k = s.mbxArg 0 then some k else none

/-- A command on a team. -/
def State.mbxOnTeam (s : State) (f : Nat → State) : State :=
  match s.mbxTeam with
  | none => s.mbxRes resNoTeam none
  | some k => f k

/-- A command on a held team. -/
def State.mbxOnHeld (s : State) (f : Nat → State) : State :=
  s.mbxOnTeam fun k => if (s.team k).hold.isNone then s.mbxRes resNotHeld none else f k

/-- The team's blocking `cx.prop` is in flight: it has begun, and the team stands past its precise point until it completes (R267,
R348). -/
def State.inProp (s : State) (k : Nat) : Bool :=
  let q := s.quad (quadOfCore (coreOf k))
  q.owner = some k && q.prop.any fun p => p.xd.isSome

/-- HALT holds the team at its precise point, or where it stands when it is swapped out or waits for room (R351). The command
stays in progress until the team is held. -/
def execHalt (seq : BitVec 8) (s : State) : Out1 :=
  s.mbxCommand 1 seq fun s => s.mbxOnTeam fun k =>
    let t := s.team k
    if t.hold.isSome then s.mbxRes resDone none
    else if (t.precise && !s.inProp k) || t.place ≠ .resident then (s.hold k 0x19 0 t.active t.pc false).mbxRes resDone none
    else s.modTeam k fun t => { t with mon := .halt }

/-- The held record of a team still waits for room; the team stays stopped until it is written (R345). -/
def State.holdPending (s : State) (k : Nat) : Bool :=
  (s.ctx (s.ctxOf k)).pending.any fun r => r.kind = kindHeld && r.hasTeam && r.team = k

/-- Release a held team for RESUME or STEP; a frame with an uncorrectable error kills the context (R350). -/
def State.mbxRelease (s : State) (m : MonReq) : State :=
  s.mbxOnHeld fun k =>
    if s.holdPending k then s
    else if (s.team k).frameBad then (s.swapFailure k).mbxRes resNoTeam none
    else (s.release k m).mbxRes resDone none

/-- RESUME (R335, R351). -/
def execResume (seq : BitVec 8) (s : State) : Out1 := s.mbxCommand 2 seq fun s => s.mbxRelease .none

/-- STEP (R335, R351); the command ends as the step begins (log 34). -/
def execStep (seq : BitVec 8) (s : State) : Out1 := s.mbxCommand 3 seq fun s => s.mbxRelease (.step false 0)

/-- The accesses of a mailbox command at their L2 slices, for the function of the monitor (R326, R335). -/
def State.monCount (s : State) (pa n : Nat) : State := s.countRun pa n (s.vfOf Config.monitorContext.toNat)

/-- A run of device addresses in memory. -/
def memRun (pa n : Nat) : Bool := isMem pa && (n = 0 || isMem (pa + n - 1))

/-- READFRAME: the frame is copied to ARG_2; a buffer too short for it is no room (R335, log 35). -/
def execReadFrame (seq : BitVec 8) (s : State) : Out1 :=
  s.mbxCommand 4 seq fun s => s.mbxOnHeld fun k =>
    let f := s.frameOf k
    if s.mbxArg 3 < f.length then s.mbxRes resNoRoom none
    else if !memRun (s.mbxArg 2) f.length then s.mbxRes resBadArg none
    else if (s.team k).frameBad then (s.swapFailure k).mbxRes resNoTeam none
    else (((s.writeRun (s.regionKey (s.mbxArg 2)) false (s.mbxArg 2) f).1).monCount (s.mbxArg 2) f.length).mbxRes resDone none

/-- WRITEFRAME (R335, R349). -/
def execWriteFrame (seq : BitVec 8) (s : State) : Out1 :=
  s.mbxCommand 5 seq fun s => s.mbxOnHeld fun k =>
    let old := s.frameOf k
    let pa := s.mbxArg 2
    if s.mbxArg 3 < old.length || !memRun pa old.length || (s.runFailed pa old.length).isSome then s.mbxRes resBadArg none
    else
      let new := s.rdBytes (s.regionKey pa) pa old.length
      let s := s.monCount pa old.length
      if frameOk old new then (s.modTeam k fun t => { t with newFrame := some new }).mbxRes resDone none
      else s.mbxRes resBadArg none

/-- SETBP: one of 8 breakpoints of a context (R335). -/
def execSetBp (seq : BitVec 8) (s : State) : Out1 :=
  s.mbxCommand 6 seq fun s =>
    let c := s.mbxArg 0
    let pc := BitVec.ofNat 64 (s.mbxArg 2)
    if 64 ≤ c || s.mbxArg 2 % 4 ≠ 0 || nonCanonical (s.mbxArg 2) then s.mbxRes resBadArg none
    else if (s.ctx c).bps.contains pc then s.mbxRes resDone none
    else if 8 ≤ (s.ctx c).bps.length then s.mbxRes resNoRoom none
    else (s.modCtx c fun x => { x with bps := x.bps ++ [pc] }).mbxRes resDone none

/-- CLRBP (R335). -/
def execClrBp (seq : BitVec 8) (s : State) : Out1 :=
  s.mbxCommand 7 seq fun s =>
    let c := s.mbxArg 0
    let pc := BitVec.ofNat 64 (s.mbxArg 2)
    if 64 ≤ c || !(s.ctx c).bps.contains pc then s.mbxRes resBadArg none
    else (s.modCtx c fun x => { x with bps := x.bps.erase pc }).mbxRes resDone none

/-- ADMIT: one record of a debug-held queue (R335, R352). -/
def execAdmitCmd (seq : BitVec 8) (s : State) : Out1 :=
  s.mbxCommand 8 seq fun s =>
    let r := s.admitOne (s.mbxArg 0) (s.mbxArg 1) true
    r.1.mbxRes (if r.2 then resDone else resBadArg) none

/-- LIST: the context's held teams as ARG_1 values of 8 bytes, then a zero; the count goes to ARG_3 (R335). -/
def execList (seq : BitVec 8) (s : State) : Out1 :=
  s.mbxCommand 9 seq fun s =>
    let held := (tkeys s.teams).filter fun k => (s.team k).hold.isSome && !(s.team k).ended && s.ctxOf k = s.mbxArg 0
    let bytes := (held.flatMap fun k => bytesOf 8 (coreOf k * 2 ^ 16 + slotOf k * 2 ^ 8 + idxOf k)) ++ bytesOf 8 0
    if 64 ≤ s.mbxArg 0 || !memRun (s.mbxArg 2) bytes.length then s.mbxRes resBadArg none
    else (((s.writeRun (s.regionKey (s.mbxArg 2)) false (s.mbxArg 2) bytes).1).monCount (s.mbxArg 2) bytes.length).mbxRes resDone (some (BitVec.ofNat 64 held.length))

/-- The command in progress is none of R335: it ends with RES 0x03 (log 36). -/
def State.mbxUnknown (s : State) : Bool :=
  s.regs.mbx.busy && (bitsOf s.regs.mbx.cmd.toNat 0 16 = 0 || 9 < bitsOf s.regs.mbx.cmd.toNat 0 16)

/-- MBX_COMMAND_FINISH: the results are written, RES, SEQ and DONE set, BUSY cleared, and entry 2 raised (R336). -/
def execMbxCommandFinish (s : State) : Out1 :=
  let m := s.regs.mbx
  let p := if s.mbxUnknown then some (resBadArg, none) else m.pend
  .next (match p with
    | none => s
    | some (r, a) =>
      if !m.busy then s
      else
        let args := match a with
          | some v => m.args.set 3 v
          | none => m.args
        (s.modRegs fun g => { g with mbx :=
          { m with args := args, res := r, seq := BitVec.ofNat 8 (bitsOf m.cmd.toNat 16 8), done := true, busy := false,
                   pend := none } }).irq 0 2)

end Sys2Proof.Machine
end

