-- ==== Sys2Proof/Machine/Offload.lean ====
section
/-!
DEFINITION. The offload engines of the I/O dies (R244, R245, R390). A command is one step; what the host gives is an argument
of it.
-/

namespace Sys2Proof.Machine

/-- A list entry (R245). -/
structure OEntry where
  tid : Nat
  dir : Bool
  len : Nat
  host : Nat
  dev : Nat
  deriving DecidableEq, Repr

def oentryOf (w : Nat) : OEntry := ⟨bitsOf w 177 8, bitOf w 176, bitsOf w 128 48, bitsOf w 64 64, bitsOf w 0 64⟩

/-- How a command fails: a code of R390, or a violation (R367). -/
inductive OFail where
  | code (c : Nat)
  | viol (reason pa : Nat)
  deriving DecidableEq, Repr

/-- The failure that a device access means. -/
def DevRes.ofail (r : DevRes) : OFail :=
  match r with
  | .viol a b => .viol a b
  | .noXlate _ | .ok _ => .code 2
  | .mem .. => .code 3

/-- The host addresses of the line pieces of a run: offset, length, memory type and host address; each must lie in the window. -/
def State.hostPieces (s : State) (w : Actor) (va n : Nat) (acc : Acc) : State × Except OFail (List (Nat × Nat × Nat × Nat)) :=
  (linePieces va n).foldl (fun r p =>
    match r.2 with
    | .error _ => r
    | .ok l =>
      let x := r.1.xlateDev w (va + p.1) acc
      match x.2 with
      | .ok pa e =>
        let pa := x.1.localPa pa
        let v := x.1.violation (x.1.ctx w.ctx).world pa e.key
        if v ≠ 0 then (x.1, .error (.viol v pa))
        else if homeOf pa = .host then (x.1, .ok (l ++ [(p.1, p.2, e.mt, pa)])) else (x.1, .error (.code 2))
      | .mem _ => (x.1, .error (.code 3))
      | _ => (x.1, .error (.code 2))) (s, .ok [])

/-- Copy one entry; `toDev` is host to device. -/
def State.copyEntry (s : State) (w : Actor) (e : OEntry) (toDev : Bool) (given : List Byte) : State × Option OFail :=
  let h := s.hostPieces w e.host e.len (if toDev then .read else .write)
  match h.2 with
  | .error f => (h.1, some f)
  | .ok ps =>
    if toDev then
      let f := h.1.freeBytes e.len
      let s := ps.foldl (fun s p => s.toHost w.ctx p.2.2.1 p.2.2.2 (.read p.2.1)) (if given.length < e.len then f.1 else h.1)
      let x := s.devWrite w e.dev ((given ++ f.2.drop given.length).take e.len)
      match x.2.1 with
      | .ok _ => (x.1, none)
      | r => (x.1, some r.ofail)
    else
      let r := h.1.devRead w .read e.dev e.len
      match r.2.1 with
      | .ok bs => (ps.foldl (fun s p => s.toHost w.ctx p.2.2.1 p.2.2.2 (.write ((bs.drop p.1).take p.2.1))) r.1, none)
      | x => (r.1, some x.ofail)

/-- The fields of a command (R244). -/
structure OCmd where
  opc : Nat
  list : Nat
  nent : Nat
  rlist : Nat
  done : Nat
  deriving DecidableEq, Repr

def ocmdOf (v : VReg) : OCmd :=
  let d := v.toNat
  ⟨bitsOf d 0 4, bitsOf d 64 64, bitsOf d 128 64, bitsOf d 192 64, bitsOf d 256 64⟩

/-- The entry at a position of the order of R245: read, copied, and recorded under OPC 1. -/
def State.offloadOne (s : State) (w : Actor) (c : OCmd) (pos : Nat) (given : List Byte) (hostBad : Bool) : State × Option OFail :=
  let e := if c.opc = 2 then c.nent - 1 - pos else pos
  let r := s.devRead w .read ((c.list + 32 * e) % 2 ^ 64) 32
  match r.2.1 with
  | .ok bs =>
    let x := oentryOf (ofBytes bs)
    if hostBad then (r.1, some (.code 4))
    else
      let y := r.1.copyEntry w x (x.dir != (c.opc == 2)) given
      match y.2 with
      | some f => (y.1, some f)
      | none =>
        if c.opc = 1 then
          let v := y.1.devWrite w ((c.rlist + 32 * e) % 2 ^ 64) bs
          match v.2.1 with
          | .ok _ => (v.1, none)
          | z => (v.1, some z.ofail)
        else (y.1, none)
  | z => (r.1, some z.ofail)

/-- The entries from a position on; a failure with its position. -/
def offloadFrom (w : Actor) (c : OCmd) (fromHost : List (List Byte)) (bad : Option Nat) : Nat → Nat → State → State × Option (OFail × Nat)
  | 0, _, s => (s, none)
  | n + 1, pos, s =>
    let x := s.offloadOne w c pos (fromHost.getD pos []) (bad = some pos)
    match x.2 with
    | some f => (x.1, some (f, pos))
    | none => offloadFrom w c fromHost bad n (pos + 1) x.1

def State.offloadFail (s : State) (w : Issuer) (iod : Nat) (f : OFail) (pos : Nat) : State :=
  match f with
  | .code c => s.engineNotice w (5 + iod) c pos
  | .viol a b => s.engineViol w a b

/-- The release of a command whose entries are performed, and the addition to DONE. -/
def State.offloadDone (s : State) (iod : Nat) (cmd : Cmd) : State :=
  let c := ocmdOf cmd.data
  let a := offloadActor cmd.who.ctx cmd.seq
  if c.done = 0 then s
  else
    let d := (s.flushPosted a c.done).devAddOne a c.done
    match d.2 with
    | .ok _ => d.1
    | r => d.1.offloadFail cmd.who iod r.ofail c.nent

/-- OFFLOAD_COMMAND: the port's next command, in acceptance order; entries in order; then a release at system scope and the
addition to DONE (R245), which a DONE outside the package takes in a later event (R306). `fromHost` holds the bytes that the host gives for each position, `hostErrorAt` the position that it
answers with an error. -/
def execOffloadCommand (iod : Nat) (fromHost : List (List Byte)) (hostErrorAt : Option Nat) (s : State) : Out1 :=
  let die := 4 + iod % 2
  match (s.die die).offl with
  | [] => .next s
  | cmd :: rest =>
    let due := (s.die die).offlDue = some cmd.seq
    let s := s.modDie die fun d => { d with offl := rest, offlDue := none }
    let c := ocmdOf cmd.data
    let w := cmd.who
    let a := offloadActor w.ctx cmd.seq
    if due then .next (s.offloadDone (iod % 2) cmd)
    else if 3 ≤ c.opc || c.list % 32 ≠ 0 || (c.opc = 1 && c.rlist % 32 ≠ 0) || c.done % 8 ≠ 0 then
      .next (s.offloadFail w (iod % 2) (.code 1) 0)
    else
      let x := offloadFrom a c fromHost hostErrorAt c.nent 0 s
      match x.2 with
      | some (f, pos) => .next (x.1.offloadFail w (iod % 2) f pos)
      | none =>
        if c.done = 0 || x.1.releasedHere a c.done then .next (x.1.offloadDone (iod % 2) cmd)
        else .next (x.1.modDie die fun d => { d with offl := cmd :: d.offl, offlDue := some cmd.seq })

end Sys2Proof.Machine
end

