-- ==== Sys2Proof/Machine/Ostc.lean ====
section
/-!
DEFINITION. Ostler command registers (R252, R368): each record is performed as an operation in flight at the ostler of its
home, in order, and the result register is placed when all are over.
-/

namespace Sys2Proof.Machine

/-- A record of a command register (R252). -/
structure OstRec where
  opc : Nat
  parm : Nat
  sem : Nat
  sco : Nat
  offs : Int
  addr : Nat
  arg : Nat
  deriving DecidableEq, Repr

def ostRecOf (v : VReg) (k : Nat) : OstRec :=
  let r := bitsOf v.toNat (256 * k) 256
  ⟨bitsOf r 0 8, bitsOf r 8 8, bitsOf r 16 2, bitsOf r 18 3, sextNat 23 (bitsOf r 21 23), bitsOf r 64 64, bitsOf r 128 64⟩

def semOfNat (n : Nat) : Sem :=
  match n with
  | 0 => .relaxed
  | 1 => .acquire
  | 2 => .release
  | _ => .acqRel

/-- What a record becomes: parts with the walk of a chase; a REASON (R368); or a violation (R367). -/
inductive OstPrep where
  | ok (parts : List Part) (chase : List Chase)
  | bad (reason : Nat)
  | viol (reason pa : Nat)

/-- A part of a record at an address that R207 allows. -/
def State.ostPart (s : State) (w : Actor) (va : Nat) (acc : Acc) (kind : ReqKind) (a b : Word) (words : List Word) :
    State × Except OstPrep Part :=
  let x := s.xlateDev w va acc
  match x.2 with
  | .ok pa e =>
    let pa := x.1.localPa pa
    let v := x.1.violation (x.1.ctx w.ctx).world pa e.key
    if v ≠ 0 then (x.1, .error (.viol v pa))
    else if !Need.home.ok pa e.mt then (x.1, .error (.bad 4))
    else (x.1, .ok ⟨0, va, pa, 0, 64, 0, kind, a, b, words, e.mt, e.key, e.cmp, e.wr, .waiting, 0⟩)
  | .mem _ => (x.1, .error (.bad 7))
  | _ => (x.1, .error (.bad 4))

/-- Check a record and place its accesses (R209–R211, R368). -/
def State.ostPrep (s : State) (w : Actor) (r : OstRec) : State × OstPrep :=
  let code := tfind (s.ctx w.ctx).routines r.parm
  let parmBad := if r.opc = 1 then r.parm ≠ 0 else if r.opc = 2 then r.parm = 0 || 16 < r.parm else 8 ≤ r.parm
  let orderBad := 5 < r.sco || (r.opc = 2 && 2 ≤ r.sem)
  let addr := BitVec.ofNat 64 r.addr
  if 4 ≤ r.opc then (s, .bad 1)
  else if parmBad then (s, .bad 2)
  else if r.opc = 1 && (r.addr % 16 ≠ 0 || r.arg = 0 || r.arg % 8 ≠ 0) then (s, .bad 3)
  else if r.opc = 2 then
    if orderBad then (s, .bad 6)
    else
      let h := s.nextHop w ⟨0, r.parm, r.offs, true⟩ addr
      let blank : Part := ⟨0, 0, 0, 0, 64, 0, .read, 0, 0, [], 0, 0, false, false, .done, 0⟩
      match h.2 with
      | .stop v => (h.1, .ok [{ blank with val := v }] [])
      | .viol _ a b => (h.1, .viol a b)
      | .word va pa e =>
        (h.1, .ok [{ blank with va := va, pa := pa, mt := e.mt, key := e.key, cmp := e.cmp, st := .waiting }] [⟨0, r.parm, r.offs, true⟩])
  else
    let node := if r.opc = 1 then
        let x := s.ostPart w r.arg .write .write 0 0 []
        (x.1, x.2.map fun p => [p])
      else (s, .ok [])
    let kind : ReqKind := if r.opc = 1 then .enq else .run
    let a := BitVec.ofNat 64 r.arg
    let words := (code.getD []).map fun w => w.zeroExtend 64
    let x := node.1.ostPart w r.addr .rmw kind a (if r.opc = 1 then 0 else addr) (if r.opc = 1 then [] else words)
    match node.2, x.2 with
    | .error e, _ | _, .error e => (x.1, e)
    | .ok ps, .ok p =>
      if r.opc = 3 && code.isNone then (x.1, .bad 5)
      else if orderBad then (x.1, .bad 6)
      else (x.1, .ok (ps ++ [p]) [])

/-- Put record `k` of a command in flight; the result is its REASON so far, `none` when it is empty. -/
def State.ostIssue (s : State) (cmd : Cmd) (k : Nat) : State × Option Nat :=
  let r := ostRecOf cmd.data k
  if r.opc = 0 then (s, none)
  else
    let x := s.ostPrep (ostlerActor cmd.who.ctx cmd.seq) r
    match x.2 with
    | .bad e => (x.1, some e)
    | .viol a b => (x.1.engineViol cmd.who a b, some 7)
    | .ok parts chase =>
      let q := x.1.newSeq
      let o : MemOp := {
        seq := q.1, team := cmd.who.team, ctx := cmd.who.ctx, pc := cmd.who.pc, cls := none, sem := semOfNat r.sem, sco := r.sco,
        dest := .none, ext := none, slots := 0, parts := parts, nt := true
        carry := if semReleases (semOfNat r.sem) then [⟨cmd.seq, r.sco, none, []⟩] else []
        install := false, stream := false, noL1 := [], noRdc := [], gather := false, chase := chase, unchecked := [], tile := none
        ostc := some (cmd.seq, k), drain := [], actor := none, quiet := false, handler := false }
      let s := parts.foldl (fun s p => if p.writes then s.dropCopies (coreOf cmd.who.team) p.pa else s) q.2
      ({ s with ops := s.ops ++ [o] }, some 0)

/-- Begin the next command register of a core. -/
def State.ostcStart (s : State) (core : Nat) : State :=
  match (s.core core).ostc with
  | [] => s
  | cmd :: rest =>
    let s := s.modCore core fun c => { c with ostc := rest }
    let r := (List.range 8).foldl (fun (r : State × List (Option Nat)) k => let x := r.1.ostIssue cmd k; (x.1, r.2 ++ [x.2])) (s, [])
    if (r.1.ctx cmd.who.ctx).killed then r.1
    else (r.1.modCore core fun c => { c with ostcRun := some ⟨cmd, r.2⟩ }).pump

/-- The operation of a command's record. -/
def State.ostOp (s : State) (cmd : Cmd) (k : Nat) : Option MemOp := s.ops.find? fun o => o.ostc = some (cmd.seq, k)

/-- Record `k` of a result register (R252, R368). -/
def State.ostResult (s : State) (cmd : Cmd) (reason : Option Nat) (k : Nat) : Nat :=
  match reason with
  | none => 0
  | some 0 =>
    match s.ostOp cmd k with
    | none => 2 ^ 64
    | some o =>
      if o.parts.any fun p => p.st matches .failed .. then 2 ^ 64 + 2 ^ 65 + 7 * 2 ^ 72
      else 2 ^ 64 + ((o.parts.find? fun p => p.kind ≠ .write).map fun p => p.val.toNat).getD 0
  | some e => 2 ^ 64 + 2 ^ 65 + e * 2 ^ 72

/-- OSTC_COMMAND: the core's next command register begins, or the one begun ends: every record over and room on the result
port, its result register is placed (R252). -/
def execOstcCommand (core : Nat) (s : State) : Out1 :=
  match (s.core core).ostcRun with
  | none => .next (s.ostcStart core)
  | some r =>
    let mine (o : MemOp) : Bool := o.ostc.any fun x => x.1 = r.cmd.seq
    if !(s.ops.all fun o => !mine o || o.performed) || 4 ≤ (s.core core).ostr.length then .next s
    else
      let v := r.reasons.zipIdx.foldl (fun a e => a + s.ostResult r.cmd e.1 e.2 * 2 ^ (256 * e.2)) 0
      let s := { s with ops := s.ops.filter fun o => !mine o }
      .next ((s.modCore core fun c => { c with
        ostcRun := none, ostr := c.ostr ++ [⟨r.cmd.who.ctx, BitVec.ofNat 2048 v, r.cmd.who.team⟩] }).pump)

end Sys2Proof.Machine
end

