-- ==== Sys2Proof/Machine/Predicate.lean ====
section
/-!
DEFINITION. Predicates and the execution mask (R162–R164).
-/

namespace Sys2Proof.Machine

/-- A predicate operation writes p[d] in each active thread, after any narrowing by a predicate block (R162). -/
def writeP (s : State) (d : BitVec 3) (f : Team → Mask) : Out1 :=
  finish s (teamEff s fun t => t.setPIn d.toNat t.active (f t))

/-- `pand` (R162). -/
def execPand (d a b : BitVec 3) (s : State) : Out1 :=
  writeP s d fun t => t.getP a.toNat &&& t.getP b.toNat

/-- `por` (R162). -/
def execPor (d a b : BitVec 3) (s : State) : Out1 :=
  writeP s d fun t => t.getP a.toNat ||| t.getP b.toNat

/-- `pxor` (R162). -/
def execPxor (d a b : BitVec 3) (s : State) : Out1 :=
  writeP s d fun t => t.getP a.toNat ^^^ t.getP b.toNat

/-- `pandn` (R162). -/
def execPandn (d a b : BitVec 3) (s : State) : Out1 :=
  writeP s d fun t => t.getP a.toNat &&& ~~~t.getP b.toNat

/-- `pnot` (R162). -/
def execPnot (d a : BitVec 3) (s : State) : Out1 :=
  writeP s d fun t => ~~~t.getP a.toNat

/-- `pmov` (R162). -/
def execPmov (d a : BitVec 3) (s : State) : Out1 :=
  writeP s d fun t => t.getP a.toNat

/-- `emget` (R163). -/
def execEmget (xd : BitVec 5) (s : State) : Out1 :=
  writeX s xd fun t => t.em.zeroExtend 64

/-- A write to `em`: only live slots; the operand trap when nothing would remain and no path waits; the arrival check
when nothing remains (R21, R164). -/
def maskWrite (s : State) (f : Team → Mask) : Eff :=
  whenActive s fun s =>
    let m := f s.ct &&& s.ct.live
    if m = 0 && s.ct.stack = [] || nonCanonical s.nextPc.toNat then opTrap s
    else if m = 0 then .jump (s.modCur fun t => { t with em := 0, pc := s.nextPc }.arrival)
    else .done (s.modCur fun t => { t with em := m })

/-- `emset` (R163). -/
def execEmset (xa : BitVec 5) (s : State) : Out1 :=
  finish s (maskWrite s fun t => (t.getX xa.toNat).truncate 32)

/-- `emand` (R163). -/
def execEmand (pa : BitVec 3) (s : State) : Out1 :=
  finish s (maskWrite s fun t => t.em &&& t.getP pa.toNat)

/-- `pget` reads all 32 slots (R163). -/
def execPget (xd : BitVec 5) (pa : BitVec 3) (s : State) : Out1 :=
  writeX s xd fun t => (t.getP pa.toNat).zeroExtend 64

/-- `pset`: bit i of x[A] in slot i, or whether x[A] is nonzero (R163). -/
def execPset (pd : BitVec 3) (xa : BitVec 5) (bc : Bool) (s : State) : Out1 :=
  writeP s pd fun t =>
    if bc then (if t.getX xa.toNat = 0 then 0 else BitVec.allOnes 32) else (t.getX xa.toNat).truncate 32

/-- `pany` (R163). -/
def execPany (xd : BitVec 5) (pa : BitVec 3) (s : State) : Out1 :=
  writeX s xd fun t => truth (condUniform .any t.em (t.getP pa.toNat))

/-- `pall` (R163). -/
def execPall (xd : BitVec 5) (pa : BitVec 3) (s : State) : Out1 :=
  writeX s xd fun t => truth (condUniform .all t.em (t.getP pa.toNat))

/-- `pcnt` (R163). -/
def execPcnt (xd : BitVec 5) (pa : BitVec 3) (s : State) : Out1 :=
  writeX s xd fun t => BitVec.ofNat 64 (popcount 32 (t.em &&& t.getP pa.toNat).toNat)

end Sys2Proof.Machine
end

