-- ==== Sys2Proof/Machine/Regroup.lean ====
section
/-!
DEFINITION. Regrouping (R34–R36): threads move between the teams of a block, with their vector slices and predicates.
-/

namespace Sys2Proof.Machine

/-- A live thread of a block: its logical id, and where it stands. -/
structure ThreadAt where
  lid : Nat
  team : Nat
  slot : Nat
  deriving DecidableEq, Repr

def insertThread (x : ThreadAt) : List ThreadAt → List ThreadAt
  | [] => [x]
  | y :: ys => if x.lid ≤ y.lid then x :: y :: ys else y :: insertThread x ys

/-- The live threads of some teams, by ascending logical id. -/
def State.threadsOf (s : State) (ks : List Nat) : List ThreadAt :=
  (ks.flatMap fun k => (maskSlots (s.team k).live).filterMap fun i =>
    ((s.team k).lid i).map fun l => ⟨l, k, i⟩).foldr insertThread []

/-- A team whose slots hold the given threads: each slot takes the vector slices and the predicate bits that its thread
had (R35); uniform state comes from `uni`, but for tile handles and counters: a team that waits has neither, and one that stood
keeps its own (R35, R243). -/
def State.refill (s : State) (uni : Team) (k : Nat) (place : Nat → Option ThreadAt) (pc : Word) : Team :=
  let t := s.team k
  let srcs := ((List.range 32).filterMap fun i => (place i).map ThreadAt.team).eraseDups
  let vs := (srcs.flatMap fun j => tkeys (s.team j).v).eraseDups
  let ps := (srcs.flatMap fun j => tkeys (s.team j).p).eraseDups
  let em := maskOf fun i => (place i).isSome
  let t' := { t with
    x := uni.x, fs := uni.fs, contpc := uni.contpc, tmode := uni.tmode, pbs := uni.pbs
    em := em, exited := 0, pc := pc, wait := none, v := [], p := []
    remap := (List.range 32).map fun i => (place i).map fun th => BitVec.ofNat 10 th.lid }
  let t' := vs.foldl (fun a r => a.setV r (regOfSlices fun i => match place i with
    | some th => sliceOf ((s.team th.team).getV r) th.slot
    | none => 0)) t'
  ps.foldl (fun a r => a.setP r (maskOf fun i => match place i with
    | some th => ((s.team th.team).getP r).getLsbD th.slot
    | none => false)) t'

/-- What a `regroup` requires of its team: an empty stack, a full mask, no tile and no clause array (R35, R243, R258). -/
def State.regroupOk (s : State) (k : Nat) : Bool :=
  let t := s.team k
  t.stack = [] && t.em = t.live && t.tiles = [] && (s.quad (quadOfCore (coreOf k))).owner ≠ some k

/-- `regroup sco:core` (R35): a team with all 32 slots live passes; a partial team waits for its set. -/
def execRegroup (s : State) : Out1 :=
  finish s (whenActive s fun s =>
    let k := s.ck
    let t := s.ct
    if !s.regroupOk k || nonCanonical s.nextPc.toNat then opTrap s
    else if t.live = BitVec.allOnes 32 then .done s
    else
      let pc := t.pc
      let s := s.modBlock (blockKeyOf k) fun b =>
        if b.regroups.any fun r => r.pc = pc && r.set = none then b else { b with regroups := ⟨pc, s.clock, none⟩ :: b.regroups }
      .wait s (.regroup false))

/-- Teams of a block that wait at `regroup sco:core` at a PC. -/
def State.regroupers (s : State) (blk : Nat) (pc : Word) : List Nat :=
  (s.blockTeams blk).filter fun k => (s.team k).pc = pc && (match (s.team k).wait with
    | some w => w.kind = .regroup false
    | none => false)

/-- The formed set at a PC whose threads have not moved yet: those of its participants that still wait there. -/
def State.formedSet (s : State) (blk : Nat) (pc : Word) : Option (List Nat) :=
  ((s.block blk).regroups.findSome? fun r => if r.pc = pc then r.set else none).map fun ks => (s.regroupers blk pc).filter ks.contains

/-- A set may be formed at a PC (R35): some team waits there, no set formed there has still to move, and every unexited team of the
block waits at some `regroup` or 512 clocks have passed since the first arrival. -/
def State.regroupDue (s : State) (blk : Nat) (pc : Word) : Bool :=
  s.regroupers blk pc ≠ [] && s.formedSet blk pc = none
    && ((((s.blockTeams blk).filter fun k => !(s.team k).empty).all fun k => match (s.team k).wait with
          | some ⟨.regroup _, _, _⟩ => true
          | _ => false)
        || (s.block blk).regroups.any fun r => r.pc = pc && r.set = none && r.first + 512 ≤ s.clock)

/-- The teams that wait at a PC are its participants; a team that arrives later waits for the next set (R35). -/
def State.formSet (s : State) (blk : Nat) (pc : Word) : State :=
  s.modBlock blk fun b => { b with
    regroups := ⟨pc, s.clock, some (s.regroupers blk pc)⟩ :: b.regroups.filter fun r => r.pc ≠ pc || r.set ≠ none }

/-- The threads of a set may move: every participant's counters are zero (R35). -/
def State.setQuiet (s : State) (ks : List Nat) : Bool :=
  ks.all fun k => (s.team k).quiet && (s.team k).place = .resident && (s.team k).hold = none

/-- Move the threads of a set (R35). -/
def State.moveSet (s : State) (blk : Nat) (pc : Word) (ks : List Nat) : State :=
  let ths := s.threadsOf ks
  let s' := (List.range ks.length).foldl (fun a j =>
    let k := ks.getD j 0
    a.setTeam k (s.refill (s.team (ks.headD 0)) k (fun i => ths[32 * j + i]?) (pc + 8))) s
  (ks.foldl (fun a k => a.retireWaiting k) s').modBlock blk fun b => { b with
    regroups := b.regroups.filter fun r => r.pc ≠ pc || r.set = none }

/-- REGROUP_SET_FORMED: the set at a PC is formed when that is due, and moves once its participants' counters are zero (R35). -/
def execRegroupSetFormed (core slot : Nat) (pc : Word) (s : State) : Out1 :=
  let blk := core * 32 + slot
  let s := if s.regroupDue blk pc then s.formSet blk pc else s
  .next (match s.formedSet blk pc with
    | some ks => if s.setQuiet ks then s.moveSet blk pc ks else s
    | none => s)

/-- Move every thread of a block to its home team and slot (R36); the instruction of every team that waited, but for `me`, is
complete. A team that no thread calls home gets no uniform state and continues nowhere: it ends once its counters are zero. -/
def State.goHome (s : State) (blk me uni : Nat) (pc : Word) : State :=
  let ks := s.blockTeams blk
  let ths := s.threadsOf ks
  let at0 (k i : Nat) : Option ThreadAt := ths.find? fun th => th.lid = 32 * idxOf k + i
  let s' := ks.foldl (fun a k =>
    let home := ths.any fun th => th.lid / 32 = idxOf k
    a.setTeam k (s.refill (s.team (if home then uni else k)) k (at0 k) (if home then pc + 8 else (s.team k).pc))) s
  (ks.filter fun k => k ≠ me && (s.team k).wait.isSome).foldl (fun a k => a.retireWaiting k) s'

/-- `regroup home:1` (R36): the last team to arrive moves the threads. -/
def execRegroupHome (s : State) : Out1 :=
  finish s (whenActive s fun s =>
    let k := s.ck
    let blk := blockKeyOf k
    if !s.regroupOk k || nonCanonical s.nextPc.toNat then opTrap s
    else if s.homeReady blk s.ct.pc (some k) then
      let uni := ((s.blockTeams blk).find? fun j => !(s.team j).empty).getD k
      .jump (s.goHome blk k uni s.ct.pc)
    else .wait s (.regroup true))

end Sys2Proof.Machine
end

