-- ==== Sys2Proof/Machine/Scalar.lean ====
section
/-!
DEFINITION. Scalar integer and address instructions (R165–R169), and the format-slot moves of R53. Each writes one x
register, or one slot image, when at least one thread is active.
-/

namespace Sys2Proof.Machine

/-! ## Values -/

/-- The low 64 bits of a quotient of signed numbers truncated toward zero, with the cases of R166. -/
def divS (a b : Word) : Word :=
  if b = 0 then BitVec.allOnes 64 else BitVec.ofInt 64 (Int.tdiv a.toInt b.toInt)

def remS (a b : Word) : Word := if b = 0 then a else BitVec.ofInt 64 (Int.tmod a.toInt b.toInt)

def divU (a b : Word) : Word := if b = 0 then BitVec.allOnes 64 else BitVec.ofNat 64 (a.toNat / b.toNat)

def remU (a b : Word) : Word := if b = 0 then a else BitVec.ofNat 64 (a.toNat % b.toNat)

/-- Bits [127:64] of a product (R165). -/
def mulHighS (a b : Word) : Word := BitVec.ofInt 64 (a.toInt * b.toInt / 2 ^ 64)

def mulHighU (a b : Word) : Word := BitVec.ofNat 64 (a.toNat * b.toNat / 2 ^ 64)

/-- The shift amount is taken modulo 64 (R165). -/
def amount (b : Word) : Nat := b.toNat % 64

def bswap64 (a : Word) : Word := BitVec.ofNat 64 (ofBytes (bytesOf 8 a.toNat).reverse)

/-- A 35-bit immediate, sign-extended (R133, R167). -/
def imm35 (i : BitVec 35) : Word := i.signExtend 64

/-- `lhi`: the immediate above the low 29 bits of the destination (R169). -/
def lhiValue (i : BitVec 35) (old : Word) : Word := BitVec.ofNat 64 (i.toNat * 2 ^ 29 + old.toNat % 2 ^ 29)

/-! ## Register forms (R165, R166, R168) -/

/-- `add` (R165). -/
def execAdd (d a b : BitVec 5) (s : State) : Out1 :=
  writeX s d fun t => t.getX a.toNat + t.getX b.toNat

/-- `sub` (R165). -/
def execSub (d a b : BitVec 5) (s : State) : Out1 :=
  writeX s d fun t => t.getX a.toNat - t.getX b.toNat

/-- `mul` (R165). -/
def execMul (d a b : BitVec 5) (s : State) : Out1 :=
  writeX s d fun t => t.getX a.toNat * t.getX b.toNat

/-- `mulh` (R165). -/
def execMulh (d a b : BitVec 5) (s : State) : Out1 :=
  writeX s d fun t => mulHighS (t.getX a.toNat) (t.getX b.toNat)

/-- `mulhu` (R165). -/
def execMulhu (d a b : BitVec 5) (s : State) : Out1 :=
  writeX s d fun t => mulHighU (t.getX a.toNat) (t.getX b.toNat)

/-- `div` (R166). -/
def execDiv (d a b : BitVec 5) (s : State) : Out1 :=
  writeX s d fun t => divS (t.getX a.toNat) (t.getX b.toNat)

/-- `divu` (R166). -/
def execDivu (d a b : BitVec 5) (s : State) : Out1 :=
  writeX s d fun t => divU (t.getX a.toNat) (t.getX b.toNat)

/-- `rem` (R166). -/
def execRem (d a b : BitVec 5) (s : State) : Out1 :=
  writeX s d fun t => remS (t.getX a.toNat) (t.getX b.toNat)

/-- `remu` (R166). -/
def execRemu (d a b : BitVec 5) (s : State) : Out1 :=
  writeX s d fun t => remU (t.getX a.toNat) (t.getX b.toNat)

/-- `and` (R165). -/
def execAnd (d a b : BitVec 5) (s : State) : Out1 :=
  writeX s d fun t => t.getX a.toNat &&& t.getX b.toNat

/-- `or` (R165). -/
def execOr (d a b : BitVec 5) (s : State) : Out1 :=
  writeX s d fun t => t.getX a.toNat ||| t.getX b.toNat

/-- `xor` (R165). -/
def execXor (d a b : BitVec 5) (s : State) : Out1 :=
  writeX s d fun t => t.getX a.toNat ^^^ t.getX b.toNat

/-- `andn` (R165). -/
def execAndn (d a b : BitVec 5) (s : State) : Out1 :=
  writeX s d fun t => t.getX a.toNat &&& ~~~(t.getX b.toNat)

/-- `shl` (R165). -/
def execShl (d a b : BitVec 5) (s : State) : Out1 :=
  writeX s d fun t => t.getX a.toNat <<< amount (t.getX b.toNat)

/-- `shr` (R165). -/
def execShr (d a b : BitVec 5) (s : State) : Out1 :=
  writeX s d fun t => t.getX a.toNat >>> amount (t.getX b.toNat)

/-- `sar` (R165). -/
def execSar (d a b : BitVec 5) (s : State) : Out1 :=
  writeX s d fun t => (t.getX a.toNat).sshiftRight (amount (t.getX b.toNat))

/-- `rol` (R165). -/
def execRol (d a b : BitVec 5) (s : State) : Out1 :=
  writeX s d fun t => (t.getX a.toNat).rotateLeft (amount (t.getX b.toNat))

/-- `ror` (R165). -/
def execRor (d a b : BitVec 5) (s : State) : Out1 :=
  writeX s d fun t => (t.getX a.toNat).rotateRight (amount (t.getX b.toNat))

/-- `seq` (R168). -/
def execSeq (d a b : BitVec 5) (s : State) : Out1 :=
  writeX s d fun t => truth (t.getX a.toNat = t.getX b.toNat)

/-- `sne` (R168). -/
def execSne (d a b : BitVec 5) (s : State) : Out1 :=
  writeX s d fun t => truth (t.getX a.toNat ≠ t.getX b.toNat)

/-- `slt` (R168). -/
def execSlt (d a b : BitVec 5) (s : State) : Out1 :=
  writeX s d fun t => truth ((t.getX a.toNat).slt (t.getX b.toNat))

/-- `sltu` (R168). -/
def execSltu (d a b : BitVec 5) (s : State) : Out1 :=
  writeX s d fun t => truth ((t.getX a.toNat).ult (t.getX b.toNat))

/-- `sle` (R168). -/
def execSle (d a b : BitVec 5) (s : State) : Out1 :=
  writeX s d fun t => truth ((t.getX a.toNat).sle (t.getX b.toNat))

/-- `sleu` (R168). -/
def execSleu (d a b : BitVec 5) (s : State) : Out1 :=
  writeX s d fun t => truth ((t.getX a.toNat).ule (t.getX b.toNat))

/-- `min` (R165). -/
def execMin (d a b : BitVec 5) (s : State) : Out1 :=
  writeX s d fun t => if (t.getX a.toNat).sle (t.getX b.toNat) then t.getX a.toNat else t.getX b.toNat

/-- `max` (R165). -/
def execMax (d a b : BitVec 5) (s : State) : Out1 :=
  writeX s d fun t => if (t.getX a.toNat).sle (t.getX b.toNat) then t.getX b.toNat else t.getX a.toNat

/-- `minu` (R165). -/
def execMinu (d a b : BitVec 5) (s : State) : Out1 :=
  writeX s d fun t => if (t.getX a.toNat).ule (t.getX b.toNat) then t.getX a.toNat else t.getX b.toNat

/-- `maxu` (R165). -/
def execMaxu (d a b : BitVec 5) (s : State) : Out1 :=
  writeX s d fun t => if (t.getX a.toNat).ule (t.getX b.toNat) then t.getX b.toNat else t.getX a.toNat

/-! ## Unary forms (R165) -/

/-- `clz` (R165). -/
def execClz (d a : BitVec 5) (s : State) : Out1 :=
  writeX s d fun t => BitVec.ofNat 64 (clz64 (t.getX a.toNat).toNat)

/-- `ctz` (R165). -/
def execCtz (d a : BitVec 5) (s : State) : Out1 :=
  writeX s d fun t => BitVec.ofNat 64 (ctzFrom 64 (t.getX a.toNat).toNat)

/-- `popc` (R165). -/
def execPopc (d a : BitVec 5) (s : State) : Out1 :=
  writeX s d fun t => BitVec.ofNat 64 (popcount 64 (t.getX a.toNat).toNat)

/-- `bswap` (R165). -/
def execBswap (d a : BitVec 5) (s : State) : Out1 :=
  writeX s d fun t => bswap64 (t.getX a.toNat)

/-! ## Immediate and constant forms (R167, R169) -/

/-- `addi` (R167). -/
def execAddi (d a : BitVec 5) (imm : BitVec 35) (s : State) : Out1 :=
  writeX s d fun t => t.getX a.toNat + imm35 imm

/-- `andi` (R167). -/
def execAndi (d a : BitVec 5) (imm : BitVec 35) (s : State) : Out1 :=
  writeX s d fun t => t.getX a.toNat &&& imm35 imm

/-- `ori` (R167). -/
def execOri (d a : BitVec 5) (imm : BitVec 35) (s : State) : Out1 :=
  writeX s d fun t => t.getX a.toNat ||| imm35 imm

/-- `xori` (R167). -/
def execXori (d a : BitVec 5) (imm : BitVec 35) (s : State) : Out1 :=
  writeX s d fun t => t.getX a.toNat ^^^ imm35 imm

/-- `shli` (R167). -/
def execShli (d a : BitVec 5) (sh : BitVec 6) (s : State) : Out1 :=
  writeX s d fun t => t.getX a.toNat <<< sh.toNat

/-- `shri` (R167). -/
def execShri (d a : BitVec 5) (sh : BitVec 6) (s : State) : Out1 :=
  writeX s d fun t => t.getX a.toNat >>> sh.toNat

/-- `sari` (R167). -/
def execSari (d a : BitVec 5) (sh : BitVec 6) (s : State) : Out1 :=
  writeX s d fun t => (t.getX a.toNat).sshiftRight sh.toNat

/-- `li` (R169). -/
def execLi (d : BitVec 5) (imm : BitVec 35) (s : State) : Out1 :=
  writeX s d fun _ => imm35 imm

/-- `lhi` reads its own destination (R169). -/
def execLhi (d : BitVec 5) (imm : BitVec 35) (s : State) : Out1 :=
  writeX s d fun t => lhiValue imm (t.getX d.toNat)

/-- `addpc` (R169). -/
def execAddpc (d : BitVec 5) (imm : BitVec 35) (s : State) : Out1 :=
  writeX s d fun t => t.pc + imm35 imm

/-! ## Format-slot moves (R53) -/

/-- `fsset` stores any image; it is checked when an instruction uses the slot (R50, R53). -/
def execFsset (slot : BitVec 4) (xa : BitVec 5) (s : State) : Out1 :=
  finish s (teamEff s fun t => t.setFs slot.toNat (t.getX xa.toNat))

/-- `fsget` (R53). -/
def execFsget (xd : BitVec 5) (slot : BitVec 4) (s : State) : Out1 :=
  writeX s xd fun t => t.getFs slot.toNat

end Sys2Proof.Machine
end

