-- ==== Sys2Proof/Machine/Scratch.lean ====
section
/-!
DEFINITION. The scratchpad and the instructions that reach it: `sld`, `sst`, `sldt` (R80–R87, R202, R401).
-/

namespace Sys2Proof.Machine

/-- The bank that an access under SWZ reaches in a row (R82). -/
def swzCol (swz row col : Nat) : Nat :=
  if swz = 0 then col
  else if swz = 7 then (col + row) % 256
  else col ^^^ (row * 2 ^ (swz - 1) % 256)

/-- The cell of a physical byte address under SWZ, as row · 256 + bank (R80, R82). -/
def scratchCell (swz byte : Nat) : Nat :=
  let w := byte / 8
  w / 256 * 256 + swzCol swz (w / 256) (w % 256)

/-- The passes of an access: the most distinct cells that it asks of one bank (R83). -/
def scratchPasses (cells : List Nat) : Nat :=
  let d := cells.eraseDups
  d.foldl (fun a c => max a (d.filter fun e => e % 256 = c % 256).length) 0

/-- A thread's team scratchpad address fails R202 or names a stall that the block's teams do not own (R401). -/
def State.scratchBadAddr (s : State) (a : Nat) : Bool :=
  a % 8 ≠ 0 || 4096 * s.cblock.stn ≤ a || tget 3 s.cc.owner (s.cblock.stb + a / 4096) ≠ 0

/-- The cell of a team's address (R81). -/
def State.cellOf (s : State) (swz a : Nat) : Nat := scratchCell swz (4096 * s.cblock.stb + a)

/-- Count an access that needs more than one pass (R326). -/
def State.countPasses (s : State) (cells : List Nat) : State :=
  if 1 < scratchPasses cells then s.countEv s.cur.core s.cctx 0x30 1 else s

/-- Read a word per allowed thread; a thread whose word holds an uncorrectable error keeps its slice, and the error is
reported later (R356, R361). -/
def scratchRead (s : State) (xp : Option Xp) (o : ScrOps) (addr : Nat → Nat) : Eff :=
  let t := s.ct
  let slots := maskSlots (t.masked xp)
  let cell (i : Nat) : Nat := s.cellOf o.swz.toNat (addr i)
  let bad := slots.filter fun i => s.cc.scratchBad.contains (cell i)
  let new := regOfSlices fun i =>
    if bad.contains i then sliceOf (t.getV o.reg.toNat) i
    else if (t.masked xp).getLsbD i then tget 0 s.cc.scratch (cell i) else 0
  let q := s.newSeq
  let s := (q.2.countPasses (slots.map cell)).modCur fun t => t.setVIn o.reg.toNat (t.masked xp ||| t.zeroed xp) new
  match bad with
  | [] => .done s
  | b :: _ =>
    let r : Report := ⟨8, memDetail 5 0 (8 * cell b), maskOfList bad, t.pc, q.1, none, 0, bad.map fun i => ⟨o.reg.toNat, 64 * i, 64⟩, none,
      false, t.handler.isSome, none⟩
    .done (s.modCur fun t => t.addReport r)

/-- The address of an `sld` or `sst` (R202). -/
def Team.sldAddr (t : Team) (o : ScrOps) (i : Nat) : Nat :=
  (t.baseOff o.base o.off + BitVec.ofNat 64 (8 * (t.lid i).getD 0)).toNat

/-- The address of an `sldt` (R202). -/
def Team.sldtAddr (t : Team) (o : ScrOps) (i : Nat) : Nat :=
  let l := (t.lid i).getD 0
  (t.baseOff o.base o.off + BitVec.ofNat 64 (8 * (2 ^ o.pitch.toNat * (l % 32) + l / 32))).toNat

/-- `sld` (R202). -/
def execSld (xp : Option Xp) (o : ScrOps) (s : State) : Out1 :=
  finish s (checked s [] [(false, o.reg)] true fun s =>
    perThread s xp (fun i => s.scratchBadAddr (s.ct.sldAddr o i)) fun s => scratchRead s xp o (s.ct.sldAddr o))

/-- `sldt` (R202). -/
def execSldt (xp : Option Xp) (o : ScrOps) (s : State) : Out1 :=
  finish s (checked s [] [(false, o.reg)] true fun s =>
    perThread s xp (fun i => s.scratchBadAddr (s.ct.sldtAddr o i)) fun s => scratchRead s xp o (s.ct.sldtAddr o))

/-- Write a word per allowed thread, the highest slot last (R84). -/
def Core.scratchWrite (c : Core) (ws : List (Nat × Word)) : Core :=
  { c with
    scratch := ws.foldl (fun t w => tput 0 t w.1 w.2) c.scratch
    scratchBad := c.scratchBad.filter fun b => !(ws.any fun w => w.1 = b) }

/-- `sst` (R202). -/
def execSst (xp : Option Xp) (o : ScrOps) (s : State) : Out1 :=
  finish s (checked s [] [(false, o.reg)] true fun s =>
    perThread s xp (fun i => s.scratchBadAddr (s.ct.sldAddr o i)) fun s =>
      let t := s.ct
      let ws := (maskSlots (t.masked xp)).map fun i => (s.cellOf o.swz.toNat (t.sldAddr o i), sliceOf (t.getV o.reg.toNat) i)
      .done ((s.countPasses (ws.map Prod.fst)).modCore s.cur.core fun c => c.scratchWrite ws))

end Sys2Proof.Machine
end

