-- ==== Sys2Proof/Machine/Spdm.lean ====
section
/-!
DEFINITION. The SPDM requests that function 0 answers (R333). The manual gives the suite, the identity key, the certificate
chain and the measurement blocks; the order of requests and the fields of a message are those of SPDM 1.3 as far as the
model keeps them (log 42).
-/

namespace Sys2Proof.Machine

/-- Answer a request, or refuse it. -/
def State.spdmAnswer (s : State) (d : List Byte) : State := { s with outs := .spdm d :: s.outs }
def State.spdmRefuse (s : State) : State := { s with outs := .spdmError :: s.outs }

/-- A request that comes before the state it needs is refused. -/
def State.spdmWhen (s : State) (ok : Bool) (f : State → State) : Out1 := .next (if ok then f s else s.spdmRefuse)

/-- The bytes of a measurement register. -/
def State.measBytes (s : State) (i : Nat) : List Byte := bytesOf 32 (tget 0 s.meas i).toNat

/-- What the identity key signs: the digest of what the answer carries with the requester's nonce. -/
def signedWith (nonce : BitVec 256) (d : List Byte) : List Byte := d ++ Config.mlDsaSign (sha3_256 (bytesOf 32 nonce.toNat ++ d))

/-- GET_VERSION begins anew: version 1.3. -/
def execGetVersion (s : State) : Out1 :=
  .next ({ s with spdm := ⟨true, false, false, none, s.spdm.session⟩ }.spdmAnswer [0x13])

/-- GET_CAPABILITIES; the manual gives no flags. -/
def execGetCapabilities (s : State) : Out1 :=
  s.spdmWhen s.spdm.version fun s =>
    let f := s.freeBytes 4
    { f.1 with spdm := { f.1.spdm with caps := true } }.spdmAnswer f.2

/-- NEGOTIATE_ALGORITHMS: SHA3-256 (bit 3 of the base hashes) and ML-DSA-44 (the first extended algorithm) are taken where
they are offered. -/
def execNegotiateAlgorithms (hash sig : BitVec 32) (s : State) : Out1 :=
  s.spdmWhen (s.spdm.caps && hash.getLsbD 3 && sig.getLsbD 0) fun s =>
    { s with spdm := { s.spdm with algs := true } }.spdmAnswer (bytesOf 4 8 ++ bytesOf 4 1)

/-- GET_DIGESTS: the digest of the identity key's certificate chain. -/
def execGetDigests (s : State) : Out1 :=
  s.spdmWhen s.spdm.algs fun s => s.spdmAnswer (bytesOf 32 (sha3_256 (Config.certificateChain 0)).toNat)

/-- GET_CERTIFICATE: a part of the chain in a slot. -/
def execGetCertificate (slot off len : Nat) (s : State) : Out1 :=
  let c := Config.certificateChain slot
  s.spdmWhen (s.spdm.algs && slot < 8 && off < c.length) fun s => s.spdmAnswer ((c.drop off).take len)

/-- CHALLENGE: the chain's digest, signed with the requester's nonce. -/
def execChallenge (nonce : BitVec 256) (s : State) : Out1 :=
  s.spdmWhen s.spdm.algs fun s => s.spdmAnswer (signedWith nonce (bytesOf 32 (sha3_256 (Config.certificateChain 0)).toNat))

/-- GET_MEASUREMENTS: index 0 asks how many blocks there are, 255 for all of them; block i is MEAS_(i − 1). -/
def execGetMeasurements (nonce : BitVec 256) (index : Nat) (s : State) : Out1 :=
  s.spdmWhen (s.spdm.algs && (index ≤ 16 || index = 255)) fun s =>
    s.spdmAnswer (signedWith nonce (if index = 0 then [16]
      else if index = 255 then (List.range 16).flatMap s.measBytes else s.measBytes (index - 1)))

/-- KEY_EXCHANGE: the device's share is its random-number generator's. -/
def execKeyExchange (exchange : List Byte) (s : State) : Out1 :=
  s.spdmWhen s.spdm.algs fun s =>
    let f := s.freeBytes 32
    let d := exchange ++ f.2
    { f.1 with spdm := { f.1.spdm with exchange := some d } }.spdmAnswer (f.2 ++ Config.mlDsaSign (sha3_256 d))

/-- FINISH: the right verify-data opens the session. -/
def execFinish (mac : BitVec 256) (s : State) : Out1 :=
  s.spdmWhen (s.spdm.exchange.any fun e => mac = Config.spdmVerifyData e) fun s =>
    { s with spdm := { s.spdm with session := true, exchange := none } }.spdmAnswer []

/-- END_SESSION. -/
def execEndSession (s : State) : Out1 :=
  s.spdmWhen s.spdm.session fun s => { s with spdm := { s.spdm with session := false } }.spdmAnswer []

end Sys2Proof.Machine
end

