-- ==== Sys2Proof/Machine/System.lean ====
section
/-!
DEFINITION. Traps and system registers (R170–R173, R406).
-/

namespace Sys2Proof.Machine

/-- `trap` takes the software trap with its code; the handler returns to PC + 8 (R170, R340). -/
def execTrap (code : BitVec 16) (s : State) : Out1 :=
  finish s (whenActive s fun s => .trap s 5 s.ct.em (code.zeroExtend 64))

/-- `brk` holds the team with a breakpoint record (R170, R351). -/
def execBrk (code : BitVec 16) (s : State) : Out1 :=
  finish s (whenActive s fun s => .trap s 6 s.ct.em (code.zeroExtend 64))

/-- `rett` ends handler mode; outside it, it is an illegal instruction (R170, R341). -/
def execRett (s : State) : Out1 :=
  finish s (if s.ct.handler = none then illegal s
    else whenActive s fun s => .jump (s.modCur Team.rett))

/-- The counter of an EVSEL or EVCNT register, for the function that owns the team's context (R325, R327). -/
def State.evOf (s : State) (n : Nat) : Ev := tget ⟨0, 0⟩ s.cc.ev (s.vfOf s.cctx * 8 + n)

/-- What `rdsr` reads (R171–R173). -/
def State.readSr (s : State) (sr : Nat) : Word :=
  let t := s.ct
  let b := s.cblock
  let l := s.launchOf? s.ck
  if sr = 0 then t.tmode
  else if sr = 1 then t.contpc
  else if sr = 2 then BitVec.ofNat 64 t.wcnt
  else if sr = 3 then selfWord s.cctx s.ck
  else if sr = 4 then launchWord b.lnh ((l.map fun l => l.rcd.ltag).getD 0)
  else if sr = 5 then BitVec.ofNat 64 s.clock
  else if sr = 6 then
    match l with
    | some l => gridWord l.rcd.gx l.rcd.gy l.rcd.gz
    | none => 0
  else if !(s.ctx s.cctx).cgrant then 0
  else if sr < 0x18 then (s.evOf (sr - 0x10)).sel
  else (s.evOf (sr - 0x18)).cnt.zeroExtend 64

/-- `rdsr` (R171). -/
def execRdsr (xd : BitVec 5) (sr : BitVec 12) (s : State) : Out1 :=
  writeX s xd fun _ => s.readSr sr.toNat

/-- The counter registers after a write to one of them. -/
def State.writeEv (s : State) (sr : Nat) (v : Word) : State :=
  let n := (sr - 0x10) % 8
  let e := s.evOf n
  let e' : Ev := if sr < 0x18 then { e with sel := evselWrite e.sel v } else { e with cnt := v.truncate 48 }
  s.modCore s.cur.core fun c => { c with ev := tins c.ev (s.vfOf s.cctx * 8 + n) e' }

/-- `wrsr` (R171, R172, R395). -/
def execWrsr (sr : BitVec 12) (xa : BitVec 5) (s : State) : Out1 :=
  finish s (whenActive s fun s =>
    let v := s.ct.getX xa.toNat
    if sr = 0 then
      if bitsOf v.toNat 6 26 ≠ 0 || bitsOf v.toNat 0 4 ≠ 0 || bitsOf v.toNat 4 2 = 3 then opTrap s
      else .done (s.modCur fun t => { t with tmode := v })
    else if sr = 1 then
      if nonCanonical v.toNat then opTrap s
      else .done (s.modCur fun t => { t with contpc := v &&& ~~~3 })
    else if (s.ctx s.cctx).cgrant then .done (s.writeEv sr.toNat v)
    else .done s)

end Sys2Proof.Machine
end

