-- ==== Sys2Proof/Machine/Special.lean ====
section
/-!
DEFINITION. The special functions (R77, R78). 1/x and √x are exact before the one rounding. The others have an internal
result that the manual leaves open within an error bound: it is the free value `Config.specialResult` where that
lies within the bound of a rational approximation computed here, and the approximation where it does not.
-/

namespace Sys2Proof.Machine

/-- floor(√n) by Newton's iteration from above. -/
def isqrtIter (n : Nat) : Nat → Nat → Nat
  | 0, x => x
  | f + 1, x => let y := (x + n / x) / 2; if y < x then isqrtIter n f y else x

def isqrt (n : Nat) : Nat := if n = 0 then 0 else isqrtIter n 64 (2 ^ (Nat.log2 n / 2 + 1))

/-- √q with 8,192 fraction bits, and one more bit set where that is inexact: every later rounding of the exact root gives
what the rounding of this value gives. -/
def sqrtQ (q : Q) : Q :=
  let n := q.num.natAbs * q.den * 2 ^ 16384
  let r := isqrt n
  if r * r = n then ⟨r, q.den * 2 ^ 8192⟩ else ⟨(2 * r + 1 : Nat), q.den * 2 ^ 8193⟩

/-! ## Approximations in fixed point with 320 fraction bits -/

def fixBits : Nat := 320

def Q.toFix (q : Q) : Int := (q.shift fixBits).floor
def fixMul (a b : Int) : Int := a * b / (2 ^ fixBits : Nat)
def ofFix (a : Int) : Q := ⟨a, 2 ^ fixBits⟩

/-- Σ t_k, where t_(k+1) = t_k · u / d(k) : a power series by its term ratio. -/
def series (u : Int) (d : Nat → Nat) : Nat → Nat → Int → Int → Int
  | 0, _, _, acc => acc
  | n + 1, k, t, acc => let t' := fixMul t u / (d k : Int); series u d n (k + 1) t' (acc + t')

/-- Σ u^k / (2k + 1), by powers. -/
def oddSeries (u : Int) : Nat → Nat → Int → Int → Int
  | 0, _, _, acc => acc
  | n + 1, k, t, acc => let t' := fixMul t u; oddSeries u n (k + 1) t' (acc + t' / (2 * k + 3 : Nat))

/-- 2 · artanh(z) / z as a series in z². -/
def artanh2 (z : Int) : Int :=
  let u := fixMul z z
  2 * fixMul z (oddSeries u 110 0 (2 ^ fixBits : Nat) (2 ^ fixBits : Nat))

def ln2Fix : Int := artanh2 ((2 ^ fixBits : Nat) / 3)

/-- π by Machin's formula: 16 arctan(1/5) − 4 arctan(1/239). -/
def arctanInv (m : Nat) : Int :=
  let one : Int := (2 ^ fixBits : Nat)
  fixMul (one / m) (oddSeries (-(one / (m * m : Nat))) 75 0 one one)

def piFix : Int := 16 * arctanInv 5 - 4 * arctanInv 239

/-- e^z for 0 ≤ z < 1. -/
def expFix (z : Int) : Int := series z (fun k => k + 1) 80 0 (2 ^ fixBits : Nat) (2 ^ fixBits : Nat)

/-- 2^x; exponents beyond every slot's range are cut at ±2^15. -/
def exp2Q (x : Q) : Q :=
  let n := x.floor
  if n < -32768 then Q.scaled 1 (-32768)
  else if 32768 < n then Q.scaled 1 32768
  else (ofFix (expFix (fixMul (x.sub (Q.ofInt n)).toFix ln2Fix))).shift n

/-- log2 x for x > 0. -/
def log2Q (x : Q) : Q :=
  let k := x.log2
  let m := x.shift (-k)
  let z := ((m.sub (Q.ofInt 1)).div (m.add (Q.ofInt 1))).toFix
  (Q.ofInt k).add ((ofFix (artanh2 z)).div (ofFix ln2Fix))

/-- sin(πr) for |r| ≤ 1/4, relatively exact near 0. -/
def sinSmall (r : Q) : Q :=
  let a := (ofFix piFix).mul r
  let u := (a.mul a).toFix
  a.mul (ofFix (series (-u) (fun k => (2 * k + 2) * (2 * k + 3)) 45 0 (2 ^ fixBits : Nat) (2 ^ fixBits : Nat)))

/-- cos(πr) for |r| ≤ 1/4. -/
def cosSmall (r : Q) : Q :=
  let a := (ofFix piFix).mul r
  let u := (a.mul a).toFix
  ofFix (series (-u) (fun k => (2 * k + 1) * (2 * k + 2)) 45 0 (2 ^ fixBits : Nat) (2 ^ fixBits : Nat))

/-- sin(πx): the nearest quarter turn and what remains. -/
def sinpiQ (x : Q) : Q :=
  let n := ((x.shift 1).add ⟨1, 2⟩).floor
  let r := x.sub ⟨n, 2⟩
  match (n % 4).toNat with
  | 0 => sinSmall r
  | 1 => cosSmall r
  | 2 => (sinSmall r).neg
  | _ => (cosSmall r).neg

def cospiQ (x : Q) : Q := sinpiQ (x.add ⟨1, 2⟩)

/-- tanh x. -/
def tanhQ (x : Q) : Q :=
  let m := x.abs
  let y :=
    if m.lt (Q.scaled 1 (-64)) then m.mul ((Q.ofInt 1).sub ((m.mul m).div (Q.ofInt 3)))
    else if (Q.ofInt 256).lt m then (Q.ofInt 1).sub (Q.scaled 1 (-600))
    else
      let e := exp2Q ((m.shift 1).div (ofFix ln2Fix))
      (e.sub (Q.ofInt 1)).div (e.add (Q.ofInt 1))
  if x.num < 0 then y.neg else y

/-! ## Results -/

/-- The functions of R183, in FN order. -/
inductive SpecialFn where
  | rcp | sqrt | rsqrt | exp2 | log2 | sinpi | cospi | tanh
  deriving DecidableEq, Repr

/-- The bound of R77 on the error of a rounded result whose last place is `ulp`, for a destination of precision p: `extra` is what
the modes other than `rne` and `rna` add. The manual gives none above 53. -/
def specialBound (fn : SpecialFn) (p : Nat) (x ulp : Q) (extra : Nat) : Q :=
  let two := fn = .tanh || 24 < p
  let rel := ulp.mul (Q.ofInt (if two then 2 else 1))
  let b := if fn = .log2 && (Q.mk 1 2).le x && x.le (Q.ofInt 2) then rel.max (Q.scaled 1 (if 24 < p then 1 - p else -p)) else rel
  b.add (ulp.mul (Q.ofInt extra))

/-- Every rounding of the internal result `c` to a multiple of 2^place, whatever the mode, lies within R77's bound of the exact `y`,
whose last place is 2^e. -/
def roundsWithin (fn : SpecialFn) (p : Nat) (x y c : Q) (e place : Int) : Bool :=
  [(0, 0), (4, 0), (2, 1), (3, 1)].all fun m =>
    (((Q.ofInt (roundInt m.1 0 (c.shift (-place)))).shift place).sub y).abs.le (specialBound fn p x (Q.scaled 1 e) m.2)

/-- An internal result that R77 admits: for a destination of full precision, where it is rounded to its own last place, be that
finer than that of `y`; and for every coarser last place that a subnormal result can have. -/
def admissible (fn : SpecialFn) (p : Nat) (x y c : Q) : Bool :=
  let e := y.log2 + 1 - p
  let own := if c.num = 0 then e else c.log2 + 1 - p
  y.num ≠ 0 && roundsWithin fn p x y c e own && (List.range (p + 3)).all fun k => roundsWithin fn p x y c (e + k) (max (e + k) own)

/-- The internal result (R78): the free value where R77 admits it, the approximation otherwise. -/
def internalResult (fn : SpecialFn) (p : Nat) (x y : Q) : Q :=
  let n := match fn with
    | .rcp => 0 | .sqrt => 1 | .rsqrt => 2 | .exp2 => 3 | .log2 => 4 | .sinpi => 5 | .cospi => 6 | .tanh => 7
  let r := Config.specialResult n x.norm.num x.norm.den p
  let c : Q := ⟨r.1, r.2 + 1⟩
  if 53 < p || admissible fn p x y c then c else y

/-- Whether a rational is an integer. -/
def Q.isInt (q : Q) : Bool := q.num % q.den = 0

/-- The value that is rounded once under the destination's slot, with the special values of R77, and those of IEEE 754-2019
where R77 lists none (R55, log 22). -/
def specialVal (fn : SpecialFn) (p : Nat) (v : Val) : Val :=
  match v with
  | .nan => .nan
  | .inf n => match fn with
    | .rcp => .zero n
    | .sqrt => if n then .nan else .inf false
    | .rsqrt => if n then .nan else .zero false
    | .exp2 => if n then .zero false else .inf false
    | .log2 => if n then .nan else .inf false
    | .sinpi | .cospi => .nan
    | .tanh => .fin (Q.ofInt (if n then -1 else 1))
  | .zero n => match fn with
    | .rcp => .inf n
    | .sqrt => .zero n
    | .rsqrt => .inf n
    | .exp2 | .cospi => .fin (Q.ofInt 1)
    | .log2 => .inf true
    | .sinpi | .tanh => .zero n
  | .fin q =>
    let open1 (y : Q) : Val := Val.ofQ (q.num < 0) (internalResult fn p q y)
    match fn with
    | .rcp => .fin ((Q.ofInt 1).div q)
    | .sqrt => if q.num < 0 then .nan else .fin (sqrtQ q)
    | .rsqrt => if q.num < 0 then .nan else open1 (sqrtQ ((Q.ofInt 1).div q))
    | .exp2 => open1 (exp2Q q)
    | .log2 => if q.num < 0 then .nan else if q.eq (Q.ofInt 1) then .zero false else open1 (log2Q q)
    | .sinpi => if q.isInt then .zero (q.num < 0) else open1 (sinpiQ q)
    | .cospi => if (q.add ⟨1, 2⟩).isInt then .zero false else open1 (cospiQ q)
    | .tanh => open1 (tanhQ q)

end Sys2Proof.Machine
end

