-- ==== Sys2Proof/Machine/Update.lean ====
section
/-!
DEFINITION. Update jobs (R246–R251, R384–R387): taking a job, staging a record, publishing, dropping, and the instructions
that ask for the last two.
-/

namespace Sys2Proof.Machine

/-! ## The card (R246) -/

/-- A field of an update-job card. -/
def Job.field (j : Job) (lo len : Nat) : Nat := bitsOf j.cmd.data.toNat lo len

def Job.recipe (j : Job) : Nat := j.field 0 4
def Job.ctrl (j : Job) : Nat := j.field 64 64
def Job.recs (j : Job) : Nat := j.field 128 64
def Job.nrec (j : Job) : Nat := j.field 192 64
def Job.adam (j : Job) : Bool := j.recipe = 1

/-- A slot of the card: 0 FSP, 1 FSG, 2 FSM1, 3 FSM2. -/
def Job.slot (j : Job) (i : Nat) : Slot :=
  let img := BitVec.ofNat 64 (j.field (320 + 64 * i) 64)
  ⟨img, fmtOf img, none⟩

/-- A binary64 constant of the card: 0 LR, 1 B1, 2 B2, 3 EPS, 4 WD, 5 C1, 6 C2. -/
def Job.const (j : Job) (i : Nat) : Val := ieee64.decode (j.field (576 + 64 * i) 64) 0

def Job.width (j : Job) (i : Nat) : Nat := (j.slot i).f.width

/-- Slots that the recipe reads. -/
def Job.slots (j : Job) : List Nat := if j.adam then [0, 1, 2, 3] else [0, 1, 2]

/-- A card fault (R384); a nonzero reserved field is a reserved value (R4, log 79). -/
def Job.cardBad (j : Job) : Bool :=
  2 ≤ j.recipe || j.field 4 60 ≠ 0 || j.field 1024 1024 ≠ 0 || j.nrec = 0 || 2 ^ 40 < j.nrec || j.recs % 64 ≠ 0 ||
  j.slots.any fun i => fmtReason (j.slot i).img ≠ 0 || (j.slot i).f.blk ≠ 0 || (j.slot i).f.cmpd ≠ 0

/-! ## Jobs of a die -/

def State.modJob (s : State) (die seq : Nat) (f : Job → Job) : State :=
  s.modDie die fun d => { d with jobs := d.jobs.map fun j => if j.cmd.seq = seq then f j else j }

/-- A notice of the update engine (R377). -/
def State.jobNotice (s : State) (w : Issuer) (code loc : Nat) : State := s.engineNotice w 3 code loc

/-- A job ends: it leaves the engine, and the requests that wait for it are discarded (R385). -/
def State.endJob (s : State) (die : Nat) (j : Job) : State :=
  let s := s.modDie die fun d => { d with
    jobs := d.jobs.filter fun x => x.cmd.seq ≠ j.cmd.seq
    running := if d.running = some j.cmd.seq then none else d.running }
  j.reqs.foldl (fun s r => s.jobNotice r.who 5 j.ctrl) s

/-- The code of a failed access of the engine (R384). -/
def failCode (r : DevRes) : Nat :=
  match r with
  | .noXlate _ => 3
  | _ => 4

/-- Discard a card whose control block cannot be used: only the notice is written (R384). -/
def State.discardCard (s : State) (die : Nat) (j : Job) (code : Nat) : State :=
  (s.endJob die j).jobNotice j.cmd.who code j.ctrl

/-- A write of the engine's into its control block has failed: it has none to write any more (R384); a violation kills the
context instead (R367). -/
def State.loseCtrl (s : State) (die : Nat) (j : Job) (r : DevRes) : State :=
  match r with
  | .viol a b => s.engineViol j.cmd.who a b
  | r => s.discardCard die j (failCode r)

/-- CURSOR and STATE as the control block holds them (R248). The engine keeps both, and each release of either writes both, so that
what a program has put there does not last (R387). -/
def Job.place (j : Job) (st : Nat) : List Byte := bytesOf 8 j.cursor ++ [BitVec.ofNat 8 st]

def Job.actor (j : Job) : Actor := jobActor j.cmd.who.ctx j.cmd.seq

/-- The engine writes CURSOR and STATE, and goes on as `f` says (R250, R384). STATE 0x03 and above are released at system scope. -/
def State.moveJob (s : State) (die : Nat) (j : Job) (st : Nat) (f : State → State) : State :=
  let s := if 3 ≤ st then s.flushPosted j.actor j.ctrl else s
  let w := s.devWrite j.actor j.ctrl (j.place st)
  match w.2.1 with
  | .ok _ => f w.1
  | e => w.1.loseCtrl die j e

/-- A job ends in a final STATE, written with a release at system scope (R251, R384). -/
def State.finishJob (s : State) (die : Nat) (j : Job) (st : Nat) : State := s.moveJob die j st fun s => s.endJob die j

/-- A job ends in STATE 0x05 with a notice to `w`, which is written whether or not STATE can be (R384). -/
def State.failWith (s : State) (die : Nat) (j : Job) (w : Issuer) (code loc : Nat) : State :=
  let x := (s.flushPosted j.actor j.ctrl).devWrite j.actor j.ctrl (j.place 5)
  match x.2.1 with
  | .viol a b => x.1.engineViol j.cmd.who a b
  | _ => (x.1.endJob die j).jobNotice w code loc

/-- A failed job: STATE 0x05, and a notice (R384); a violation kills the context instead (R367). -/
def State.failJob (s : State) (die : Nat) (j : Job) (r : DevRes) (loc : Nat) : State :=
  match r with
  | .viol a b => s.engineViol j.cmd.who a b
  | r => s.failWith die j j.cmd.who (failCode r) loc

/-! ## Requests (R251, R385) -/

/-- The job of a context with a control block, on any die; a taken one comes before one that waits. -/
def State.jobAt (s : State) (ctx ctrl : Nat) : Option (Nat × Job) :=
  let all := s.dies.flatMap fun d => (d.2.jobs.filter fun j => j.cmd.who.ctx = ctx && j.ctrl = ctrl).map fun j => (d.1, j)
  (all.find? fun x => x.2.state ≠ 0) <|> all.head?

/-- A request joins a job's queue: a drop comes behind earlier drops and before the commits that wait for STATE 0x03. -/
def Job.request (j : Job) (r : JobReq) : Job :=
  if r.drop && j.state ≠ 3 then { j with reqs := j.reqs.takeWhile JobReq.drop ++ r :: j.reqs.dropWhile JobReq.drop }
  else { j with reqs := j.reqs ++ [r] }

/-- A drop is the next request to be handled. -/
def Job.dropped (j : Job) : Bool := j.reqs.head?.any JobReq.drop

/-- A job is dropped: STATE 0x05; the requests behind the drop find it so (R385). -/
def State.dropJob (s : State) (die : Nat) (j : Job) : State := s.finishJob die { j with reqs := j.reqs.drop 1 } 5

/-- `ujob.commit` and `ujob.drop` (R251, R404): the request is accepted once the team's earlier writes are performed, so
that the acquire of GUARD stands at its place in program order (R386). -/
def ujobRequest (drop : Bool) (xa : BitVec 5) (s : State) : Out1 :=
  finish s (whenActive s fun s =>
    let a := (s.ct.getX xa.toNat).toNat
    if a % 64 ≠ 0 || nonCanonical a then opTrap s
    else if !s.storesDone s.ck then .wait s (.memory (s.openOps s.ck fun o => o.parts.any Part.writes) true)
    else
      let r : JobReq := ⟨drop, s.issuer⟩
      match s.jobAt s.cctx a with
      | some (die, j) => .done (s.modJob die j.cmd.seq fun j => j.request r)
      | none => .done (s.jobNotice r.who 5 a))

def execUjobCommit (xa : BitVec 5) (s : State) : Out1 := ujobRequest false xa s
def execUjobDrop (xa : BitVec 5) (s : State) : Out1 := ujobRequest true xa s

/-! ## Taking a job (R250) -/

/-- The job to run next: of the highest priority, the oldest. -/
def pickJob (l : List Job) : Option Job :=
  l.foldl (fun b j => match b with
    | none => some j
    | some x => if x.cmd.pri < j.cmd.pri then some j else some x) none

/-- Jobs that wait for the engine. -/
def State.waitingJobs (s : State) (die : Nat) : List Job :=
  (s.die die).jobs.filter fun j => (j.state = 0 || j.state = 2) && !s.switchedOut j.cmd.who.ctx

/-- A job begins or resumes. -/
def State.startJob (s : State) (die : Nat) (j : Job) (cursor : Nat) : State :=
  s.moveJob die { j with cursor := cursor } 1 fun s =>
    (s.modDie die fun d => { d with running := some j.cmd.seq }).modJob die j.cmd.seq fun j => { j with state := 1, cursor := cursor }

/-! ### What a program must leave alone (R305, R387) -/

/-- The bytes at a virtual address as they stood at `p`, of which `bs` are there now; outside the package's memory, those. -/
def State.bytesAt (s : State) (w : Actor) (p : Snap) (acc : Acc) (va : Nat) (bs : List Byte) : List Byte :=
  (linePieces va bs.length).flatMap fun e =>
    let here := (bs.drop e.1).take e.2
    match (s.devXlate w (va + e.1) acc).2 with
    | .ok (pa, x) =>
      if isMem pa then bytesOf e.2 (({ s with mem := p.mem, lineKey := p.keys } : State).rdNat x.key pa e.2) else here
    | .error _ => here

/-- Bytes of which each is the old or the new one, freely. -/
def State.either (s : State) (old new : List Byte) : State × List Byte :=
  if old = new then (s, new)
  else
    let r := s.freeVal
    (r.2, new.zipIdx.map fun e => if r.1.testBit e.2 then (old[e.2]?).getD e.1 else e.1)

/-- Read bytes that the program was to leave alone since the card was accepted: each is old or new where it has not. -/
def State.jobRead (s : State) (j : Job) (acc : Acc) (va n : Nat) : State × DevRes :=
  let r := s.devRead j.actor acc va n
  match r.2.1 with
  | .ok bs => let x := r.1.either (r.1.bytesAt j.actor j.before acc va bs) bs; (x.1, .ok x.2)
  | e => (r.1, e)

/-- UJOB_TAKE (R250, R384, R385). -/
def execUjobTake (die : Nat) (s : State) : Out1 :=
  if (s.die die).running.isSome then .next s
  else
    match pickJob (s.waitingJobs die) with
    | none => .next s
    | some j =>
      if j.state = 2 then .next (if j.dropped then s.dropJob die j else s.startJob die j j.cursor)
      else if j.ctrl % 64 ≠ 0 then .next (s.discardCard die j 1)
      else
        let r := s.devRead j.actor .rmw j.ctrl 64
        match r.2.1 with
        | .noXlate _ => .next (r.1.discardCard die j 3)
        | .ok bs =>
          let x := r.1.either (r.1.bytesAt j.actor j.before .rmw j.ctrl bs) bs
          let s := x.1
          let j := { j with cursor := bitsOf (ofBytes x.2) 0 64 }
          if bitsOf (ofBytes bs) 64 8 ≠ 0 then .next (s.discardCard die j 6)
          else if j.cardBad then .next (s.failWith die j j.cmd.who 1 j.ctrl)
          else if j.dropped then .next (s.dropJob die j)
          else .next (s.startJob die j j.cursor)
        | e => .next (r.1.failJob die j e j.ctrl)

/-! ## A record (R247, R249) -/

/-- A record: NEL and the addresses. -/
structure URec where
  nel : Nat
  saddr : Nat
  m2 : Nat
  m1 : Nat
  g : Nat
  p : Nat
  deriving DecidableEq, Repr

def urecOf (w : Nat) : URec :=
  ⟨bitsOf w 320 24, bitsOf w 256 64, bitsOf w 192 64, bitsOf w 128 64, bitsOf w 64 64, bitsOf w 0 64⟩

def urecBad (w : Nat) : Bool := bitsOf w 320 24 = 0 || 2 ^ 22 < bitsOf w 320 24 || bitsOf w 344 168 ≠ 0

/-- Bytes of an array of `n` elements of width `w`. -/
def arrayBytes (n w : Nat) : Nat := (n * w + 7) / 8

def a96Add (a b : Val) : Val := roundA96 (Val.add 0 a b)
def a96Sub (a b : Val) : Val := roundA96 (Val.add 0 a b.neg)
def a96Mul (a b : Val) : Val := roundA96 (Val.mul a b)
def a96Div (a b : Val) : Val := roundA96 (Val.div a b)

/-- The correctly rounded square root (R249). -/
def a96Sqrt (v : Val) : Val :=
  match v with
  | .fin q => if q.num < 0 then .nan else roundA96 (.fin (sqrtQ q))
  | .inf true => .nan
  | v => v

/-- The new codes of m, v and p of one element (R249). -/
def Job.element (j : Job) (r e : Nat) (p g m v : Val) : Nat × Nat × Nat :=
  let d : Draw := ⟨j.field 256 64, r, id⟩
  let rnd (i q : Nat) (x : Val) : Nat := (j.slot i).round (d.h (4 * e + q)) x
  let dec (i c : Nat) : Val := (j.slot i).decode c 0
  let lr := j.const 0
  let b1 := j.const 1
  let b2 := j.const 2
  let wdp := a96Mul (j.const 4) p
  let one := Val.fin (Q.ofInt 1)
  if j.adam then
    let m' := rnd 2 0 (a96Add (a96Mul b1 m) (a96Mul (a96Sub one b1) g))
    let v' := rnd 3 1 (a96Add (a96Mul b2 v) (a96Mul (a96Sub one b2) (a96Mul g g)))
    let den := a96Add (a96Sqrt (a96Mul (j.const 6) (dec 3 v'))) (j.const 3)
    let step := a96Add (a96Div (a96Mul (j.const 5) (dec 2 m')) den) wdp
    (m', v', rnd 0 2 (a96Sub p (a96Mul lr step)))
  else
    let m' := rnd 2 0 (a96Add (a96Mul b1 m) g)
    (m', 0, rnd 0 2 (a96Sub p (a96Mul lr (a96Add (dec 2 m') wdp))))

/-- An array of codes, packed, with zero bits to the byte boundary. -/
def packCodes (w : Nat) (l : List Nat) : List Byte :=
  bytesOf (arrayBytes l.length w) (l.zipIdx.foldl (fun a e => a + ((e.1 % 2 ^ w) <<< (e.2 * w))) 0)

/-- The staged bytes of a record: P, M1 and M2 behind one another (R247). -/
def Job.stage (j : Job) (r : Nat) (u : URec) (p g m v : Nat) : List Byte :=
  let val (i x e : Nat) : Val := (j.slot i).decode (bitsOf x (e * j.width i) (j.width i)) 0
  let es := (List.range u.nel).map fun e => j.element r e (val 0 p e) (val 1 g e) (val 2 m e) (if j.adam then val 3 v e else .zero false)
  packCodes (j.width 0) (es.map fun x => x.2.2) ++ packCodes (j.width 2) (es.map fun x => x.1)
    ++ (if j.adam then packCodes (j.width 3) (es.map fun x => x.2.1) else [])

/-- Read an array of a record as one number. -/
def State.readArray (s : State) (j : Job) (addr n w : Nat) : State × Except DevRes Nat :=
  let r := s.jobRead j .read addr (arrayBytes n w)
  match r.2 with
  | .ok bs => (r.1, .ok (ofBytes bs))
  | e => (r.1, .error e)

/-- Read a record of the stream. -/
def State.readShard (s : State) (j : Job) (r : Nat) : State × Except DevRes Nat :=
  let x := s.jobRead j .read (j.recs + 64 * r) 64
  match x.2 with
  | .ok bs => (x.1, .ok (ofBytes bs))
  | e => (x.1, .error e)

/-- Stage a record: its inputs are read and its results written to staging, and given. -/
def State.stageRecord (s : State) (j : Job) (r : Nat) (u : URec) : State × Except DevRes (List Byte) :=
  let p := s.readArray j u.p u.nel (j.width 0)
  match p.2 with
  | .error e => (p.1, .error e)
  | .ok pv =>
    let g := p.1.readArray j u.g u.nel (j.width 1)
    match g.2 with
    | .error e => (g.1, .error e)
    | .ok gv =>
      let m := g.1.readArray j u.m1 u.nel (j.width 2)
      match m.2 with
      | .error e => (m.1, .error e)
      | .ok mv =>
        let v := if j.adam then m.1.readArray j u.m2 u.nel (j.width 3) else (m.1, .ok 0)
        match v.2 with
        | .error e => (v.1, .error e)
        | .ok vv =>
          let out := j.stage r u pv gv mv vv
          let w := v.1.devWrite j.actor u.saddr out
          match w.2.1 with
          | .ok _ => (w.1, .ok out)
          | e => (w.1, .error e)

/-- A job leaves the engine's hands in STATE 0x02 or 0x03. -/
def State.restJob (s : State) (die : Nat) (j : Job) (st : Nat) : State :=
  s.moveJob die j st fun s => (s.modJob die j.cmd.seq fun j => { j with state := st }).modDie die fun d => { d with running := none }

/-- Every record is staged: the rest of the control block, which is not read again (R387), and STATE 0x03. -/
def State.stagedJob (s : State) (die : Nat) (j : Job) : State :=
  let c := s.jobRead j .read j.ctrl 64
  match c.2 with
  | .ok bs => (c.1.modJob die j.cmd.seq fun j => { j with ctl := ofBytes bs }).restJob die j 3
  | e => c.1.failJob die j e j.ctrl

/-- What follows a record (R250, R385): a drop that has been accepted ends the job; the last record leaves STATE 0x03;
otherwise the job goes on, or pauses for a job of higher priority or because its context is switched out. -/
def State.afterRecord (s : State) (die : Nat) (j : Job) : State :=
  if j.dropped then s.dropJob die j
  else if j.nrec ≤ j.cursor then s.stagedJob die j
  else if s.switchedOut j.cmd.who.ctx || (s.waitingJobs die).any fun x => j.cmd.pri < x.cmd.pri then s.restJob die j 2
  else s

/-- CURSOR advances past a staged record, and what follows it is done. -/
def State.nextRecord (s : State) (die : Nat) (j : Job) : State :=
  let j := { j with cursor := j.cursor + 1 }
  s.moveJob die j 1 fun s => (s.modJob die j.cmd.seq fun x => { x with cursor := j.cursor }).afterRecord die j

/-- UJOB_RECORD_COMPLETE (R249, R250). -/
def execUjobRecordComplete (die : Nat) (s : State) : Out1 :=
  match (s.die die).running.bind fun n => (s.die die).jobs.find? fun j => j.cmd.seq = n with
  | none => .next s
  | some j =>
    let r := j.cursor
    if j.nrec ≤ r then .next (s.afterRecord die j)
    else if (tfind j.shards r).isSome then .next (s.nextRecord die j)
    else
      let x := s.readShard j r
      match x.2 with
      | .error e => .next (x.1.failJob die j e r)
      | .ok w =>
        if urecBad w then .next (x.1.failWith die j j.cmd.who 2 r)
        else
          let y := x.1.stageRecord j r (urecOf w)
          match y.2 with
          | .error e => .next (y.1.failJob die j e r)
          | .ok out =>
            let s := y.1.modJob die j.cmd.seq fun j => { j with shards := tins j.shards r (w, out) }
            .next (if s.releasedHere j.actor j.ctrl then s.nextRecord die j else s)

/-! ## Publishing and dropping (R251, R385) -/

/-- Copy `n` elements of width `w` from staging to an array: exactly their bits. Where staging is not what the engine computed, `old`,
each byte is old or new (R387). -/
def State.publishArray (s : State) (j : Job) (src dst n w : Nat) (old : List Byte) : State × Except DevRes Unit :=
  let a := j.actor
  let bits := n * w
  let q := s.devRead a .read src (arrayBytes n w)
  let r := match q.2.1 with
    | .ok bs => let x := q.1.either old bs; (x.1, DevRes.ok x.2)
    | e => (q.1, e)
  match r.2 with
  | .ok bs =>
    if bits % 8 = 0 then
      let x := r.1.devWrite a dst bs
      match x.2.1 with
      | .ok _ => (x.1, .ok ())
      | e => (x.1, .error e)
    else
      let last := dst + bits / 8
      let o := r.1.devRead a .rmw last 1
      match o.2.1 with
      | .ok old =>
        let b := withBits (ofBytes old) 0 (bits % 8) (ofBytes (bs.drop (bits / 8)))
        let x := o.1.devWrite a dst (bs.take (bits / 8) ++ bytesOf 1 b)
        match x.2.1 with
        | .ok _ => (x.1, .ok ())
        | e => (x.1, .error e)
      | e => (o.1, .error e)
  | e => (r.1, .error e)

/-- Publish one record's staging, computed as `old` (R251). -/
def State.publishRecord (s : State) (j : Job) (u : URec) (old : List Byte) : State × Except DevRes Unit :=
  let n0 := arrayBytes u.nel (j.width 0)
  let n1 := n0 + arrayBytes u.nel (j.width 2)
  let p := s.publishArray j u.saddr u.p u.nel (j.width 0) old
  match p.2 with
  | .error e => (p.1, .error e)
  | .ok _ =>
    let m := p.1.publishArray j (u.saddr + n0) u.m1 u.nel (j.width 2) (old.drop n0)
    match m.2 with
    | .error e => (m.1, .error e)
    | .ok _ =>
      if j.adam then m.1.publishArray j (u.saddr + n1) u.m2 u.nel (j.width 3) (old.drop n1) else (m.1, .ok ())

/-- A record with its staging, as the engine keeps them; one that it did not compute, since the program began behind it, is read. -/
def State.keptShard (s : State) (j : Job) (r : Nat) : State × Except DevRes (Nat × List Byte) :=
  match tfind j.shards r with
  | some x => (s, .ok x)
  | none =>
    let x := s.readShard j r
    (x.1, match x.2 with
      | .ok w => .ok (w, [])
      | .error e => .error e)

/-- Publish records `r`, `r` + 1, …; where it stops comes with the failure, and the failing record keeps its old arrays, all
three, in the package's memory (R384, log 37). -/
def publishFrom (j : Job) : Nat → Nat → State → State × Option (DevRes × Nat)
  | 0, _, s => (s, none)
  | n + 1, r, s =>
    let x := s.keptShard j r
    match x.2 with
    | .error e => (x.1, some (e, r))
    | .ok (w, old) =>
      let y := x.1.publishRecord j (urecOf w) old
      match y.2 with
      | .error e => ({ x.1 with rpc := y.1.rpc, free := y.1.free }, some (e, r))
      | .ok _ => publishFrom j n (r + 1) y.1

/-- The STATE of a job whose copies are made, released, and its notice (R251, R384). -/
def State.endDue (s : State) (die : Nat) (j : Job) (e : JobEnd) : State :=
  match e.notice with
  | none => s.finishJob die j e.state
  | some (w, code, loc) => s.failWith die j w code loc

/-- The copies of a commit: what they publish is read by jobs that no engine has taken, and STATE is released with it where the
control block lies in the package. DESIGN CHOICE (log 100): all records of a commit are copied at one moment, which the spec leaves
open; STATE 0x04 or 0x05 follows at once, or when a control block outside the package takes it. -/
def State.publishJob (s : State) (die : Nat) (j : Job) (w : Issuer) : State :=
  let p := publishFrom j j.nrec 0 s
  let fresh (d : Die) : Die := { d with jobs := d.jobs.map fun x => if x.state = 0 then { x with before := p.1.snap } else x }
  let s := { p.1 with dies := p.1.dies.map fun (d : Nat × Die) => (d.1, fresh d.2) }
  let go (e : JobEnd) : State :=
    if s.releasedHere j.actor j.ctrl then s.endDue die j e
    else s.modJob die j.cmd.seq fun x => { x with reqs := x.reqs.drop 1, due := some e }
  match p.2 with
  | none => go ⟨4, none⟩
  | some (.viol a b, _) => s.engineViol w a b
  | some (e, r) => go ⟨5, some (w, failCode e, r)⟩

/-- The acquire of GUARD counts as one at system scope by the team that asked for the commit (R386). -/
def State.guardAcquire (s : State) (w : Issuer) (guard : Nat) : State :=
  if s.hasTeam w.team && s.ctxOf w.team = w.ctx then s.acquire w.team 5 fun a => s.belongs w.ctx guard a else s

/-- Handle a commit of a staged job: acquire GUARD, then publish, or drop (R251, R384). -/
def State.commitJob (s : State) (die : Nat) (j : Job) (w : Issuer) : State :=
  let guard := bitsOf j.ctl 128 64
  if guard % 8 ≠ 0 then s.failWith die j w 7 j.ctrl
  else
    let g := s.devRead j.actor .read guard 8
    match g.2.1 with
    | .ok gs =>
      let s := g.1.guardAcquire w guard
      if ofBytes gs ≠ bitsOf j.ctl 192 64 then s.finishJob die j 5 else s.publishJob die j w
    | .noXlate _ => g.1.failWith die j w 7 j.ctrl
    | .viol a b => g.1.engineViol w a b
    | _ => g.1.failWith die j w 4 j.ctrl

/-- The oldest request of a die's job that may be handled, of the given kind. -/
def Die.dueReq (d : Die) (drop : Bool) : Option (Job × Issuer) :=
  d.jobs.findSome? fun j => match j.reqs with
    | r :: _ =>
      if j.due.isNone && r.drop = drop && (if drop then j.state ≠ 0 else j.state = 3) then some (j, r.who) else none
    | [] => none

/-- UJOB_COMMIT_PUBLISH (R251, R385): a STATE that is due outside the package is released, or the next commit is handled. -/
def execUjobCommitPublish (die : Nat) (s : State) : Out1 :=
  match (s.die die).jobs.findSome? fun j => j.due.map fun e => (j, e) with
  | some (j, e) => .next (s.endDue die j e)
  | none =>
    match (s.die die).dueReq false with
    | none => .next s
    | some (j, w) => .next (s.commitJob die { j with reqs := j.reqs.drop 1 } w)

/-- UJOB_DROP_APPLY: between records, a job that runs, is paused or is staged is dropped (R385). -/
def execUjobDropApply (die : Nat) (s : State) : Out1 :=
  match (s.die die).dueReq true with
  | none => .next s
  | some (j, _) => .next (s.dropJob die j)

end Sys2Proof.Machine
end

