-- ==== Sys2Proof/Machine/Vector.lean ====
section
/-!
DEFINITION. Vector arithmetic, comparison, selection, dot products, reductions, special functions, logic and shifts
(R177–R184), and conversion (R185).
-/

namespace Sys2Proof.Machine

/-- The slots of an instruction with FS and FSA, in the order of R375. -/
def slots2 (fs fsa : BitVec 4) : List (Nat × BitVec 4) := [(0, fs), (1, fsa)]

/-! ## Element-wise arithmetic (R177, R178) -/

/-- A binary form: both factors under FSA, one rounding under FS. -/
def vecBin (xp : Option Xp) (o : VBin) (s : State) (g : Nat → Val → Val → Val) : Out1 :=
  let d := s.slot xp o.fs
  let a := s.slot xp o.fsa
  vecOp s (slots2 o.fs o.fsa) [(a.blocked, o.va), (a.blocked, o.vb), (d.blocked, o.vd)] (a.f.width = d.f.width) fun t =>
    let va := t.view o.va
    let vb := t.view o.vb
    t.writeElems xp d o.vd fun i => some (g d.f.rnd (a.elem va i) (a.elem vb i))

/-- A unary form. -/
def vecUn (xp : Option Xp) (o : VUn) (s : State) (g : Slot → Nat → Val → Val) : Out1 :=
  let d := s.slot xp o.fs
  let a := s.slot xp o.fsa
  vecOp s (slots2 o.fs o.fsa) [(a.blocked, o.va), (d.blocked, o.vd)] (a.f.width = d.f.width) fun t =>
    let va := t.view o.va
    t.writeElems xp d o.vd fun i => some (g d (t.draw.h i) (a.elem va i))

/-- `vadd` (R177). -/
def execVadd (xp : Option Xp) (o : VBin) (s : State) : Out1 := vecBin xp o s Val.add

/-- `vsub` (R177). -/
def execVsub (xp : Option Xp) (o : VBin) (s : State) : Out1 := vecBin xp o s fun r a b => Val.add r a b.neg

/-- `vmul` (R177). -/
def execVmul (xp : Option Xp) (o : VBin) (s : State) : Out1 := vecBin xp o s fun _ a b => a.mul b

/-- `vdiv` (R177). -/
def execVdiv (xp : Option Xp) (o : VBin) (s : State) : Out1 := vecBin xp o s fun _ a b => a.div b

/-- `vmin` (R177). -/
def execVmin (xp : Option Xp) (o : VBin) (s : State) : Out1 := vecBin xp o s fun _ a b => a.min b

/-- `vmax` (R177). -/
def execVmax (xp : Option Xp) (o : VBin) (s : State) : Out1 := vecBin xp o s fun _ a b => a.max b

/-- `vabs` (R177). -/
def execVabs (xp : Option Xp) (o : VUn) (s : State) : Out1 := vecUn xp o s fun _ _ a => a.abs

/-- `vneg` (R177). -/
def execVneg (xp : Option Xp) (o : VUn) (s : State) : Out1 := vecUn xp o s fun _ _ a => a.neg

/-- A fused form: the addend under FS; one rounding (R178). -/
def vecFma (xp : Option Xp) (o : VBin) (s : State) (g : Nat → Val → Val → Val) : Out1 :=
  let d := s.slot xp o.fs
  let a := s.slot xp o.fsa
  let c := vcReg xp o.vd
  vecOp s (slots2 o.fs o.fsa) [(a.blocked, o.va), (a.blocked, o.vb), (d.blocked, c), (d.blocked, o.vd)]
    (a.f.width = d.f.width) fun t =>
    let va := t.view o.va
    let vb := t.view o.vb
    let vc := t.view c
    t.writeElems xp d o.vd fun i => some (g d.f.rnd ((a.elem va i).mul (a.elem vb i)) (d.elem vc i))

/-- `vfma` (R178). -/
def execVfma (xp : Option Xp) (o : VBin) (s : State) : Out1 := vecFma xp o s Val.add

/-- `vfms` (R178). -/
def execVfms (xp : Option Xp) (o : VBin) (s : State) : Out1 := vecFma xp o s fun r p c => Val.add r p c.neg

/-- `vfnma` (R178). -/
def execVfnma (xp : Option Xp) (o : VBin) (s : State) : Out1 := vecFma xp o s fun r p c => Val.add r p.neg c

/-- `vfnms` (R178). -/
def execVfnms (xp : Option Xp) (o : VBin) (s : State) : Out1 := vecFma xp o s fun r p c => Val.add r p.neg c.neg

/-! ## Comparison, classification, selection (R179, R180) -/

/-- The result of an element test: all ones or zeros per element, or one bit per thread. -/
def writeTest (xp : Option Xp) (pdst all : Bool) (w : Nat) (vd : BitVec 7) (test : Nat → Bool) (t : Team) : Team :=
  if pdst then
    t.writePred xp vd.toNat fun i => if all then (ownedBy w i).all test else (ownedBy w i).any test
  else t.writeBits xp w vd fun i => if test i then 2 ^ w - 1 else 0

/-- The destination of a test: a vector register written raw, or a predicate. -/
def testDest (pdst : Bool) (vd : BitVec 7) : List VOpd := if pdst then [] else [(false, vd)]

def vecCmp (xp : Option Xp) (o : VCmp) (s : State) (test : Val → Val → Bool) : Out1 :=
  let a := s.slot xp o.fs
  vecOp s [(0, o.fs)] ([(a.blocked, o.va), (a.blocked, o.vb)] ++ testDest o.pdst o.vd) true fun t =>
    let va := t.view o.va
    let vb := t.view o.vb
    writeTest xp o.pdst o.all a.f.width o.vd (fun i => test (a.elem va i) (a.elem vb i)) t

/-- `vcmpeq` (R179). -/
def execVcmpeq (xp : Option Xp) (o : VCmp) (s : State) : Out1 := vecCmp xp o s Val.eq

/-- `vcmpne` (R179). -/
def execVcmpne (xp : Option Xp) (o : VCmp) (s : State) : Out1 := vecCmp xp o s fun a b => !a.eq b

/-- `vcmplt` (R179). -/
def execVcmplt (xp : Option Xp) (o : VCmp) (s : State) : Out1 := vecCmp xp o s (Val.lt false)

/-- `vcmple` (R179). -/
def execVcmple (xp : Option Xp) (o : VCmp) (s : State) : Out1 := vecCmp xp o s fun a b => a.lt false b || a.eq b

/-- `vcmpun` (R179). -/
def execVcmpun (xp : Option Xp) (o : VCmp) (s : State) : Out1 := vecCmp xp o s fun a b => a.isNan || b.isNan

/-- `vsel` (R180). -/
def execVsel (xp : Option Xp) (o : VSelOps) (s : State) : Out1 :=
  let w := (s.slot xp o.fs).f.width
  vecOp s [(0, o.fs)] [(false, o.va), (false, o.vb), (false, o.vm), (false, o.vd)] true fun t =>
    let va := t.view o.va
    let vb := t.view o.vb
    let vm := t.view o.vm
    t.writeBits xp w o.vd fun i => if vm.bits w i ≠ 0 then va.bits w i else vb.bits w i

/-- The class of an element, read from its encoding (R179). -/
def Slot.classOf (sl : Slot) (code byte : Nat) : Nat :=
  let f := sl.f
  let sub := f.kind = 0 && (code % 2 ^ (f.exw + f.mfw)) >>> f.mfw = 0
  match sl.decode code byte with
  | .nan => 0
  | .inf n => if n then 1 else 8
  | .zero n => if n then 4 else 5
  | .fin q => if q.num < 0 then (if sub then 3 else 2) else (if sub then 6 else 7)

/-- `vclass` (R179). -/
def execVclass (xp : Option Xp) (o : VCls) (s : State) : Out1 :=
  let a := s.slot xp o.fs
  vecOp s [(0, o.fs)] ((a.blocked, o.va) :: testDest o.pdst o.vd) true fun t =>
    let va := t.view o.va
    writeTest xp o.pdst o.all a.f.width o.vd
      (fun i => o.cls.getLsbD (a.classOf (va.bits a.f.width i) (a.byteOf va.odd i))) t

/-! ## Dot products and reductions (R181, R182) -/

/-- J of R181. -/
def dotCount (a b : Slot) (o : VDotOps) : Nat := min a.f.count b.f.count / (o.g.toNat + 1)

/-- One dot product of G factors from element jG on, into `acc`. -/
def dotProduct (a b : Slot) (va vb : View) (g j : Nat) (acc : Val) : Val :=
  accumulate acc (segmentsOf ((List.range g).map fun k => (a.elem va (j * g + k)).mul (b.elem vb (j * g + k))))

def vecDot (xp : Option Xp) (o : VDotOps) (s : State) (addend : Bool) : Out1 :=
  let d := s.slot xp o.fs
  let a := s.slot xp o.fsa
  let b := s.slot xp o.fsb
  let n := dotCount a b o
  let c := vcReg xp o.vd
  vecOp s [(0, o.fs), (1, o.fsa), (2, o.fsb)]
    ([(a.blocked, o.va), (b.blocked, o.vb), (d.blocked, o.vd)] ++ if addend then [(d.blocked, c)] else [])
    (1 ≤ n && n ≤ d.f.count) fun t =>
    let va := t.view o.va
    let vb := t.view o.vb
    let vc := t.view c
    t.writeElems xp d o.vd fun j =>
      if j < n then
        some (dotProduct a b va vb (o.g.toNat + 1) j (if addend then roundA96 (d.elem vc j) else .zero false))
      else none

/-- `vdot` (R181). -/
def execVdot (xp : Option Xp) (o : VDotOps) (s : State) : Out1 := vecDot xp o s false

/-- `vdota` (R181). -/
def execVdota (xp : Option Xp) (o : VDotOps) (s : State) : Out1 := vecDot xp o s true

/-- A reduction: `g` reduces the elements, `none` where the owner is not included; every destination element of an active
thread gets the one result, rounded with element index 0 (R182). -/
def vecRed (xp : Option Xp) (o : VUn) (s : State) (g : List (Option Val) → Val) : Out1 :=
  let d := s.slot xp o.fs
  let a := s.slot xp o.fsa
  vecOp s (slots2 o.fs o.fsa) [(a.blocked, o.va), (d.blocked, o.vd)] true fun t =>
    let va := t.view o.va
    let m := t.masked xp
    let v := g ((List.range a.f.count).map fun i =>
      if m.getLsbD (ownerOf a.f.width i) then some (a.elem va i) else none)
    t.writeDrawn { t.draw with elem := fun _ => 0 } xp d o.vd fun _ => some v

/-- `vredsum`: segment j covers elements 32j to 32j + 31 whatever the mask (R182). -/
def execVredsum (xp : Option Xp) (o : VUn) (s : State) : Out1 :=
  vecRed xp o s fun es =>
    accumulate (.zero false) ((List.range ((es.length + 31) / 32)).map fun j => ((es.drop (32 * j)).take 32).filterMap id)

/-- The extreme of the included elements; `none0` where none is (R182). -/
def extreme (g : Val → Val → Val) (none0 : Val) (es : List (Option Val)) : Val :=
  match es.filterMap id with
  | [] => none0
  | v :: vs => vs.foldl g v

/-- `vredmax` (R182). -/
def execVredmax (xp : Option Xp) (o : VUn) (s : State) : Out1 := vecRed xp o s (extreme Val.max (.inf true))

/-- `vredmin` (R182). -/
def execVredmin (xp : Option Xp) (o : VUn) (s : State) : Out1 := vecRed xp o s (extreme Val.min (.inf false))

/-! ## Special functions (R183) -/

def vecSpecial (xp : Option Xp) (o : VUn) (s : State) (fn : SpecialFn) : Out1 :=
  vecUn xp o s fun d _ a => specialVal fn d.f.precision a

/-- `vrcp` (R183). -/
def execVrcp (xp : Option Xp) (o : VUn) (s : State) : Out1 := vecSpecial xp o s .rcp

/-- `vsqrt` (R183). -/
def execVsqrt (xp : Option Xp) (o : VUn) (s : State) : Out1 := vecSpecial xp o s .sqrt

/-- `vrsqrt` (R183). -/
def execVrsqrt (xp : Option Xp) (o : VUn) (s : State) : Out1 := vecSpecial xp o s .rsqrt

/-- `vexp2` (R183). -/
def execVexp2 (xp : Option Xp) (o : VUn) (s : State) : Out1 := vecSpecial xp o s .exp2

/-- `vlog2` (R183). -/
def execVlog2 (xp : Option Xp) (o : VUn) (s : State) : Out1 := vecSpecial xp o s .log2

/-- `vsinpi` (R183). -/
def execVsinpi (xp : Option Xp) (o : VUn) (s : State) : Out1 := vecSpecial xp o s .sinpi

/-- `vcospi` (R183). -/
def execVcospi (xp : Option Xp) (o : VUn) (s : State) : Out1 := vecSpecial xp o s .cospi

/-- `vtanh` (R183). -/
def execVtanh (xp : Option Xp) (o : VUn) (s : State) : Out1 := vecSpecial xp o s .tanh

/-! ## Bitwise logic and shifts (R184) -/

def vecLogic (xp : Option Xp) (o : VLogic) (s : State) (g : Nat → Nat → Nat) : Out1 :=
  let w := (s.slot xp o.fs).f.width
  vecOp s [(0, o.fs)] [(false, o.va), (false, o.vb), (false, o.vd)] true fun t =>
    let va := t.view o.va
    let vb := t.view o.vb
    t.writeBits xp w o.vd fun i => g (va.bits w i) (vb.bits w i)

/-- `vand` (R184). -/
def execVand (xp : Option Xp) (o : VLogic) (s : State) : Out1 := vecLogic xp o s (· &&& ·)

/-- `vor` (R184). -/
def execVor (xp : Option Xp) (o : VLogic) (s : State) : Out1 := vecLogic xp o s (· ||| ·)

/-- `vxor` (R184). -/
def execVxor (xp : Option Xp) (o : VLogic) (s : State) : Out1 := vecLogic xp o s (· ^^^ ·)

/-- `vandn`: A and not B (R184). -/
def execVandn (xp : Option Xp) (o : VLogic) (s : State) : Out1 := vecLogic xp o s fun a b => a ^^^ (a &&& b)

/-- A shift of the element's W bits by the immediate, or by the element of VB as an unsigned number. -/
def vecShift (xp : Option Xp) (o : VShift) (s : State) (g : Nat → Nat → Nat → Nat) : Out1 :=
  let w := (s.slot xp o.fs).f.width
  vecOp s [(0, o.fs)] ([(false, o.va), (false, o.vd)] ++ if o.immf then [] else [(false, o.vb)]) true fun t =>
    let va := t.view o.va
    let vb := t.view o.vb
    t.writeBits xp w o.vd fun i => g w (va.bits w i) (if o.immf then o.amt.toNat else vb.bits w i)

/-- `vshl` (R184). -/
def execVshl (xp : Option Xp) (o : VShift) (s : State) : Out1 :=
  vecShift xp o s fun w a n => if w ≤ n then 0 else (a <<< n) % 2 ^ w

/-- `vshr` (R184). -/
def execVshr (xp : Option Xp) (o : VShift) (s : State) : Out1 :=
  vecShift xp o s fun w a n => if w ≤ n then 0 else a >>> n

/-- `vsar` (R184). -/
def execVsar (xp : Option Xp) (o : VShift) (s : State) : Out1 :=
  vecShift xp o s fun w a n => intBits w (sextNat w a / (2 ^ (if w ≤ n then w else n) : Nat))

/-! ## Conversion (R185) -/

/-- `vcvt` (R185). -/
def execVcvt (xp : Option Xp) (o : VCvt) (s : State) : Out1 :=
  let d := s.slot xp o.fs
  let a := s.slot xp o.fsa
  let f := 32 * o.from32.toNat
  let g := 32 * o.to32.toNat
  vecOp s (slots2 o.fs o.fsa) [(a.blocked, o.va), (d.blocked, o.vd)] (f < a.f.count && g < d.f.count) fun t =>
    let va := t.view o.va
    let c := min (a.f.count - f) (d.f.count - g)
    t.writeElems xp d o.vd fun i => if g ≤ i && i < g + c then some (a.elem va (f + (i - g))) else none

/-- RoundInt of R185: NaN and infinities pass, a zero keeps the sign. -/
def Val.roundInt (rnd h : Nat) (v : Val) : Val :=
  match v with
  | .fin q => Val.ofQ (q.num < 0) (Q.ofInt (Machine.roundInt rnd h q))
  | v => v

/-- `vrint` (R185). -/
def execVrint (xp : Option Xp) (o : VUn) (s : State) : Out1 :=
  vecUn xp o s fun d h a => a.roundInt d.f.rnd h

end Sys2Proof.Machine
end

