-- ==== Sys2Proof/Machine/Dispatch.lean ====
section
/-!
DEFINITION. One arm for each row of spec/opcode_table.json: which meaning an instruction, an operation or an event has.
-/

namespace Sys2Proof.Machine

def exec (i : Instr) (s : State) : Host.Outcome State Fault Refusal :=
  match i with
  | .nop => Sys2Proof.Machine.execNop s
  | .exit => Sys2Proof.Machine.execExit s
  | .waitc ld st cp tl => Sys2Proof.Machine.execWaitc ld st cp tl s
  | .yield cnt k off => Sys2Proof.Machine.execYield cnt k off s
  | .launch x q => Sys2Proof.Machine.execLaunch x q s
  | .locq xd => Sys2Proof.Machine.execLocq xd s
  | .homeq xd xa => Sys2Proof.Machine.execHomeq xd xa s
  | .br tgt => Sys2Proof.Machine.execBr tgt s
  | .brp pr cond join tgt => Sys2Proof.Machine.execBrp pr cond join tgt s
  | .call tgt => Sys2Proof.Machine.execCall tgt s
  | .jr xa imm => Sys2Proof.Machine.execJr xa imm s
  | .ret xa => Sys2Proof.Machine.execRet xa s
  | .bar sco id n => Sys2Proof.Machine.execBar sco id n s
  | .barar xd sco id n => Sys2Proof.Machine.execBarar xd sco id n s
  | .barwt xa sco id => Sys2Proof.Machine.execBarwt xa sco id s
  | .regroup => Sys2Proof.Machine.execRegroup s
  | .regroupHome => Sys2Proof.Machine.execRegroupHome s
  | .pand d a b => Sys2Proof.Machine.execPand d a b s
  | .por d a b => Sys2Proof.Machine.execPor d a b s
  | .pxor d a b => Sys2Proof.Machine.execPxor d a b s
  | .pandn d a b => Sys2Proof.Machine.execPandn d a b s
  | .pnot d a => Sys2Proof.Machine.execPnot d a s
  | .pmov d a => Sys2Proof.Machine.execPmov d a s
  | .emget xd => Sys2Proof.Machine.execEmget xd s
  | .emset xa => Sys2Proof.Machine.execEmset xa s
  | .emand pa => Sys2Proof.Machine.execEmand pa s
  | .pget xd pa => Sys2Proof.Machine.execPget xd pa s
  | .pset pd xa bc => Sys2Proof.Machine.execPset pd xa bc s
  | .pany xd pa => Sys2Proof.Machine.execPany xd pa s
  | .pall xd pa => Sys2Proof.Machine.execPall xd pa s
  | .pcnt xd pa => Sys2Proof.Machine.execPcnt xd pa s
  | .add d a b => Sys2Proof.Machine.execAdd d a b s
  | .sub d a b => Sys2Proof.Machine.execSub d a b s
  | .mul d a b => Sys2Proof.Machine.execMul d a b s
  | .mulh d a b => Sys2Proof.Machine.execMulh d a b s
  | .mulhu d a b => Sys2Proof.Machine.execMulhu d a b s
  | .div d a b => Sys2Proof.Machine.execDiv d a b s
  | .divu d a b => Sys2Proof.Machine.execDivu d a b s
  | .rem d a b => Sys2Proof.Machine.execRem d a b s
  | .remu d a b => Sys2Proof.Machine.execRemu d a b s
  | .and d a b => Sys2Proof.Machine.execAnd d a b s
  | .or d a b => Sys2Proof.Machine.execOr d a b s
  | .xor d a b => Sys2Proof.Machine.execXor d a b s
  | .andn d a b => Sys2Proof.Machine.execAndn d a b s
  | .shl d a b => Sys2Proof.Machine.execShl d a b s
  | .shr d a b => Sys2Proof.Machine.execShr d a b s
  | .sar d a b => Sys2Proof.Machine.execSar d a b s
  | .rol d a b => Sys2Proof.Machine.execRol d a b s
  | .ror d a b => Sys2Proof.Machine.execRor d a b s
  | .addi d a imm => Sys2Proof.Machine.execAddi d a imm s
  | .andi d a imm => Sys2Proof.Machine.execAndi d a imm s
  | .ori d a imm => Sys2Proof.Machine.execOri d a imm s
  | .xori d a imm => Sys2Proof.Machine.execXori d a imm s
  | .shli d a sh => Sys2Proof.Machine.execShli d a sh s
  | .shri d a sh => Sys2Proof.Machine.execShri d a sh s
  | .sari d a sh => Sys2Proof.Machine.execSari d a sh s
  | .seq d a b => Sys2Proof.Machine.execSeq d a b s
  | .sne d a b => Sys2Proof.Machine.execSne d a b s
  | .slt d a b => Sys2Proof.Machine.execSlt d a b s
  | .sltu d a b => Sys2Proof.Machine.execSltu d a b s
  | .sle d a b => Sys2Proof.Machine.execSle d a b s
  | .sleu d a b => Sys2Proof.Machine.execSleu d a b s
  | .min d a b => Sys2Proof.Machine.execMin d a b s
  | .max d a b => Sys2Proof.Machine.execMax d a b s
  | .minu d a b => Sys2Proof.Machine.execMinu d a b s
  | .maxu d a b => Sys2Proof.Machine.execMaxu d a b s
  | .clz d a => Sys2Proof.Machine.execClz d a s
  | .ctz d a => Sys2Proof.Machine.execCtz d a s
  | .popc d a => Sys2Proof.Machine.execPopc d a s
  | .bswap d a => Sys2Proof.Machine.execBswap d a s
  | .li d imm => Sys2Proof.Machine.execLi d imm s
  | .lhi d imm => Sys2Proof.Machine.execLhi d imm s
  | .addpc d imm => Sys2Proof.Machine.execAddpc d imm s
  | .fsset slot xa => Sys2Proof.Machine.execFsset slot xa s
  | .fsget xd slot => Sys2Proof.Machine.execFsget xd slot s
  | .vadd xp o => Sys2Proof.Machine.execVadd xp o s
  | .vsub xp o => Sys2Proof.Machine.execVsub xp o s
  | .vmul xp o => Sys2Proof.Machine.execVmul xp o s
  | .vdiv xp o => Sys2Proof.Machine.execVdiv xp o s
  | .vmin xp o => Sys2Proof.Machine.execVmin xp o s
  | .vmax xp o => Sys2Proof.Machine.execVmax xp o s
  | .vabs xp o => Sys2Proof.Machine.execVabs xp o s
  | .vneg xp o => Sys2Proof.Machine.execVneg xp o s
  | .vfma xp o => Sys2Proof.Machine.execVfma xp o s
  | .vfms xp o => Sys2Proof.Machine.execVfms xp o s
  | .vfnma xp o => Sys2Proof.Machine.execVfnma xp o s
  | .vfnms xp o => Sys2Proof.Machine.execVfnms xp o s
  | .vcmpeq xp o => Sys2Proof.Machine.execVcmpeq xp o s
  | .vcmpne xp o => Sys2Proof.Machine.execVcmpne xp o s
  | .vcmplt xp o => Sys2Proof.Machine.execVcmplt xp o s
  | .vcmple xp o => Sys2Proof.Machine.execVcmple xp o s
  | .vcmpun xp o => Sys2Proof.Machine.execVcmpun xp o s
  | .vsel xp o => Sys2Proof.Machine.execVsel xp o s
  | .vclass xp o => Sys2Proof.Machine.execVclass xp o s
  | .vdot xp o => Sys2Proof.Machine.execVdot xp o s
  | .vdota xp o => Sys2Proof.Machine.execVdota xp o s
  | .vredsum xp o => Sys2Proof.Machine.execVredsum xp o s
  | .vredmax xp o => Sys2Proof.Machine.execVredmax xp o s
  | .vredmin xp o => Sys2Proof.Machine.execVredmin xp o s
  | .vrcp xp o => Sys2Proof.Machine.execVrcp xp o s
  | .vsqrt xp o => Sys2Proof.Machine.execVsqrt xp o s
  | .vrsqrt xp o => Sys2Proof.Machine.execVrsqrt xp o s
  | .vexp2 xp o => Sys2Proof.Machine.execVexp2 xp o s
  | .vlog2 xp o => Sys2Proof.Machine.execVlog2 xp o s
  | .vsinpi xp o => Sys2Proof.Machine.execVsinpi xp o s
  | .vcospi xp o => Sys2Proof.Machine.execVcospi xp o s
  | .vtanh xp o => Sys2Proof.Machine.execVtanh xp o s
  | .vand xp o => Sys2Proof.Machine.execVand xp o s
  | .vor xp o => Sys2Proof.Machine.execVor xp o s
  | .vxor xp o => Sys2Proof.Machine.execVxor xp o s
  | .vandn xp o => Sys2Proof.Machine.execVandn xp o s
  | .vshl xp o => Sys2Proof.Machine.execVshl xp o s
  | .vshr xp o => Sys2Proof.Machine.execVshr xp o s
  | .vsar xp o => Sys2Proof.Machine.execVsar xp o s
  | .vcvt xp o => Sys2Proof.Machine.execVcvt xp o s
  | .vrint xp o => Sys2Proof.Machine.execVrint xp o s
  | .vtid xp sel fs vd => Sys2Proof.Machine.execVtid xp sel fs vd s
  | .vbcast xp fs xa vd => Sys2Proof.Machine.execVbcast xp fs xa vd s
  | .vbcastl xp id va vd => Sys2Proof.Machine.execVbcastl xp id va vd s
  | .vmov xp va vd => Sys2Proof.Machine.execVmov xp va vd s
  | .vgetx o => Sys2Proof.Machine.execVgetx o s
  | .vsetx o => Sys2Proof.Machine.execVsetx o s
  | .vpatld p va => Sys2Proof.Machine.execVpatld p va s
  | .vshfl xp vb va vd => Sys2Proof.Machine.execVshfl xp vb va vd s
  | .vrot xp o => Sys2Proof.Machine.execVrot xp o s
  | .vxchg xp m va vd => Sys2Proof.Machine.execVxchg xp m va vd s
  | .vpat xp p va vd => Sys2Proof.Machine.execVpat xp p va vd s
  | .fscmp t va => Sys2Proof.Machine.execFscmp t va s
  | .ld8 xp o => Sys2Proof.Machine.execLd8 xp o s
  | .ld16 xp o => Sys2Proof.Machine.execLd16 xp o s
  | .ld32 xp o => Sys2Proof.Machine.execLd32 xp o s
  | .ld64 xp o => Sys2Proof.Machine.execLd64 xp o s
  | .ld8s xp o => Sys2Proof.Machine.execLd8s xp o s
  | .ld16s xp o => Sys2Proof.Machine.execLd16s xp o s
  | .ld32s xp o => Sys2Proof.Machine.execLd32s xp o s
  | .st8 xp o => Sys2Proof.Machine.execSt8 xp o s
  | .st16 xp o => Sys2Proof.Machine.execSt16 xp o s
  | .st32 xp o => Sys2Proof.Machine.execSt32 xp o s
  | .st64 xp o => Sys2Proof.Machine.execSt64 xp o s
  | .ldp xp o => Sys2Proof.Machine.execLdp xp o s
  | .stp xp o => Sys2Proof.Machine.execStp xp o s
  | .ldx o => Sys2Proof.Machine.execLdx o s
  | .stx o => Sys2Proof.Machine.execStx o s
  | .ldg xp o => Sys2Proof.Machine.execLdg xp o s
  | .stg xp o => Sys2Proof.Machine.execStg xp o s
  | .sld xp o => Sys2Proof.Machine.execSld xp o s
  | .sst xp o => Sys2Proof.Machine.execSst xp o s
  | .sldt xp o => Sys2Proof.Machine.execSldt xp o s
  | .pf off cache base => Sys2Proof.Machine.execPf off cache base s
  | .icinv o => Sys2Proof.Machine.execIcinv o s
  | .dcinv o => Sys2Proof.Machine.execDcinv o s
  | .aadd xp o => Sys2Proof.Machine.execAadd xp o s
  | .aand xp o => Sys2Proof.Machine.execAand xp o s
  | .aor xp o => Sys2Proof.Machine.execAor xp o s
  | .axor xp o => Sys2Proof.Machine.execAxor xp o s
  | .amin xp o => Sys2Proof.Machine.execAmin xp o s
  | .amax xp o => Sys2Proof.Machine.execAmax xp o s
  | .aminu xp o => Sys2Proof.Machine.execAminu xp o s
  | .amaxu xp o => Sys2Proof.Machine.execAmaxu xp o s
  | .aswp xp o => Sys2Proof.Machine.execAswp xp o s
  | .acas xp o => Sys2Proof.Machine.execAcas xp o s
  | .redAdd xp o => Sys2Proof.Machine.execRedAdd xp o s
  | .redAnd xp o => Sys2Proof.Machine.execRedAnd xp o s
  | .redOr xp o => Sys2Proof.Machine.execRedOr xp o s
  | .redXor xp o => Sys2Proof.Machine.execRedXor xp o s
  | .redMin xp o => Sys2Proof.Machine.execRedMin xp o s
  | .redMax xp o => Sys2Proof.Machine.execRedMax xp o s
  | .redMinu xp o => Sys2Proof.Machine.execRedMinu xp o s
  | .redMaxu xp o => Sys2Proof.Machine.execRedMaxu xp o s
  | .osCas4 xp o => Sys2Proof.Machine.execOsCas4 xp o s
  | .osEnq xp o => Sys2Proof.Machine.execOsEnq xp o s
  | .osChase xp o => Sys2Proof.Machine.execOsChase xp o s
  | .osRun xp o => Sys2Proof.Machine.execOsRun xp o s
  | .hgath xp o => Sys2Proof.Machine.execHgath xp o s
  | .fence sem sco => Sys2Proof.Machine.execFence sem sco s
  | .bind ent xo xb xl => Sys2Proof.Machine.execBind ent xo xb xl s
  | .unbind ent => Sys2Proof.Machine.execUnbind ent s
  | .qpush nb pd q reg => Sys2Proof.Machine.execQpush nb pd q reg s
  | .qpop nb pd q reg => Sys2Proof.Machine.execQpop nb pd q reg s
  | .qbind q port idx => Sys2Proof.Machine.execQbind q port idx s
  | .tcopy nb pd eng reg => Sys2Proof.Machine.execTcopy nb pd eng reg s
  | .own st n dst => Sys2Proof.Machine.execOwn st n dst s
  | .tmma o => Sys2Proof.Machine.execTmma o s
  | .tzero td => Sys2Proof.Machine.execTzero td s
  | .talloc td => Sys2Proof.Machine.execTalloc td s
  | .tfree td => Sys2Proof.Machine.execTfree td s
  | .tld xp o => Sys2Proof.Machine.execTld xp o s
  | .tst xp o => Sys2Proof.Machine.execTst xp o s
  | .ujobCommit xa => Sys2Proof.Machine.execUjobCommit xa s
  | .ujobDrop xa => Sys2Proof.Machine.execUjobDrop xa s
  | .cxClaim xd wait => Sys2Proof.Machine.execCxClaim xd wait s
  | .cxFree => Sys2Proof.Machine.execCxFree s
  | .cxClr keep => Sys2Proof.Machine.execCxClr keep s
  | .cxLdc va xa col app => Sys2Proof.Machine.execCxLdc va xa col app s
  | .cxDis xa col en => Sys2Proof.Machine.execCxDis xa col en s
  | .cxAsg xa newl => Sys2Proof.Machine.execCxAsg xa newl s
  | .cxProp xd async => Sys2Proof.Machine.execCxProp xd async s
  | .cxBt xa lvl => Sys2Proof.Machine.execCxBt xa lvl s
  | .cxLvl all xd xa vd => Sys2Proof.Machine.execCxLvl all xd xa vd s
  | .cxTrl vd xd xa => Sys2Proof.Machine.execCxTrl vd xd xa s
  | .cxCfl vd xd xa => Sys2Proof.Machine.execCxCfl vd xd xa s
  | .cxSt xd => Sys2Proof.Machine.execCxSt xd s
  | .trap code => Sys2Proof.Machine.execTrap code s
  | .rett => Sys2Proof.Machine.execRett s
  | .brk code => Sys2Proof.Machine.execBrk code s
  | .rdsr xd sr => Sys2Proof.Machine.execRdsr xd sr s
  | .wrsr sr xa => Sys2Proof.Machine.execWrsr sr xa s
  | .pageWalk core ctx va acc => Sys2Proof.Machine.execPageWalk core ctx va acc s
  | .translationFaultSwap t => Sys2Proof.Machine.execTranslationFaultSwap t s
  | .swapRestore t => Sys2Proof.Machine.execSwapRestore t s
  | .replayRetry t => Sys2Proof.Machine.execReplayRetry t s
  | .operationComplete op ext => Sys2Proof.Machine.execOperationComplete op ext s
  | .l2HomeAccess op part => Sys2Proof.Machine.execL2HomeAccess op part s
  | .secondTierHomeAccess op part => Sys2Proof.Machine.execSecondTierHomeAccess op part s
  | .wcEntryDrain core entry => Sys2Proof.Machine.execWcEntryDrain core entry s
  | .deferredReport t => Sys2Proof.Machine.execDeferredReport t s
  | .launchQueuePoll ctx q => Sys2Proof.Machine.execLaunchQueuePoll ctx q s
  | .admitLaunch ctx q => Sys2Proof.Machine.execAdmitLaunch ctx q s
  | .bindBlock ctx lnh core slot stb => Sys2Proof.Machine.execBindBlock ctx lnh core slot stb s
  | .stealRequest die => Sys2Proof.Machine.execStealRequest die s
  | .stealAnswer die => Sys2Proof.Machine.execStealAnswer die s
  | .issueSlotChoice core slot => Sys2Proof.Machine.execIssueSlotChoice core slot s
  | .parkBlock core slot => Sys2Proof.Machine.execParkBlock core slot s
  | .unparkBlock core slot => Sys2Proof.Machine.execUnparkBlock core slot s
  | .evictTeams core ctx lnh => Sys2Proof.Machine.execEvictTeams core ctx lnh s
  | .evictedTeamReturn t => Sys2Proof.Machine.execEvictedTeamReturn t s
  | .regroupSetFormed core slot pc => Sys2Proof.Machine.execRegroupSetFormed core slot pc s
  | .barrierPhaseComplete b => Sys2Proof.Machine.execBarrierPhaseComplete b s
  | .yieldResume t => Sys2Proof.Machine.execYieldResume t s
  | .teamEnd t => Sys2Proof.Machine.execTeamEnd t s
  | .launchCompletion ctx lnh => Sys2Proof.Machine.execLaunchCompletion ctx lnh s
  | .tallocGrant t => Sys2Proof.Machine.execTallocGrant t s
  | .cxClaimGrant quad => Sys2Proof.Machine.execCxClaimGrant quad s
  | .cxPropRetire quad => Sys2Proof.Machine.execCxPropRetire quad s
  | .cxPropResultPlace quad => Sys2Proof.Machine.execCxPropResultPlace quad s
  | .copyCommandStart core eng => Sys2Proof.Machine.execCopyCommandStart core eng s
  | .copyCommandEnd core eng => Sys2Proof.Machine.execCopyCommandEnd core eng s
  | .stripAppend core eng => Sys2Proof.Machine.execStripAppend core eng s
  | .nvmeDoorbellWrite core eng ok => Sys2Proof.Machine.execNvmeDoorbellWrite core eng ok s
  | .matrixPassStart core => Sys2Proof.Machine.execMatrixPassStart core s
  | .matrixPassComplete core failed => Sys2Proof.Machine.execMatrixPassComplete core failed s
  | .offloadCommand iod fromHost hostErrorAt => Sys2Proof.Machine.execOffloadCommand iod fromHost hostErrorAt s
  | .ujobTake die => Sys2Proof.Machine.execUjobTake die s
  | .ujobRecordComplete die => Sys2Proof.Machine.execUjobRecordComplete die s
  | .ujobCommitPublish die => Sys2Proof.Machine.execUjobCommitPublish die s
  | .ujobDropApply die => Sys2Proof.Machine.execUjobDropApply die s
  | .ostcCommand core => Sys2Proof.Machine.execOstcCommand core s
  | .ostlerOperation op part => Sys2Proof.Machine.execOstlerOperation op part s
  | .trapRecordWrite ctx => Sys2Proof.Machine.execTrapRecordWrite ctx s
  | .trapQueuePoll ctx entry => Sys2Proof.Machine.execTrapQueuePoll ctx entry s
  | .handlerTimeout t => Sys2Proof.Machine.execHandlerTimeout t s
  | .longStall t => Sys2Proof.Machine.execLongStall t s
  | .vfSliceSwitch => Sys2Proof.Machine.execVfSliceSwitch s
  | .contextEnable ctx => Sys2Proof.Machine.execContextEnable ctx s
  | .contextDisable ctx => Sys2Proof.Machine.execContextDisable ctx s
  | .tlbiCtl fn v => Sys2Proof.Machine.execTlbiCtl fn v s
  | .tlbInvalidationComplete fn => Sys2Proof.Machine.execTlbInvalidationComplete fn s
  | .registerWrite off v secure => Sys2Proof.Machine.execRegisterWrite off v secure s
  | .mextGo v => Sys2Proof.Machine.execMextGo v s
  | .rkeyLock v => Sys2Proof.Machine.execRkeyLock v s
  | .halt seq => Sys2Proof.Machine.execHalt seq s
  | .resume seq => Sys2Proof.Machine.execResume seq s
  | .step seq => Sys2Proof.Machine.execStep seq s
  | .readFrame seq => Sys2Proof.Machine.execReadFrame seq s
  | .writeFrame seq => Sys2Proof.Machine.execWriteFrame seq s
  | .setBp seq => Sys2Proof.Machine.execSetBp seq s
  | .clrBp seq => Sys2Proof.Machine.execClrBp seq s
  | .admitCmd seq => Sys2Proof.Machine.execAdmitCmd seq s
  | .list seq => Sys2Proof.Machine.execList seq s
  | .mbxCommandFinish => Sys2Proof.Machine.execMbxCommandFinish s
  | .inboundBar2Access fn off req => Sys2Proof.Machine.execInboundBar2Access fn off req s
  | .inboundCxlMemAccess port pa req => Sys2Proof.Machine.execInboundCxlMemAccess port pa req s
  | .getVersion => Sys2Proof.Machine.execGetVersion s
  | .getCapabilities => Sys2Proof.Machine.execGetCapabilities s
  | .negotiateAlgorithms hash sig => Sys2Proof.Machine.execNegotiateAlgorithms hash sig s
  | .getDigests => Sys2Proof.Machine.execGetDigests s
  | .getCertificate slot off len => Sys2Proof.Machine.execGetCertificate slot off len s
  | .challenge nonce => Sys2Proof.Machine.execChallenge nonce s
  | .getMeasurements nonce index => Sys2Proof.Machine.execGetMeasurements nonce index s
  | .keyExchange exchange => Sys2Proof.Machine.execKeyExchange exchange s
  | .finish mac => Sys2Proof.Machine.execFinish mac s
  | .endSession => Sys2Proof.Machine.execEndSession s
  | .keyLoad k key => Sys2Proof.Machine.execKeyLoad k key s
  | .deviceReset image sig flashReads flashWrites => Sys2Proof.Machine.execDeviceReset image sig flashReads flashWrites s
  | .linkUp port => Sys2Proof.Machine.execLinkUp port s
  | .incarnationAnnounce peer inc => Sys2Proof.Machine.execIncarnationAnnounce peer inc s
  | .linkDown port => Sys2Proof.Machine.execLinkDown port s
  | .fabricPacketReceive p => Sys2Proof.Machine.execFabricPacketReceive p s
  | .relayForward p => Sys2Proof.Machine.execRelayForward p s
  | .fabricAckReceive hdr src resp => Sys2Proof.Machine.execFabricAckReceive hdr src resp s
  | .fabricResend peer tag => Sys2Proof.Machine.execFabricResend peer tag s
  | .packetDiscard die idx => Sys2Proof.Machine.execPacketDiscard die idx s
  | .packetSuspect die idx => Sys2Proof.Machine.execPacketSuspect die idx s
  | .halterVisit die generation => Sys2Proof.Machine.execHalterVisit die generation s
  | .halterTimeout => Sys2Proof.Machine.execHalterTimeout s
  | .counterOverflow c => Sys2Proof.Machine.execCounterOverflow c s
  | .uncorrectableError site => Sys2Proof.Machine.execUncorrectableError site s

end Sys2Proof.Machine
end

