-- ==== Sys2Proof/Machine/Policy.lean ====
section
/-!
DEFINITION. How a step commits what an event or an instruction did (log 37), and what the machine does next where the agenda
leaves it open: one fixed order among the behaviours that the manual allows (log 2). Every other choice is an event that
would change something, by turns the first and one in rotation; the others issue.
-/

namespace Sys2Proof.Machine

/-! ## Committing -/

/-- Actors whose answers a state waits for. -/
def State.asking (t : State) (base : State) : List Actor :=
  t.rpc.asks.map Prod.fst ++ base.ops.filterMap fun o => if t.rpc.used.any fun u => u.1 = o.seq then o.actor else none

/-- An event that led from `base` to `t`: where an answer from outside the package is missing, it only asks, and happens later;
otherwise it has happened (log 37). -/
def State.commit (base t : State) : State := if t.rpc.missing then (base.askAll t.rpc.asks).pump else t.dropUsed

/-- Team `k` waits for the answers that the issue of its instruction has led to `t` without (log 37). -/
def State.awaitAnswers (base : State) (k : Nat) (t : State) : State :=
  let s := { base.askAll t.rpc.asks with cur := ⟨coreOf k, slotOf k, idxOf k, 8, 0, [], true⟩ }
  let l := t.asking base
  (if (s.team k).wait.isSome then s.leaveSlot k
  else s.waitAt (.memory ((s.ops.filter fun o => o.actor.any l.contains && !o.performed).map MemOp.seq) false)).pump

/-- The issue from a slot that led from `s` to `t`. -/
def State.commitSlot (s : State) (core slot : Nat) (t : State) : State :=
  if t.rpc.missing then
    let base := s.serveSlot core slot
    match ((base.core core).slots[slot]?).bind IssueSlot.team with
    | some k => base.awaitAnswers k t
    | none => base
  else t.dropUsed

/-- The next state of an outcome is changed by `f`. -/
def onNext (f : State → State) (o : Out1) : Out1 :=
  match o with
  | .next t => .next (f t)
  | .fault e => .fault e
  | .refused r => .refused r

/-! ## Candidates -/

/-- The barrier instance that a key of `barriers` names. -/
def barOfKey (k : Nat) : BarRef :=
  if 2 ^ 34 ≤ k then .pod ((k - 2 ^ 34) / 2 ^ 8) (k % 2 ^ 8)
  else if 2 ^ 33 ≤ k then .device (k - 2 ^ 33)
  else if 2 ^ 32 ≤ k then .quad ((k - 2 ^ 32) / 2 ^ 8) (k % 2 ^ 8)
  else .core (k / 32) (k % 32)

def teamIdOf (k : Nat) : TeamId := ⟨coreOf k, slotOf k, idxOf k⟩

/-- Events of memory operations; the host's answers are values that nothing constrains. -/
def State.dueOps (s : State) : List (State → Out1) :=
  s.ops.flatMap fun o =>
    execOperationComplete o.seq (o.parts.map fun _ => ⟨[BitVec.ofNat 64 (Config.freeValue s.free)], none⟩)
      :: o.parts.zipIdx.flatMap fun e =>
        if e.1.st ≠ .waiting then [] else [execL2HomeAccess o.seq e.2, execSecondTierHomeAccess o.seq e.2, execOstlerOperation o.seq e.2]

/-- Events of a core's engines. -/
def State.dueCores (s : State) : List (State → Out1) :=
  s.cores.flatMap fun e =>
    ((List.range e.2.wcb.length).map fun i => execWcEntryDrain e.1 i)
      ++ ([0, 1].flatMap fun g => [execCopyCommandStart e.1 g, execStripAppend e.1 g, execNvmeDoorbellWrite e.1 g true, execCopyCommandEnd e.1 g])
      ++ [execMatrixPassStart e.1, execMatrixPassComplete e.1 0, execOstcCommand e.1]
      ++ e.2.tileOps.map fun o => execOperationComplete o.seq []

/-- Some range can be split (R41). -/
def State.worthStealing (s : State) : Bool := s.dies.any fun d => d.2.ranges.any fun r => r.lo + 1 < r.hi

/-- Events of quads and dies. -/
def State.dueUnits (s : State) : List (State → Out1) :=
  (s.quads.flatMap fun e => [execCxPropRetire e.1, execCxPropResultPlace e.1, execCxClaimGrant e.1])
    ++ ([0, 1, 2, 3].flatMap fun d => [execUjobTake d, execUjobRecordComplete d, execUjobCommitPublish d, execUjobDropApply d, execStealAnswer d]
      ++ if s.worthStealing then [execStealRequest d] else [])
    ++ [execOffloadCommand 0 [] none, execOffloadCommand 1 [] none]

/-- Events of teams, blocks and barriers. -/
def State.dueTeams (s : State) : List (State → Out1) :=
  (s.teams.flatMap fun e =>
    let t := teamIdOf e.1
    [execTeamEnd t, execYieldResume t, execTallocGrant t, execTranslationFaultSwap t, execReplayRetry t, execSwapRestore t, execEvictedTeamReturn t,
      execHandlerTimeout t, execLongStall t])
    ++ (s.blocks.flatMap fun e =>
      [execUnparkBlock (e.1 / 32) (e.1 % 32), execBarrierPhaseComplete (.core (e.1 / 32) (e.1 % 32))]
        ++ e.2.regroups.map fun r => execRegroupSetFormed (e.1 / 32) (e.1 % 32) r.pc)
    ++ s.barriers.map fun e => execBarrierPhaseComplete (barOfKey e.1)

/-- Events of contexts. -/
def State.dueCtxs (s : State) : List (State → Out1) :=
  (List.range 64).flatMap fun c =>
    if !(s.ctx c).en then [execContextEnable c]
    else
      [execContextDisable c, execTrapRecordWrite c] ++ ((s.ctx c).entries.map fun e => execTrapQueuePoll c e.idx)
        ++ ((s.ctx c).launches.map fun l => execLaunchCompletion c l.1)
        ++ (List.range 128).map fun q => execAdmitLaunch c q

/-- The first free slot of a core and the first stalls that fit there. -/
def State.place? (s : State) (core : Nat) (r : LaunchRec) : Option (Nat × Nat) :=
  if s.regsFree core < r.regs then none
  else match (List.range 32).find? fun i => (tfind s.blocks (core * 32 + i)).isNone with
    | none => none
    | some i => ((List.range 129).find? fun b => s.stallsFree core b r.stalls).map fun b => (i, b)

/-- Room made on a core: by parking, or by eviction. -/
def State.dueRoom (s : State) (core : Nat) : List (State → Out1) :=
  ((s.coreBlocks core).map fun b => execParkBlock core (b % 32))
    ++ (s.planOf core).toList.map fun p => execEvictTeams core p.1 p.2.1

/-- Binding for the launch that a die serves, on its first core with room; room made where there is none, or where the promised
block is bound and lacks it. -/
def State.dueBinds (s : State) : List (State → Out1) :=
  [0, 1, 2, 3].flatMap fun d =>
    let used := (((tkeys s.blocks).map (· / 32)).eraseDups).filter fun c => dieOfCore c = d
    match s.serving d with
    | none => (used.filter fun c => (s.wanted c).isSome).flatMap s.dueRoom
    | some x =>
      let cores := (List.range 64).map (64 * d + ·)
      match cores.findSome? fun c => (s.place? c x.2.2.rcd).map fun p => (c, p) with
      | some (c, i, b) => execBindBlock x.1 x.2.1 c i b :: (used.filter fun c => (s.wanted c).isSome).flatMap s.dueRoom
      | none => used.flatMap s.dueRoom

/-- The command of the mailbox. -/
def State.dueMbx (s : State) : List (State → Out1) :=
  if !s.regs.mbx.busy then []
  else
    let q := BitVec.ofNat 8 (bitsOf s.regs.mbx.cmd.toNat 16 8)
    [execHalt q, execResume q, execStep q, execReadFrame q, execWriteFrame q, execSetBp q, execClrBp q, execAdmitCmd q, execList q, execMbxCommandFinish]

/-- Events of the fabric, of invalidations and of functions. -/
def State.dueRest (s : State) : List (State → Out1) :=
  (s.peers.flatMap fun e => e.2.outs.map fun r => execFabricResend e.1 r.tag)
    ++ ((tkeys s.dies).flatMap fun d => (List.range (s.die d).pkts.length).flatMap fun i => [execPacketDiscard d i, execPacketSuspect d i])
    ++ (s.halters.map fun h => execHalterVisit (halterStops.getD h.2 0) h.1)
    ++ (s.regs.tlbi.map fun e => execTlbInvalidationComplete e.1) ++ [execHalterTimeout, execVfSliceSwitch]

def State.dueEvents (s : State) : List (State → Out1) :=
  s.dueOps ++ s.dueCores ++ s.dueUnits ++ s.dueTeams ++ s.dueCtxs ++ s.dueBinds ++ s.dueMbx ++ s.dueRest

/-- The event takes the machine to another state. -/
def State.effective (s : State) (f : State → Out1) : Bool :=
  match f s with
  | .next t => s.commit t ≠ s
  | _ => false

/-- A list begun at position `n`, modulo its length. -/
def rotated {α : Type} (n : Nat) (l : List α) : List α := l.drop (n % l.length) ++ l.take (n % l.length)

/-- The slot that issues next, where a core has anything to issue. -/
def State.nextIssue (s : State) : Option (Nat × Nat) :=
  let cores := (tkeys s.cores).filter fun c => !(s.candidates c).isEmpty || (s.core c).slots.any fun x => x.team.isSome
  (cores[s.rr / 8 % cores.length]?).map fun c => (c, s.rr / 2 % 4)

/-- The event that an empty agenda carries out next, if it is an event's turn. -/
def State.nextEvent (s : State) : Option (State → Out1) :=
  match s.rr % 4 with
  | 0 => s.dueEvents.find? s.effective
  | 2 => (rotated (s.rr / 4 * 61) s.dueEvents).find? s.effective
  | _ => none

end Sys2Proof.Machine
end

