-- ==== Sys2Proof/Machine/Slot0.lean ====
section
/-!
DEFINITION. A resident team placed by hand: the least that must stand in the machine for one instruction word to be the
next that issues (Step.lean, State.withFetchWord).
-/

namespace Sys2Proof.Machine

/-- Where the placed instruction stands: virtual and physical address, and its context. -/
def placedVa : Nat := 0x10000
def placedCtx : Nat := 1

/-- The kernel of the placed team: one team, 128 vector registers, no stalls. -/
def placedRec : LaunchRec where
  addr := 0
  ltag := 0
  irq := false
  dsco := 3
  done := 0
  waitVal := 0
  waitAddr := 0
  gx := 1
  gy := 1
  gz := 1
  args := 0
  entry := BitVec.ofNat 64 placedVa
  tmode := 0
  handler := 0
  fsmask := 0
  fsimg := []
  teams := 1
  vrb8 := 16
  stalls := 0
  noswap := false
  fhold := false
  htmo := 0
  tmpl := []

/-- The placed team as a block's dispatch would start it (R22): format slots at the images of
R51. -/
def placedTeam : Team :=
  { Team.blank with
    pc := BitVec.ofNat 64 placedVa
    em := BitVec.allOnes 32
    fs := (List.range 16).map fun i => (i, resetImage i)
    remap := (List.range 32).map fun i => some (BitVec.ofNat 10 i) }

def placedBlock : Block :=
  { Block.blank with vrb := 15, ctx := placedCtx, st := .bound }

/-- A translation that lets the placed context fetch its code. -/
def placedMap : TlbEntry := ⟨placedCtx, 7, 0, placedVa, placedVa + 0x10000, placedVa, true, true, true, true, 0, 0, false⟩

def placedCx : Ctx :=
  { Ctx.reset with
    en := true
    launches := [(0, ⟨placedRec, 0, 0, 0, 1, [], false⟩)] }

end Sys2Proof.Machine
end

