-- ==== Sys2Proof/Machine/Step.lean ====
section
/-!
DEFINITION. One step of the package: the next choice of the agenda, or of the fixed policy where the agenda is empty, is
an event, the issue of one instruction, or the passing of clocks.
-/

namespace Sys2Proof.Machine

/-- Issue from a slot and run what it issues; the fabric moves for one clock. -/
def issueFrom (core slot : Nat) (s : State) : Host.Outcome State Fault Refusal :=
  let s := (s.flow 1).unmark core
  onNext (s.commitSlot core slot) (match s.issueSlot core slot with
    | (s', .run i) => exec i s'
    | (_, .other o) => o)

/-- Carry out one choice. -/
def runChoice (c : Choice) (s : State) : Host.Outcome State Fault Refusal :=
  match c with
  | .event i => if i.isEvent then onNext s.commit (exec i s) else .next s
  | .tick n => .next ((s.flow n).tick n)
  | .podArrival g id dev block n => .next (s.podArrive g id dev block n)
  | .farLink a b up => .next { s with farDown := tput false s.farDown (16 * min a b + max a b) !up }
  | .issue core slot => issueFrom core slot s

/-- What happens where the agenda is empty (log 2): an event, an issue, or one clock. -/
def State.idle (s : State) : Host.Outcome State Fault Refusal :=
  match s.nextEvent with
  | some f => onNext s.commit (f s)
  | none => match s.nextIssue with
    | some (core, slot) => issueFrom core slot s
    | none => .next ((s.flow 1).tick 1)

/-- One step. -/
def step (s : State) : Host.Outcome State Fault Refusal :=
  match s.agenda with
  | c :: rest => runChoice c { s with agenda := rest }
  | [] => { s with rr := s.rr + 1, free := s.free + 1 }.idle

/-- The machine with one instruction placed where the next step issues it: a resident team that slot 0 of core 0 serves
stands at it, its context may fetch it, and the agenda says that slot issues (log 4). -/
def State.withFetchWord (s : State) (nbits w : Nat) : State :=
  let s := (List.range 16).foldl (fun s i => s.wrByte (placedVa + i) (BitVec.ofNat 8 (w % 2 ^ nbits / 256 ^ i))) s
  let k := teamKey 0 0 0
  let s := s.setTeam k placedTeam
  let s := { s with blocks := tins s.blocks 0 placedBlock, ctxs := tins s.ctxs placedCtx placedCx }
  let s := s.modQuad 0 fun q => { q with ranges := placedMap :: q.ranges, ctxs := placedCtx :: q.ctxs }
  let s := s.modCore 0 fun c => { c with slots := c.slots.set 0 ⟨some k, 0, none, false⟩, l1i := [], q := [] }
  { s with rpc := .idle, agenda := .issue 0 0 :: s.agenda }

end Sys2Proof.Machine
end

