-- ==== Sys2Proof/Safety.lean ====
section
/-!
DEFINITION. What counts as a safe step and a safe run, and the terms that claims use: what the completion of an instruction
leaves as it is, and what it means that an instruction completes.
-/

namespace Sys2Proof.Machine

/-- The step ends in a next state. -/
def State.Safe (s : State) : Prop := ∃ t, step s = .next t

/-- Every one of the next `n` steps ends in a next state. -/
def State.SafeFor : Nat → State → Prop
  | 0, _ => True
  | n + 1, s => ∃ t, step s = .next t ∧ State.SafeFor n t

/-! ## What the completion of any instruction may change -/

/-- A core but for its issue slots and event counters, which every completion may advance (R43, R325). -/
def Core.still (c : Core) : Core := { c with slots := [], ev := [] }

/-- A team's registers and all else it holds, but for its PC, the count of its predicate block, and the record of its wait
and of its last hold of an issue slot. -/
def Team.regs (t : Team) : Team :=
  { t with pc := 0, pbs := { t.pbs with left := 0 }, wait := none, bpSkip := false, served := false }

/-- The machine but for its teams, its cores, and the interrupts that an event counter's overflow may raise (R325). -/
def State.rest (s : State) : State :=
  { s with teams := [], cores := [], irqs := [], regs := { s.regs with msixPending := [] } }

/-- `t` differs from `s` in one team only, apart from issue slots, event counters and counter interrupts. -/
structure State.TeamOnly (s t : State) (k : Nat) : Prop where
  rest : t.rest = s.rest
  cores : ∀ c, (t.core c).still = (s.core c).still
  teams : ∀ j, j ≠ k → t.team j = s.team j
  bytes : ∀ a, t.rdByte a = s.rdByte a

/-! ## Completing -/

/-- The issuing team exists and is not in a single step of the farrier monitor (R351). -/
structure State.Standing (s : State) : Prop where
  team : s.hasTeam s.ck = true
  unstepped : ∀ c, s.ct.mon ≠ .step true c

/-- What an instruction that falls through needs of the state alone: an active thread and a fall-through PC in the address
space (R391, R395). -/
structure State.Ready (s : State) : Prop extends s.Standing where
  active : s.ct.em ≠ 0
  canonical : nonCanonical s.nextPc.toNat = false

/-- The instruction completes, changes its team by `f`, and falls through; all else stays. -/
def State.Completes (s : State) (i : Instr) (f : Team → Team) : Prop :=
  ∃ t, exec i s = .next t ∧ s.TeamOnly t s.ck ∧ (t.team s.ck).regs = (f s.ct).regs ∧ (t.team s.ck).pc = s.nextPc
    ∧ (t.team s.ck).pbs.left = s.ct.pbs.left - 1

/-- The instruction completes, changes its team by `f`, PC included; all else stays. -/
def State.Jumps (s : State) (i : Instr) (f : Team → Team) : Prop :=
  ∃ t, exec i s = .next t ∧ s.TeamOnly t s.ck ∧ (t.team s.ck).regs = (f s.ct).regs ∧ (t.team s.ck).pc = (f s.ct).pc

/-- The instruction completes and falls through; before it retires the machine is `s'`. -/
def State.CompletesAs (s : State) (i : Instr) (s' : State) : Prop := exec i s = .next s'.retire

/-- The instruction begins a wait of kind `w` at its PC. -/
def State.Waits (s : State) (i : Instr) (w : WaitKind) : Prop := exec i s = .next (s.waitAt w)

/-- The instruction raises cause `c` at its PC with no other effect. -/
def State.Traps (s : State) (i : Instr) (c : Nat) (m : Mask) (d : Word) : Prop :=
  exec i s = .next (s.raise s.ck c m d s.ct.pc false)

end Sys2Proof.Machine
end

