-- ==== Sys2Proof/Certificates/Slice0/Obligations.lean ====
section
/-!
DEFINITION. The statements for the provers, and the tables that they are stated over: each table gives, from the rules of the
spec alone, what the instructions of one shape compute.
-/

open Sys2Proof Sys2Proof.Machine

/-! ## Encoding (chapter 06) -/

/-- Words that the spec writes out decode to the instructions that it says they are (R127, R132–R138, and the worked encodings
of chapters 06 to 11). -/
def Obligations.WorkedWordsDecode : Prop :=
  (∃ d, decodeWords [0xA001C025, 0x03E94F82] = .ok d ∧ d.instr = .li 7 0x1F4A7C15 ∧ d.len = 8) ∧
  (∃ d, decodeWords [0x00000200, 0x007E17E0] = .ok d ∧ d.instr = .waitc 0 63 2 63) ∧
  (∃ d, decodeWords [0x002B002E, 0x00000000] = .ok d ∧ d.instr = .fsset 12 5) ∧
  (∃ d, decodeWords [0x60C14183, 0x0000000E] = .ok d ∧ ∃ o, d.instr = .stx o ∧ o.x = 5 ∧ o.base = 6) ∧
  (∃ d, decodeWords [0x0004AB0F, 0x60A10041, 0x00000110] = .ok d ∧ d.len = 12 ∧ ∃ x o, d.instr = .vfma (some x) o ∧ x.vc = 9)

/-- Every well-formed instruction of the opcode map is what its encoding decodes to, with every operand as it was (R127–R141). -/
def Obligations.DecodeOfEncodeIsIdentity : Prop :=
  ∀ i : Instr, i.isEvent = false → i.wf = true →
    ∃ base, decodeWords (encode i) = .ok ⟨none, i, 4 * (encode i).length, base⟩

/-- What decodes is well formed: the operands of an instruction that runs are ones its encoding allows; a word of a reserved
prefix kind, and a PB prefix after an XP prefix, begin no instruction (R128–R130, R137, R393). -/
def Obligations.DecodedIsWellFormed : Prop :=
  (∀ (ws : List Nat) (d : Decoded), decodeWords ws = .ok d → d.instr.wf = true ∧ d.instr.isEvent = false) ∧
  (∀ (w : Nat) (rest : List Nat) (d : Decoded), wordKind w = .reserved → decodeWords (w :: rest) ≠ .ok d) ∧
  ∀ (x p : Nat) (rest : List Nat) (d : Decoded), wordKind x = .xp → wordKind p = .pb → decodeWords (x :: p :: rest) ≠ .ok d

/-! ## The step and reset -/

/-- A step whose choice is the issue of a slot runs, for a team that nothing interrupts and whose instruction nothing stalls,
`exec` of the instruction that the words at its PC decode to, with the length of that instruction as the distance to the next; a PB
prefix begins its predicate block first. Words that begin no instruction, and an instruction that a predicate block may not cover,
raise the illegal-instruction trap instead (R130, R138–R140, R393). No acquire of the team may be in flight, since the fetch is an
access of it (R111, R120). A step whose choice is an operation or event is that event; one
that says how many clocks pass only lets them pass, while the fabric moves. Where nothing outside the package is asked for, what was
done stands.
The model's choices in it: log 2, 37, 43. -/
def Obligations.StepRunsDecodedInstruction : Prop :=
  (∀ (s s0 s1 s2 s3 s4 : State) (core slot k : Nat) (rest : List Choice) (ws : List Nat),
    s.agenda = .issue core slot :: rest →
    s0 = (({ s with agenda := rest } : State).flow 1).unmark core → s1 = s0.serveSlot core slot →
    ((s1.core core).slots[slot]?).bind IssueSlot.team = some k → s1.ready k = true →
    s2 = s1.modTeam k Team.arrival → s2.interrupt k = none → s2.acquiring k = none →
    { s2 with cur := ⟨coreOf k, slotOf k, idxOf k, 8, 0, [], true⟩ }.fetchAt k = (s3, .ok ws) →
    s4 = { s3 with cur := { s3.cur with base := bits64 ws } } →
    (∀ e, decodeWords ws = .error e →
      let b := s4.illegalBits (s4.teamActor k) (coreOf k) (s2.team k).pc.toNat ws
      step s = .next (s0.commitSlot core slot (b.1.raise k 1 (s2.team k).active b.2 (s2.team k).pc false))) ∧
    ∀ d, decodeWords ws = .ok d →
      let t := (s4.team k).begin d.pb
      s4.reportDue k t d.instr = none →
      let held := s4.holdReports k t d.instr
      let mayBeCovered : Prop := d.instr.pbOk = true ∧ ∀ x, d.instr.xp = some x → x.km = 0
      let begun := held.modTeam k fun x => x.begin d.pb
      (t.pbs.left ≠ 0 → ¬mayBeCovered →
        step s = .next (s0.commitSlot core slot (begun.raise k 1 t.active held.cur.base t.pc false))) ∧
      ((t.pbs.left ≠ 0 → mayBeCovered) → held.stall k t d.instr = none → held.badRead k t d.instr = none →
        (∀ c, t.mon ≠ .step false c) →
        step s = onNext (s0.commitSlot core slot) (exec d.instr { begun with cur := { begun.cur with len := d.len, base := d.base } }))) ∧
  (∀ (s : State) (rest : List Choice),
    let s' : State := { s with agenda := rest }
    (∀ i, i.isEvent = true → s.agenda = .event i :: rest → step s = onNext s'.commit (exec i s')) ∧
    (∀ n, s.agenda = .tick n :: rest → step s = .next ((s'.flow n).tick n)) ∧
    (∀ g id dev block n, s.agenda = .podArrival g id dev block n :: rest → step s = .next (s'.podArrive g id dev block n)) ∧
    (∀ a b up, s.agenda = .farLink a b up :: rest → ∃ u, step s = .next u ∧
      (twf false s.farDown = true → u.farUp a b = up) ∧ u.teams = s.teams ∧ u.mem = s.mem)) ∧
  ∀ (s t : State) (core slot : Nat), t.rpc = .idle → s.commit t = t ∧ s.commitSlot core slot t = t

/-- Reset: the stated register values (R317), an unclaimed and clear clause array in every quad (R253), no context enabled
(R314), and memory in canonical form. -/
def Obligations.ResetStateOfRegisters : Prop :=
  State.reset.regs.vfslice = 2000 ∧ State.reset.regs.fabTdl = 20 ∧ State.reset.regs.fabTe2e = 200 ∧
  (∀ q, (State.reset.quad q).owner = none ∧ (State.reset.quad q).cx = .empty) ∧
  (∀ c, (State.reset.ctx c).en = false) ∧ Memory.wf State.reset.mem = true

/-- Every step keeps memory in its canonical form, in every state.
The model's choices in it: log 7. -/
def Obligations.StepKeepsMemoryCanonical : Prop :=
  ∀ s t : State, Memory.wf s.mem = true → step s = .next t → Memory.wf t.mem = true

/-- In canonical memory a byte reads as what was last written there, and a write changes no other byte. -/
def Obligations.ByteReadsAsWritten : Prop :=
  ∀ (s : State) (a b : Nat) (v : Byte), Memory.wf s.mem = true →
    (s.wrByte a v).rdByte a = v ∧ (b ≠ a → (s.wrByte a v).rdByte b = s.rdByte b)

/-! ## Registers and completion -/

/-- x0 reads 0 and discards writes; p0 reads all ones and discards writes (R132). -/
def Obligations.HardWiredRegisters : Prop :=
  ∀ (t : Team) (v : Word) (m : Mask),
    t.getX 0 = 0 ∧ t.setX 0 v = t ∧ t.getP 0 = BitVec.allOnes 32 ∧ t.setP 0 m = t ∧
    ∀ a b : Nat, a ≠ 0 → (twf 0 t.x = true → (t.setX a v).getX a = v) ∧ (twf 0 t.p = true → (t.setP a m).getP a = m) ∧
      (b ≠ a → (twf 0 t.x = true → (t.setX a v).getX b = t.getX b) ∧ (twf 0 t.p = true → (t.setP a m).getP b = t.getP b))

/-- What completes and falls through advances the PC past the instruction, counts down a predicate block in progress, and
changes no register and no byte of memory (R33, R43, R139). The run of the slot that serves the team advances; at 256 the team is
marked served and the slot is given up (R43). A team that the farrier monitor steps is held once its instruction has
retired and it stands at a precise point, unless its record ends its context (R343, R351, R413).
The model's choices in it: log 82. -/
def Obligations.RetirementChangesOnlyBookkeeping : Prop :=
  (∀ s : State, s.Standing →
    s.TeamOnly s.retire s.ck ∧ (s.retire.team s.ck).regs = s.ct.regs ∧ (s.retire.team s.ck).pc = s.ct.pc + BitVec.ofNat 64 s.cur.len
    ∧ (s.retire.team s.ck).pbs.left = s.ct.pbs.left - 1 ∧
    let of (x : IssueSlot) : Prop := x.team = some s.ck
    let slots := (s.core (coreOf s.ck)).slots
    let after := (s.retire.core (coreOf s.ck)).slots
    ((∀ x ∈ slots, of x → x.run < 255) → after = slots.map (fun x => if x.team = some s.ck then { x with run := x.run + 1 } else x)) ∧
    ((∃ x ∈ slots, of x ∧ 255 ≤ x.run) → (s.retire.team s.ck).served = true ∧
      after = slots.map fun x => if x.team = some s.ck then { team := none, run := 0, capped := some s.ck, begun := false } else x)) ∧
  ∀ (s : State) (k c : Nat), s.hasTeam k = true → (s.team k).mon = .step true c →
    ((s.team k).precise = true → ((s.stepDone k).ctx (s.ctxOf k)).killed = false →
      ∃ h, ((s.stepDone k).team k).hold = some h ∧ h.cause = 0x18 ∧ ((s.stepDone k).team k).mon = .none ∧
        ((s.stepDone k).team k).pc = (s.team k).pc ∧ ((s.stepDone k).team k).x = (s.team k).x) ∧
    ((s.team k).precise = false → ((s.stepDone k).team k).mon = .stepped c ∧ ((s.stepDone k).team k).hold = (s.team k).hold)

/-! ## Exceptions (chapter 19) -/

/-- A cause that R338 routes to the handler: the resume point, mask, stack, predicate block and x28–x31 are saved; the stack is empty,
the block over, the PC at HANDLER; x28–x31 hold the four words of the record (R337), with KIND 10, LOST 0 and the SEQ of the
context's next record, and every other register stays (R338, R340). -/
def Obligations.HandlerEntrySavesAndJumps : Prop :=
  ∀ (s : State) (k cause : Nat) (m : Mask) (d pc : Word), s.hasTeam k = true → coreOf k < 256 → (s.team k).handler = none →
    s.handlerOf k ≠ 0 → cause ∈ [0x01, 0x02, 0x03, 0x04, 0x05, 0x08, 0x0A, 0x0B] → twf 0 (s.team k).x = true →
    (∀ b c, (s.team k).mon ≠ .step b c) → (∀ c, (s.team k).mon ≠ .stepped c) →
    let ltag := ((s.launchOf? k).map fun l => l.rcd.ltag).getD 0
    let word1 := cause + 2 * 2 ^ 10 + 2 ^ 15 + s.ctxOf k % 64 * 2 ^ 16 + coreOf k * 2 ^ 22 + slotOf k * 2 ^ 30 + idxOf k * 2 ^ 35
      + ltag.toNat * 2 ^ 40
    let seq := (s.ctx (s.ctxOf k)).seq
    (∀ a, a < 28 → ((s.take k cause m d pc false).team k).getX a = (s.team k).getX a) ∧
    ((s.take k cause m d pc false).team k).getX 28 = pc ∧
    ((s.take k cause m d pc false).team k).getX 29 = BitVec.ofNat 64 word1 ∧
    ((s.take k cause m d pc false).team k).getX 30 = d ∧
    ((s.take k cause m d pc false).team k).getX 31 = seq ++ m ∧
    ∃ h, ((s.take k cause m d pc false).team k).handler = some h ∧
      h.resume = (if cause = 5 then (s.team k).pc + 8 else (s.team k).pc) ∧ h.em = (s.team k).em ∧
      h.stack = (s.team k).stack ∧ h.pbs = (s.team k).pbs ∧
      h.bank = [(s.team k).getX 28, (s.team k).getX 29, (s.team k).getX 30, (s.team k).getX 31] ∧
      ((s.take k cause m d pc false).team k).pc = s.handlerOf k ∧
      ((s.take k cause m d pc false).team k).stack = [] ∧ ((s.take k cause m d pc false).team k).pbs.left = 0 ∧
      ((s.take k cause m d pc false).team k).em = (s.team k).em ∧
      ((s.take k cause m d pc false).team k).p = (s.team k).p ∧ ((s.take k cause m d pc false).team k).v = (s.team k).v ∧
      ((s.take k cause m d pc false).team k).fs = (s.team k).fs ∧ (s.take k cause m d pc false).mem = s.mem

/-- `rett` completes in handler mode: the resume point, the mask without the threads that have exited, the stack, the
predicate block and x28–x31 come back, x0–x27 and every predicate and vector register stay, and handler mode ends (R170, R341). -/
def Obligations.HandlerReturnRestores : Prop :=
  ∀ (s : State) (h : Save), s.Standing → s.ct.em ≠ 0 → s.ct.handler = some h →
    (∃ t, exec .rett s = .next t ∧ s.TeamOnly t s.ck ∧ (t.team s.ck).regs = s.ct.rett.regs ∧ (t.team s.ck).pc = h.resume ∧
      (t.team s.ck).pbs = h.pbs) ∧
    (twf 0 s.ct.x = true → (∀ i, i < 4 → s.ct.rett.getX (28 + i) = h.bank.getD i 0) ∧ ∀ a, a < 28 → s.ct.rett.getX a = s.ct.getX a) ∧
    s.Jumps .rett Team.rett ∧ s.ct.rett.pc = h.resume ∧ s.ct.rett.em = h.em &&& s.ct.live ∧ s.ct.rett.stack = h.stack ∧
    s.ct.rett.pbs = h.pbs ∧ s.ct.rett.handler = none ∧ s.ct.rett.p = s.ct.p ∧ s.ct.rett.v = s.ct.v

/-- `trap` raises the software trap with its code, and `brk` the breakpoint, for the active set; in a team with a handler and
nothing outstanding `trap` enters the handler and `brk` holds the team (R170, R338, R340, R351).
The model's choices in it: log 80. -/
def Obligations.SoftwareTrapsAreTaken : Prop :=
  ∀ (s : State) (code : BitVec 16), s.hasTeam s.ck = true → s.ct.em ≠ 0 → s.ct.precise = true →
    exec (.trap code) s = .next (s.take s.ck 5 s.ct.em (code.zeroExtend 64) s.ct.pc false) ∧
    exec (.brk code) s = .next (s.hold s.ck 6 (code.zeroExtend 64) s.ct.em s.ct.pc false)

/-- Outside handler mode `rett`, and inside it `exit`, are illegal instructions: cause 1 at the PC, for every active thread,
with the base instruction as DETAIL (R130, R341, R397).
The model's choices in it: log 80. -/
def Obligations.HandlerModeIllegalInstructions : Prop :=
  ∀ s : State, (s.ct.handler = none → s.Traps .rett 1 s.ct.active s.cur.base) ∧
    (s.ct.handler ≠ none → s.Traps .exit 1 s.ct.active s.cur.base)

/-! ## Scalar instructions (chapter 07) -/

namespace Sys2Proof.Claims

/-- How many of the first `n` bits, from bit `f 0` on, are 0 before the first 1. -/
def zerosFrom (a : Word) (f : Nat → Nat) : Nat := ((List.range 64).takeWhile fun i => !a.getLsbD (f i)).length

/-- Destination and result of the register forms of R165. -/
def scalarForm : Instr → Option (BitVec 5 × (Team → Word))
  | .add d a b => some (d, fun t => t.getX a.toNat + t.getX b.toNat)
  | .sub d a b => some (d, fun t => t.getX a.toNat - t.getX b.toNat)
  | .mul d a b => some (d, fun t => t.getX a.toNat * t.getX b.toNat)
  | .mulh d a b => some (d, fun t => (((t.getX a.toNat).signExtend 128) * ((t.getX b.toNat).signExtend 128)).extractLsb' 64 64)
  | .mulhu d a b => some (d, fun t => (((t.getX a.toNat).zeroExtend 128) * ((t.getX b.toNat).zeroExtend 128)).extractLsb' 64 64)
  | .and d a b => some (d, fun t => t.getX a.toNat &&& t.getX b.toNat)
  | .or d a b => some (d, fun t => t.getX a.toNat ||| t.getX b.toNat)
  | .xor d a b => some (d, fun t => t.getX a.toNat ^^^ t.getX b.toNat)
  | .andn d a b => some (d, fun t => t.getX a.toNat &&& ~~~t.getX b.toNat)
  | .shl d a b => some (d, fun t => t.getX a.toNat <<< ((t.getX b.toNat).toNat % 64))
  | .shr d a b => some (d, fun t => t.getX a.toNat >>> ((t.getX b.toNat).toNat % 64))
  | .sar d a b => some (d, fun t => BitVec.ofInt 64 ((t.getX a.toNat).toInt / 2 ^ ((t.getX b.toNat).toNat % 64)))
  | .rol d a b => some (d, fun t => let n := (t.getX b.toNat).toNat % 64; t.getX a.toNat <<< n ||| t.getX a.toNat >>> (64 - n))
  | .ror d a b => some (d, fun t => let n := (t.getX b.toNat).toNat % 64; t.getX a.toNat >>> n ||| t.getX a.toNat <<< (64 - n))
  | .min d a b => some (d, fun t => BitVec.ofInt 64 (Min.min (t.getX a.toNat).toInt (t.getX b.toNat).toInt))
  | .max d a b => some (d, fun t => BitVec.ofInt 64 (Max.max (t.getX a.toNat).toInt (t.getX b.toNat).toInt))
  | .minu d a b => some (d, fun t => BitVec.ofNat 64 (Min.min (t.getX a.toNat).toNat (t.getX b.toNat).toNat))
  | .maxu d a b => some (d, fun t => BitVec.ofNat 64 (Max.max (t.getX a.toNat).toNat (t.getX b.toNat).toNat))
  | .clz d a => some (d, fun t => BitVec.ofNat 64 (zerosFrom (t.getX a.toNat) fun i => 63 - i))
  | .ctz d a => some (d, fun t => BitVec.ofNat 64 (zerosFrom (t.getX a.toNat) id))
  | .popc d a => some (d, fun t => BitVec.ofNat 64 ((List.range 64).filter fun i => (t.getX a.toNat).getLsbD i).length)
  | .bswap d a => some (d, fun t =>
      (List.range 8).foldl (fun r i => r ||| ((t.getX a.toNat).extractLsb' (8 * i) 8).zeroExtend 64 <<< (56 - 8 * i)) 0)
  | _ => none

/-- Destination, operand registers and result of the divisions (R166): the quotient truncates toward zero; division by zero gives
all ones and leaves the dividend as the remainder. -/
def divisionForm : Instr → Option (BitVec 5 × (Team → Word))
  | .div d a b => some (d, fun t => if t.getX b.toNat = 0 then BitVec.allOnes 64 else (t.getX a.toNat).sdiv (t.getX b.toNat))
  | .divu d a b => some (d, fun t => if t.getX b.toNat = 0 then BitVec.allOnes 64 else (t.getX a.toNat) / (t.getX b.toNat))
  | .rem d a b => some (d, fun t => if t.getX b.toNat = 0 then t.getX a.toNat else (t.getX a.toNat).srem (t.getX b.toNat))
  | .remu d a b => some (d, fun t => if t.getX b.toNat = 0 then t.getX a.toNat else (t.getX a.toNat) % (t.getX b.toNat))
  | _ => none

/-- Immediate and constant forms (R167, R169). -/
def immediateForm : Instr → Option (BitVec 5 × (Team → Word))
  | .addi d a i => some (d, fun t => t.getX a.toNat + i.signExtend 64)
  | .andi d a i => some (d, fun t => t.getX a.toNat &&& i.signExtend 64)
  | .ori d a i => some (d, fun t => t.getX a.toNat ||| i.signExtend 64)
  | .xori d a i => some (d, fun t => t.getX a.toNat ^^^ i.signExtend 64)
  | .shli d a n => some (d, fun t => t.getX a.toNat <<< n.toNat)
  | .shri d a n => some (d, fun t => t.getX a.toNat >>> n.toNat)
  | .sari d a n => some (d, fun t => BitVec.ofInt 64 ((t.getX a.toNat).toInt / 2 ^ n.toNat))
  | .li d i => some (d, fun _ => i.signExtend 64)
  | .lhi d i => some (d, fun t => i ++ (t.getX d.toNat).extractLsb' 0 29)
  | .addpc d i => some (d, fun t => t.pc + i.signExtend 64)
  | _ => none

/-- Comparisons (R168). -/
def compareForm : Instr → Option (BitVec 5 × (Team → Bool))
  | .seq d a b => some (d, fun t => t.getX a.toNat == t.getX b.toNat)
  | .sne d a b => some (d, fun t => t.getX a.toNat != t.getX b.toNat)
  | .slt d a b => some (d, fun t => (t.getX a.toNat).toInt < (t.getX b.toNat).toInt)
  | .sltu d a b => some (d, fun t => (t.getX a.toNat).toNat < (t.getX b.toNat).toNat)
  | .sle d a b => some (d, fun t => (t.getX a.toNat).toInt ≤ (t.getX b.toNat).toInt)
  | .sleu d a b => some (d, fun t => (t.getX a.toNat).toNat ≤ (t.getX b.toNat).toNat)
  | _ => none

end Sys2Proof.Claims

open Sys2Proof.Claims

/-- The register, immediate and constant forms and the comparisons, which write 1 or 0: the destination gets the result, x0
discards it, and every other register, every byte of memory and the rest of the machine stay (R165, R167–R169). -/
def Obligations.ScalarForms : Prop :=
  (∀ (s : State) (i : Instr) (d : BitVec 5) (f : Team → Word), s.Ready →
    scalarForm i = some (d, f) ∨ immediateForm i = some (d, f) → s.Completes i fun t => t.setX d.toNat (f t)) ∧
  ∀ (s : State) (i : Instr) (d : BitVec 5) (c : Team → Bool), s.Ready → compareForm i = some (d, c) →
    s.Completes i fun t => t.setX d.toNat (if c t then 1 else 0)

/-- The divisions, with the corners of R166: no trap on a zero divisor, and the most negative number divided by −1. -/
def Obligations.ScalarDivisions : Prop :=
  (∀ (s : State) (i : Instr) (d : BitVec 5) (f : Team → Word), s.Ready → divisionForm i = some (d, f) →
    s.Completes i fun t => t.setX d.toNat (f t)) ∧
  (BitVec.intMin 64).sdiv (BitVec.allOnes 64) = BitVec.intMin 64 ∧ (BitVec.intMin 64).srem (BitVec.allOnes 64) = 0

/-- `fsset` stores any image in its slot unchecked, and `fsget` reads a slot back (R53). -/
def Obligations.FormatSlotMoves : Prop :=
  ∀ (s : State) (slot : BitVec 4) (x : BitVec 5), s.Ready →
    (s.Completes (.fsset slot x) fun t => t.setFs slot.toNat (t.getX x.toNat)) ∧
    (s.Completes (.fsget x slot) fun t => t.setX x.toNat (t.getFs slot.toNat)) ∧
    (twf 0 s.ct.fs = true → (s.ct.setFs slot.toNat (s.ct.getX x.toNat)).getFs slot.toNat = s.ct.getX x.toNat)

/-! ## Formats (chapter 03) -/

/-- An element of kind 011 decodes as a two's-complement integer when SGN is 1 and as an unsigned one when SGN is 0. Encoding rounds
to an integer, which is the value itself or one of the two integers beside it, and then wraps or clamps as SAT says; NaN is 0 and the
infinities are the ends of the range under every SAT (R58). The slot has no companding curve, which R68 would put before this. -/
def Obligations.IntegerElements : Prop :=
  ∀ (img : Word) (xp : Option Xp) (h code : Nat) (q : Q) (n : Bool), fmtReason img = 0 → (fmtOf img).kind = 3 → (fmtOf img).cmpd = 0 →
    let f := (fmtOf img).override xp
    let sl : Slot := ⟨img, f, none⟩
    let w := f.width
    let lo : Int := if f.sgn = 1 then -2 ^ (w - 1) else 0
    let hi : Int := if f.sgn = 1 then 2 ^ (w - 1) - 1 else 2 ^ w - 1
    let stored (i : Int) : Nat := (i % 2 ^ w).toNat
    let i := roundInt f.rnd h q
    (code < 2 ^ w → sl.decode code 0 =
      Val.ofQ false (Q.ofInt (if f.sgn = 1 ∧ 2 ^ (w - 1) ≤ code then (code : Int) - 2 ^ w else code))) ∧
    (q.den ≠ 0 → (q.num % q.den = 0 → i = q.num / q.den) ∧ (i = q.num / q.den ∨ i = q.num / q.den + 1) ∧
      (f.sat = 0 → sl.round h (.fin q) = stored i) ∧
      (f.sat = 1 ∨ f.sat = 2 → sl.round h (.fin q) = stored (if i < lo then lo else if hi < i then hi else i))) ∧
    sl.round h (.zero n) = 0 ∧ sl.round h .nan = 0 ∧ sl.round h (.inf false) = stored hi ∧ sl.round h (.inf true) = stored lo

/-- The XP prefix overrides a slot's rounding and saturation for its instruction, and no other field (R64). The significand precision
of a well-formed slot is R71's, whatever its block scales. -/
def Obligations.OverridesAndPrecision : Prop :=
  (∀ (s : State) (x : Xp) (n : BitVec 4),
    let a := s.slot none n
    s.slot (some x) n = { a with f := { a.f with
      rnd := if x.ro = 0 then a.f.rnd else x.ro.toNat - 1
      sat := if x.so = true then (if x.sv = true then 1 else 0) else a.f.sat } } ∧ a.f = fmtOf a.img) ∧
  ∀ (img : Word) (blk bsf : Nat), fmtReason img = 0 →
    let f := fmtOf img
    (f.cmpd ≠ 0 → f.precision = 24) ∧ (f.cmpd = 0 → f.kind = 0 → f.precision = f.mfw + 1) ∧
    (f.kind = 1 → f.precision = f.width - 2 - f.kpar) ∧ (f.cmpd = 0 → f.kind = 3 → f.precision = f.width) ∧
    (f.kind = 2 → f.precision = f.width + 1) ∧ ({ f with blk := blk, bsf := bsf } : Fmt).precision = f.precision

/-! ## Predicates and the execution mask -/

namespace Sys2Proof.Claims

/-- Destination and value of the predicate operations (R162, R163). -/
def predicateForm : Instr → Option (BitVec 3 × (Team → Nat → Bool))
  | .pand d a b => some (d, fun t i => (t.getP a.toNat).getLsbD i && (t.getP b.toNat).getLsbD i)
  | .por d a b => some (d, fun t i => (t.getP a.toNat).getLsbD i || (t.getP b.toNat).getLsbD i)
  | .pxor d a b => some (d, fun t i => (t.getP a.toNat).getLsbD i != (t.getP b.toNat).getLsbD i)
  | .pandn d a b => some (d, fun t i => (t.getP a.toNat).getLsbD i && !(t.getP b.toNat).getLsbD i)
  | .pnot d a => some (d, fun t i => !(t.getP a.toNat).getLsbD i)
  | .pmov d a => some (d, fun t i => (t.getP a.toNat).getLsbD i)
  | .pset d x bc => some (d, fun t i => if bc then t.getX x.toNat != 0 else (t.getX x.toNat).getLsbD i)
  | _ => none

/-- Scalar reads of predicates and of the mask (R163). -/
def maskRead : Instr → Option (BitVec 5 × (Team → Word))
  | .emget d => some (d, fun t => t.em.zeroExtend 64)
  | .pget d p => some (d, fun t => (t.getP p.toNat).zeroExtend 64)
  | .pany d p => some (d, fun t => if (List.range 32).any (fun i => t.em.getLsbD i && (t.getP p.toNat).getLsbD i) then 1 else 0)
  | .pall d p => some (d, fun t => if (List.range 32).all (fun i => !t.em.getLsbD i || (t.getP p.toNat).getLsbD i) then 1 else 0)
  | .pcnt d p => some (d, fun t =>
      BitVec.ofNat 64 ((List.range 32).filter fun i => t.em.getLsbD i && (t.getP p.toNat).getLsbD i).length)
  | _ => none

/-- The mask that `emset` and `emand` ask for (R163). -/
def maskAsked : Instr → Option (Team → Mask)
  | .emset x => some fun t => (t.getX x.toNat).truncate 32
  | .emand p => some fun t => t.em &&& t.getP p.toNat
  | _ => none

end Sys2Proof.Claims

/-- A predicate operation writes its predicate in the active slots only; p0 and every other register stay (R21, R132, R162).
Reads of predicates are of all 32 slots by `pget`, over the execution mask by the others (R163). -/
def Obligations.PredicateInstructions : Prop :=
  (∀ (s : State) (i : Instr) (d : BitVec 3) (f : Team → Nat → Bool), s.Ready → predicateForm i = some (d, f) →
    s.Completes i fun t => t.setP d.toNat (maskOf fun j => if t.active.getLsbD j then f t j else (t.getP d.toNat).getLsbD j)) ∧
  ∀ (s : State) (i : Instr) (d : BitVec 5) (f : Team → Word), s.Ready → maskRead i = some (d, f) →
    s.Completes i fun t => t.setX d.toNat (f t)

/-- A write of the mask keeps only live threads; when none would remain it continues on the path that waits, and traps where
none waits (R21, R33, R164).
The model's choices in it: log 80. -/
def Obligations.MaskWrites : Prop :=
  ∀ (s : State) (i : Instr) (f : Team → Mask), s.Ready → maskAsked i = some f →
    (f s.ct &&& s.ct.live ≠ 0 → s.Completes i fun t => { t with em := f t &&& t.live }) ∧
    (f s.ct &&& s.ct.live = 0 → s.ct.stack ≠ [] → s.Jumps i fun t => { t with em := 0, pc := s.nextPc }.arrival) ∧
    (f s.ct &&& s.ct.live = 0 → s.ct.stack = [] → s.Traps i 2 s.ct.active s.cur.base)

/-! ## Team control (chapter 07) -/

/-- `nop` completes; `waitc` completes once all four counters lie at or below their thresholds and waits until then; `locq` gives
the die of its core; `homeq` completes with the code of the home of an address, as a load would translate it: 0–3 for the HBM
quarters, 4 and 5 for the second tiers, 6 for device registers, 7 for another device of the pod, 8 for the host, and 15 for an address
that does not translate, a reserved range among them. Nothing else changes but for what the walk's own reads of the tables do (R14,
R142, R152, R154, R157). -/
def Obligations.CountersAndPlaces : Prop :=
  ∀ (s : State) (ld st cp tl : BitVec 6) (xd xa : BitVec 5), s.Ready →
    s.Completes .nop id ∧
    (s.ct.count .ld ≤ ld.toNat → s.ct.count .st ≤ st.toNat → s.ct.count .cp ≤ cp.toNat → s.ct.count .tl ≤ tl.toNat →
      s.Completes (.waitc ld st cp tl) id) ∧
    ((ld.toNat < s.ct.count .ld ∨ st.toNat < s.ct.count .st ∨ cp.toNat < s.ct.count .cp ∨ tl.toNat < s.ct.count .tl) →
      s.Waits (.waitc ld st cp tl) (.waitc ld.toNat st.toNat cp.toNat tl.toNat)) ∧
    s.Completes (.locq xd) (fun t => t.setX xd.toNat (BitVec.ofNat 64 (s.cur.core / 64))) ∧
    (∀ (u : State) (r : XRes), s.peek s.cur.core (s.teamActor s.ck) (s.ct.getX xa.toNat).toNat = (u, r) →
      let gives (v : Nat) : Prop := s.CompletesAs (.homeq xd xa) (u.modCur fun t => t.setX xd.toNat (BitVec.ofNat 64 v)) ∧
        (u = s → s.Completes (.homeq xd xa) fun t => t.setX xd.toNat (BitVec.ofNat 64 v))
      (∀ pa e, r = .ok pa e →
        let p := s.localPa pa
        (p < 2 ^ 39 → gives (p / 2 ^ 37)) ∧
        (2 ^ 40 ≤ p → p < 2 ^ 40 + 2 ^ 39 → gives 4) ∧ (2 ^ 40 + 2 ^ 39 ≤ p → p < 2 ^ 41 → gives 5) ∧
        (2 ^ 41 ≤ p → p < 2 ^ 41 + 2 ^ 32 → gives 6) ∧ (2 ^ 50 ≤ p → p < 2 ^ 51 → gives 7) ∧ (2 ^ 51 ≤ p → p < 2 ^ 52 → gives 8)) ∧
      (∀ reason level va, r = .fault reason level va → gives 15) ∧ ∀ loc, r = .mem loc → gives 15) ∧
    (2 ^ 56 ≤ (s.ct.getX xa.toNat).toNat → s.Completes (.homeq xd xa) fun t => t.setX xd.toNat 15)

/-- Jumps go to PC + 4 · offset, or to a register's value; `call` leaves PC + 8 in x31; a target outside the address space, or a
register target that is no multiple of 4, is the operand trap (R149–R151, R395). -/
def Obligations.JumpsOfATeam : Prop :=
  ∀ (s : State) (tgt : BitVec 42) (xa : BitVec 5) (imm : BitVec 35), s.Standing → s.ct.em ≠ 0 →
    let pc := s.ct.pc + BitVec.ofInt 64 (4 * tgt.toInt)
    let r := s.ct.getX xa.toNat
    (pc.toNat < 2 ^ 56 → (s.Jumps (.br tgt) fun t => { t with pc := pc }) ∧
      s.Jumps (.call tgt) fun t => { t.setX 31 (t.pc + 8) with pc := pc }) ∧
    (2 ^ 56 ≤ pc.toNat → s.Traps (.br tgt) 2 s.ct.active s.cur.base ∧ s.Traps (.call tgt) 2 s.ct.active s.cur.base) ∧
    (r.toNat % 4 = 0 → r.toNat < 2 ^ 56 → s.Jumps (.ret xa) fun t => { t with pc := r }) ∧
    ((r + imm.signExtend 64).toNat % 4 = 0 → (r + imm.signExtend 64).toNat < 2 ^ 56 →
      s.Jumps (.jr xa imm) fun t => { t with pc := r + imm.signExtend 64 }) ∧
    (r.toNat % 4 ≠ 0 ∨ 2 ^ 56 ≤ r.toNat → s.Traps (.ret xa) 2 s.ct.active s.cur.base) ∧
    ((r + imm.signExtend 64).toNat % 4 ≠ 0 ∨ 2 ^ 56 ≤ (r + imm.signExtend 64).toNat →
      s.Traps (.jr xa imm) 2 s.ct.active s.cur.base)

/-- A uniform `brp` moves the whole team or falls through; a divergent one with a join sends the threads of the condition to the
target and leaves the others waiting above the join; a loop exit into the waiting path merges with it; without a join, or with a
full stack, divergence is the operand trap, and so it is where the threads that fall through would leave the address space (R32, R149,
R150, R395). -/
def Obligations.PredicatedBranches : Prop :=
  (∀ (s : State) (pr : BitVec 3) (c : Cond) (j : Bool) (tgt : BitVec 42), s.Ready →
    let a := brTargets s.ct.pc j tgt
    nonCanonical a.1.toNat = false → nonCanonical a.2.toNat = false →
    let p := s.ct.getP pr.toNat
    let taken := s.ct.em &&& (if c = .f then ~~~p else p)
    let nottaken := s.ct.em &&& ~~~(if c = .f then ~~~p else p)
    ((c = .any ∧ s.ct.em &&& p ≠ 0 ∨ c = .all ∧ s.ct.em &&& ~~~p = 0 ∨ c = .none ∧ s.ct.em &&& p = 0 ∨
        c = .nall ∧ s.ct.em &&& ~~~p ≠ 0 ∨ (c = .t ∨ c = .f) ∧ taken = s.ct.em) →
      s.Jumps (.brp pr c j tgt) fun t => { t with pc := a.1 }) ∧
    ((c = .any ∧ s.ct.em &&& p = 0 ∨ c = .all ∧ s.ct.em &&& ~~~p ≠ 0 ∨ c = .none ∧ s.ct.em &&& p ≠ 0 ∨
        c = .nall ∧ s.ct.em &&& ~~~p = 0 ∨ (c = .t ∨ c = .f) ∧ taken ≠ s.ct.em ∧ nottaken = s.ct.em) →
      s.Completes (.brp pr c j tgt) id) ∧
    (c = .t ∨ c = .f → taken ≠ s.ct.em → nottaken ≠ s.ct.em → (s.ct.pc + 8).toNat < 2 ^ 56 →
      (j = false → s.Traps (.brp pr c j tgt) 2 s.ct.active s.cur.base) ∧
      (j = true → (∀ e ∈ s.ct.stack.head?, ¬(e.kind = .pend ∧ e.jpc = a.2 ∧ e.pc = s.ct.pc + 8)) →
        (s.ct.stack.length ≤ 14 → s.Jumps (.brp pr c j tgt) fun t => { t with
          em := taken, pc := a.1, stack := ⟨.pend, t.pc + 8, nottaken, a.2⟩ :: ⟨.join, a.2, t.em, 0⟩ :: t.stack }) ∧
        (14 < s.ct.stack.length → s.Traps (.brp pr c j tgt) 2 s.ct.active s.cur.base)) ∧
      (j = true → ∀ e st, s.ct.stack = e :: st → e.kind = .pend → e.jpc = a.2 → e.pc = s.ct.pc + 8 →
        s.Jumps (.brp pr c j tgt) fun t => { t with em := taken, pc := a.1, stack := { e with mask := e.mask ||| nottaken } :: st }))) ∧
  ∀ (s : State) (pr : BitVec 3) (c : Cond) (j : Bool) (tgt : BitVec 42), s.Standing → s.ct.em ≠ 0 → c = .t ∨ c = .f →
    s.ct.em &&& s.ct.getP pr.toNat ≠ 0 → s.ct.em &&& ~~~s.ct.getP pr.toNat ≠ 0 → 2 ^ 56 ≤ (s.ct.pc + 8).toNat →
    s.Traps (.brp pr c j tgt) 2 s.ct.active s.cur.base

/-- Arrival: at the address where the top of the stack waits, the path that waits, or the join's threads, take over (R33). -/
def Obligations.ArrivalPopsTheStack : Prop :=
  ∀ (pc : Word) (em : Mask) (e : StackEntry) (st : List StackEntry),
    (em ≠ 0 → pc ≠ e.topJoin → arrive (e :: st) pc em = (pc, em, e :: st)) ∧
    (e.kind = .pend → (em = 0 ∨ pc = e.jpc) → arrive (e :: st) pc em = arrive st e.pc e.mask) ∧
    (e.kind = .join → (em = 0 ∨ pc = e.pc) → arrive (e :: st) pc em = arrive st pc e.mask)

/-- `exit`: the active threads leave for good, the others go on where the stack says; a team with no thread left ends when its
counters are zero and nothing of it is elsewhere or unreported (R21, R153).
The model's choices in it: log 33, 44. -/
def Obligations.ExitLeavesTheTeam : Prop :=
  ∀ s : State, s.Ready → s.ct.handler = none →
    (s.Jumps .exit fun t => { t with exited := t.exited ||| t.em, em := 0, pc := s.nextPc }.arrival) ∧
    ∀ t : TeamId, s.hasTeam (teamIdKey t) = true → (s.team (teamIdKey t)).ended = false → (s.team (teamIdKey t)).live = 0 →
      (s.team (teamIdKey t)).out = [] → s.homeAway (blockKeyOf (teamIdKey t)) (idxOf (teamIdKey t)) = false →
      (∀ o ∈ s.ops, o.by (teamIdKey t) = false) → (s.team (teamIdKey t)).place = .resident → (s.team (teamIdKey t)).hold = none →
      (s.team (teamIdKey t)).reports = [] → exec (.teamEnd t) s = .next (s.endTeam (teamIdKey t))

/-- `yield` leaves its slot with CONTPC set, and goes on there once its counter allows (R155). -/
def Obligations.YieldContinuesElsewhere : Prop :=
  ∀ (s : State) (cnt : BitVec 2) (n : BitVec 6) (off : BitVec 33), s.Ready →
    let c := s.ct.pc + BitVec.ofInt 64 (4 * off.toInt)
    (c.toNat < 2 ^ 56 → exec (.yield cnt n off) s =
      .next ((s.modCur fun t => { t with contpc := c }).waitAt (.yield (cntOf cnt.toNat) n.toNat))) ∧
    (2 ^ 56 ≤ c.toNat → s.Traps (.yield cnt n off) 2 s.ct.active s.cur.base) ∧
    ∀ (t : TeamId) (k : Cnt) (m since : Nat) (noted : Bool), s.hasTeam (teamIdKey t) = true →
      (s.team (teamIdKey t)).wait = some ⟨.yield k m, since, noted⟩ → (s.team (teamIdKey t)).place = .resident →
      (s.team (teamIdKey t)).hold = none → (s.block (blockKeyOf (teamIdKey t))).st = .bound →
      (s.team (teamIdKey t)).mon = .none →
      (m < (s.team (teamIdKey t)).count k → exec (.yieldResume t) s = .next s) ∧
      ((s.team (teamIdKey t)).count k ≤ m → ∃ u, exec (.yieldResume t) s = .next u ∧
        (u.team (teamIdKey t)).pc = (s.team (teamIdKey t)).contpc ∧ (u.team (teamIdKey t)).wait = none ∧
        (u.team (teamIdKey t)).x = (s.team (teamIdKey t)).x ∧ u.mem = s.mem)

/-- An arrival joins the open phase in which its team has not yet arrived, or opens the next; `bar` then waits, `barar` gives the
phase's number; `barwt` and a `bar` that has arrived complete once the phase is over, with an acquire at the barrier's scope
(R158–R160). -/
def Obligations.BarrierInstructions : Prop :=
  ∀ (s : State) (sco : Scope) (id : BitVec 8) (n : BitVec 24) (x : BitVec 5), s.Ready →
    let b := s.barRef s.ck sco id.toNat
    (s.ct.wait = none → s.ct.parkedWaitF = none → ∀ u p, s.arriveAt s.ck b (n.toNat + 1) (scoNum sco) = some (u, p) →
      phaseOver (u.barrier b).completed p = false → exec (.bar sco id n) s = .next (u.waitAt (.bar b p))) ∧
    (∀ p since noted, s.ct.wait = some ⟨.bar b p, since, noted⟩ → phaseOver (s.barrier b).completed p = true →
      s.CompletesAs (.bar sco id n) ((s.modCur fun t => { t with parkedWaitF := none }).barrierAcquire sco)) ∧
    (∀ u p, s.arriveAt s.ck b (n.toNat + 1) (scoNum sco) = some (u, p) →
      s.CompletesAs (.barar x sco id n) (u.modCur fun t => t.setX x.toNat (p.zeroExtend 64))) ∧
    (s.arriveAt s.ck b (n.toNat + 1) (scoNum sco) = none → s.Traps (.barar x sco id n) 2 s.ct.active s.cur.base) ∧
    (phaseOver (s.barrier b).completed ((s.ct.getX x.toNat).truncate 32) = true →
      s.CompletesAs (.barwt x sco id) (s.barrierAcquire sco)) ∧
    (phaseOver (s.barrier b).completed ((s.ct.getX x.toNat).truncate 32) = false →
      s.Waits (.barwt x sco id) (.barwt b ((s.ct.getX x.toNat).truncate 32)))

/-- A phase with no phase open is opened under the count of completed phases; a phase that is complete is counted, and the
phases behind it stay (R159). A block of another device joins a pod barrier's phase as one of this device does (R158).
The model's choices in it: log 12, 87. -/
def Obligations.BarrierPhases : Prop :=
  (∀ (a : Arrival) (n : Nat) (core : Bool) (num : BitVec 32), joinPhase a n core num [] = some ([⟨num, n, [a]⟩], num)) ∧
  (∀ (a : Arrival) (n : Nat) (num : BitVec 32) (p : Phase) (ps : List Phase), (∀ x ∈ p.arrived, x.team ≠ a.team) →
    (a.block ∈ p.blocks ∨ p.blocks.length < p.n) →
    (p.n ≠ n → joinPhase a n false num (p :: ps) = none) ∧
    (p.n = n → joinPhase a n false num (p :: ps) = some ({ p with arrived := p.arrived ++ [a] } :: ps, p.num))) ∧
  (∀ (a : Arrival) (n : Nat) (num : BitVec 32) (p : Phase) (ps : List Phase), a.block ∉ p.blocks → p.n ≤ p.blocks.length →
    joinPhase a n false num (p :: ps) = (joinPhase a n false num ps).map fun r => (p :: r.1, r.2)) ∧
  (∀ (s : State) (b : BarRef), s.phaseComplete b = true → exec (.barrierPhaseComplete b) s = .next (s.completePhase b)) ∧
  (∀ (s : State) (q id : Nat), ((s.completePhase (.quad q id)).barrier (.quad q id)).completed =
      (s.barrier (.quad q id)).completed + 1 ∧
    ((s.completePhase (.quad q id)).barrier (.quad q id)).phases = (s.barrier (.quad q id)).phases.drop 1) ∧
  (∀ (s : State) (group id dev block n : Nat) (r : List Phase × BitVec 32), dev ≠ s.podNum → dev < 16 → group.testBit dev = true →
    group.testBit s.podNum = true → id < 256 →
    let b := s.barrier (.pod group id)
    joinPhase ⟨remoteKey dev block, 0, 0⟩ n false (b.completed + BitVec.ofNat 32 b.phases.length) b.phases = some r →
    (s.podArrive group id dev block n).barrier (.pod group id) = ⟨b.completed, r.1⟩)

/-- A `regroup` of a full team passes; of a partial one waits, and its set forms when every team of the block waits at one, or
after 512 clocks; the teams that wait then are its participants, and their threads move once the counters of all are zero;
`regroup home` lets the last team to arrive move every thread home and pass (R35, R36). -/
def Obligations.RegroupInstructions : Prop :=
  ∀ s : State, s.Ready → s.ct.stack = [] → s.ct.em = s.ct.live → s.ct.tiles = [] →
    (s.quad (quadOfCore (coreOf s.ck))).owner ≠ some s.ck →
    (s.ct.live = BitVec.allOnes 32 → s.Completes .regroup id) ∧
    (s.ct.live = BitVec.allOnes 32 → ∃ t, exec .regroup s = .next t ∧ (t.team s.ck).pc = s.nextPc ∧ (t.team s.ck).v = s.ct.v) ∧
    (s.ct.live ≠ BitVec.allOnes 32 → ∃ u : State, exec .regroup s = .next (u.waitAt (.regroup false)) ∧ u.teams = s.teams) ∧
    (s.homeReady (blockKeyOf s.ck) s.ct.pc (some s.ck) = true → ∃ j, exec .regroupHome s =
      .next (s.goHome (blockKeyOf s.ck) s.ck j s.ct.pc).retireAt) ∧
    (s.homeReady (blockKeyOf s.ck) s.ct.pc (some s.ck) = true → ∃ t, exec .regroupHome s = .next t ∧ t.mem = s.mem) ∧
    (s.homeReady (blockKeyOf s.ck) s.ct.pc (some s.ck) = false → s.Waits .regroupHome (.regroup true)) ∧
    ∀ (core slot : Nat) (pc : Word) (ks : List Nat),
      let blk := core * 32 + slot
      (s.regroupDue blk pc = false → s.formedSet blk pc = none → exec (.regroupSetFormed core slot pc) s = .next s) ∧
      (s.regroupDue blk pc = true → s.setQuiet (s.regroupers blk pc) = false → (tfind s.blocks blk).isSome = true →
        ∃ t, exec (.regroupSetFormed core slot pc) s = .next t ∧ t.formedSet blk pc = some (s.regroupers blk pc) ∧ t.teams = s.teams) ∧
      (s.regroupDue blk pc = false → s.formedSet blk pc = some ks → s.setQuiet ks = true →
        exec (.regroupSetFormed core slot pc) s = .next (s.moveSet blk pc ks) ∧
        ∃ t, exec (.regroupSetFormed core slot pc) s = .next t ∧ t.mem = s.mem ∧ ∀ k, k ∉ ks → t.team k = s.team k)

/-- System registers: what `rdsr` reads, that `wrsr` writes TMODE when its reserved bits are 0 and traps otherwise, that CONTPC
keeps a multiple of 4, and that without the counter grant counters read 0 and writes to them do nothing (R171–R173, R395). -/
def Obligations.SystemRegisters : Prop :=
  ∀ (s : State) (x : BitVec 5), s.Ready →
    let v := s.ct.getX x.toNat
    (∀ sr : BitVec 12, ∃ t, exec (.rdsr x sr) s = .next t ∧ s.TeamOnly t s.ck ∧ (t.team s.ck).pc = s.nextPc ∧
      (t.team s.ck).regs = (s.ct.setX x.toNat (s.readSr sr.toNat)).regs) ∧
    (∀ sr : BitVec 12, (sr = 0 → v.toNat % 16 = 0 ∧ v.toNat / 16 % 4 ≠ 3 ∧ v.toNat / 64 % 2 ^ 26 = 0) → (sr = 1 → v.toNat < 2 ^ 56) →
      ∃ t, exec (.wrsr sr x) s = .next t ∧ (t.team s.ck).pc = s.nextPc ∧ (t.team s.ck).x = s.ct.x ∧ t.mem = s.mem) ∧
    (s.Completes (.rdsr x 0) fun t => t.setX x.toNat t.tmode) ∧ (s.Completes (.rdsr x 1) fun t => t.setX x.toNat t.contpc) ∧
    (s.Completes (.rdsr x 2) fun t => t.setX x.toNat (BitVec.ofNat 64
      (t.count .ld + t.count .st * 2 ^ 6 + t.count .cp * 2 ^ 12 + t.count .tl * 2 ^ 18))) ∧
    (s.Completes (.rdsr x 5) fun t => t.setX x.toNat (BitVec.ofNat 64 s.clock)) ∧
    (v.toNat % 16 = 0 → v.toNat / 16 % 4 ≠ 3 → v.toNat / 64 % 2 ^ 26 = 0 → s.Completes (.wrsr 0 x) fun t => { t with tmode := v }) ∧
    (v.toNat % 16 ≠ 0 ∨ v.toNat / 16 % 4 = 3 ∨ v.toNat / 64 % 2 ^ 26 ≠ 0 → s.Traps (.wrsr 0 x) 2 s.ct.active s.cur.base) ∧
    (v.toNat < 2 ^ 56 → s.Completes (.wrsr 1 x) fun t => { t with contpc := v &&& ~~~3 }) ∧
    (2 ^ 56 ≤ v.toNat → s.Traps (.wrsr 1 x) 2 s.ct.active s.cur.base) ∧
    (∀ sr : BitVec 12, 0x10 ≤ sr.toNat → (s.ctx s.cctx).cgrant = false →
      (s.Completes (.rdsr x sr) fun t => t.setX x.toNat 0) ∧ s.Completes (.wrsr sr x) id) ∧
    (∀ sr : BitVec 12, 0x10 ≤ sr.toNat → (s.ctx s.cctx).cgrant = true → s.CompletesAs (.wrsr sr x) (s.writeEv sr.toNat v))

/-! ## Vector instructions (chapter 08) -/

namespace Sys2Proof.Claims

/-- A vector instruction as chapter 08 describes it: its format slots by role, the vector operands that must be allocated (with
whether each is a block-scaled pair), the condition it puts on its formats, and what it does to its team. -/
structure VecSpec where
  slots : List (Nat × BitVec 4)
  opds : List VOpd
  cond : Bool
  effect : Team → Team

/-- It completes with its effect when its slots, registers and formats pass their checks; a slot that fails is the format trap,
a register or a condition that fails the operand trap (R175, R375). -/
def VecSpec.Holds (v : VecSpec) (s : State) (i : Instr) : Prop :=
  (s.formatErr v.slots = none → s.opdsOk v.opds = true → v.cond = true → s.Completes i v.effect) ∧
  (∀ d, s.formatErr v.slots = some d → s.Traps i 3 s.ct.active d) ∧
  (s.formatErr v.slots = none → (s.opdsOk v.opds && v.cond) = false → s.Traps i 2 s.ct.active s.cur.base)

/-- Element-wise arithmetic of two factors (R177). -/
def binaryOp : Instr → Option (Option Xp × VBin × (Nat → Val → Val → Val))
  | .vadd xp o => some (xp, o, fun r a b => Val.add r a b)
  | .vsub xp o => some (xp, o, fun r a b => Val.add r a b.neg)
  | .vmul xp o => some (xp, o, fun _ a b => a.mul b)
  | .vdiv xp o => some (xp, o, fun _ a b => a.div b)
  | .vmin xp o => some (xp, o, fun _ a b => a.min b)
  | .vmax xp o => some (xp, o, fun _ a b => a.max b)
  | _ => none

/-- One factor: sign operations, the special functions of R183, and rounding to an integer (R177, R183, R185). -/
def unaryOp : Instr → Option (Option Xp × VUn × (Slot → Nat → Val → Val))
  | .vabs xp o => some (xp, o, fun _ _ a => a.abs)
  | .vneg xp o => some (xp, o, fun _ _ a => a.neg)
  | .vrcp xp o => some (xp, o, fun d _ a => specialVal .rcp d.f.precision a)
  | .vsqrt xp o => some (xp, o, fun d _ a => specialVal .sqrt d.f.precision a)
  | .vrsqrt xp o => some (xp, o, fun d _ a => specialVal .rsqrt d.f.precision a)
  | .vexp2 xp o => some (xp, o, fun d _ a => specialVal .exp2 d.f.precision a)
  | .vlog2 xp o => some (xp, o, fun d _ a => specialVal .log2 d.f.precision a)
  | .vsinpi xp o => some (xp, o, fun d _ a => specialVal .sinpi d.f.precision a)
  | .vcospi xp o => some (xp, o, fun d _ a => specialVal .cospi d.f.precision a)
  | .vtanh xp o => some (xp, o, fun d _ a => specialVal .tanh d.f.precision a)
  | .vrint xp o => some (xp, o, fun d h a => a.roundInt d.f.rnd h)
  | _ => none

/-- A fused product and addend, by the signs of the product and of the addend (R178). -/
def fusedOp : Instr → Option (Option Xp × VBin × Bool × Bool)
  | .vfma xp o => some (xp, o, false, false)
  | .vfms xp o => some (xp, o, false, true)
  | .vfnma xp o => some (xp, o, true, false)
  | .vfnms xp o => some (xp, o, true, true)
  | _ => none

/-- What the arithmetic instructions do. -/
def arithSpec (s : State) (i : Instr) : Option VecSpec :=
  match binaryOp i, unaryOp i, fusedOp i with
  | some (xp, o, g), _, _ =>
    let d := s.slot xp o.fs
    let a := s.slot xp o.fsa
    some ⟨[(0, o.fs), (1, o.fsa)], [(a.blocked, o.va), (a.blocked, o.vb), (d.blocked, o.vd)], a.f.width = d.f.width, fun t =>
      t.writeElems xp d o.vd fun i => some (g d.f.rnd (a.elem (t.view o.va) i) (a.elem (t.view o.vb) i))⟩
  | _, some (xp, o, g), _ =>
    let d := s.slot xp o.fs
    let a := s.slot xp o.fsa
    some ⟨[(0, o.fs), (1, o.fsa)], [(a.blocked, o.va), (d.blocked, o.vd)], a.f.width = d.f.width, fun t =>
      t.writeElems xp d o.vd fun i => some (g d (t.draw.h i) (a.elem (t.view o.va) i))⟩
  | _, _, some (xp, o, np, nc) =>
    let d := s.slot xp o.fs
    let a := s.slot xp o.fsa
    let c := vcReg xp o.vd
    some ⟨[(0, o.fs), (1, o.fsa)], [(a.blocked, o.va), (a.blocked, o.vb), (d.blocked, c), (d.blocked, o.vd)],
      a.f.width = d.f.width, fun t =>
      t.writeElems xp d o.vd fun i =>
        let p := (a.elem (t.view o.va) i).mul (a.elem (t.view o.vb) i)
        let x := d.elem (t.view c) i
        some (Val.add d.f.rnd (if np then p.neg else p) (if nc then x.neg else x))⟩
  | none, none, none => none

/-- Tests of elements: comparisons and classification (R179). -/
def testOp (s : State) : Instr → Option (Option Xp × BitVec 4 × List VOpd × Bool × Bool × BitVec 7 × (Team → Nat → Bool))
  | .vcmpeq xp o => some (cmp xp o Val.eq)
  | .vcmpne xp o => some (cmp xp o fun a b => !a.eq b)
  | .vcmplt xp o => some (cmp xp o (Val.lt false))
  | .vcmple xp o => some (cmp xp o fun a b => a.lt false b || a.eq b)
  | .vcmpun xp o => some (cmp xp o fun a b => a.isNan || b.isNan)
  | .vclass xp o =>
    let a := s.slot xp o.fs
    some (xp, o.fs, [(a.blocked, o.va)], o.pdst, o.all, o.vd, fun t i =>
      o.cls.getLsbD (a.classOf ((t.view o.va).bits a.f.width i) (a.byteOf (t.view o.va).odd i)))
  | _ => none
where
  cmp (xp : Option Xp) (o : VCmp) (test : Val → Val → Bool) :
      Option Xp × BitVec 4 × List VOpd × Bool × Bool × BitVec 7 × (Team → Nat → Bool) :=
    let a := s.slot xp o.fs
    (xp, o.fs, [(a.blocked, o.va), (a.blocked, o.vb)], o.pdst, o.all, o.vd, fun t i =>
      test (a.elem (t.view o.va) i) (a.elem (t.view o.vb) i))

/-- A test writes all ones or zeros per element, or per thread whether all, or any, of its elements pass (R179). -/
def testSpec (s : State) (i : Instr) : Option VecSpec :=
  (testOp s i).map fun (xp, fs, opds, pdst, all, vd, test) =>
    let w := (s.slot xp fs).f.width
    if pdst then ⟨[(0, fs)], opds, true, fun t => t.writePred xp vd.toNat fun i =>
      if all then (ownedBy w i).all (test t) else (ownedBy w i).any (test t)⟩
    else ⟨[(0, fs)], opds ++ [(false, vd)], true, fun t => t.writeBits xp w vd fun i => if test t i then 2 ^ w - 1 else 0⟩

/-- Bitwise logic, shifts and selection, on the raw bits of elements (R180, R184). -/
def bitsSpec (s : State) : Instr → Option VecSpec
  | .vsel xp o => some (spec xp o.fs o.vd [o.va, o.vb, o.vm] fun t w i =>
      if (t.view o.vm).bits w i ≠ 0 then (t.view o.va).bits w i else (t.view o.vb).bits w i)
  | .vand xp o => some (logic xp o fun a b => a &&& b)
  | .vor xp o => some (logic xp o fun a b => a ||| b)
  | .vxor xp o => some (logic xp o fun a b => a ^^^ b)
  | .vandn xp o => some (logic xp o fun a b => a ^^^ (a &&& b))
  | .vshl xp o => some (shift xp o fun w a n => if w ≤ n then 0 else a * 2 ^ n % 2 ^ w)
  | .vshr xp o => some (shift xp o fun w a n => if w ≤ n then 0 else a / 2 ^ n)
  | .vsar xp o => some (shift xp o fun w a n => ((sextNat w a / (2 ^ Min.min w n : Nat)) % (2 ^ w : Nat)).toNat)
  | .vbcast xp fs xa vd => some (spec xp fs vd [] fun t w _ => (t.getX xa.toNat).toNat % 2 ^ w)
  | _ => none
where
  spec (xp : Option Xp) (fs : BitVec 4) (vd : BitVec 7) (srcs : List (BitVec 7)) (g : Team → Nat → Nat → Nat) : VecSpec :=
    let w := (s.slot xp fs).f.width
    ⟨[(0, fs)], srcs.map (fun r => (false, r)) ++ [(false, vd)], true, fun t => t.writeBits xp w vd fun i => g t w i⟩
  logic (xp : Option Xp) (o : VLogic) (g : Nat → Nat → Nat) : VecSpec :=
    spec xp o.fs o.vd [o.va, o.vb] fun t w i => g ((t.view o.va).bits w i) ((t.view o.vb).bits w i)
  shift (xp : Option Xp) (o : VShift) (g : Nat → Nat → Nat → Nat) : VecSpec :=
    let w := (s.slot xp o.fs).f.width
    ⟨[(0, o.fs)], [(false, o.va), (false, o.vd)] ++ (if o.immf then [] else [(false, o.vb)]), true, fun t =>
      t.writeBits xp w o.vd fun i => g w ((t.view o.va).bits w i) (if o.immf then o.amt.toNat else (t.view o.vb).bits w i)⟩

/-- Dot products and reductions, in segments of 32 (R76, R181, R182). -/
def reduceSpec (s : State) : Instr → Option VecSpec
  | .vdot xp o => some (dot xp o false)
  | .vdota xp o => some (dot xp o true)
  | .vredsum xp o => some (red xp o fun es =>
      accumulate (.zero false) ((List.range ((es.length + 31) / 32)).map fun j => ((es.drop (32 * j)).take 32).filterMap id))
  | .vredmax xp o => some (red xp o (extreme Val.max (.inf true)))
  | .vredmin xp o => some (red xp o (extreme Val.min (.inf false)))
  | _ => none
where
  dot (xp : Option Xp) (o : VDotOps) (addend : Bool) : VecSpec :=
    let d := s.slot xp o.fs
    let a := s.slot xp o.fsa
    let b := s.slot xp o.fsb
    let g := o.g.toNat + 1
    let n := Min.min a.f.count b.f.count / g
    let c := vcReg xp o.vd
    ⟨[(0, o.fs), (1, o.fsa), (2, o.fsb)],
      [(a.blocked, o.va), (b.blocked, o.vb), (d.blocked, o.vd)] ++ (if addend then [(d.blocked, c)] else []),
      1 ≤ n && n ≤ d.f.count, fun t => t.writeElems xp d o.vd fun j =>
        if j < n then some (accumulate (if addend then roundA96 (d.elem (t.view c) j) else .zero false)
          (segmentsOf ((List.range g).map fun k => (a.elem (t.view o.va) (j * g + k)).mul (b.elem (t.view o.vb) (j * g + k)))))
        else none⟩
  red (xp : Option Xp) (o : VUn) (g : List (Option Val) → Val) : VecSpec :=
    let d := s.slot xp o.fs
    let a := s.slot xp o.fsa
    ⟨[(0, o.fs), (1, o.fsa)], [(a.blocked, o.va), (d.blocked, o.vd)], true, fun t =>
      t.writeDrawn { t.draw with elem := fun _ => 0 } xp d o.vd fun _ =>
        some (g ((List.range a.f.count).map fun i =>
          if (t.masked xp).getLsbD (ownerOf a.f.width i) then some (a.elem (t.view o.va) i) else none))⟩

/-- Slice moves: the logical id of the thread whose slice a thread takes; none is a slice of zeros (R188, R189). -/
def moveOp : Instr → Option (Option Xp × BitVec 7 × BitVec 7 × List (BitVec 7) × (Team → Nat → Nat → Option Nat))
  | .vmov xp va vd => some (xp, va, vd, [], fun _ _ own => some own)
  | .vbcastl xp id va vd => some (xp, va, vd, [], fun _ _ _ => some id.toNat)
  | .vshfl xp vb va vd => some (xp, va, vd, [vb], fun t i _ => some ((sliceOf (t.getV vb.toNat) i).toNat % 1024))
  | .vrot xp o => some (xp, o.va, o.vd, [], fun _ _ own =>
      let n : Int := own + o.n.toInt
      if o.wrap then some (own / 32 * 32 + (n % 32).toNat) else if 0 ≤ n ∧ n ≤ 1023 then some n.toNat else none)
  | .vxchg xp m va vd => some (xp, va, vd, [], fun _ _ own => some (own ^^^ m.toNat))
  | _ => none

/-- What the slice moves, the conversions and the thread numbers do (R185, R186, R189, R192). -/
def moveSpec (s : State) (i : Instr) : Option VecSpec :=
  match moveOp i, i with
  | some (xp, va, vd, regs, src), _ => some ⟨[], (va :: vd :: regs).map (fun r => (false, r)), true, fun t =>
      t.writeSlices xp vd fun i => match src t i ((t.lid i).getD 0) with
        | some id => (match t.slotOfLid id with
          | some j => sliceOf (t.getV va.toNat) j
          | none => 0)
        | none => 0⟩
  | none, .vcvt xp o =>
    let d := s.slot xp o.fs
    let a := s.slot xp o.fsa
    let f := 32 * o.from32.toNat
    let g := 32 * o.to32.toNat
    some ⟨[(0, o.fs), (1, o.fsa)], [(a.blocked, o.va), (d.blocked, o.vd)], f < a.f.count && g < d.f.count, fun t =>
      t.writeElems xp d o.vd fun i =>
        if g ≤ i && i < g + Min.min (a.f.count - f) (d.f.count - g) then some (a.elem (t.view o.va) (f + (i - g))) else none⟩
  | none, .vtid xp sel fs vd =>
    let d := s.slot xp fs
    some ⟨[(0, fs)], [(d.blocked, vd)], true, fun t => t.writeElems xp d vd fun i =>
      let o := ownerOf d.f.width i
      let id := (t.lid o).getD 0
      some (Val.ofQ false (Q.ofInt ((match sel.toNat with
        | 0 => id
        | 1 => id % 32
        | 2 => o
        | _ => i) : Nat)))⟩
  | none, .vpat xp p va vd => some ⟨[], [(false, va), (false, vd)], (s.pattern? p.toNat).isSome, fun t =>
      t.writeSlices xp vd fun i => BitVec.ofNat 64 (ofBytes ((List.range 8).map fun b =>
        BitVec.ofNat 8 (bitsOf (t.getV va.toNat).toNat
          (8 * bitsOf ((s.pattern? p.toNat).getD 0).toNat (8 * (8 * i + b)) 8) 8)))⟩
  | none, _ => none

end Sys2Proof.Claims

/-- Arithmetic: both factors are read under FSA and the one rounding is under FS; the fused forms round once (R175–R178, R183,
R185). -/
def Obligations.VectorArithmetic : Prop :=
  ∀ (s : State) (i : Instr) (v : VecSpec), s.Ready → arithSpec s i = some v → v.Holds s i

/-- Comparisons and classification, into elements or into a predicate; selection, bitwise logic, shifts and scalar broadcast, which
act on element bits (R175, R176, R179, R180, R184, R187). -/
def Obligations.VectorTestsAndBits : Prop :=
  ∀ (s : State) (i : Instr) (v : VecSpec), s.Ready → testSpec s i = some v ∨ bitsSpec s i = some v → v.Holds s i

/-- Dot products and reductions accumulate in segments of 32 and round once at the end (R76, R175, R181, R182). -/
def Obligations.VectorReductions : Prop :=
  ∀ (s : State) (i : Instr) (v : VecSpec), s.Ready → reduceSpec s i = some v → v.Holds s i

/-- Conversions, thread numbers, slice moves and patterns (R185, R186, R188, R189, R192). -/
def Obligations.VectorMoves : Prop :=
  ∀ (s : State) (i : Instr) (v : VecSpec), s.Ready → moveSpec s i = some v → v.Holds s i

/-- One slice or element to and from an x register; loading a pattern or a companding table for the core (R69, R70, R190, R191). -/
def Obligations.SliceAndStoreMoves : Prop :=
  ∀ (s : State) (o : VElt) (p : BitVec 3) (t : BitVec 4) (va : BitVec 7), s.Ready →
    let w := (s.slot none o.fs).f.width
    (o.elt = false → o.v.toNat < s.cblock.vregs →
      (s.Completes (.vgetx o) fun u => u.setX o.x.toNat (match u.slotOfLid o.idx.toNat with
        | some j => sliceOf (u.getV o.v.toNat) j
        | none => 0)) ∧
      s.Completes (.vsetx o) fun u => match u.slotOfLid o.idx.toNat with
        | some j => if u.active.getLsbD j then
            (u.setV o.v.toNat (withSlice (u.getV o.v.toNat) j (u.getX o.x.toNat))).mend o.v.toNat fun i => i = j else u
        | none => u) ∧
    (o.elt = true → s.formatErr [(0, o.fs)] = none → o.v.toNat < s.cblock.vregs → o.idx.toNat < 2048 / w →
      (s.Completes (.vgetx o) fun u => u.setX o.x.toNat (BitVec.ofNat 64 (bitsOf (u.getV o.v.toNat).toNat (o.idx.toNat * w) w))) ∧
      s.Completes (.vsetx o) fun u =>
        if u.active.getLsbD (o.idx.toNat * w / 64) then
          (u.setV o.v.toNat (BitVec.ofNat 2048 (withBits (u.getV o.v.toNat).toNat (o.idx.toNat * w) w (u.getX o.x.toNat).toNat))).mend
            o.v.toNat (sliceFull w fun e => e = o.idx.toNat)
        else u) ∧
    (va.toNat < s.cblock.vregs → s.CompletesAs (.vpatld p va)
      (s.modCore s.cur.core fun c => { c with pat := tins c.pat p.toNat (s.cctx, s.ct.getV va.toNat) })) ∧
    (va.toNat < s.cblock.vregs → tableOk (s.ct.getV va.toNat) = true →
      s.CompletesAs (.fscmp t va) (s.modCore s.cur.core fun c => c.loadTable t.toNat s.cctx (s.ct.getV va.toNat))) ∧
    (∀ (c : Core) (n ctx : Nat) (v : VReg), (c.loadTable n ctx v).tbl = tins c.tbl n (ctx, v)) ∧
    (va.toNat < s.cblock.vregs → tableOk (s.ct.getV va.toNat) = false →
      ∃ d, s.Traps (.fscmp t va) 3 s.ct.active d)

/-- A thread that is not active, or that the prefix masks without MZ, keeps its slice, its elements and its predicate bit; one masked
with MZ gets zeros. An element goes by the thread that owns it, whole, also where it reaches into the next thread's slice (R21, R72,
R136). -/
def Obligations.MaskedThreadsKeepTheirSlices : Prop :=
  (∀ (t : Team) (xp : Option Xp) (d : BitVec 7) (f : Nat → Nat) (w i : Nat), i < 2048 / w → twf 0 t.v = true →
    let o := i * w / 64
    bitsOf ((t.writeBits xp w d f).getV d.toNat).toNat (i * w) w =
      (if (t.masked xp).getLsbD o then f i % 2 ^ w else if (t.zeroed xp).getLsbD o then 0 else bitsOf (t.getV d.toNat).toNat (i * w) w)) ∧
  (∀ (t : Team) (xp : Option Xp) (sl : Slot) (d : BitVec 7) (f : Nat → Option Val) (i : Nat), i < sl.f.count →
    (i + 1) * sl.f.width ≤ 2048 → twf 0 t.v = true →
    let w := sl.f.width
    let o := i * w / 64
    let old := bitsOf (t.getV d.toNat).toNat (i * w) w
    let new := bitsOf ((t.writeElems xp sl d f).getV d.toNat).toNat (i * w) w
    (f i = none ∨ (t.masked xp).getLsbD o = false ∧ (t.zeroed xp).getLsbD o = false → new = old) ∧
    (f i ≠ none → (t.masked xp).getLsbD o = false → (t.zeroed xp).getLsbD o = true → new = 0) ∧
    ∀ v, f i = some v → (t.masked xp).getLsbD o = true → sl.f.block = 0 → new = sl.round (t.draw.h i) v % 2 ^ w) ∧
  ∀ (t : Team) (xp : Option Xp) (d : BitVec 7) (f : Nat → Word) (g : Nat → Bool) (j n : Nat), j < 32 → n ≠ 0 →
    twf 0 t.v = true → twf 0 t.p = true →
    sliceOf ((t.writeSlices xp d f).getV d.toNat) j =
      (if (t.masked xp).getLsbD j then f j else if (t.zeroed xp).getLsbD j then 0 else sliceOf (t.getV d.toNat) j) ∧
    ((t.writePred xp n g).getP n).getLsbD j =
      (if (t.masked xp).getLsbD j then g j else if (t.zeroed xp).getLsbD j then false else (t.getP n).getLsbD j)

/-! ## Memory instructions (chapter 09) -/

namespace Sys2Proof.Claims

/-- A memory instruction as chapter 09 describes it: its format slots, the vector operands that must be allocated, the
condition on its operands, the threads whose operands break R193 (`none` when there are none), how it accesses memory, the
accesses it makes in order, and the zeroing of masked threads. -/
structure MemSpec where
  slots : List (Nat × BitVec 4)
  opds : List VOpd
  cond : Bool
  bad : Option Mask
  acs : Acs
  wants : List Want
  zero : Team → Team

/-- Nothing orders earlier work of the team before the accesses: they release nothing, or nothing of the team is in flight or
unreported (R115). -/
def MemSpec.free (m : MemSpec) (s : State) : Prop :=
  semReleases (s.ct.semOf m.acs ((m.wants.filter fun w => w.kind ≠ .read).map fun w => w.va / 8 * 8)).1 = false ∨
    s.ct.reports = [] ∧ (∀ o ∈ s.ops, o.by s.ck = false) ∧ ∀ e ∈ (s.core (coreOf s.ck)).wcb, s.ck ∉ e.teams

/-- It completes when its operands pass their checks, every address translates to a target that it may have, and no store waits
for its turn in the write-combining buffer: it leaves one operation with one part for each access, and falls through; with no
thread to access memory, it only zeroes. A bad operand is the operand trap of those threads, a bad slot the format trap (R144,
R193, R194, R392). -/
def MemSpec.Holds (m : MemSpec) (s : State) (i : Instr) : Prop :=
  (∀ d, s.formatErr m.slots = some d → s.Traps i 3 s.ct.active d) ∧
  (s.formatErr m.slots = none → (s.opdsOk m.opds && m.cond) = false → s.Traps i 2 s.ct.active s.cur.base) ∧
  (s.formatErr m.slots = none → s.opdsOk m.opds = true → m.cond = true →
    (∀ b, m.bad = some b → s.Traps i 2 b s.cur.base) ∧
    (m.bad = none → m.wants = [] → s.Completes i m.zero) ∧
    (m.bad = none → m.wants ≠ [] → m.free s →
      ∀ (u : State) (l : List (Want × Found)), s.findAll s.ck m.acs m.wants = (u, l.map fun e => (e.1, .ok e.2)) → u.ct.rdet = 0 →
        u.wcBlocked s.ck (l.map fun e => e.1.part e.2) = [] →
        s.CompletesAs i (((u.noteWalks m.acs.wide (m.wants.map Want.walk)).modCur m.zero).putOp m.acs
          (l.map fun e => e.1.part e.2) [])))

/-- Some of the allowed threads. -/
def badThreads (t : Team) (xp : Option Xp) (p : Nat → Bool) : Option Mask :=
  let m := maskOf fun i => (t.masked xp).getLsbD i && p i
  if m = 0 then none else some m

/-- An address that is out of the address space or no multiple of the size (R193). -/
def misplaced (size a : Nat) : Bool := 2 ^ 56 ≤ a || a % size ≠ 0

/-- x[BASE] + sext(OFF) + s · L (R196). -/
def threadAddr (t : Team) (o : MemOps) (size i : Nat) : Nat :=
  (t.getX o.base.toNat + o.off.signExtend 64 + BitVec.ofNat 64 (size * (t.lid i).getD 0)).toNat

/-- x[BASE] + sext(OFF) + the thread's slice of VA (R201). -/
def gatherAddr (t : Team) (o : AOps) (i : Nat) : Nat :=
  (t.getX o.base.toNat + o.off.signExtend 64 + sliceOf (t.getV o.va.toNat) i).toNat

/-- One access of `n` bytes at `a`. -/
def access (kind : ReqKind) (slot a n dbit : Nat) (v w : Word) : Want := ⟨slot, a, 8 * (a % 8), 8 * n, dbit, kind, v, w, []⟩

/-- The accesses of the allowed threads, in slot order. -/
def eachThread (t : Team) (xp : Option Xp) (f : Nat → List Want) : List Want :=
  ((List.range 32).filter fun i => (t.masked xp).getLsbD i).flatMap f

/-- Loads and stores of one element per thread (R196, R197). -/
def threadForm : Instr → Option (Option Xp × MemOps × Nat × Bool × Bool)
  | .ld8 xp o => some (xp, o, 1, false, false)
  | .ld16 xp o => some (xp, o, 2, false, false)
  | .ld32 xp o => some (xp, o, 4, false, false)
  | .ld64 xp o => some (xp, o, 8, false, false)
  | .ld8s xp o => some (xp, o, 1, true, false)
  | .ld16s xp o => some (xp, o, 2, true, false)
  | .ld32s xp o => some (xp, o, 4, true, false)
  | .st8 xp o => some (xp, o, 1, false, true)
  | .st16 xp o => some (xp, o, 2, false, true)
  | .st32 xp o => some (xp, o, 4, false, true)
  | .st64 xp o => some (xp, o, 8, false, true)
  | _ => none

/-- Atomics and reductions: the operation, and whether the old value is not returned (R205, R206). -/
def atomicForm : Instr → Option (Option Xp × AOps × Rmw × Bool)
  | .aadd xp o => some (xp, o, .add, false)
  | .aand xp o => some (xp, o, .and, false)
  | .aor xp o => some (xp, o, .or, false)
  | .axor xp o => some (xp, o, .xor, false)
  | .amin xp o => some (xp, o, .min, false)
  | .amax xp o => some (xp, o, .max, false)
  | .aminu xp o => some (xp, o, .minu, false)
  | .amaxu xp o => some (xp, o, .maxu, false)
  | .aswp xp o => some (xp, o, .swap, false)
  | .redAdd xp o => some (xp, o, .add, true)
  | .redAnd xp o => some (xp, o, .and, true)
  | .redOr xp o => some (xp, o, .or, true)
  | .redXor xp o => some (xp, o, .xor, true)
  | .redMin xp o => some (xp, o, .min, true)
  | .redMax xp o => some (xp, o, .max, true)
  | .redMinu xp o => some (xp, o, .minu, true)
  | .redMaxu xp o => some (xp, o, .maxu, true)
  | _ => none

/-- How each class of access counts, orders and delivers. -/
def loadAcs (d : Dest) (e : Option Ext) : Acs := ⟨.ld, .relaxed, 0, d, e, false, false, false, false, .any, none⟩
def storeAcs : Acs := ⟨.st, .relaxed, 0, .none, none, false, false, false, false, .any, none⟩

/-- The element accesses: thread view, gathers and scatters, atomics, reductions. -/
def elementSpec (s : State) (i : Instr) : Option MemSpec :=
  let t := s.ct
  match threadForm i, atomicForm i, i with
  | some (xp, o, n, sgn, store), _, _ =>
    let ws := eachThread t xp fun j =>
      [access (if store then .write else .read) j (threadAddr t o n j) n (if store then 0 else 64 * j)
        (if store then sliceOf (t.getV o.reg.toNat) j else 0) 0]
    let a := if store then storeAcs else loadAcs (.vreg o.reg.toNat) (some ⟨8 * n, sgn⟩)
    some ⟨[], [(false, o.reg)], true, badThreads t xp fun j => misplaced n (threadAddr t o n j),
      { a with sem := o.sem, sco := o.sco.code, nt := o.cache = 2, stream := o.cache = 1 }, ws,
      if store then id else zeroSlices xp o.reg.toNat⟩
  | none, some (xp, o, op, red), _ =>
    let n := 2 ^ o.wid.toNat
    let v (j : Nat) : Word := BitVec.ofNat 64 ((sliceOf (t.getV o.vd.toNat) j).toNat % 2 ^ (8 * n))
    let a := if red then storeAcs else { loadAcs (.vreg o.vd.toNat) (some ⟨8 * n, false⟩) with sem := o.sem }
    some ⟨[], [(false, o.va), (false, o.vd)], true, badThreads t xp fun j => misplaced n (gatherAddr t o j),
      { a with sco := o.sco.code, need := if red then .home else .atomic op },
      eachThread t xp fun j => [access (if red then .red op else .atomic op) j (gatherAddr t o j) n (if red then 0 else 64 * j) (v j) 0],
      if red then id else zeroSlices xp o.vd.toNat⟩
  | none, none, .acas xp o =>
    let n := 2 ^ o.wid.toNat
    let v (j : Nat) : Word := sliceOf (t.getV o.vd.toNat) j
    some ⟨[], [(false, o.va), (o.wid = 3, o.vd)], true, badThreads t xp fun j => misplaced n (gatherAddr t o j),
      { loadAcs (.vreg o.vd.toNat) (some ⟨8 * n, false⟩) with sem := o.sem, sco := o.sco.code, need := .atomic .cas },
      eachThread t xp fun j => [access (.atomic .cas) j (gatherAddr t o j) n (64 * j)
        (if o.wid = 3 then v j else BitVec.ofNat 64 ((v j).toNat % 2 ^ 32))
        (if o.wid = 3 then sliceOf (t.getV (o.vd.toNat + 1)) j else BitVec.ofNat 64 ((v j).toNat / 2 ^ 32))],
      zeroSlices xp o.vd.toNat⟩
  | none, none, .ldg xp o =>
    let n := 2 ^ o.wid.toNat
    some ⟨[], [(false, o.va), (false, o.vd)], true, badThreads t xp fun j => misplaced n (gatherAddr t o j),
      loadAcs (.vreg o.vd.toNat) (some ⟨8 * n, false⟩),
      eachThread t xp fun j => [access .read j (gatherAddr t o j) n (64 * j) 0 0], zeroSlices xp o.vd.toNat⟩
  | none, none, .stg xp o =>
    let n := 2 ^ o.wid.toNat
    some ⟨[], [(false, o.va), (false, o.vd)], true, badThreads t xp fun j => misplaced n (gatherAddr t o j), storeAcs,
      eachThread t xp fun j => [access .write j (gatherAddr t o j) n 0 (sliceOf (t.getV o.vd.toNat) j) 0], id⟩
  | none, none, _ => none

/-- The wide, packed and ostler accesses. -/
def groupSpec (s : State) : Instr → Option MemSpec
  | .ldx o => some (wide o (loadAcs (.xreg o.x.toNat) (some ⟨8 * 2 ^ o.size.toNat, o.sx⟩)) .read 0)
  | .stx o => some (wide o storeAcs .write (s.ct.getX o.x.toNat))
  | .ldp xp o => some (pack xp o (loadAcs (.vreg o.reg.toNat) none) .read (Team.packZero xp o (s.slot xp o.fs).f))
  | .stp xp o => some (pack xp o storeAcs .write id)
  | .osCas4 xp o =>
    let n := o.wid.toNat + 1
    let w (k j : Nat) : Word := sliceOf (s.ct.getV (o.vd.toNat + k)) j
    some ⟨[], [(false, o.va)], o.vd.toNat % 8 = 0 && o.vd.toNat + 8 ≤ s.cblock.vregs,
      badThreads s.ct xp fun j => misplaced 8 (gatherAddr s.ct o j) || 128 < gatherAddr s.ct o j % 128 + 8 * n,
      home o, eachThread s.ct xp fun j => [{ access (.cas4 n) j (gatherAddr s.ct o j) 8 (64 * j) 0 0 with
        words := (List.range n).map (w · j) ++ (List.range n).map fun k => w (4 + k) j }], zeroRun xp o.vd.toNat n⟩
  | .osEnq xp o =>
    let node (j : Nat) : Word := sliceOf (s.ct.getV o.vd.toNat) j
    some ⟨[], [(false, o.va), (false, o.vd)], true,
      badThreads s.ct xp fun j => misplaced 16 (gatherAddr s.ct o j) || node j = 0 || misplaced 8 (node j).toNat,
      home o, eachThread s.ct xp fun j => [access .write j (node j).toNat 8 0 0 0,
        access .enq j (gatherAddr s.ct o j) 8 (64 * j) (node j) 0], zeroSlices xp o.vd.toNat⟩
  | .osRun xp o =>
    let code := tfind (s.ctx s.cctx).routines o.wid.toNat
    some ⟨[], [(false, o.va), (false, o.vd)], code.isSome, badThreads s.ct xp fun j => 2 ^ 56 ≤ gatherAddr s.ct o j,
      home o, eachThread s.ct xp fun j => [⟨j, gatherAddr s.ct o j, 0, 64, 64 * j, .run, sliceOf (s.ct.getV o.vd.toNat) j,
        BitVec.ofNat 64 (gatherAddr s.ct o j), (code.getD []).map fun w => w.zeroExtend 64⟩], zeroSlices xp o.vd.toNat⟩
  | .hgath xp o =>
    let n := o.wid.toNat + 1
    let a (j k : Nat) : Nat := (s.ct.getX o.base.toNat + o.off.signExtend 64
      + BitVec.ofInt 64 (8 * sextNat 8 (bitsOf (sliceOf (s.ct.getV o.va.toNat) j).toNat (8 * k) 8))).toNat
    some ⟨[], [(false, o.va)], o.vd.toNat % 8 = 0 && o.vd.toNat + n ≤ s.cblock.vregs,
      badThreads s.ct xp fun j => (List.range n).any fun k => misplaced 8 (a j k),
      { loadAcs (.vreg o.vd.toNat) none with gather := true, need := .home },
      eachThread s.ct xp fun j => (List.range n).map fun k => access .read j (a j k) 8 (2048 * k + 64 * j) 0 0,
      zeroRun xp o.vd.toNat n⟩
  | _ => none
where
  home (o : AOps) : Acs := { loadAcs (.vreg o.vd.toNat) none with sem := o.sem, sco := o.sco.code, need := .home }
  wide (o : XMemOps) (a : Acs) (k : ReqKind) (v : Word) : MemSpec :=
    let n := 2 ^ o.size.toNat
    let p := (s.ct.getX o.base.toNat + o.off.signExtend 64).toNat
    ⟨[], [], true, if misplaced n p then some s.ct.active else none,
      { a with sem := o.sem, sco := o.sco.code, nt := o.cache = 2, stream := o.cache = 1, wide := true }, [access k 32 p n 0 v 0], id⟩
  pack (xp : Option Xp) (o : PackOps) (a : Acs) (k : ReqKind) (zero : Team → Team) : MemSpec :=
    let f := (s.slot xp o.fs).f
    let ws := s.ct.packWants xp o f k
    let out := maskOfList ((ws.filter fun w => 2 ^ 56 ≤ w.va).map Want.slot)
    ⟨[(0, o.fs)], [(f.blk ≠ 0, o.reg)], f.blk = 0 || o.base.toNat % 2 = 0,
      if 2 ^ 56 ≤ s.ct.packOrigin o / 8 && s.ct.masked xp ≠ 0 then some (s.ct.masked xp)
      else if out = 0 then none else some out, { a with nt := o.cache = 2, stream := o.cache = 1 }, ws, zero⟩

end Sys2Proof.Claims

/-- Loads, stores, gathers, scatters, atomics and reductions: which address and how many bytes each allowed thread asks for, with
which value, and where the result goes; only threads with bad operands trap (R144, R193, R196, R197, R201, R205, R206, R392). -/
def Obligations.ElementAccesses : Prop :=
  ∀ (s : State) (i : Instr) (m : MemSpec), s.Ready → elementSpec s i = some m → m.Holds s i

/-- `ldx`, `stx`, `ldp`, `stp`, the ostler operations and `hgath` likewise (R198–R200, R208, R209, R211, R212). `os.chase` never
traps for an address: with no walk that its hops, and no race check, stop, it leaves an operation with a part per thread (R210).
The model's choices in it: log 75. -/
def Obligations.GroupAccesses : Prop :=
  (∀ (s : State) (i : Instr) (m : MemSpec), s.Ready → groupSpec s i = some m → m.Holds s i) ∧
  ∀ (s : State) (xp : Option Xp) (o : AOps), s.Ready → s.opdsOk [(false, o.va), (false, o.vd)] = true →
    let hops (i : Nat) : Nat := (sliceOf (s.ct.getV o.vd.toNat) i).toNat
    (∀ b, badThreads s.ct xp (fun i => hops i = 0 || 16 < hops i) = some b → s.Traps (.osChase xp o) 2 b s.cur.base) ∧
    (badThreads s.ct xp (fun i => hops i = 0 || 16 < hops i) = none → s.ct.masked xp ≠ 0 → s.ct.rdet = 0 →
      ∃ (u : State) (ps : List Part) (cs : List Chase), ps.length = (maskSlots (s.ct.masked xp)).length ∧ u.teams = s.teams ∧
        s.CompletesAs (.osChase xp o) ((u.modCur (zeroSlices xp o.vd.toNat)).putOp
          { loadAcs (.vreg o.vd.toNat) none with sem := o.sem, sco := o.sco.code, need := .home } ps cs))

/-- Issuing an operation adds one to its counter and changes no register of its team; it stands in flight under the next sequence
number with the accesses asked for, after the zero-length reads to the host that a release at system scope makes first (R124); and no
byte changes outside the lines that a write-combining entry of the core or a part of
the operation holds (R97, R142, R143). -/
def Obligations.IssueLeavesAnOperation : Prop :=
  ∀ (s : State) (m : Acs) (ps : List Part) (cs : List Chase), s.hasTeam s.ck = true → (∀ o ∈ s.ops, o.seq < s.nextSeq) →
    let u := s.putOp m ps cs
    u.ct.count m.cls = s.ct.count m.cls + 1 ∧ (∀ c, c ≠ m.cls → u.ct.count c = s.ct.count c) ∧
    u.ct.x = s.ct.x ∧ u.ct.v = s.ct.v ∧ u.ct.p = s.ct.p ∧ u.ct.fs = s.ct.fs ∧ u.ct.pc = s.ct.pc ∧ u.ct.em = s.ct.em ∧
    (∃ o ∈ u.ops, o.seq = s.nextSeq ∧ o.team = s.ck ∧ o.pc = s.ct.pc ∧ o.cls = some m.cls ∧ o.dest = m.dest ∧
      let asked (p : Part) := (p.slot, p.va, p.lo, p.len, p.kind, p.a)
      ∃ flush : List Part, o.parts.map asked = flush.map asked ++ ps.map asked ∧ (∀ p ∈ flush, p.kind = .read ∧ p.len = 0) ∧
        (flush = [] ∨ ∃ c ∈ o.carry, c.sco = 5)) ∧
    (Memory.wf s.mem = true → ∀ a, (∀ e ∈ (s.core (coreOf s.ck)).wcb, e.line ≠ a / 128) → (∀ p ∈ ps, p.writes = true → p.pa / 128 ≠ a / 128) →
      u.rdByte a = s.rdByte a)

namespace Sys2Proof.Claims

/-- A thread's address in the scratchpad of its block that R202 or R401 refuses: unaligned, outside the block's stalls, or in a
stall that its teams do not own. -/
def stallRefused (s : State) (a : Nat) : Bool :=
  a % 8 ≠ 0 || 4096 * s.cblock.stn ≤ a || tget 3 s.cc.owner (s.cblock.stb + a / 4096) ≠ 0

/-- The addresses of `sld` and `sst`, and of `sldt` (R202). -/
def stallAddr (t : Team) (o : ScrOps) (transposed : Bool) (i : Nat) : Nat :=
  let l := (t.lid i).getD 0
  (t.getX o.base.toNat + o.off.signExtend 64
    + BitVec.ofNat 64 (8 * if transposed then 2 ^ o.pitch.toNat * (l % 32) + l / 32 else l)).toNat

end Sys2Proof.Claims

/-- Scratchpad reads give each allowed thread the word of its address, or leave its slice and report where the word is lost;
writes put the words in place, the highest slot last; memory stays (R80–R84, R202, R361, R401).
The model's choices in it: log 77. -/
def Obligations.ScratchpadAccesses : Prop :=
  ∀ (s : State) (xp : Option Xp) (o : ScrOps), s.Ready → s.opdsOk [(false, o.reg)] = true →
    let t := s.ct
    let m := t.masked xp
    let slots := (List.range 32).filter fun i => m.getLsbD i
    (∀ (tr : Bool) (i : Instr), i = (if tr then Instr.sldt xp o else Instr.sld xp o) →
      let cell (j : Nat) : Nat := s.cellOf o.swz.toNat (stallAddr t o tr j)
      let lost := slots.filter fun j => s.cc.scratchBad.contains (cell j)
      (∀ b, badThreads t xp (fun j => stallRefused s (stallAddr t o tr j)) = some b → s.Traps i 2 b s.cur.base) ∧
      (badThreads t xp (fun j => stallRefused s (stallAddr t o tr j)) = none → ∃ u : State, s.CompletesAs i u ∧ u.mem = s.mem ∧
        u.cc.scratch = s.cc.scratch ∧ u.ct.getV o.reg.toNat = (t.setVIn o.reg.toNat (m ||| t.zeroed xp) (regOfSlices fun j =>
          if lost.contains j then sliceOf (t.getV o.reg.toNat) j else if m.getLsbD j then tget 0 s.cc.scratch (cell j) else 0)).getV
            o.reg.toNat ∧
        u.ct.x = t.x ∧ u.ct.p = t.p ∧ u.ct.pc = t.pc ∧
        (lost = [] → u.ct.reports = t.reports) ∧
        (lost ≠ [] → ∃ r, u.ct.reports = t.reports ++ [r] ∧ r.cause = 8 ∧ r.mask = maskOfList lost ∧ r.pc = t.pc))) ∧
    (∀ b, badThreads t xp (fun j => stallRefused s (stallAddr t o false j)) = some b → s.Traps (.sst xp o) 2 b s.cur.base) ∧
    (badThreads t xp (fun j => stallRefused s (stallAddr t o false j)) = none → ∃ u : State, s.CompletesAs (.sst xp o) u ∧
      u.teams = s.teams ∧ u.mem = s.mem ∧ (twf 0 s.cc.scratch = true → ∀ c, tget 0 u.cc.scratch c =
        ((slots.reverse.find? fun j => s.cellOf o.swz.toNat (stallAddr t o false j) = c).map fun j =>
          sliceOf (t.getV o.reg.toNat) j).getD (tget 0 s.cc.scratch c)))

/-- `pf` completes whether or not it fills, changes no team and begins no operation that the team waits for; a non-canonical address is
its operand trap (R193, R400); `icinv` and `dcinv` wait for the team's stores, then drop the lines of their range
from the caches of their scope and nothing else (R203, R204).
The model's choices in it: log 74, 76. -/
def Obligations.CacheInstructions : Prop :=
  ∀ (s : State) (off : BitVec 24) (cache : BitVec 2) (base : BitVec 5) (o : InvOps), s.Ready →
    let p := (s.ct.getX base.toNat + off.signExtend 64).toNat
    let a := (s.ct.getX o.base.toNat + o.off.signExtend 64).toNat
    let n := (s.ct.getX o.x.toNat).toNat
    let drops (u : State) (c : Nat) (l : CLine) : Prop := (o.sco = .core → c = u.cur.core) ∧ (o.sco = .quad → c / 4 = u.cur.core / 4) ∧
      l.ctx = u.cctx ∧ n ≠ 0 ∧ 128 * l.vline < a + n ∧ a < 128 * l.vline + 128
    (p < 2 ^ 56 → ∃ u : State, s.CompletesAs (.pf off cache base) u ∧ u.teams = s.teams) ∧
    (2 ^ 56 ≤ p → s.Traps (.pf off cache base) 2 s.ct.active s.cur.base) ∧
    (2 ^ 56 ≤ a ∨ 2 ^ 32 ≤ n → s.Traps (.icinv o) 2 s.ct.active s.cur.base ∧ s.Traps (.dcinv o) 2 s.ct.active s.cur.base) ∧
    (a < 2 ^ 56 → n < 2 ^ 32 → s.storesDone s.ck = false →
      let w := WaitKind.memory (s.openOps s.ck fun o => o.parts.any Part.writes) true
      s.Waits (.icinv o) w ∧ s.Waits (.dcinv o) w) ∧
    (a < 2 ^ 56 → n < 2 ^ 32 → s.storesDone s.ck = true →
      (∃ u : State, s.CompletesAs (.icinv o) u ∧ u.teams = s.teams ∧ u.mem = s.mem ∧
        ∀ c l, l ∈ (u.core c).l1i ↔ l ∈ (s.core c).l1i ∧ ¬drops s c l) ∧
      (∃ u : State, s.CompletesAs (.dcinv o) u ∧ u.teams = s.teams ∧ u.mem = s.mem ∧
        (∀ c l, l ∈ (u.core c).l1 ↔ l ∈ (s.core c).l1 ∧ ¬drops s c l) ∧
        ∀ d l, l ∈ (u.die d).rdc ↔ l ∈ (s.die d).rdc ∧ ¬(o.sco = .device ∧ drops s 0 l)))

/-- Fences: a release drains what the team holds for combining and marks the stores that follow; an acquire waits for the team's
loads, an `sem:ar` for all of its accesses; at device scope and wider it drops the core's lines and the die's of its context, and at
core and quad scope none (R91, R97, R121, R216). Bindings enter and leave the context's table at once, after their addresses are checked (R116, R217).
The model's choices in it: log 11, 47. -/
def Obligations.FencesAndBindings : Prop :=
  ∀ (s : State) (sco : Scope) (ent : BitVec 6) (xo xb xl : BitVec 5), s.Ready →
    let loads := s.performedBefore s.ck s.nextSeq fun o => o.parts.any fun p => !p.writes
    let obj := s.ct.getX xo.toNat
    let lo := s.ct.getX xb.toNat
    let hi := s.ct.getX xl.toNat
    s.CompletesAs (.fence .release sco) (s.fenceRelease sco.code) ∧
    (loads = true → s.CompletesAs (.fence .acquire sco) (s.acquire s.ck sco.code fun _ => true)) ∧
    (loads = false → s.Waits (.fence .acquire sco) (.memory (s.openOps s.ck fun o => o.parts.any fun p => !p.writes) false)) ∧
    (let d := s.releaseDrain s.ck
     (d.allPerformed s.ck = true → s.CompletesAs (.fence .acqRel sco) ((d.fenceRelease sco.code).acquire s.ck sco.code fun _ => true)) ∧
     (d.allPerformed s.ck = false →
       exec (.fence .acqRel sco) s = .next (d.waitAt (.memory (d.openOps s.ck fun _ => true) false)))) ∧
    (∀ sem : Sem, sem = .release ∨ (sem = .acquire ∧ loads = true) ∨
      (sem = .acqRel ∧ (s.releaseDrain s.ck).allPerformed s.ck = true) →
      ∃ t, exec (.fence sem sco) s = .next t ∧ (t.team s.ck).pc = s.nextPc ∧ (t.team s.ck).x = s.ct.x ∧ (t.team s.ck).v = s.ct.v) ∧
    (∀ e ∈ ((s.fenceRelease sco.code).core (coreOf s.ck)).wcb, s.ck ∉ e.teams) ∧
    (∃ f ∈ (s.fenceRelease sco.code).ct.relFences, f.sco = sco.code ∧ f.words = [] ∧ f.binds = some (s.ctx s.cctx).binds) ∧
    (sco = .team ∨ sco = .core ∨ sco = .quad →
      (s.acquire s.ck sco.code fun _ => true).cores = s.cores ∧ (s.acquire s.ck sco.code fun _ => true).dies = s.dies) ∧
    (sco = .device ∨ sco = .pod ∨ sco = .system →
      (∀ l ∈ ((s.acquire s.ck sco.code fun _ => true).core (coreOf s.ck)).l1, l.ctx ≠ s.cctx) ∧
      ∀ l ∈ ((s.acquire s.ck sco.code fun _ => true).die (dieOfCore (coreOf s.ck))).rdc, l.ctx ≠ s.cctx) ∧
    (obj.toNat % 8 = 0 → lo.toNat % 128 = 0 → hi.toNat % 128 = 0 → obj.toNat < 2 ^ 56 → lo.toNat < 2 ^ 56 → hi.toNat < 2 ^ 56 →
      ∃ u t : State, exec (.bind ent xo xb xl) s = .next t ∧ s.CompletesAs (.bind ent xo xb xl) u ∧ tfind (u.ctx s.cctx).binds ent.toNat = some ⟨obj, hi, lo⟩ ∧
        (∀ n, n ≠ ent.toNat → tfind (u.ctx s.cctx).binds n = tfind (s.ctx s.cctx).binds n) ∧ u.teams = s.teams ∧ u.mem = s.mem) ∧
    (obj.toNat % 8 ≠ 0 ∨ lo.toNat % 128 ≠ 0 ∨ hi.toNat % 128 ≠ 0 ∨ 2 ^ 56 ≤ obj.toNat ∨ 2 ^ 56 ≤ lo.toNat ∨ 2 ^ 56 ≤ hi.toNat →
      s.Traps (.bind ent xo xb xl) 2 s.ct.active s.cur.base) ∧
    ∃ u t : State, exec (.unbind ent) s = .next t ∧ s.CompletesAs (.unbind ent) u ∧ (tsorted 0 (s.ctx s.cctx).binds = true → tfind (u.ctx s.cctx).binds ent.toNat = none) ∧
      u.teams = s.teams ∧ u.mem = s.mem

/-! ## Homes, caches and completion -/

/-- A home performs one access of a line that is not failed: a read gives the bits, a write replaces them, an atomic or a reduction
replaces them with the result on the old ones; `cas4` stores all of its words or none; `enq` appends its node. No byte outside the
words accessed changes, and a failed line is reported and left alone (R93, R95, R205, R206, R208, R209, R363). -/
def Obligations.HomesPerformAccesses : Prop :=
  ∀ (s : State) (key pa lo len : Nat) (cmp : Bool) (a b : Word) (words : List Word), Memory.wf s.mem = true →
    let base := pa / 8 * 8
    let w := s.rdNat key base 8
    let old := w / 2 ^ lo % 2 ^ len
    let do_ (k : ReqKind) := s.homeDo k key cmp pa lo len a b words
    let becomes (u : State) (v : Nat) : Prop :=
      (∀ i, i < 64 → (u.rdNat key base 8).testBit i = if lo ≤ i && i < lo + len then v.testBit (i - lo) else w.testBit i) ∧
      ∀ x, x / 8 * 8 ≠ base → u.rdByte x = s.rdByte x
    (∀ k u, s.failedAt (pa / 128) = some u → ∃ op, do_ k = (s, .error (u, op))) ∧
    (s.failedAt (pa / 128) = none → tget none s.lineKey (pa / 128) = s.keyMat key → lo + len ≤ 64 → 0 < len →
      do_ .read = (s, .ok [BitVec.ofNat 64 old]) ∧
      (∃ u, do_ .write = (u, .ok []) ∧ becomes u a.toNat) ∧
      (∀ op, ∃ u, do_ (.atomic op) = (u, .ok [BitVec.ofNat 64 old]) ∧
        becomes u (rmwApply op len old (a.toNat % 2 ^ len) (b.toNat % 2 ^ len))) ∧
      (∀ op, ∃ u, do_ (.red op) = (u, .ok [BitVec.ofNat 64 old]) ∧
        becomes u (rmwApply op len old (a.toNat % 2 ^ len) (b.toNat % 2 ^ len))) ∧
      (∀ n, 1 ≤ n → n ≤ 4 → pa % 8 = 0 → pa % 128 + 8 * n ≤ 128 → words.length = 2 * n → ∃ u,
        do_ (.cas4 n) = (u, .ok (s.lineWords key pa n)) ∧
        (s.lineWords key pa n ≠ words.take n → u = s) ∧
        (s.lineWords key pa n = words.take n → (∀ j, j < n → u.rdWord key (pa + 8 * j) = words.getD (n + j) 0) ∧
          ∀ x, x < pa ∨ pa + 8 * n ≤ x → u.rdByte x = s.rdByte x)) ∧
      (pa % 16 = 0 → ∃ u, do_ .enq = (u, .ok [s.rdWord key (pa + 8)]) ∧ u.rdWord key (pa + 8) = a ∧
        u.rdWord key pa = (if s.rdWord key (pa + 8) = 0 then a else s.rdWord key pa) ∧
        ∀ x, x < pa ∨ pa + 16 ≤ x → u.rdByte x = s.rdByte x))

/-- A write of a context to a line can change every byte of it: the context is of the secure world, or the line holds no context
record, whose WORLD bit it may not change (R314). -/
def Sys2Proof.Claims.writable (s : State) (ctx line : Nat) : Prop :=
  (s.ctx ctx).world = true ∨ 128 * line + 128 ≤ s.regs.ctxtBase.toNat ∨ s.regs.ctxtBase.toNat + 8192 ≤ 128 * line

/-- The L2 home, the second-tier home and the ostler each perform a waiting part of an operation that is theirs and that nothing
must come before, and mark it done with what the home returns, or failed; other parts wait, and one that its world may no longer access
is a violation (R328). The check of an `os.enq`'s link that found no translation is made again (R366, R368). A write-combining entry drains 1 µs
after its last store, and puts the bits stored into it, and no others, into its line (R93, R95, R97, R114, R208–R211).
The model's choices in it: log 26. -/
def Obligations.HomeEvents : Prop :=
  (∀ (s : State) (seq i : Nat) (o : MemOp) (p : Part), s.op? seq = some o → o.parts[i]? = some p →
    let os : Prop := p.kind = .enq ∨ p.kind = .run ∨ (∃ n, p.kind = .cas4 n) ∨ o.chase ≠ []
    (o.unchecked.contains i = false → p.st ≠ .waiting ∨ s.guard o i p = false →
      exec (.l2HomeAccess seq i) s = .next s.pump ∧ exec (.secondTierHomeAccess seq i) s = .next s.pump ∧
        exec (.ostlerOperation seq i) s = .next s.pump) ∧
    (o.unchecked.contains i = true → exec (.l2HomeAccess seq i) s = .next (s.checkLink o i p).pump) ∧
    (o.unchecked.contains i = false → p.st = .waiting → s.guard o i p = true → o.coversLine (lineOf p.pa) = false → 
      (∀ d, homeOf p.pa = .hbm d → ¬os → exec (.l2HomeAccess seq i) s = .next (s.performPart o i p).pump) ∧
      (∀ d, homeOf p.pa = .tier2 d → ¬os → exec (.secondTierHomeAccess seq i) s = .next (s.performPart o i p).pump) ∧
      (∀ d, homeOf p.pa = .hbm d ∨ homeOf p.pa = .tier2 d → os → exec (.ostlerOperation seq i) s = .next (s.performPart o i p).pump)) ∧
    (p.kind ≠ .enq → s.violation (s.ctx o.ctx).world p.pa p.key ≠ 0 → s.performPart o i p =
      (s.modPart o.seq i fun p => { p with st := .done }).opViol o p.slot (s.violation (s.ctx o.ctx).world p.pa p.key) p.pa) ∧
    (p.kind ≠ .enq → o.chase = [] → s.violation (s.ctx o.ctx).world p.pa p.key = 0 →
      (writable s o.ctx (p.pa / 128) →
        (s.performPart o i p).mem = (s.homeDo p.kind p.key p.cmp p.pa p.lo p.len p.a p.b p.words).1.mem) ∧
      ∃ o' q, (s.performPart o i p).op? seq = some o' ∧ o'.parts[i]? = some q ∧
        (∀ ws, (s.homeDo p.kind p.key p.cmp p.pa p.lo p.len p.a p.b p.words).2 = .ok ws → q.st = .done ∧ q.val = ws.headD 0) ∧
        ∀ u op, (s.homeDo p.kind p.key p.cmp p.pa p.lo p.len p.a p.b p.words).2 = .error (u, op) →
          q.st = .failed u (if o.atOstler ∧ op ≤ 2 then 2 else op) (p.pa / 128 * 128))) ∧
  ∀ (s : State) (core n : Nat) (e : WcEntry), (s.core core).wcb[n]? = some e →
    (s.clock < e.last + 1700 → exec (.wcEntryDrain core n) s = .next s) ∧
    (e.last + 1700 ≤ s.clock → exec (.wcEntryDrain core n) s = .next (s.wcDrain core n).pump) ∧
    ((isMem (128 * e.line) = true → s.failedAt e.line = none ∧ s.violation (s.ctx e.ctx).world (128 * e.line) e.key = 0) →
      ((s.wcDrain core n).core core).wcb = (s.core core).wcb.eraseIdx n) ∧
    (s.violation (s.ctx e.ctx).world (128 * e.line) e.key = 0 → Memory.wf s.mem = true → isMem (128 * e.line) = true → s.failedAt e.line = none → tget none s.lineKey e.line = s.keyMat e.key →
      writable s e.ctx e.line → tsorted 0 e.bytes = true → (∀ x ∈ e.bytes, x.1 < 128) → ∀ x, (s.wcDrain core n).rdByte x =
        if x / 128 = e.line then
          let b := (tfind e.bytes (x % 128)).getD (0, 0)
          (b.2 &&& b.1) ||| (s.rdByte x &&& ~~~b.1)
        else s.rdByte x)

/-- An operation whose accesses are over completes: it leaves its counter in issue order, its results stand in its destination,
extended as its load says, and a store writes no register; a clean one reports nothing (R142, R143, R196–R198, R356). -/
def Obligations.OperationsDeliver : Prop :=
  (∀ (s : State) (seq : Nat) (o : MemOp), s.tileOp? seq = none → s.op? seq = some o → o.performed = true → o.ostc = none →
    o.actor = none → o.quiet = false → o.drain = [] →
    exec (.operationComplete seq []) s =
      .next ({ s with ops := s.ops.filter fun x => x.seq ≠ seq }.modTeam o.team fun t => t.finishOp o).pump) ∧
  ∀ (t : Team) (o : MemOp),
    (∀ c rest, o.cls = some c → t.out = ⟨c, o.seq, false⟩ :: rest → (∀ r ∈ rest, r.done = false ∧ r.seq ≠ o.seq) →
      (t.finishOp o).count c + 1 = t.count c ∧ ∀ d, d ≠ c → (t.finishOp o).count d = t.count d) ∧
    (∀ c rest r, o.cls = some c → t.out = r :: rest → r.cls = c → r.done = false → r.seq ≠ o.seq →
      (t.finishOp o).count c = t.count c) ∧
    (o.failures = [] → (t.finishOp o).reports = t.reports) ∧
    (o.dest = .none → (t.finishOp o).x = t.x ∧ (t.finishOp o).v = t.v) ∧ (t.finishOp o).p = t.p ∧ (t.finishOp o).pc = t.pc ∧
    (∀ d e p, o.dest = .xreg d → d ≠ 0 → twf 0 t.x = true → o.ext = some e → o.parts = [p] → p.kind = .read → p.st = .done →
      p.dbit = 0 → p.len = e.bits → 1 ≤ e.bits → e.bits ≤ 64 →
      (t.finishOp o).getX d = if e.signed then (p.val.truncate e.bits).signExtend 64 else (p.val.truncate e.bits).zeroExtend 64) ∧
    (∀ d e, o.dest = .vreg d → twf 0 t.v = true → o.ext = some e → 1 ≤ e.bits → e.bits ≤ 64 →
      (∀ p ∈ o.parts, p.kind = .read ∧ p.st = .done ∧ p.slot < 32 ∧ p.dbit = 64 * p.slot ∧ p.len = e.bits) →
      (o.parts.map Part.slot).Nodup → ∀ i, i < 32 →
      (∀ p ∈ o.parts, p.slot = i → sliceOf ((t.finishOp o).getV d) i =
        if e.signed then (p.val.truncate e.bits).signExtend 64 else (p.val.truncate e.bits).zeroExtend 64) ∧
      ((∀ p ∈ o.parts, p.slot ≠ i) → sliceOf ((t.finishOp o).getV d) i = sliceOf (t.getV d) i))

/-! ## Launches and blocks (chapters 01, 02) -/

/-- `launch`: after the team's accesses and drains, the queue's descriptor is read and checked, the record is read, the ring checked,
the record written at WIDX and WIDX advanced, where WIDX is outside the package once the record is at its home; a full ring is a wait,
and a bad LOG2N or RBASE the operand trap (R25, R156, R353, R412). The launch core reads a queue's descriptor; a bad one kills the context (R27, R412).
ADMIT_LAUNCH admits the record at RIDX once its signal word allows: RIDX advances, the template is applied entry by entry, and the
blocks are split among the dies (R26, R40, R281, R414). A launch whose blocks have all completed leaves the context once its
write-combining stores are drained, its DONE word is counted up, and its interrupt follows (R28, R29).
The model's choices in it: log 30, 59. -/
def Obligations.LaunchAndAdmission : Prop :=
  (∀ (s s1 s2 s3 : State) (x : BitVec 5) (q : BitVec 7) (bytes ds : List Byte) (rpa dpa pa : Nat) (re de e : TlbEntry), s.Ready →
    let r := (s.ct.getX x.toNat).toNat
    let desc := (s.ctx s.cctx).qtable.toNat + 32 * q.toNat
    let base := bitsOf (ofBytes ds) 0 64
    let log := bitsOf (ofBytes ds) 64 5
    let ridx := bitsOf (ofBytes ds) 128 64
    let widx := bitsOf (ofBytes ds) 192 64
    let slot := (base + widx % 2 ^ log * 64) % 2 ^ 64
    (r % 64 ≠ 0 ∨ 2 ^ 56 ≤ r → s.Traps (.launch x q) 2 s.ct.active s.cur.base) ∧
    (r % 64 = 0 → r < 2 ^ 56 → (s.releaseDrain s.ck).allPerformed s.ck = false → exec (.launch x q) s =
      .next ((s.releaseDrain s.ck).waitAt (.memory ((s.releaseDrain s.ck).openOps s.ck fun _ => true) false))) ∧
    (r % 64 = 0 → r < 2 ^ 56 → (s.releaseDrain s.ck).allPerformed s.ck = true → desc < 2 ^ 56 →
      (s.releaseDrain s.ck).teamRead s.ck desc 32 2 .rmw = (s1, .ok (ds, dpa, de)) →
      (log < 4 ∨ 16 < log ∨ base % 4096 ≠ 0 ∨ 2 ≤ de.mt →
        exec (.launch x q) s = .next (s1.raise s1.ck 2 s1.ct.active s1.cur.base s1.ct.pc false)) ∧
      (4 ≤ log → log ≤ 16 → base % 4096 = 0 → de.mt < 2 → s1.teamRead s.ck r 64 2 .read = (s2, .ok (bytes, rpa, re)) →
        ((widx + 2 ^ 64 - ridx) % 2 ^ 64 = 2 ^ log → exec (.launch x q) s = .next (s2.waitAt (.launch (dpa + 16) (s2.rawWord (dpa + 16))))) ∧
        ((widx + 2 ^ 64 - ridx) % 2 ^ 64 ≠ 2 ^ log → slot < 2 ^ 56 → s2.teamXlate s.ck slot .write = (s3, .ok (pa, e)) →
          s3.failedAt (pa / 128) = none →
          let put := s3.teamWrite s.ck pa e bytes
          (isMem pa = false ∨ isMem dpa = true ∨ s3.rdBytes e.key pa 64 = bytes → s.CompletesAs (.launch x q)
            ((put.teamWrite s.ck (dpa + 24) de (bytesOf 8 ((widx + 1) % 2 ^ 64))).noteRelease s.ck 3)) ∧
          (isMem pa = true → isMem dpa = false → s3.rdBytes e.key pa 64 ≠ bytes →
            exec (.launch x q) s = .next (put.waitAt (.memory [] false))))))) ∧
  ∀ (s u : State) (ctx q : Nat) (bs : List Byte) (a : Nat) (d : QDesc),
    (s.serves ctx q = false → exec (.launchQueuePoll ctx q) s = .next s ∧ exec (.admitLaunch ctx q) s = .next s) ∧
    (s.serves ctx q = true → s.devRead (launchActor ctx q) .rmw ((s.ctx ctx).qtable.toNat + 32 * q) 32 = (u, .ok bs, a) →
      (qdescBad (qdescOf ((s.ctx ctx).qtable.toNat + 32 * q) (ofBytes bs)) (ofBytes bs) = false →
        exec (.launchQueuePoll ctx q) s = .next u) ∧
      (qdescBad (qdescOf ((s.ctx ctx).qtable.toNat + 32 * q) (ofBytes bs)) (ofBytes bs) = true →
        exec (.launchQueuePoll ctx q) s = .next (u.fatal ctx (rejectRec ((s.ctx ctx).qtable.toNat + 32 * q)
          ((s.ctx ctx).qtable.toNat + 32 * q) 0)))) ∧
    (s.serves ctx q = true → s.readQueue ctx q = (u, some d) →
      (d.en = false ∨ d.dbgh = true ∨ d.ridx = d.widx → exec (.admitLaunch ctx q) s = .next u) ∧
      (d.en = true → d.dbgh = false → d.ridx ≠ d.widx → ∀ v l,
        (tfind (u.ctx ctx).queues q = none ∧
            u.readLaunch (launchActor ctx q) ((d.rbase + d.ridx % 2 ^ d.log2n * 64) % 2 ^ 64) = (v, .ok l)) ∨
          (d.ridx < 2 ^ 64 ∧ tfind (u.ctx ctx).queues q = some ⟨l, BitVec.ofNat 64 d.ridx⟩ ∧ v = u) →
        (l.waitAddr = 0 → exec (.admitLaunch ctx q) s = .next (v.admitRec ctx q d l).1) ∧
        (l.waitAddr ≠ 0 → ∀ w x, v.launchRead (launchActor ctx q) .read l.waitAddr.toNat 8
            (rejectRec l.waitAddr.toNat ((d.rbase + d.ridx % 2 ^ d.log2n * 64) % 2 ^ 64) l.ltag) = (w, x) →
          (∀ e, x = .error e → exec (.admitLaunch ctx q) s = .next (w.fatal ctx e)) ∧
          ∀ n, x = .ok n →
            (l.waitVal.toNat ≤ n → exec (.admitLaunch ctx q) s = .next (w.admitRec ctx q d l).1) ∧
            (n < l.waitVal.toNat → exec (.admitLaunch ctx q) s =
              .next (w.modCtx ctx fun c => { c with queues := tins c.queues q ⟨l, BitVec.ofNat 64 d.ridx⟩ })))) ∧
      (d.en = true → d.dbgh = false → d.ridx ≠ d.widx → tfind (u.ctx ctx).queues q = none →
        ∀ v r, u.readLaunch (launchActor ctx q) ((d.rbase + d.ridx % 2 ^ d.log2n * 64) % 2 ^ 64) = (v, .error r) →
          exec (.admitLaunch ctx q) s = .next (v.fatal ctx r))) ∧
    (∀ (l : LaunchRec) (h : Nat) (r : DevRes) (n : Nat),
      (List.range 1024).find? (fun h => (tfind (s.ctx ctx).launches h).all fun l => l.done) = some h →
      s.devWrite (launchActor ctx q) (d.va + 16) (bytesOf 8 ((d.ridx + 1) % 2 ^ 64)) = (u, r, n) →
      let v := (s.admitRec ctx q d l).1
      let rel (e : BitVec 256) (x : Word) : Word := if e.getLsbD 198 then x + l.args else x
      tfind (v.ctx ctx).launches h = some ⟨l, q, d.pri, u.admitted, 0, [], false⟩ ∧ v.admitted = u.admitted + 1 ∧ v.mem = u.mem ∧
      (v.ctx ctx).binds = l.tmpl.foldl (fun t e => tins t (e.extractLsb' 192 6).toNat
        ⟨rel e (e.extractLsb' 128 64), rel e (e.extractLsb' 64 64), rel e (e.extractLsb' 0 64)⟩) (u.ctx ctx).binds ∧
      ∀ k, k < 4 → (v.die k).ranges = (u.die k).ranges ++
        if l.blocks * k / 4 < l.blocks * (k + 1) / 4 then [⟨ctx, h, l.blocks * k / 4, l.blocks * (k + 1) / 4⟩] else []) ∧
    ∀ (lnh : Nat) (l : Launch), tfind (s.ctx ctx).launches lnh = some l →
      (l.finished.length < l.rcd.blocks → exec (.launchCompletion ctx lnh) s = .next s) ∧
      (l.done = false → (s.ctx ctx).en = true → (s.ctx ctx).killed = false → l.rcd.blocks ≤ l.finished.length →
        (s.drainLaunch ctx).drained ctx = false → exec (.launchCompletion ctx lnh) s = .next (s.drainLaunch ctx).pump) ∧
      (l.done = false → (s.ctx ctx).en = true → (s.ctx ctx).killed = false → l.rcd.blocks ≤ l.finished.length →
        (s.drainLaunch ctx).drained ctx = true →
        let counts := ((s.drainLaunch ctx).ctx ctx).watchTids lnh
        let f := (s.drainLaunch ctx).flushWatch ctx lnh l.rcd.ltag
        let v := f.modCtx ctx fun c => { c with launches := tdel c.launches lnh }
        let tell (w : State) : State := if l.rcd.irq then w.irq (w.vfOf ctx) (8 + l.q) else w
        (counts ≠ [] → f.releasedHere (launchActor ctx (8192 + lnh)) l.rcd.done.toNat = false →
          exec (.launchCompletion ctx lnh) s = .next f) ∧
        (counts = [] ∨ f.releasedHere (launchActor ctx (8192 + lnh)) l.rcd.done.toNat = true →
          l.rcd.dsco ≠ 5 ∨ (v.ctx ctx).posted = [] →
          (l.rcd.done = 0 → exec (.launchCompletion ctx lnh) s = .next (tell v)) ∧
          (l.rcd.done ≠ 0 → ∀ w x, v.devAddOne (launchActor ctx (8192 + lnh)) l.rcd.done.toNat = (w, x) →
            (∀ bs, x = .ok bs → exec (.launchCompletion ctx lnh) s = .next (tell w)) ∧
            (∀ reason pa, x = .viol reason pa →
              exec (.launchCompletion ctx lnh) s = .next (w.fatal ctx (launchViolRec reason pa l.rcd.ltag))) ∧
            ((∃ y, x = .noXlate y) ∨ (∃ unit op loc, x = .mem unit op loc) →
              exec (.launchCompletion ctx lnh) s = .next (w.fatal ctx (rejectRec l.rcd.done.toNat l.rcd.addr l.rcd.ltag))))))

/-- The first block of the range that a die serves is bound to a free slot of a core with room for its registers and stalls, and
its teams start as R22 says. A die with nothing to serve and a free slot asks the die with the largest range, which keeps the
lower half (R22, R37–R41).
The model's choices in it: log 90. -/
def Obligations.BlockDispatch : Prop :=
  (∀ (s : State) (ctx lnh core slot stb : Nat) (l : Launch) (r : URange), core < 256 → slot < 32 →
    s.serving (dieOfCore core) = some (ctx, lnh, l) →
    ((s.die (dieOfCore core)).ranges.find? fun r => r.ctx = ctx && r.lnh = lnh) = some r →
    (s.regsFree core < l.rcd.regs ∨ s.stallsFree core stb l.rcd.stalls = false ∨ tfind s.blocks (core * 32 + slot) ≠ none →
      exec (.bindBlock ctx lnh core slot stb) s = .next s) ∧
    (l.rcd.regs ≤ s.regsFree core → s.stallsFree core stb l.rcd.stalls = true → tfind s.blocks (core * 32 + slot) = none →
      ∃ u : State, exec (.bindBlock ctx lnh core slot stb) s = .next u ∧
        (u.block (core * 32 + slot)).st = .bound ∧ (u.block (core * 32 + slot)).bidx = r.lo ∧
        (u.block (core * 32 + slot)).stb = stb ∧ (u.block (core * 32 + slot)).ctx = ctx ∧
        (l.rcd.teams ≤ 32 → ∀ i, i < l.rcd.teams → u.team (teamKey core slot i) = startTeam l.rcd r.lo i) ∧
        (∀ k, blockKeyOf k ≠ core * 32 + slot → l.rcd.teams ≤ 32 → u.team k = s.team k))) ∧
  (∀ (l : LaunchRec) (bidx i : Nat),
    let t := startTeam l bidx i
    t.pc = l.entry ∧ t.em = BitVec.allOnes 32 ∧ t.tmode = l.tmode ∧ t.stack = [] ∧ t.handler = none ∧ t.out = [] ∧ t.p = [] ∧
    t.v = [] ∧ t.getX 1 = l.args ∧ t.getX 2 = BitVec.ofNat 64 bidx ∧ t.getX 4 = BitVec.ofNat 64 i ∧
    t.getX 3 = gridWord (bidx % l.gx) (bidx / l.gx % l.gy) (bidx / l.gx / l.gy) ∧ t.getX 5 = 0 ∧
    (∀ n, n < 16 → t.getFs n = if l.fsmask.getLsbD n then l.fsimg.getD n 0 else resetImage n) ∧
    ∀ j, j < 32 → t.lid j = some (32 * i + j) ∨ 32 ≤ i) ∧
  ∀ (s : State) (die : Nat), die < 4 →
    ((s.die die).steal ≠ none ∨ s.serving die ≠ none ∨ s.slotOnDie die = false → exec (.stealRequest die) s = .next s) ∧
    ((s.die die).steal = none → s.serving die = none → s.slotOnDie die = true → ∀ c h l v,
      firstLaunch (s.runnables.filter fun x => (s.victim x.1 x.2.1).isSome) = some (c, h, l) → s.victim c h = some v →
      exec (.stealRequest die) s = .next (s.modDie die fun d => { d with steal := some ⟨v, c, h⟩ })) ∧
    (∀ q r, (s.die die).steal = some q → q.victim ≠ die → (s.die q.victim).largest q.ctx q.lnh = some r → r.lo + 1 < r.hi →
      ∃ u : State, exec (.stealAnswer die) s = .next u ∧ (u.die die).steal = none ∧
        (u.die die).ranges = (s.die die).ranges ++ [{ r with lo := r.lo + (r.hi - r.lo + 1) / 2 }] ∧
        (u.die q.victim).ranges = (s.die q.victim).ranges.map fun x =>
          if x = r then { r with hi := r.lo + (r.hi - r.lo + 1) / 2 } else x)

/-! ## Queues and tiles (chapters 10, 11) -/

namespace Sys2Proof.Claims

/-- What a non-blocking push or pop writes: all ones or zeros into its predicate, in the active slots (R221). -/
def outcomePred (t : Team) (nb : Bool) (pd : BitVec 3) (v : Bool) : Team :=
  if nb then t.setPIn pd.toNat t.active (if v then BitVec.allOnes 32 else 0) else t

/-- A push of a register to a port that takes commands: a full port gives false, or a wait, and 63 copy commands outstanding a wait;
otherwise, once the team's earlier stores are performed, the command joins the port, and a copy command counts (R143, R218, R221,
R222). -/
def Pushes (s : State) (i : Instr) (nb : Bool) (pd : BitVec 3) (port idx : Nat) (reg : BitVec 7) : Prop :=
  let n := (s.portCmds s.cur.core port idx).length
  let c : Cmd := ⟨s.ct.getV reg.toNat, s.issuer, s.nextSeq, s.ct.tmode.toNat / 2 ^ 32, s.cblock.pri,
    (s.cc.tbl.filter fun e => e.2.1 = s.cctx).map fun e => (e.1, e.2.2)⟩
  let low : Prop := port = 1 → s.ct.count .cp < 63
  (portCap port ≤ n → nb = false → s.Waits i (.qpush port idx)) ∧
  (portCap port ≤ n → nb = true → s.Completes i fun t => outcomePred t nb pd false) ∧
  (n < portCap port → ¬low → s.Waits i (.counter .cp)) ∧
  (n < portCap port → low → s.storesDone s.ck = false →
    s.Waits i (.memory (s.openOps s.ck fun o => o.parts.any Part.writes) true)) ∧
  (n < portCap port → low → s.storesDone s.ck = true → ∃ u : State, s.CompletesAs i u ∧ u.mem = s.mem ∧
    u.portCmds s.cur.core port idx = s.portCmds s.cur.core port idx ++ [c] ∧
    u.ct = outcomePred (if port = 1 then s.ct.addOut .cp s.nextSeq else s.ct) nb pd true)

end Sys2Proof.Claims

/-- `qbind` binds a register of the core's file to a port for the team's context, and traps on an index out of the port's
range, a clause port without the claim, and a binding that still holds another context's entries (R218, R219). `qpush` and `tcopy`
push a register, and `qpop` pops the oldest entry into the active slots, through a binding of the team's own context (R220, R221,
R222). `own` flips each stall once the commands before it are complete, and its team waits for the flips that are left (R223). -/
def Obligations.QueueInstructions : Prop :=
  ∀ (s : State) (nb : Bool) (pd : BitVec 3) (q : BitVec 5) (reg : BitVec 7) (port : BitVec 4) (idx : BitVec 2) (eng : Bool)
    (st n : BitVec 7) (dst : BitVec 2), s.Ready →
    let held := ∃ b, tfind s.cc.q q.toNat = some b ∧ b.ctx ≠ s.cctx ∧ s.portHolds s.cur.core b b.ctx = true
    let bad := held ∨ portTop port.toNat < idx.toNat ∨ port = 5 ∧ (s.quad (quadOfCore s.cur.core)).owner ≠ some s.ck
    let stalls := (List.range (n.toNat + 1)).map (s.cblock.stb + st.toNat + ·)
    (bad → s.Traps (.qbind q port idx) 2 s.ct.active s.cur.base) ∧
    (¬bad → ∃ u : State, s.CompletesAs (.qbind q port idx) u ∧ u.teams = s.teams ∧ u.mem = s.mem ∧
      (port ≠ 0 → tfind u.cc.q q.toNat = some ⟨port.toNat, idx.toNat, s.cctx⟩) ∧
      (tsorted 0 s.cc.q = true → (port = 0 → tfind u.cc.q q.toNat = none) ∧ ∀ r, r ≠ q.toNat → tfind u.cc.q r = tfind s.cc.q r)) ∧
    (reg.toNat < s.cblock.vregs → Pushes s (.tcopy nb pd eng reg) nb pd 1 (if eng then 1 else 0) reg) ∧
    (reg.toNat < s.cblock.vregs → ∀ b, s.binding q = some b →
      (b.port = 1 ∧ b.idx ≤ 1 ∨ b.port = 6 ∧ b.idx ≤ 1 ∨ b.port = 7 ∨ b.port = 8 → Pushes s (.qpush nb pd q reg) nb pd b.port b.idx reg) ∧
      (b.port ≠ 1 → b.port ≠ 6 → b.port ≠ 7 → b.port ≠ 8 → s.Traps (.qpush nb pd q reg) 2 s.ct.active s.cur.base) ∧
      (b.port ≠ 2 → b.port ≠ 5 → b.port ≠ 9 → s.Traps (.qpop nb pd q reg) 2 s.ct.active s.cur.base) ∧
      (b.port = 2 ∧ b.idx ≤ 1 ∨ b.port = 5 ∨ b.port = 9 →
        (s.cc.popPort b = [] → nb = false → s.Waits (.qpop nb pd q reg) (.qpop q.toNat)) ∧
        (s.cc.popPort b = [] → nb = true → s.Completes (.qpop nb pd q reg) fun t => outcomePred t nb pd false) ∧
        ∀ e es, s.cc.popPort b = e :: es → ∃ u : State, s.CompletesAs (.qpop nb pd q reg) u ∧ u.mem = s.mem ∧
          u.cc.popPort b = es ∧ u.ct = outcomePred (s.ct.setVIn reg.toNat s.ct.active e.data) nb pd true)) ∧
    (reg.toNat < s.cblock.vregs → s.binding q = none →
      s.Traps (.qpush nb pd q reg) 2 s.ct.active s.cur.base ∧ s.Traps (.qpop nb pd q reg) 2 s.ct.active s.cur.base) ∧
    (s.cblock.vregs ≤ reg.toNat → s.Traps (.qpush nb pd q reg) 2 s.ct.active s.cur.base ∧
      s.Traps (.qpop nb pd q reg) 2 s.ct.active s.cur.base ∧ s.Traps (.tcopy nb pd eng reg) 2 s.ct.active s.cur.base) ∧
    (s.cblock.stn < st.toNat + n.toNat + 1 → s.Traps (.own st n dst) 2 s.ct.active s.cur.base) ∧
    (st.toNat + n.toNat + 1 ≤ s.cblock.stn → dst.toNat ≤ 2 → (∀ j ∈ stalls, tget 3 s.cc.owner j = 0) →
      ∃ u : State, s.CompletesAs (.own st n dst) u ∧ u.teams = s.teams ∧ u.mem = s.mem ∧
        ∀ j ∈ stalls, tget 3 u.cc.owner j = dst) ∧
    (st.toNat + n.toNat + 1 ≤ s.cblock.stn → dst = 0 → s.ct.wait = none → (∃ j ∈ stalls, tget 3 s.cc.owner j = 1) →
      s.cc.eng0.completed < s.cc.eng0.accepted → ∃ (u : State) (fs : List OwnFlip), exec (.own st n dst) s = .next (u.waitAt (.own fs)) ∧
        fs ≠ [] ∧ (∀ f ∈ fs, f.dst = dst ∧ f.stall ∈ stalls) ∧ u.teams = s.teams ∧ u.mem = s.mem) ∧
    (∀ fs since noted, st.toNat + n.toNat + 1 ≤ s.cblock.stn → s.ct.wait = some ⟨.own fs, since, noted⟩ →
      (fs = [] → s.CompletesAs (.own st n dst) s) ∧ (fs ≠ [] → s.Waits (.own st n dst) (.own fs)))

/-- `talloc` gives the lowest free tile of the core and waits when there is none, also as TALLOC_GRANT; `tfree` and `tzero` wait
for what uses the tile. `tld` rounds a run of the tile's elements into its register, and `tst` stores all of them as one operation;
both trap while a product of the tile is in flight (R236, R240–R242).
The model's choices in it: log 50, 51. -/
def Obligations.TileInstructions : Prop :=
  ∀ (s : State) (td : BitVec 4) (xp : Option Xp) (o : TldOps) (w : TstOps), s.Ready →
    let sl := s.slot xp o.fs
    (∀ i, s.handle? td = some i → s.Traps (.talloc td) 2 s.ct.active s.cur.base) ∧
    (s.handle? td = none → ∀ i, s.cc.freeTile = some i → ∃ u : State, s.CompletesAs (.talloc td) u ∧ u.handle? td = some i ∧
      (u.cc.tile i).team = s.ck ∧ u.ct.x = s.ct.x ∧ u.ct.v = s.ct.v ∧ u.mem = s.mem ∧ ∀ j, j ≠ i → u.cc.tile j = s.cc.tile j) ∧
    (s.handle? td = none → s.cc.freeTile = none → s.Waits (.talloc td) .talloc) ∧
    (s.handle? td = none → s.Traps (.tfree td) 2 s.ct.active s.cur.base ∧ s.Traps (.tzero td) 2 s.ct.active s.cur.base) ∧
    (∀ i, s.handle? td = some i →
      (s.tileRead s.cur.core i = true → s.Waits (.tfree td) (.tfree (s.tileBusy s.cur.core i)) ∧
        s.Waits (.tzero td) (.tile (s.tileReads s.cur.core i))) ∧
      (s.tileRead s.cur.core i = false →
        (∃ u : State, s.CompletesAs (.tzero td) u ∧ u.ct.count .tl = s.ct.count .tl + 1 ∧ u.mem = s.mem ∧
          ∃ op ∈ u.cc.tileOps, op.seq = s.nextSeq ∧ op.tile = i ∧ op.kind = .zero) ∧
        ((s.tileWrite s.cur.core i).isSome = true → s.Waits (.tfree td) (.tfree (s.tileBusy s.cur.core i))) ∧
        (s.tileWrite s.cur.core i = none → ∃ u : State, s.CompletesAs (.tfree td) u ∧ u.mem = s.mem ∧
          (tsorted 0 s.ct.tiles = true → u.handle? td = none) ∧ (tsorted 0 s.cc.tiles = true → tfind u.cc.tiles i = none)))) ∧
    (s.formatErr [(0, o.fs)] = none → opdOk s.cblock.vregs (sl.blocked, o.vd) = true → ∀ i, s.handle? o.t = some i →
      (∀ op, s.tileWrite s.cur.core i = some op → s.Traps (.tld xp o) 4 s.ct.active
        (BitVec.ofNat 64 (o.t.toNat * 2 ^ 60 + op.who.pc.toNat % 2 ^ 56))) ∧
      (s.tileWrite s.cur.core i = none → (s.cc.tile i).bad = [] → ∃ u : State, s.CompletesAs (.tld xp o) u ∧ u.mem = s.mem ∧
        u.ct.getV o.vd.toNat = (s.ct.writeDrawn { s.ct.draw with elem := fun e => 32 * o.row0.toNat + e } xp sl o.vd fun e =>
          if e < Min.min sl.f.count (1024 - 32 * o.row0.toNat) then
            some (decodeA96 ((s.cc.tile i).elems.getD (32 * o.row0.toNat + e) 0)) else none).getV o.vd.toNat ∧
        u.ct.count .tl = s.ct.count .tl + 1 ∧ u.ct.x = s.ct.x)) ∧
    (s.formatErr [(0, w.fs)] = none → ∀ i, s.handle? w.t = some i →
      let f := s.slot xp w.fs
      let org := 8 * (s.ct.getX w.base.toNat + w.off.signExtend 64).toNat
      let scale := (s.ct.getX (w.base.toNat + 1)).toNat
      let r := tstCodes f s.ct.draw (s.cc.tile i)
      let ws := tstWants f org scale r.2 r.1
      let m : Acs := ⟨.tl, .relaxed, 0, .none, none, w.cache = 2, w.cache = 1, false, true, .any, some i⟩
      org + 1024 * f.f.width ≤ 2 ^ 59 → (f.blocked = true → w.base.toNat % 2 = 0) →
      (f.f.block ≠ 0 → scale + 1024 / f.f.block ≤ 2 ^ 56) →
      (∀ op, s.tileWrite s.cur.core i = some op → s.Traps (.tst xp w) 4 s.ct.active
        (BitVec.ofNat 64 (w.t.toNat * 2 ^ 60 + op.who.pc.toNat % 2 ^ 56))) ∧
      (s.tileWrite s.cur.core i = none → (s.cc.tile i).bad = [] → s.ct.relFences = [] → s.ct.rdet = 0 → ws ≠ [] →
        ∀ (u : State) (l : List (Want × Found)), s.findAll s.ck m ws = (u, l.map fun e => (e.1, .ok e.2)) → u.ct = s.ct →
        u.wcBlocked s.ck (l.map fun e => e.1.part e.2) = [] →
        ∃ v : State, s.CompletesAs (.tst xp w) v ∧ v.ct.count .tl = s.ct.count .tl + 1 ∧ v.ct.x = s.ct.x ∧ v.ct.v = s.ct.v)) ∧
    ∀ t : TeamId,
      let k := teamIdKey t
      (∀ w, (s.team k).wait = some w → w.kind = .talloc → s.ready k = false → exec (.tallocGrant t) s = .next s) ∧
      ∀ w ws d td i u, (s.team k).wait = some w → w.kind = .talloc → s.ready k = true →
        s.fetchAt k = (u, .ok ws) → decodeWords ws = .ok d → d.instr = .talloc td →
        let g : State := { u with cur := ⟨coreOf k, slotOf k, idxOf k, d.len, d.base, [], true⟩ }
        g.Ready → g.handle? td = none → g.cc.freeTile = some i →
        ∃ v : State, exec (.tallocGrant t) s = .next v.retire ∧ tfind (v.team k).tiles td.toNat = some i ∧ (v.cc.tile i).team = k

/-- `tmma` waits for its turn and its strips, checks them, and gathers one quarter operation for each quarter with an active
thread; it counts on TLC. A pass begins with four operations or 4 clocks after the first, and its completion adds the segments of
the strips' products to the tile and ends the instruction (R70, R237–R239, R297).
The model's choices in it: log 48, 57. -/
def Obligations.MatrixProducts : Prop :=
  (∀ (s : State) (o : MmaOps) (i sa sb : Nat), s.Ready → s.formatErr [(1, o.fsa), (2, o.fsb)] = none → s.handle? o.td = some i →
    s.mxStream o.qa 3 = some sa → s.mxStream o.qb 4 = some sb →
    let posA := (s.cc.mx.streamA sa).issueHead + o.aoff.zeroExtend 16
    let posB := (s.cc.mx.streamB sb).issueHead + o.boff.zeroExtend 16
    let fa := s.slot none o.fsa
    let fb := s.slot none o.fsb
    let x := s.turn sa sb (o.aoff.zeroExtend 16) (o.boff.zeroExtend 16)
    let tab (sl : Slot) : List VReg := (sl.curve.bind fun _ => (tfind s.cc.tbl sl.f.cmpd).map Prod.snd).toList
    (s.ct.wait = none → x = ({ s with nextSeq := s.nextSeq + 1 }, ⟨s.nextSeq, sa, o.aoff.zeroExtend 16, sb, o.boff.zeroExtend 16⟩)) ∧
    (s.stripFirst s.ck x.2.ticket sa sb = false ∨ s.tileRead s.cur.core i = true →
      exec (.tmma o) s = .next (x.1.waitAt (.strip x.2 (s.tileReads s.cur.core i)))) ∧
    (s.stripFirst s.ck x.2.ticket sa sb = true → s.tileRead s.cur.core i = false →
      ((s.cc.mx.streamA sa).at? posA = none ∨ (s.cc.mx.streamB sb).at? posB = none →
        exec (.tmma o) s = .next (x.1.waitAt (.strip x.2 []))) ∧
      ∀ a b, (s.cc.mx.streamA sa).at? posA = some a → (s.cc.mx.streamB sb).at? posB = some b →
        (a.ctx ≠ s.cctx ∨ b.ctx ≠ s.cctx ∨ a.width ≠ fa.f.width ∨ b.width ≠ fb.f.width →
          exec (.tmma o) s = .next (x.1.raise s.ck 2 s.ct.active s.cur.base s.ct.pc false)) ∧
        (a.ctx = s.cctx → b.ctx = s.cctx → a.width = fa.f.width → b.width = fb.f.width → ∃ u : State, s.CompletesAs (.tmma o) u ∧
          u.mem = s.mem ∧ u.ct.count .tl = s.ct.count .tl + 1 ∧ (u.cc.tile i).tid = o.tid ∧ (u.cc.tile i).elems = (s.cc.tile i).elems ∧
          (∃ op ∈ u.cc.tileOps, op.seq = x.1.nextSeq ∧ op.tile = i ∧ op.who.team = s.ck) ∧
          u.cc.mx.queue = s.cc.mx.queue ++ (quartersOf s.ct.active).map fun q =>
            { seq := x.1.nextSeq, tile := i, quarter := q, imgA := fa.img, tabA := tab fa, imgB := fb.img, tabB := tab fb, sa := sa,
              posA := posA, sb := sb, posB := posB, popA := o.popa, popB := o.popb, cost := passCost fa.f.precision fb.f.precision,
              issued := s.clock }))) ∧
  (∀ (s : State) (core : Nat) (q : QuarterOp) (a b : Strip),
    let mx := (s.core core).mx
    (mx.streamA q.sa).at? q.posA = some a → (mx.streamB q.sb).at? q.posB = some b → q.tabA.length ≤ 1 → q.tabB.length ≤ 1 →
    (s.quarterSegs core q).2 =
      segsOf ((List.range 256).map fun i => a.val ⟨q.imgA, fmtOf q.imgA, (q.tabA[0]?).map curveOf⟩ (256 * q.quarter + i))
        ((List.range 1024).map fun i => b.val ⟨q.imgB, fmtOf q.imgB, (q.tabB[0]?).map curveOf⟩ i)) ∧
  ∀ (s : State) (core : Nat),
    let mx := (s.core core).mx
    let ch := choosePass (s.core core).zeroFirst mx.queue [] []
    (ch = [] ∨ mx.pass ≠ [] → exec (.matrixPassStart core) s = .next s) ∧
    (∀ o os, ch = o :: os → mx.pass = [] → (ch.length < 4 → s.clock < o.issued + 4 → exec (.matrixPassStart core) s = .next s) ∧
      (4 ≤ ch.length ∨ o.issued + 4 ≤ s.clock → ∃ u : State, exec (.matrixPassStart core) s = .next u ∧ (u.core core).mx.pass = ch ∧
        (u.core core).mx.passStart = s.clock ∧ u.teams = s.teams ∧ u.mem = s.mem)) ∧
    (∀ f, mx.pass = [] ∨ s.clock < mx.passStart + mx.passClocks → exec (.matrixPassComplete core f) s = .next s) ∧
    (∀ q t, mx.pass = [q] → mx.passStart + mx.passClocks ≤ s.clock → mx.live ≠ [] →
      ((s.core core).tileOps.find? fun o => o.seq = q.seq) = some t → t.kind = .mma [q.quarter] [] none none →
      ((s.core core).opsOn q.tile).head? = some t → (∀ x ∈ (s.core core).opsOn q.tile, ∀ g st smp, x.kind ≠ .mma [] g st smp) →
      mx.badStrip q = none → ((s.core core).tile q.tile).bad = [] → s.hasTeam t.who.team = true →
      ∃ u : State, exec (.matrixPassComplete core 0) s = .next u ∧ (u.core core).mx.pass = [] ∧
        (u.core core).tileOps = ((s.core core).tileOps.filter fun x => x.seq ≠ q.seq) ∧
        (u.team t.who.team).out = ((s.team t.who.team).complete .tl q.seq).out ∧
        (u.team t.who.team).reports = (s.team t.who.team).reports ∧
        (u.core core).tile q.tile = ((s.core core).tile q.tile).addQuarter q.quarter (s.quarterSegs core q).2) ∧
    ∀ (t : Tile) (n e : Nat) (segs : List A96) (v : A96), t.elems[e]? = some v → (t.addQuarter n segs).elems[e]? = some
      (if e / 256 = n ∧ e ∉ t.bad then encodeA96 (roundA96 (Val.add 0 (decodeA96 v) (decodeA96 (segs.getD (e % 256) 0))))
        else v)

/-! ## The clause array (chapter 12) -/

namespace Sys2Proof.Claims

/-- What an instruction of the holder that changes the array does to it; `none` where its operands are refused (R264–R268). -/
def cxChange (s : State) (a : CxArray) : Instr → Option (Option CxArray)
  | .cxLdc va xa col app =>
    let c := (s.ct.getX xa.toNat).toNat + col.toNat
    some (if va.toNat < s.cblock.vregs ∧ c < 2048 then
      (loadLits (if app then tget [] a.cols c else []) (litList (s.ct.getV va.toNat))).map fun l => { a with cols := tput [] a.cols c l }
    else none)
  | .cxDis xa col en =>
    let c := (s.ct.getX xa.toNat).toNat + col.toNat
    some (if c < 2048 then some { a with dis := tput false a.dis c (!en) } else none)
  | .cxAsg xa newl =>
    let e := (s.ct.getX xa.toNat).toNat
    let v := e % 512
    let neg := e.testBit 9
    let cl := if newl then a.cl + 1 else a.cl
    some (if a.conf = false ∧ e / 2 ^ 15 = 1 ∧ e / 2 ^ 10 % 2 ^ 5 = 0 ∧ tget 0 a.val v = 0 ∧ ¬(newl = true ∧ a.cl = 511) then
      some { a with
        cl := cl, val := tput 0 a.val v (if neg then 2 else 1), lvl := tput 0 a.lvl v cl,
        trail := a.trail ++ [trailEntry (if newl then 0 else 2) 0 cl.toNat neg v] }
    else none)
  | .cxBt xa lvl =>
    let l := lvl.toNat + (s.ct.getX xa.toNat).toNat
    some (if l ≤ a.cl.toNat then some (a.backtrack l) else none)
  | _ => none

/-- What an instruction of the holder that reads the array gives its team; `none` where its operands are refused (R269–R271). -/
def cxGives (s : State) (a : CxArray) : Instr → Option (Option (Team → Team))
  | .cxLvl all xd xa vd =>
    let r := (s.ct.getX xa.toNat).toNat
    some (if all then
      if vd.toNat < s.cblock.vregs then
        some fun t => t.setVIn vd.toNat t.em (BitVec.ofNat 2048 (a.val.foldl (fun r e => r + (e.2.toNat <<< (2 * e.1))) 0))
      else none
    else if r < 512 then some fun t => t.setX xd.toNat (BitVec.ofNat 64 ((tget 0 a.val r).toNat + (tget 0 a.lvl r).toNat * 4)) else none)
  | .cxTrl vd xd xa =>
    let i := (s.ct.getX xa.toNat).toNat
    some (if vd.toNat < s.cblock.vregs ∧ i < 512 then some fun t =>
      (t.setX xd.toNat (BitVec.ofNat 64 a.trail.length)).setVIn vd.toNat t.em (BitVec.ofNat 2048
        ((List.range 64).foldl (fun r j => r + ((a.trail.getD (i + j) 0).toNat <<< (32 * j))) 0))
    else none)
  | .cxCfl vd xd xa =>
    let i := (s.ct.getX xa.toNat).toNat
    let ls := ((tget [] a.cols a.ccol.toNat).filter fun l => i ≤ l.1).take 128
    some (if vd.toNat < s.cblock.vregs ∧ i < 512 then some fun t =>
      (t.setX xd.toNat (if a.conf then BitVec.ofNat 64 a.ccol.toNat else BitVec.allOnes 64)).setVIn vd.toNat t.em (BitVec.ofNat 2048
        (if a.conf then ((List.range ls.length).zip ls).foldl (fun r e => r + (litEntry e.2 <<< (16 * e.1))) 0 else 0))
    else none)
  | _ => none

end Sys2Proof.Claims

/-- The claim of the array is free to take, is kept by its holder, and otherwise gives 0 or a wait; the holder's instructions load,
assign, backtrack, read and free it, and any other team's are the operand trap; a failed array is the engine trap; a propagation
starts, and blocks its team or not; the status is 0 for others (R253, R257, R262–R272, R388). -/
def Obligations.ClauseArrayInstructions : Prop :=
  ∀ (s : State) (xd : BitVec 5) (keep : Bool), s.Ready →
    let q := s.quad (quadOfCore s.cur.core)
    let quiet (u : State) : Prop := u.teams = s.teams ∧ u.mem = s.mem
    (∀ w, q.owner = some s.ck → q.prop = none → ∃ u : State, s.CompletesAs (.cxClaim xd w) u ∧ u.ct = s.ct.setX xd.toNat 1 ∧
      (u.quad (quadOfCore s.cur.core)).owner = some s.ck ∧ (u.quad (quadOfCore s.cur.core)).cx = q.cx) ∧
    (∀ w, q.owner = none → q.claims = [] → s.returningHolder (quadOfCore s.cur.core) = none → ∃ u : State,
      s.CompletesAs (.cxClaim xd w) u ∧ u.ct = s.ct.setX xd.toNat 1 ∧ (u.quad (quadOfCore s.cur.core)).owner = some s.ck ∧
      (u.quad (quadOfCore s.cur.core)).cx = .empty) ∧
    (∀ k, q.owner = some k → k ≠ s.ck → s.Completes (.cxClaim xd false) (fun t => t.setX xd.toNat 0) ∧
      ∃ u : State, exec (.cxClaim xd true) s = .next (u.waitAt .cxClaim) ∧ quiet u ∧
        ∃ c ∈ (u.quad (quadOfCore s.cur.core)).claims, c.1 = s.ck) ∧
    (q.owner ≠ some s.ck → s.Completes (.cxSt xd) fun t => t.setX xd.toNat 0) ∧
    (q.owner = some s.ck → q.prop = none → s.Completes (.cxSt xd) (fun t => t.setX xd.toNat (cxStatus q.cx true)) ∧
      (∃ u : State, s.CompletesAs .cxFree u ∧ quiet u ∧ (u.quad (quadOfCore s.cur.core)).owner = none ∧
        (u.quad (quadOfCore s.cur.core)).cx = .empty) ∧
      (∃ u : State, s.CompletesAs (.cxClr keep) u ∧ quiet u ∧ (u.quad (quadOfCore s.cur.core)).owner = some s.ck ∧
        (u.quad (quadOfCore s.cur.core)).cx = if keep then
          { CxArray.empty with cols := q.cx.cols, dis := q.cx.dis, badCells := q.cx.badCells } else .empty)) ∧
    (q.owner ≠ some s.ck → s.Traps .cxFree 2 s.ct.active s.cur.base ∧ s.Traps (.cxClr keep) 2 s.ct.active s.cur.base ∧
      s.Traps (.cxProp xd keep) 2 s.ct.active s.cur.base) ∧
    (∀ i r, cxChange s q.cx i = some r →
      (q.owner ≠ some s.ck → s.Traps i 2 s.ct.active s.cur.base) ∧
      (q.owner = some s.ck → q.prop ≠ none → s.Waits i .cxProp) ∧
      (q.owner = some s.ck → q.prop = none → ∀ d, q.cx.failure = some d → s.Traps i 0xB s.ct.em d) ∧
      (q.owner = some s.ck → q.prop = none → q.cx.failure = none → (r = none → s.Traps i 2 s.ct.active s.cur.base) ∧
        ∀ a, r = some a → ∃ u : State, s.CompletesAs i u ∧ quiet u ∧ (u.quad (quadOfCore s.cur.core)).cx = a)) ∧
    (∀ i r, cxGives s q.cx i = some r →
      (q.owner ≠ some s.ck → s.Traps i 2 s.ct.active s.cur.base) ∧
      (q.owner = some s.ck → q.prop ≠ none → s.Waits i .cxProp) ∧
      (q.owner = some s.ck → q.prop = none → ∀ d, q.cx.failure = some d → s.Traps i 0xB s.ct.em d) ∧
      (q.owner = some s.ck → q.prop = none → q.cx.failure = none →
        (r = none → s.Traps i 2 s.ct.active s.cur.base) ∧ ∀ f, r = some f → s.Completes i f)) ∧
    (q.owner = some s.ck → q.prop = none → q.cx.failure = none → ∀ async, ∃ u : State,
      exec (.cxProp xd async) s = (if async then .next u.retire else .next (u.waitAt .cxProp)) ∧ quiet u ∧
      (u.quad (quadOfCore s.cur.core)).prop = some ⟨if async then none else some xd.toNat, s.ct.pc, s.clock, none, s.nextSeq, s.ct.em, s.ct.handler.isSome⟩)

/-- A free array goes, cleared, to the claimant that waited longest. A propagation ends 8 + 3 · S clocks after its issue: a blocking
one writes the status and falls through, an asynchronous one puts its result on the clause port of its core once there is room; a
blocking one whose array has failed is its engine failure. A sweep either finds the lowest false column or forces literals of columns that have one free literal and no true one
(R257, R259, R260, R267). -/
def Obligations.ClauseArrayEvents : Prop :=
  (∀ (s : State) (quad : Nat),
    let q := s.quad quad
    (q.owner ≠ none ∨ s.claimants quad = [] ∨ s.returningHolder quad ≠ none → exec (.cxClaimGrant quad) s = .next s) ∧
    (∀ k, q.owner = none → s.returningHolder quad = none → nextClaim (s.claimants quad) = some k → ∃ u : State,
      exec (.cxClaimGrant quad) s = .next u ∧ (u.quad quad).owner = some k ∧ (u.quad quad).cx = .empty ∧
      (∀ c ∈ (u.quad quad).claims, c.1 ≠ k) ∧ u.teams = s.teams) ∧
    (∀ p k, q.prop = some p → q.owner = some k → p.ended = none →
      let n := 8 + 3 * q.cx.prop.sweeps.toNat
      (s.clock < p.issued + n → q.cx.failure = none → exec (.cxPropRetire quad) s = .next s) ∧
      (∀ d e w, p.xd = some d → q.cx.failure = some e → (s.team k).wait = some w → w.kind = .cxProp → (s.team k).pc = p.pc →
        exec (.cxPropRetire quad) s = .next ((s.modQuad quad fun q => { q with prop := none }).raise k 0xB p.mask e p.pc false)) ∧
      (p.issued + n ≤ s.clock → q.cx.failure = none →
        (p.xd = none → ∃ u : State, exec (.cxPropRetire quad) s = .next u ∧ (u.quad quad).cx = q.cx.prop ∧ u.teams = s.teams ∧
          (u.quad quad).prop = some { p with ended := some s.clock }) ∧
        ∀ d w, p.xd = some d → (s.team k).wait = some w → w.kind = .cxProp → (s.team k).pc = p.pc → s.hasTeam k = true →
          (∀ c, (s.team k).mon ≠ .step true c) → ∃ u : State, exec (.cxPropRetire quad) s = .next u ∧ (u.quad quad).cx = q.cx.prop ∧
            (u.quad quad).prop = none ∧ (u.team k).pc = p.pc + 8 ∧ (u.team k).wait = none ∧
            (u.team k).x = ((s.team k).setX d (cxStatus q.cx.prop true)).x)) ∧
    (∀ p k, q.prop = some p → q.owner = some k → p.xd = none →
      (p.ended = none ∨ 8 ≤ (s.core (coreOf k)).clause.length → exec (.cxPropResultPlace quad) s = .next s) ∧
      (p.ended ≠ none → (s.core (coreOf k)).clause.length < 8 → ∃ u : State, exec (.cxPropResultPlace quad) s = .next u ∧
        (u.quad quad).prop = none ∧ u.teams = s.teams ∧ (u.core (coreOf k)).clause = (s.core (coreOf k)).clause ++
          [⟨s.ctxOf k, BitVec.ofNat 2048 ((cxStatus q.cx true).toNat + p.pc.toNat * 2 ^ 64), k⟩]))) ∧
  ∀ (a : CxArray) (ls : List Lit) (l : Lit),
    (a.conf = true → a.prop = { a with sweeps := 0, nforce := 0 }) ∧
    (∀ c, a.conf = false → a.failedCol = some c →
      a.prop = { a with sweeps := 1, nforce := 0, conf := true, ccol := BitVec.ofNat 11 c }) ∧
    (a.conf = false → a.failedCol = none → (∀ c ∈ a.taking, a.forces c.2 = none) → a.prop = { a with sweeps := 1, nforce := 0 }) ∧
    (ls.Nodup → (a.forces ls = some l ↔ l ∈ ls ∧ a.litFree l = true ∧ ∀ m ∈ ls, m ≠ l → a.litFalse m = true)) ∧
    (∀ c, a.failedCol = some c → ∃ ls, (c, ls) ∈ a.taking ∧ ∀ m ∈ ls, a.litFalse m = true)

/-! ## Engines (chapters 10, 13, 14) -/

/-- An idle copy engine takes its oldest command, once the stores that its team may have seen are at their homes (R298); a card whose
fields or images are bad is not carried out, with STAT 1 or 2. A performed card with no strip and no doorbell to come ends: its
stalls go back to their teams, its completion record goes where CSEL asks, waiting for room, its counter falls, and a failure is a
notice. A strip goes to its stream when there is room. A doorbell that the host refuses is STAT 7 (R224, R231–R234, R377, R378).
The model's choices in it: log 28, 48. -/
def Obligations.CopyEngineEvents : Prop :=
  ∀ (s : State) (core eng : Nat), eng < 2 →
    let x := s.engOf core eng
    (x.cur ≠ none ∨ x.cmds = [] → exec (.copyCommandStart core eng) s = .next s) ∧
    (∀ c cs, x.cmds = c :: cs → s.dieStoresOver core c.seq = false → exec (.copyCommandStart core eng) s = .next s) ∧
    (∀ c cs, x.cur = none → x.cmds = c :: cs → s.dieStoresOver core c.seq = true → (cardOf c.data).kind ≠ 7 ∨ (cardOf c.data).reserved = true →
      ∃ u r, exec (.copyCommandStart core eng) s = .next u ∧ u.teams = s.teams ∧ u.mem = s.mem ∧
        (u.engOf core eng).cmds = cs ∧ (u.engOf core eng).cur = some r ∧ r.cmd = c ∧ r.handed = false ∧
        ((cardOf c.data).reserved = true → r.performed = true ∧ r.stat = 1) ∧
        ((cardOf c.data).reserved = false → ∀ l, (cardOf c.data).badImage (s.core core) c.who.ctx = some l →
          r.performed = true ∧ r.stat = 2 ∧ r.loc = l) ∧
        ((cardOf c.data).reserved = false → (cardOf c.data).badImage (s.core core) c.who.ctx = none → r.performed = false ∧ r.stat = 0)) ∧
    (x.cur = none → exec (.copyCommandEnd core eng) s = .next s ∧ exec (.stripAppend core eng) s = .next s ∧
      exec (.nvmeDoorbellWrite core eng true) s = .next s) ∧
    (∀ r, x.cur = some r → r.performed = true →
      let c := cardOf r.cmd.data
      let rec_ := BitVec.ofNat 2048 (c.tag + r.stat * 2 ^ 16 + r.flags.toNat * 2 ^ 24 + r.count % 2 ^ 64 * 2 ^ 64
        + r.cmd.who.pc.toNat * 2 ^ 128)
      (r.strips ≠ [] ∨ r.doorbell = true → exec (.copyCommandEnd core eng) s = .next s) ∧
      (r.strips = [] → r.doorbell = false → (c.csel ≠ 1 ∨ x.cpl.length < 16) → r.stat = 0 → s.hasTeam r.cmd.who.team = true →
        ∃ u : State, exec (.copyCommandEnd core eng) s = .next u ∧ u.mem = s.mem ∧ (u.engOf core eng).cur = none ∧
          (u.engOf core eng).cmds = x.cmds ∧ (u.engOf core eng).completed = x.completed + 1 ∧
          (u.engOf core eng).cpl = x.cpl ++ (if c.csel = 1 then [⟨r.cmd.who.ctx, rec_, r.cmd.who.team⟩] else []) ∧
          (u.team r.cmd.who.team).out = ((s.team r.cmd.who.team).complete .cp r.cmd.seq).out ∧
          (u.team r.cmd.who.team).x = (s.team r.cmd.who.team).x) ∧
      (∀ st rest, r.strips = st :: rest → c.toStream = true → (s.core core).mx.room c = true → s.otherAppends core eng c = false →
        ∃ u : State, exec (.stripAppend core eng) s = .next u ∧ u.teams = s.teams ∧ u.mem = s.mem ∧
          (u.engOf core eng).cur = some { r with strips := rest, appending := true } ∧
          (u.core core).mx = (s.core core).mx.append c st) ∧
      (r.strips ≠ [] → c.toStream = true → ((s.core core).mx.room c = false ∨ s.otherAppends core eng c = true) →
        exec (.stripAppend core eng) s = .next s) ∧
      (r.doorbell = true → ∀ u pa key mt cmp,
        s.locate (workerOf core eng r.cmd) false .write (8 * c.dba) 32 = (u, .ok [.out pa key mt cmp 0 32 0]) → homeOf pa = .host →
        (∃ v : State, exec (.nvmeDoorbellWrite core eng false) s = .next v ∧
          (v.engOf core eng).cur = some { r with doorbell := false, stat := 7, loc := c.dba } ∧ v.outs = u.outs) ∧
        ∃ (v : State) (b : List Byte), exec (.nvmeDoorbellWrite core eng true) s = .next v ∧ b.length = 4 ∧
          v.outs = .host (u.vfOf r.cmd.who.ctx) false 0 (pa - 2 ^ 51) (.write b) :: u.outs ∧ (c.dbv < 2 ^ 32 → b = bytesOf 4 c.dbv) ∧
          (v.engOf core eng).cur.map CopyRun.doorbell = some false)) ∧
    ∀ (m : Matrix) (c : Card) (st : Strip) (i : Nat), (m.append c st).a = (if c.dcls = 2 then
        tins m.a (c.dst % 4) { m.streamA (c.dst % 4) with strips := (m.streamA (c.dst % 4)).strips ++ [st] } else m.a) ∧
      ((m.append c st).streamA i).head = (m.streamA i).head

/-- An update engine that is free takes the job of the highest priority, checks it, and publishes STATE; each record advances the
cursor, at once where the control block lies in the package; a staged job waits for its commit or drop, which `ujob.commit` and `ujob.drop` ask for, and a request for no job is a notice
(R246–R251, R384, R385). An offload command with no entry only adds to DONE, in a later event where DONE is outside the package,
and a bad one is a notice (R244, R245, R306, R390). An
ostler command register begins when the core has none in progress, and ends, with its results in place, when its records are over
and the result port has room (R252).
The model's choices in it: log 37, 53, 54, 56. -/
def Obligations.JobEngineEvents : Prop :=
  (∀ (s : State) (xa : BitVec 5), s.Ready →
    let a := (s.ct.getX xa.toNat).toNat
    (a % 64 ≠ 0 ∨ 2 ^ 56 ≤ a → s.Traps (.ujobCommit xa) 2 s.ct.active s.cur.base ∧ s.Traps (.ujobDrop xa) 2 s.ct.active s.cur.base) ∧
    (a % 64 = 0 → a < 2 ^ 56 → s.storesDone s.ck = false →
      let w := WaitKind.memory (s.openOps s.ck fun o => o.parts.any Part.writes) true
      s.Waits (.ujobCommit xa) w ∧ s.Waits (.ujobDrop xa) w) ∧
    (a % 64 = 0 → a < 2 ^ 56 → s.storesDone s.ck = true →
      (s.jobAt s.cctx a = none → s.CompletesAs (.ujobCommit xa) (s.jobNotice s.issuer 5 a) ∧
        s.CompletesAs (.ujobDrop xa) (s.jobNotice s.issuer 5 a)) ∧
      ∀ die j, s.jobAt s.cctx a = some (die, j) →
        s.CompletesAs (.ujobCommit xa) (s.modJob die j.cmd.seq fun x => { x with reqs := x.reqs ++ [⟨false, s.issuer⟩] }) ∧
        s.CompletesAs (.ujobDrop xa) (s.modJob die j.cmd.seq fun x =>
          { x with reqs := if x.state = 3 then x.reqs ++ [⟨true, s.issuer⟩]
              else x.reqs.takeWhile JobReq.drop ++ ⟨true, s.issuer⟩ :: x.reqs.dropWhile JobReq.drop }))) ∧
  (∀ (s : State) (die : Nat),
    ((s.die die).running ≠ none ∨ s.waitingJobs die = [] → exec (.ujobTake die) s = .next s) ∧
    (∀ j, (s.die die).running = none → pickJob (s.waitingJobs die) = some j →
      (j.state = 2 → j.dropped = false → exec (.ujobTake die) s = .next (s.startJob die j j.cursor)) ∧
      (j.state = 2 → j.dropped = true → exec (.ujobTake die) s = .next (s.finishJob die { j with reqs := j.reqs.drop 1 } 5)) ∧
      (j.state ≠ 2 → j.ctrl % 64 ≠ 0 → exec (.ujobTake die) s = .next ((s.endJob die j).jobNotice j.cmd.who 1 j.ctrl)) ∧
      (j.state ≠ 2 → j.ctrl % 64 = 0 → ∀ u bs a, s.devRead (jobActor j.cmd.who.ctx j.cmd.seq) .rmw j.ctrl 64 = (u, .ok bs, a) →
        bitsOf (ofBytes bs) 64 8 = 0 → j.cardBad = false → j.reqs = [] → u.bytesAt j.actor j.before .rmw j.ctrl bs = bs →
        let c := bitsOf (ofBytes bs) 0 64
        exec (.ujobTake die) s = .next (u.startJob die { j with cursor := c } c))) ∧
    ((s.die die).running = none → exec (.ujobRecordComplete die) s = .next s) ∧
    (∀ n j, (s.die die).running = some n → ((s.die die).jobs.find? fun j => j.cmd.seq = n) = some j → j.cursor < j.nrec →
      ∀ u w v out, s.readShard j j.cursor = (u, .ok w) → urecBad w = false → u.stageRecord j j.cursor (urecOf w) = (v, .ok out) →
        let kept := v.modJob die j.cmd.seq fun x => { x with shards := tins x.shards j.cursor (w, out) }
        tfind j.shards j.cursor = none →
        (kept.releasedHere j.actor j.ctrl = false → exec (.ujobRecordComplete die) s = .next kept) ∧
        ∀ z bs a, kept.releasedHere j.actor j.ctrl = true →
          kept.devWrite j.actor j.ctrl (bytesOf 8 (j.cursor + 1) ++ [1]) = (z, .ok bs, a) →
          exec (.ujobRecordComplete die) s = .next ((z.modJob die
            j.cmd.seq fun j' => { j' with cursor := j.cursor + 1 }).afterRecord die { j with cursor := j.cursor + 1 })) ∧
    (∀ (j : Job) (st : Nat) (v : State) (r : DevRes) (a : Nat), (s.ctx j.cmd.who.ctx).posted = [] →
      s.devWrite (jobActor j.cmd.who.ctx j.cmd.seq) j.ctrl (bytesOf 8 j.cursor ++ [BitVec.ofNat 8 st]) = (v, r, a) →
      (∀ bs, r = .ok bs → s.finishJob die j st = v.endJob die j) ∧
      ∀ x, r = .noXlate x → s.finishJob die j st = (v.endJob die j).jobNotice j.cmd.who 3 j.ctrl) ∧
    ((∀ x ∈ (s.die die).jobs, x.due = none) →
      ((s.die die).dueReq false = none → exec (.ujobCommitPublish die) s = .next s) ∧
      ∀ j w, (s.die die).dueReq false = some (j, w) →
        exec (.ujobCommitPublish die) s = .next (s.commitJob die { j with reqs := j.reqs.drop 1 } w)) ∧
    (∀ j st, ((s.die die).jobs.findSome? fun x => x.due.map fun e => (x, e)) = some (j, ⟨st, none⟩) →
      exec (.ujobCommitPublish die) s = .next (s.finishJob die j st)) ∧
    ((s.die die).dueReq true = none → exec (.ujobDropApply die) s = .next s) ∧
    (∀ j w, (s.die die).dueReq true = some (j, w) →
      exec (.ujobDropApply die) s = .next (s.finishJob die { j with reqs := j.reqs.drop 1 } 5))) ∧
  (∀ (s : State) (iod : Nat) (host : List (List Byte)) (err : Option Nat), iod < 2 →
    ((s.die (4 + iod)).offl = [] → exec (.offloadCommand iod host err) s = .next s) ∧
    ∀ c cs, (s.die (4 + iod)).offl = c :: cs →
      let x := ocmdOf c.data
      let t := s.modDie (4 + iod) fun d => { d with offl := cs, offlDue := none }
      let a := offloadActor c.who.ctx c.seq
      ((s.die (4 + iod)).offlDue = some c.seq → exec (.offloadCommand iod host err) s = .next (t.offloadDone iod c)) ∧
      ((s.die (4 + iod)).offlDue ≠ some c.seq → 3 ≤ x.opc ∨ x.list % 32 ≠ 0 ∨ x.opc = 1 ∧ x.rlist % 32 ≠ 0 ∨ x.done % 8 ≠ 0 →
        exec (.offloadCommand iod host err) s = .next (t.engineNotice c.who (5 + iod) 1 0)) ∧
      ((s.die (4 + iod)).offlDue ≠ some c.seq → x.opc < 3 → x.list % 32 = 0 → (x.opc = 1 → x.rlist % 32 = 0) → x.done % 8 = 0 →
        x.nent = 0 →
        (x.done = 0 → exec (.offloadCommand iod host err) s = .next t) ∧
        (x.done ≠ 0 → t.releasedHere a x.done = true → exec (.offloadCommand iod host err) s = .next (t.offloadDone iod c)) ∧
        (x.done ≠ 0 → t.releasedHere a x.done = false → exec (.offloadCommand iod host err) s =
          .next (t.modDie (4 + iod) fun d => { d with offl := c :: d.offl, offlDue := some c.seq }))) ∧
      (x.done ≠ 0 → (t.ctx c.who.ctx).posted = [] → ∀ u bs, t.devAddOne a x.done = (u, .ok bs) → t.offloadDone iod c = u)) ∧
  ∀ (s : State) (core : Nat),
    ((s.core core).ostcRun = none → exec (.ostcCommand core) s = .next (s.ostcStart core)) ∧
    ((s.core core).ostc = [] → s.ostcStart core = s) ∧
    ∀ r, (s.core core).ostcRun = some r →
      let mine (o : MemOp) : Bool := o.ostc.any fun x => x.1 = r.cmd.seq
      ((s.ops.any fun o => mine o && !o.performed) = true ∨ 4 ≤ (s.core core).ostr.length → exec (.ostcCommand core) s = .next s) ∧
      ((s.ops.any fun o => mine o && !o.performed) = false → (s.core core).ostr.length < 4 →
        ∃ u : State, exec (.ostcCommand core) s = .next u.pump ∧ (u.core core).ostcRun = none ∧ u.teams = s.teams ∧ u.mem = s.mem ∧
          u.ops = (s.ops.filter fun o => !mine o) ∧ (u.core core).ostr = (s.core core).ostr ++ [⟨r.cmd.who.ctx, BitVec.ofNat 2048
            (r.reasons.zipIdx.foldl (fun a e => a + s.ostResult r.cmd e.1 e.2 * 2 ^ (256 * e.2)) 0), r.cmd.who.team⟩])

/-! ## Residency, pre-emption and exceptions in the background (chapters 02, 16, 19) -/

/-- A free issue slot takes the oldest ready team that has not been served, and none that has begun two holds while another ready
team waits. A block whose teams wait parks when another is ready,
unless it is promised, and comes back when one of its teams is ready and its registers are free. Teams chosen for eviction leave
once all of them may, and come back oldest first; a function gives way to the next in the same manner (R42–R46, R48, R315).
The model's choices in it: log 32, 46, 62, 63. -/
def Obligations.ResidencyEvents : Prop :=
  (∀ (s : State) (core slot : Nat),
    let mayHold := (s.candidates core).filter fun k => !s.mustWait k
    (∀ x k, (s.core core).slots[slot]? = some x → x.team = some k → exec (.issueSlotChoice core slot) s = .next s) ∧
    (∀ x k, (s.core core).slots[slot]? = some x → x.team = none →
      s.oldest ((mayHold.filter fun k => !(s.team k).served)) = some k →
      ∃ u : State, exec (.issueSlotChoice core slot) s = .next u ∧ (u.core core).slots[slot]? = some ⟨some k, 0, none, false⟩ ∧
        (∀ j, j ≠ k → u.team j = s.team j) ∧ (u.team k).pc = (s.team k).pc ∧ u.mem = s.mem) ∧
    (∀ x k, (s.core core).slots[slot]? = some x → x.team = none → (mayHold.filter fun k => !(s.team k).served) = [] →
      let v := { s with teams := tmap (fun k t => if coreOf k = core then { t with served := false } else t) s.teams }
      v.oldest (mayHold.filter fun k => some k ≠ x.capped) = some k →
      ∃ u : State, exec (.issueSlotChoice core slot) s = .next u ∧ (u.core core).slots[slot]? = some ⟨some k, 0, none, false⟩ ∧
        u.teams = v.teams ∧ u.mem = s.mem) ∧
    let b := core * 32 + slot
    ((s.block b).st ≠ .bound ∨ s.isPromised b = true ∨ s.parkable b = false ∨
        (∀ c ∈ s.coreBlocks core, c ≠ b → ∀ k ∈ s.blockTeams c, s.ready k = false) → exec (.parkBlock core slot) s = .next s) ∧
    ((s.block b).st = .bound → s.isPromised b = false → s.parkable b = true →
      (∃ c ∈ s.coreBlocks core, c ≠ b ∧ ∃ k ∈ s.blockTeams c, s.ready k = true) → ∃ u : State,
      exec (.parkBlock core slot) s = .next u ∧ (u.block b).st = .parked ∧ (∀ k, (u.team k).x = (s.team k).x ∧ (u.team k).v = (s.team k).v ∧
        (u.team k).pc = (s.team k).pc) ∧ (∀ c, c ≠ b → u.block c = s.block c) ∧ u.mem = s.mem) ∧
    ((s.block b).st ≠ .parked ∨ s.regsFree core < s.parkedRegs b ∨
        (s.isPromised b = false ∧ ∀ k ∈ s.blockTeams b, s.wakes k = false) → exec (.unparkBlock core slot) s = .next s) ∧
    ((s.block b).st = .parked → (s.block b).stalls = none → s.switchedOut (s.block b).ctx = false → s.parkedRegs b ≤ s.regsFree core →
      (s.isPromised b = true ∨ ∃ k ∈ s.blockTeams b, s.wakes k = true) → s.outranked b = false → (∀ k ∈ s.present b, (s.team k).frameBad = false) →
      ∃ u : State, exec (.unparkBlock core slot) s = .next u ∧ (u.block b).st = .bound ∧ u.teams = s.teams ∧ u.mem = s.mem)) ∧
  (∀ (s : State) (core ctx lnh : Nat) (l : Launch) (promised : Bool) (bs ks : List Nat), core < 256 →
    (s.wanted core = none → s.incoming (dieOfCore core) = some (ctx, lnh, l, promised) → (s.coreBlocks core).length < 32 →
      s.planOf core = (s.evictionPlan core l.rcd (s.victims core l promised)).map fun p => (ctx, lnh, p.1, p.2)) ∧
    (∀ b, s.wanted core = some b → s.isPromised b = true ∧
      s.planOf core = (s.returnPlan b).map fun p => ((s.block b).ctx, (s.block b).lnh, p.1, p.2)) ∧
    ((∀ p, s.planOf core ≠ some (ctx, lnh, p)) → exec (.evictTeams core ctx lnh) s = .next s) ∧
    (s.planOf core = some (ctx, lnh, bs, ks) → (∀ k ∈ ks, s.evictable k = true) →
      exec (.evictTeams core ctx lnh) s = .next (bs.foldl (fun s b => s.saveStalls b)
        (ks.foldl (fun s k => s.evictTeam k) (s.markPreempt core [])))) ∧
    (s.planOf core = some (ctx, lnh, bs, ks) → (∃ k ∈ ks, s.evictable k = false) → ∃ u : State,
      exec (.evictTeams core ctx lnh) s = .next u ∧ u.mem = s.mem ∧ ∀ k ∈ ks, coreOf k = core → s.hasTeam k = true →
        (u.team k).preempt = ((s.team k).preempt <|> some s.clock) ∧ (u.team k).place = (s.team k).place ∧
        (u.team k).x = (s.team k).x)) ∧
  (∀ (s : State) (k : Nat), s.hasTeam k = true → ((s.evictTeam k).team k).place = .evicted ∧
    ((s.evictTeam k).team k).preempt = none ∧ ((s.evictTeam k).team k).x = (s.team k).x ∧ ((s.evictTeam k).team k).v = (s.team k).v ∧
    ((s.evictTeam k).team k).pc = (s.team k).pc ∧ ((s.evictTeam k).team k).tiles = [] ∧
    ((s.evictTeam k).team k).tileSave = (s.team k).tiles.map fun e =>
      ⟨e.1, ((s.core (coreOf k)).tile e.2).tid, ((s.core (coreOf k)).tile e.2).elems, ((s.core (coreOf k)).tile e.2).bad⟩) ∧
  (∀ (s : State) (t : TeamId),
    let k := teamIdKey t
    let back := s.returners (coreOf k) fun _ => false
    (k ∉ back ∨ s.oldest back ≠ some k ∨ s.regsFree (coreOf k) < s.regsOf k → exec (.evictedTeamReturn t) s = .next s) ∧
    (k ∈ back → s.oldest back = some k → s.regsOf k ≤ s.regsFree (coreOf k) →
      (s.team k).frameBad = false → (s.team k).tileSave = [] → (s.team k).cxSave = none →
      (s.block (blockKeyOf k)).st ≠ .empty → ∃ u : State,
      exec (.evictedTeamReturn t) s = .next u ∧ (u.team k).place = .resident ∧ (u.team k).fault = none ∧ (u.team k).x = (s.team k).x ∧
        (u.team k).v = (s.team k).v ∧ (u.team k).pc = (s.team k).pc ∧ (u.block (blockKeyOf k)).st = .bound ∧ u.mem = s.mem)) ∧
  ∀ s : State,
    let next := s.vfNext.getD s.nextVf
    let due := s.vfNext ≠ none ∨ next ≠ s.activeVf ∧ (s.activeVf = 0 ∨ s.vfWaiting s.activeVf = false ∨
      s.sliceAt + s.regs.vfslice.toNat * 1700 ≤ s.clock)
    let out := (tkeys s.teams).filter fun k => s.vfOf (s.ctxOf k) ≠ 0 && s.vfOf (s.ctxOf k) = s.activeVf &&
      (s.team k).place = .resident && !(s.team k).ended
    (¬due → exec .vfSliceSwitch s = .next s) ∧
    (due → (∀ k ∈ out, s.evictable k = true) → ∃ u : State, exec .vfSliceSwitch s = .next u ∧ u.activeVf = next ∧ u.vfNext = none ∧
      u.sliceAt = s.clock) ∧
    (due → (∃ k ∈ out, s.evictable k = false) → ∃ u : State, exec .vfSliceSwitch s = .next u ∧ u.activeVf = s.activeVf ∧
      u.vfNext = some next ∧ u.mem = s.mem)

/-- A miss of the TLBs is walked and filled. A translation fault that may be swapped takes its team off the core at a precise point
and is recorded; after RESP 00 its walks are made again, and a team whose pages are present is restored. A deferred report is
delivered before an instruction that needs it. Records are written as room allows, and RESP is read back. A handler that lets a
pre-emption wait too long, and a wait of 2^31 clocks, are reported (R47, R103, R342, R344, R345, R354, R356).
The model's choices in it: log 13, 16, 37, 61. -/
def Obligations.FaultEvents : Prop :=
  (∀ (s : State) (core ctx va : Nat) (acc : Acc),
    (2 ^ 56 ≤ va ∨ (s.ctx ctx).en = false ∨ s.tlbHit core ctx va = true → exec (.pageWalk core ctx va acc) s = .next s) ∧
    (va < 2 ^ 56 → (s.ctx ctx).en = true → s.tlbHit core ctx va = false →
      exec (.pageWalk core ctx va acc) s = .next (s.walkFill core (walkerActor ctx core) va acc).1)) ∧
  (∀ (s : State) (t : TeamId),
    let k := teamIdKey t
    let x := s.team k
    (x.fault = none → exec (.translationFaultSwap t) s = .next s ∧ exec (.replayRetry t) s = .next s) ∧
    (∀ f, x.fault = some f → s.hasTeam k = true → f.stage = .swapping → x.precise = true → x.place = .resident →
      (x.count .st ≠ 0 → exec (.translationFaultSwap t) s = .next s) ∧ (x.count .st = 0 → ∃ u : State, exec (.translationFaultSwap t) s = .next u ∧
        ((u.ctx (s.ctxOf k)).killed = false → (u.team k).place = .swapped ∧ (u.team k).x = x.x ∧ (u.team k).v = x.v ∧
          (u.team k).pc = x.pc ∧ ∃ g, (u.team k).fault = some g ∧ g.detail = f.detail ∧ g.mask = f.mask ∧
            (g.stage = .recording ∨ g.stage = .waiting)))) ∧
    (∀ f, x.fault = some f → s.hasTeam k = true → f.stage = .retry → ∀ u, s.retryAll k (f.retries x.pc) = (u, []) →
      u.hasTeam k = true →
      ∃ v : State, exec (.replayRetry t) s = .next v ∧ (v.team k).fault = some { f with stage := .present } ∧ v.mem = u.mem) ∧
    (x.place ≠ .swapped ∨ (∃ f, x.fault = some f ∧ f.stage ≠ .present) → exec (.swapRestore t) s = .next s) ∧
    (s.hasTeam k = true → x.place = .swapped → x.hold = none → (∀ f, x.fault = some f → f.stage = .present) →
      (s.block (blockKeyOf k)).st = .bound → s.regsOf k ≤ s.regsFree (coreOf k) →
      (s.core (coreOf k)).tiles.length + x.tileSave.length ≤ 16 → s.outranked (blockKeyOf k) = false → x.frameBad = false →
      x.tileSave = [] → ∃ u : State, exec (.swapRestore t) s = .next u ∧ (u.team k).place = .resident ∧ (u.team k).fault = none ∧
        (u.team k).pc = x.pc ∧ (u.team k).x = x.x ∧ (u.team k).v = x.v ∧ u.mem = s.mem) ∧
    (x.reports = [] ∨ s.ready k = false ∨ s.acquiring k ≠ none → exec (.deferredReport t) s = .next s) ∧
    (∀ ws d u, s.hasTeam k = true → x.reports ≠ [] → s.ready k = true → s.acquiring k = none → s.fetchAt k = (u, .ok ws) → decodeWords ws = .ok d →
      (∀ r, u.reportDue k (x.begin d.pb) d.instr = some r → exec (.deferredReport t) s = .next (u.deliver k r)) ∧
      (u.reportDue k (x.begin d.pb) d.instr = none → exec (.deferredReport t) s = .next u)) ∧
    (∀ (y : Team) (i : Instr) (r : Report) (rs : List Report), y.handler = none → y.reports = r :: rs →
      (i = .exit ∨ ∃ q ∈ y.reports, q.due = true ∨ q.cause = 0xA ∨ waitcNeeds y q i = true) → s.reportDue k y i = some r) ∧
    (x.preempt = none ∨ x.handler = none → exec (.handlerTimeout t) s = .next s) ∧
    (∀ c h, x.preempt = some c → x.handler = some h → s.hasTeam k = true →
      let us := ((s.launchOf? k).map fun l => l.rcd.htmo).getD 0
      (s.clock < c + (if us = 0 then 100 else us) * 1700 → exec (.handlerTimeout t) s = .next s) ∧
      (c + (if us = 0 then 100 else us) * 1700 ≤ s.clock → exec (.handlerTimeout t) s =
        .next (s.fatal (s.ctxOf k) (s.recOf k 0x11 kindFatal x.pc h.entry x.active false)))) ∧
    (x.wait = none → exec (.longStall t) s = .next s) ∧
    (∀ w n, x.wait = some w → w.kind.stallNum = some n → s.hasTeam k = true →
      (w.noted = true ∨ s.clock < w.since + 2 ^ 31 → exec (.longStall t) s = .next s) ∧
      (w.noted = false → w.since + 2 ^ 31 ≤ s.clock → exec (.longStall t) s =
        .next ((s.modTeam k fun t => { t with wait := some { w with noted := true } }).notice (s.ctxOf k)
          (s.recOf k 0x14 kindNotice x.pc (BitVec.ofNat 64 n) x.active false))))) ∧
  ∀ (s u : State) (ctx entry : Nat) (e : TqEntry) (bs : List Byte) (a : Nat),
    ((s.ctx ctx).pending = [] → exec (.trapRecordWrite ctx) s = .next s) ∧
    (∀ r rs v, (s.ctx ctx).pending = r :: rs → s.pollForRoom ctx = (v, .none) → (v.ctx ctx).freeEntries < 5 →
      exec (.trapRecordWrite ctx) s = .next v) ∧
    (∀ r rs v, (s.ctx ctx).pending = r :: rs → s.tryRecord ctx r = (v, true) → (v.ctx ctx).killed = false → r.kind ≠ kindReplayable →
      exec (.trapRecordWrite ctx) s = .next (v.modCtx ctx fun c => { c with pending := rs })) ∧
    (((s.ctx ctx).entries.find? fun e => e.idx = entry) = none → exec (.trapQueuePoll ctx entry) s = .next s) ∧
    (((s.ctx ctx).entries.find? fun e => e.idx = entry) = some e →
      s.devRead (s.trapActor ctx) .rmw ((s.ctx ctx).trapq.toNat + 32 * entry) 32 = (u, .ok bs, a) →
      let t := u.modCtx ctx fun c => { c with entries := c.entries.filter fun x => x.idx ≠ entry }
      (bitOf (ofBytes bs) 79 = true → exec (.trapQueuePoll ctx entry) s = .next u) ∧
      (bitOf (ofBytes bs) 79 = false → e.kind ≠ kindReplayable → exec (.trapQueuePoll ctx entry) s = .next t) ∧
      (bitOf (ofBytes bs) 79 = false → e.kind = kindReplayable → e.hasTeam = true → u.hasTeam e.team = true → u.ctxOf e.team = ctx →
        ∀ f, (u.team e.team).fault = some f → f.stage = .waiting →
        (bitsOf (ofBytes bs) 77 2 = 0 → exec (.trapQueuePoll ctx entry) s =
          .next (t.modTeam e.team fun t => { t with fault := some { f with stage := .retry } })) ∧
        (bitsOf (ofBytes bs) 77 2 ≠ 0 → exec (.trapQueuePoll ctx entry) s =
          .next (t.fatal ctx (t.faultRec e.team kindFatal f)))))

/-! ## Contexts, registers, the monitor (chapters 15–18) -/

/-- A context whose record has EN set takes its fields and its routines; cleared, its work ends. A TLB invalidation is asked for,
refused to another function, and completes once nothing is in flight, with its entries gone. Writes of BAR 0 reach registers, clamped
where a range is stated, and measurements are extended; a session loads keys; a device reset clears the machine and runs only what
verifies (R106, R213, R314, R316, R317, R321, R330–R332).
The model's choices in it: log 24, 38, 39, 40, 58, 86. -/
def Obligations.ContextAndRegisterEvents : Prop :=
  (∀ (s : State) (ctx : Nat), ctx < 64 →
    let pa := s.regs.ctxtBase.toNat + 128 * ctx
    let r := s.rdNat 0 pa 128
    ((s.ctx ctx).en = true ∨ s.boot ≠ .running → exec (.contextEnable ctx) s = .next s) ∧
    ((s.ctx ctx).en = false → exec (.contextDisable ctx) s = .next s) ∧
    (homeOf pa = .reserved → exec (.contextEnable ctx) s = .next s ∧ exec (.contextDisable ctx) s = .next s) ∧
    ((s.ctx ctx).en = false → s.boot = .running → isMem pa = true →
      (r.testBit 0 = false ∨ s.runFailed pa 128 ≠ none → exec (.contextEnable ctx) s = .next s) ∧
      (r.testBit 0 = true → s.runFailed pa 128 = none →
        let t := s.modCtx ctx fun c => ctxOfRecord r c
        ((s.ctx ctx).world = r.testBit 13 → exec (.contextEnable ctx) s = .next
          ((List.range 8).foldl (fun s k => s.loadRoutine ctx k) t)) ∧
        ((s.ctx ctx).world ≠ r.testBit 13 → exec (.contextEnable ctx) s = .next ((List.range 8).foldl (fun s k => s.loadRoutine ctx k)
          (t.freeVal.2.extendMeas 4 (BitVec.ofNat 256 t.freeVal.1)))))) ∧
    ((s.ctx ctx).en = true → isMem pa = true →
      (r.testBit 0 = true ∨ s.runFailed pa 128 ≠ none → exec (.contextDisable ctx) s = .next s) ∧
      (r.testBit 0 = false → s.runFailed pa 128 = none → ∃ u : State, exec (.contextDisable ctx) s = .next u ∧ (u.ctx ctx).en = false ∧
        (tsorted 0 s.teams = true → ∀ k, u.hasTeam k = true ↔ s.hasTeam k = true ∧ s.ctxOf k ≠ ctx)))) ∧
  (∀ (r : Nat) (old : Ctx),
    let c := ctxOfRecord r old
    let w (lo : Nat) : Word := BitVec.ofNat 64 (r / 2 ^ lo)
    c.en = true ∧ c.world = r.testBit 13 ∧ c.vf = r / 2 ^ 8 % 2 ^ 5 ∧ c.cgrant = r.testBit 14 ∧ c.fgrant = r.testBit 15 ∧
    c.ptroot = w 512 ∧ c.qtable = w 576 ∧ c.rtable = w 640 ∧ c.shadow = w 704 ∧ c.ostrt = w 768 ∧ c.tring = w 832 ∧
    c.watch = w 896 ∧ c.trapq = w 960 ∧ c.killed = false ∧ c.launches = [] ∧ c.binds = [] ∧ c.bps = old.bps) ∧
  (∀ (s : State) (fn : Nat) (v : Word), fn ≤ 16 →
    let t := s.tlbi fn
    let c := t.ctx.toNat % 64
    (t.busy = true → exec (.tlbiCtl fn v) s = .next s) ∧
    (t.busy = false → v.getLsbD 0 = false → ∃ u : State, exec (.tlbiCtl fn v) s = .next u ∧ u.tlbi fn = { t with ctl := v } ∧
      u.irqs = s.irqs) ∧
    (t.busy = false → v.getLsbD 0 = true → (s.ctx c).vf = fn → ∃ u : State, exec (.tlbiCtl fn v) s = .next u ∧
      u.tlbi fn = { t with ctl := v, busy := true } ∧ u.irqs = s.irqs) ∧
    (t.busy = false → v.getLsbD 0 = true → (s.ctx c).vf ≠ fn → ∃ u : State, exec (.tlbiCtl fn v) s = .next (u.irq fn 3) ∧
      u.tlbi fn = { t with ctl := v } ∧ u.cores = s.cores ∧ u.quads = s.quads) ∧
    (t.busy = false ∨ s.inFlight c t.base.toNat t.limit.toNat = true → exec (.tlbInvalidationComplete fn) s = .next s) ∧
    (t.busy = true → s.inFlight c t.base.toNat t.limit.toNat = false → ∃ u : State,
      exec (.tlbInvalidationComplete fn) s = .next (u.irq fn 3) ∧ u.tlbi fn = { t with busy := false } ∧ u.teams = s.teams ∧
      u.mem = s.mem ∧
      let gone (e : TlbEntry) : Prop := e.ctx = c ∧ e.vbase < t.limit.toNat ∧ t.base.toNat < e.vlimit
      (∀ k e, e ∈ (u.core k).tlb ↔ e ∈ (s.core k).tlb ∧ ¬gone e) ∧ (∀ k e, e ∈ (u.quad k).tlb ↔ e ∈ (s.quad k).tlb ∧ ¬gone e) ∧
      ∀ k e, e ∈ (u.quad k).ranges ↔ e ∈ (s.quad k).ranges ∧ ¬gone e)) ∧
  (∀ (s : State) (off : Nat) (v : Word) (sec : Bool), off < 0x10000 →
    let clamp (len lo hi : Nat) : Word := BitVec.ofNat 64 (Min.min hi (Max.max lo (v.toNat % 2 ^ len)))
    ∃ u : State, exec (.registerWrite off v sec) s = .next u ∧ (off % 8 ≠ 0 → u = s) ∧ (off = 0 → u = s) ∧
      (0x1000 ≤ off → off < 0x1400 → sec = false → u = s) ∧ u.readBar0 (.host sec) 0 = 0x32001F4C ∧
      (off = 0x08 → u.readBar0 (.host sec) off = v) ∧ (off = 0x10 → u.readBar0 (.host sec) off = clamp 20 100 100000) ∧
      (off = 0x18 → u.readBar0 (.host sec) off = BitVec.ofNat 64 (v.toNat % 512)) ∧
      (off = 0x20 → u.readBar0 (.host sec) off = clamp 10 1 1000) ∧ (off = 0x28 → u.readBar0 (.host sec) off = clamp 14 10 10000) ∧
      (off = 0x40 ∨ off = 0x48 ∨ off = 0x50 → (s.tlbi 0).busy = false → u.readBar0 (.host sec) off = v) ∧
      (off = 0x40 ∨ off = 0x48 ∨ off = 0x50 → (s.tlbi 0).busy = true → u = s) ∧
      (off = 0x100 → s.regs.mbx.busy = false → u.readBar0 (.host sec) off = BitVec.ofNat 64 (v.toNat % 2 ^ 24)) ∧
      (0x1000 ≤ off → off < 0x1400 → off % 16 = 0 → sec = true → (u.readBar0 (.dev true) off).toNat / 2 ^ 3 % 2 ^ 33 = 0) ∧
      u.mem = s.mem ∧ u.teams = s.teams) ∧
  (∀ (s : State) (fn n i : Nat), i < 64 → 64 * n + i < 136 →
    (s.readPba fn n).getLsbD i = tget false s.regs.msixPending (fn * 256 + 64 * n + i)) ∧
  (∀ (s : State) (v : Word) (k : Nat) (key : BitVec 512),
    let i := s.regs.mextIdx.toNat
    let d := (List.range 4).foldl (fun a j => a + ((s.regs.mextDig.getD j 0).toNat <<< (64 * j))) 0
    let n := v.toNat - 0x100
    (v = 1 → 8 ≤ i → i ≤ 15 → exec (.mextGo v) s = .next (s.extendMeas i (BitVec.ofNat 256 d))) ∧
    (v ≠ 1 ∨ i < 8 ∨ 15 < i → exec (.mextGo v) s = .next s) ∧
    (0x100 ≤ v.toNat → n < 4 → ∃ u : State, exec (.rkeyLock v) s = .next u ∧
      u.regs.rkeyLocked = s.regs.rkeyLocked ||| BitVec.ofNat 4 (2 ^ n) ∧ u.regs.rkeyDig = s.regs.rkeyDig ∧
      u.meas = (s.extendMeas 2 (s.regs.rkeyDig.getD n 0)).meas) ∧
    (v.toNat < 0x100 ∨ 0x104 ≤ v.toNat → exec (.rkeyLock v) s = .next s) ∧
    (twf 0 s.meas = true → ∀ j e, tget 0 (s.extendMeas j e).meas j =
      sha3_256 (bytesOf 32 (tget 0 s.meas j).toNat ++ bytesOf 32 e.toNat)) ∧
    (1 ≤ k → k < 128 → s.spdm.session = true → ∃ u : State, exec (.keyLoad k key) s = .next u ∧ u.keyMat k = some key ∧
      u.keyOk k = true ∧ u.mem = s.mem ∧
      (tfind s.keys k ≠ none → ∀ o ∈ u.ops, ∀ p ∈ o.parts, p.key = k → isMem p.pa = false ∨ p.over = true)) ∧
    (k = 0 ∨ 128 ≤ k ∨ s.spdm.session = false → exec (.keyLoad k key) s = .next s)) ∧
  ∀ (s : State) (image sig : List Byte) (reads writes : Bool),
    let verified := sha3_256 Config.fusedKey = Config.fusedKeyDigest ∧ mlDsaVerify Config.fusedKey (sha3_256 image) sig = true
    ∃ u : State, exec (.deviceReset image sig reads writes) s = .next u ∧ u.teams = [] ∧ u.blocks = [] ∧ u.ctxs = [] ∧ u.cores = [] ∧
      u.regs = .reset ∧ u.keys = [] ∧ u.links = [] ∧
      (reads = true → u.incarnation ≠ s.flash) ∧ (reads = true → writes = true → u.incarnation = s.flash + 1) ∧
      u.flash = (if writes then u.incarnation else s.flash) ∧
      (¬verified → u.boot = .failed ∧ u.meas = []) ∧ (verified → u.boot = .running)

/-- A mailbox command that is not in progress does nothing; one against the monitor's own context is refused. HALT holds a team at
its precise point, RESUME and STEP release a held one, READFRAME and WRITEFRAME copy its frame, SETBP and CLRBP change its context's
breakpoints, ADMIT admits one record of a debug-held queue, LIST writes the held teams; the results are then shown and entry 2
raised (R334–R336, R349, R351, R352, R355).
The model's choices in it: log 34, 35, 36, 64, 72, 92. -/
def Obligations.MonitorCommands : Prop :=
  ∀ (s : State) (seq : BitVec 8),
    let code (c : Nat) : Prop := s.mbxIs c seq = true ∧ s.mbxSelf = false
    let ends (i : Instr) (u : State) (r : BitVec 8) : Prop := exec i s = .next (u.mbxRes r none)
    let ctx := s.mbxArg 0
    let a2 := s.mbxArg 2
    (∀ c i, (c, i) ∈ [(1, Instr.halt seq), (2, .resume seq), (3, .step seq), (4, .readFrame seq), (5, .writeFrame seq), (6, .setBp seq),
        (7, .clrBp seq), (8, .admitCmd seq), (9, .list seq)] →
      (s.mbxIs c seq = false → exec i s = .next s) ∧ (s.mbxIs c seq = true → s.mbxSelf = true → ends i s 3) ∧
      (code c → c ≤ 5 → s.mbxTeam = none → ends i s 1) ∧
      (∀ k, code c → 2 ≤ c → c ≤ 5 → s.mbxTeam = some k → (s.team k).hold = none → ends i s 2)) ∧
    (∀ k, s.mbxTeam = some k →
      let t := s.team k
      (code 1 → t.hold ≠ none → ends (.halt seq) s 0) ∧
      (code 1 → t.hold = none → (t.precise = true ∧ s.inProp k = false) ∨ t.place ≠ .resident → ends (.halt seq) (s.hold k 0x19 0 t.active t.pc false) 0) ∧
      (code 1 → t.hold = none → t.precise = false ∨ s.inProp k = true → t.place = .resident →
        exec (.halt seq) s = .next (s.modTeam k fun t => { t with mon := .halt })) ∧
      (t.hold ≠ none → s.holdPending k = false → t.frameBad = false → t.newFrame = none →
        (code 2 → ends (.resume seq) (s.modTeam k fun t => { t.allDue with hold := none, mon := .none }) 0) ∧
        (code 3 → ends (.step seq) (s.modTeam k fun t => { t.allDue with hold := none, mon := .step false 0 }) 0)) ∧
      (t.hold ≠ none → s.holdPending k = false → t.frameBad = false →
        (code 2 → ends (.resume seq) (s.release k .none) 0) ∧ (code 3 → ends (.step seq) (s.release k (.step false 0)) 0)) ∧
      (t.hold ≠ none → s.holdPending k = false → t.frameBad = true →
        (code 2 → ends (.resume seq) (s.swapFailure k) 1) ∧ (code 3 → ends (.step seq) (s.swapFailure k) 1)) ∧
      (∀ f h, h = frameField f 0 64 →
        let y := t.takeFrame (s.block (blockKeyOf k)).vregs f
        let em := BitVec.ofNat 32 (h / 2 ^ 288) &&& t.live
        y.pc.toNat % 4 = 0 ∧ (em ≠ 0 ∨ h / 2 ^ 233 % 32 ≠ 0 → y.em = em) ∧
        (em = 0 → h / 2 ^ 233 % 32 = 0 → y.em = t.em ∧ ∃ c, frameCause t.live f = some c) ∧
        (h / 2 ^ 320 % 2 ^ 4 ≠ 0 ∨ h / 2 ^ 324 % 4 = 3 ∨ h / 2 ^ 326 % 2 ^ 26 ≠ 0 → y.tmode = t.tmode ∧ ∃ c, frameCause t.live f = some c)) ∧
      (t.hold ≠ none → s.holdPending k = true → (code 2 → exec (.resume seq) s = .next s) ∧ (code 3 → exec (.step seq) s = .next s)) ∧
      (t.hold ≠ none → code 4 → (s.mbxArg 3 < (s.frameOf k).length → ends (.readFrame seq) s 4) ∧
        ((s.frameOf k).length ≤ s.mbxArg 3 → memRun a2 (s.frameOf k).length = true → t.frameBad = false →
          ends (.readFrame seq) ((s.writeRun (s.regionKey a2) false a2 (s.frameOf k)).1.monCount a2 (s.frameOf k).length) 0)) ∧
      (t.hold ≠ none → code 5 → (s.frameOf k).length ≤ s.mbxArg 3 → memRun a2 (s.frameOf k).length = true →
        s.runFailed a2 (s.frameOf k).length = none →
        let new := s.rdBytes (s.regionKey a2) a2 (s.frameOf k).length
        let v := s.monCount a2 (s.frameOf k).length
        (frameOk (s.frameOf k) new = true → ends (.writeFrame seq) (v.modTeam k fun t => { t with newFrame := some new }) 0) ∧
        (frameOk (s.frameOf k) new = false → ends (.writeFrame seq) v 3)) ∧
      ∀ w i, i < 32 → frameField (s.frameBytes k w) (0x40 + 8 * i) 8 = (t.getX i).toNat) ∧
    (code 6 → ctx < 64 → a2 % 4 = 0 → a2 < 2 ^ 56 → BitVec.ofNat 64 a2 ∉ (s.ctx ctx).bps → (s.ctx ctx).bps.length < 8 →
      ends (.setBp seq) (s.modCtx ctx fun x => { x with bps := x.bps ++ [BitVec.ofNat 64 a2] }) 0) ∧
    (code 6 → ctx < 64 → a2 % 4 = 0 → a2 < 2 ^ 56 → BitVec.ofNat 64 a2 ∉ (s.ctx ctx).bps → 8 ≤ (s.ctx ctx).bps.length →
      ends (.setBp seq) s 4) ∧
    (code 6 → a2 % 4 ≠ 0 ∨ 2 ^ 56 ≤ a2 → ends (.setBp seq) s 3) ∧
    (code 7 → ctx < 64 → BitVec.ofNat 64 a2 ∈ (s.ctx ctx).bps →
      ends (.clrBp seq) (s.modCtx ctx fun x => { x with bps := x.bps.erase (BitVec.ofNat 64 a2) }) 0) ∧
    (code 7 → BitVec.ofNat 64 a2 ∉ (s.ctx ctx).bps → ends (.clrBp seq) s 3) ∧
    (code 8 → ends (.admitCmd seq) (s.admitOne ctx (s.mbxArg 1) true).1 (if (s.admitOne ctx (s.mbxArg 1) true).2 then 0 else 3)) ∧
    (code 9 → ctx < 64 →
      let held := (tkeys s.teams).filter fun k => (s.team k).hold.isSome && !(s.team k).ended && s.ctxOf k = ctx
      let bytes := (held.flatMap fun k => bytesOf 8 (coreOf k * 2 ^ 16 + slotOf k * 2 ^ 8 + idxOf k)) ++ bytesOf 8 0
      memRun a2 bytes.length = true → exec (.list seq) s = .next (((s.writeRun (s.regionKey a2) false a2 bytes).1.monCount a2 bytes.length).mbxRes 0
        (some (BitVec.ofNat 64 held.length)))) ∧
    let m := s.regs.mbx
    (m.busy = false → exec .mbxCommandFinish s = .next s) ∧
    (m.busy = true → s.mbxUnknown = false → m.pend = none → exec .mbxCommandFinish s = .next s) ∧
    (s.mbxUnknown = true → ∃ u : State, exec .mbxCommandFinish s = .next (u.irq 0 2) ∧ u.regs.mbx.busy = false ∧
      u.regs.mbx.res = 3 ∧ u.teams = s.teams ∧ u.mem = s.mem) ∧
    ∀ r a, m.busy = true → s.mbxUnknown = false → m.pend = some (r, a) → ∃ u : State,
      exec .mbxCommandFinish s = .next (u.irq 0 2) ∧ u.regs.mbx.busy = false ∧ u.regs.mbx.done = true ∧ u.regs.mbx.res = r ∧
      u.regs.mbx.seq.toNat = m.cmd.toNat / 2 ^ 16 % 2 ^ 8 ∧ u.regs.mbx.pend = none ∧ u.teams = s.teams ∧ u.mem = s.mem ∧
      (a = none → u.regs.mbx.args = m.args) ∧ ∀ v, a = some v → u.regs.mbx.args = m.args.set 3 v

/-! ## The host and the fabric (chapters 15, 16, 20) -/

/-- SPDM requests are answered in the order of the model (log 42): version, capabilities, algorithms with SHA3-256 and ML-DSA-44,
then digests, certificates, a challenge, measurements, a key exchange and the session that `finish` opens; one out of order is
refused (R333). Inbound accesses reach the memory that regions and worlds allow, and others are unsupported (R309, R329, R358).
The model's choices in it: log 41, 42, 60. -/
def Obligations.HostRequests : Prop :=
  (∀ (s : State) (h a : BitVec 32) (n mac : BitVec 256) (slot off len i : Nat) (x : List Byte),
    let chain := Config.certificateChain 0
    let signed (d : List Byte) : List Byte := d ++ Config.mlDsaSign (sha3_256 (bytesOf 32 n.toNat ++ d))
    let answers (r : Instr) (d : List Byte) : Prop := exec r s = .next { s with outs := .spdm d :: s.outs }
    let refuses (r : Instr) : Prop := exec r s = .next { s with outs := .spdmError :: s.outs }
    (exec .getVersion s =
      .next { s with spdm := ⟨true, false, false, none, s.spdm.session⟩, outs := .spdm [0x13] :: s.outs }) ∧
    (s.spdm.version = true → ∃ (u : State) (d : List Byte), exec .getCapabilities s = .next u ∧ d.length = 4 ∧
      u.outs = .spdm d :: s.outs ∧ u.spdm = { s.spdm with caps := true }) ∧
    (s.spdm.version = false → refuses .getCapabilities) ∧
    (s.spdm.caps = true → h.getLsbD 3 = true → a.getLsbD 0 = true → exec (.negotiateAlgorithms h a) s =
      .next { s with spdm := { s.spdm with algs := true }, outs := .spdm (bytesOf 4 8 ++ bytesOf 4 1) :: s.outs }) ∧
    (s.spdm.caps = false ∨ h.getLsbD 3 = false ∨ a.getLsbD 0 = false → refuses (.negotiateAlgorithms h a)) ∧
    (s.spdm.algs = true →
      answers .getDigests (bytesOf 32 (sha3_256 chain).toNat) ∧ answers (.challenge n) (signed (bytesOf 32 (sha3_256 chain).toNat)) ∧
      (slot < 8 → off < (Config.certificateChain slot).length →
        answers (.getCertificate slot off len) (((Config.certificateChain slot).drop off).take len)) ∧
      answers (.getMeasurements n 0) (signed [16]) ∧
      (i < 16 → answers (.getMeasurements n (i + 1)) (signed (bytesOf 32 (tget 0 s.meas i).toNat))) ∧
      (17 ≤ i → i ≠ 255 → refuses (.getMeasurements n i)) ∧
      ∃ (u : State) (d : List Byte), exec (.keyExchange x) s = .next u ∧ d.length = 32 ∧ u.spdm = { s.spdm with exchange := some (x ++ d) } ∧
        u.outs = .spdm (d ++ Config.mlDsaSign (sha3_256 (x ++ d))) :: s.outs) ∧
    (s.spdm.algs = false → refuses .getDigests ∧ refuses (.challenge n) ∧ refuses (.getCertificate slot off len) ∧
      refuses (.getMeasurements n i) ∧ refuses (.keyExchange x)) ∧
    (∀ e, s.spdm.exchange = some e → (mac = Config.spdmVerifyData e → exec (.finish mac) s =
      .next { s with spdm := { s.spdm with session := true, exchange := none }, outs := .spdm [] :: s.outs }) ∧
      (mac ≠ Config.spdmVerifyData e → refuses (.finish mac))) ∧
    (s.spdm.exchange = none → refuses (.finish mac)) ∧
    (s.spdm.session = true → exec .endSession s =
      .next { s with spdm := { s.spdm with session := false }, outs := .spdm [] :: s.outs }) ∧
    (s.spdm.session = false → refuses .endSession)) ∧
  ∀ (s : State) (fn pa n port : Nat) (bytes : List Byte) (rest : Bool) (v w : Word),
    let run (k : Nat) : Prop := ∀ i, i < k → isMem (pa + i) = true ∧ fn ≤ 17 ∧
      ∀ r, s.regionOf (pa + i) = some r → r.testBit 1 = true ∧ r.testBit 2 = false ∧
        (r / 2 ^ 36 % 2 ^ 5 = 31 ∨ r / 2 ^ 36 % 2 ^ 5 ≤ 16 ∧ r / 2 ^ 36 % 2 ^ 5 = fn) ∧ s.keyOk (r / 2 ^ 41 % 2 ^ 7) = true
    let f := if port = 0 then 0 else 17
    let answers (i : Instr) (o : Out) : Prop := exec i s = .next { s with outs := o :: s.outs }
    (¬run n → answers (.inboundBar2Access fn pa (.read n)) .unsupported) ∧
    (run n → s.runFailed pa n ≠ none → answers (.inboundBar2Access fn pa (.read n)) .aborted) ∧
    (run n → s.runFailed pa n = none → answers (.inboundBar2Access fn pa (.read n))
      (.data ((List.range n).map fun i => BitVec.ofNat 8 (s.rdNat (s.regionKey (pa + i)) (pa + i) 1)))) ∧
    (¬run bytes.length → answers (.inboundBar2Access fn pa (.write bytes rest)) .unsupported) ∧
    (512 < bytes.length → answers (.inboundBar2Access fn pa (.write bytes rest)) .unsupported) ∧
    (run bytes.length → bytes.length ≤ 512 →
      exec (.inboundBar2Access fn pa (.write bytes rest)) s = .next (s.inboundWrite pa bytes)) ∧
    (run 8 → pa % 8 = 0 → s.failedAt (pa / 128) = none →
      let old := s.rdNat (s.regionKey pa) pa 8
      let gives (i : Instr) (new : Nat) : Prop := exec i s =
        .next ((s.inboundWrite pa (bytesOf 8 new)).answer (.data (bytesOf 8 old)))
      gives (.inboundBar2Access fn pa (.fetchAdd 8 v)) ((old + v.toNat) % 2 ^ 64) ∧
      gives (.inboundBar2Access fn pa (.swap 8 v)) v.toNat ∧
      gives (.inboundBar2Access fn pa (.cas 8 v w)) (if old = v.toNat then w.toNat else old)) ∧
    (∀ r, exec (.inboundCxlMemAccess port pa r) s = match r with
      | .read _ | .write .. => .next (s.inbound f pa r false)
      | _ => .next { s with outs := .unsupported :: s.outs })

/-- A link to a wired port that comes up announces the incarnation on the management channel; one that goes down is chosen no more. A
packet takes the live way whose queue holds the fewest flits. A peer's new incarnation ends what is outstanding toward it. A packet
is performed once and answered; what names another device, incarnation or relay is dropped or passed on. An answer ends its request,
the first time; an unanswered request is sent again, at most eight times. Packets that wait too long become suspect or are discarded, and the halter moves suspects to the escape lane (R15, R312, R320–R322,
R369–R373). Errors mark their structure failed, and a counter at its last count wraps (R325, R361).
The model's choices in it: log 9, 14, 17, 18, 19, 27, 66, 67, 68, 69. -/
def Obligations.FabricAndErrorEvents : Prop :=
  (∀ (s : State) (port peer : Nat) (inc : BitVec 16),
    (16 ≤ port ∨ s.wired port = false → exec (.linkUp port) s = .next s) ∧
    (port < 16 → s.wired port = true → ∃ (u : State) (p : Packet), exec (.linkUp port) s = .next u.pump ∧ u.portUp port = true ∧
      (u.die (dieOfPort port)).pkts = (s.die (dieOfPort port)).pkts ++ [⟨p, some port, s.clock, false⟩] ∧ p.body = .announce ∧
      p.hdr.sinc = s.incarnation ∧ p.hdr.vc = 3 ∧ p.src = s.podNum ∧ p.dst = s.portPeer port ∧ u.mem = s.mem ∧ u.teams = s.teams) ∧
    (s.podNum < s.podSize → (s.podSize = 8 → s.wired 7 = false ∧ s.wired 15 = false) ∧ (s.podSize = 16 → s.wired 15 = false)) ∧
    (∀ p : Packet, s.ways p ≠ [] → s.route p ∈ s.ways p ∧
      ∀ w ∈ s.ways p, s.queued (s.route p).1 (packetLane p) ≤ s.queued w.1 (packetLane p)) ∧
    exec (.linkDown port) s = .next { s with links := tdel s.links port } ∧
    ((s.peer peer).inc = some inc → exec (.incarnationAnnounce peer inc) s = .next s) ∧
    ((s.peer peer).inc ≠ some inc → ∃ u : State, exec (.incarnationAnnounce peer inc) s = .next u.pump ∧
      (u.peer peer).inc = some inc ∧ (u.peer peer).outs = [] ∧ u.mem = s.mem ∧ u.teams = s.teams)) ∧
  (∀ (s : State) (p : Packet),
    let q := s.peer p.src
    (p.dst ≠ s.podNum ∨ p.hdr.dinc ≠ s.incarnation ∨ q.inc ≠ some p.hdr.sinc ∨ p.reqs = [] →
      exec (.fabricPacketReceive p) s = .next s) ∧
    (p.reqs ≠ [] → p.dst = s.podNum → p.src ≠ s.podNum → p.src < s.podSize → p.hdr.dinc = s.incarnation → q.inc = some p.hdr.sinc →
      (q.isDone p.hdr.tag = true → exec (.fabricPacketReceive p) s = .next (s.again p)) ∧
      (q.isDone p.hdr.tag = false →
        (packetWrites p = false ∨ (q.receive p.hdr.tag).noGap p.hdr.tag = true →
          exec (.fabricPacketReceive p) s = .next (serveHeld p.src 16 ((s.modPeer p.src fun q => q.receive p.hdr.tag).serve p))) ∧
        (packetWrites p = true → (q.receive p.hdr.tag).noGap p.hdr.tag = false → q.held.length < 16 →
          (∀ h ∈ q.held, h.hdr.tag ≠ p.hdr.tag) → ∃ u : State, exec (.fabricPacketReceive p) s = .next u ∧
            (u.peer p.src).held = q.held ++ [p] ∧ u.mem = s.mem ∧ u.outs = s.outs))) ∧
    (∀ r, tfind q.cache p.hdr.tag.toNat = some r → s.again p = s.respond p r) ∧
    ((p.reqs.all s.peerMayReach) = false → s.performPacket p = (s, ⟨[], some 6⟩)) ∧
    (p.hdr.rv = false ∨ p.hdr.rly.toNat ≠ s.podNum ∨ p.dst = s.podNum ∨ s.podSize ≤ p.dst → exec (.relayForward p) s = .next s) ∧
    (p.hdr.rv = true → p.hdr.rly.toNat = s.podNum → p.dst ≠ s.podNum → p.dst < s.podSize →
      ∃ (u : State) (o : Nat), exec (.relayForward p) s = .next u ∧ o ∈ s.peerPorts p.dst ∧
        ((s.peerPorts p.dst).any s.portUp = true → s.portUp o = true) ∧
        (u.die (dieOfPort o)).pkts = (s.die (dieOfPort o)).pkts ++ [⟨p, some o, s.clock, false⟩] ∧ u.mem = s.mem ∧
        u.teams = s.teams)) ∧
  (∀ (s : State) (peer : Nat) (hdr : PktHdr) (a : Resp),
    let tag := hdr.tag
    let r := (s.peer peer).outs.find? fun r => r.tag = tag
    let ours := peer ≠ s.podNum ∧ peer < s.podSize ∧ hdr.dinc = s.incarnation ∧ (s.peer peer).inc = some hdr.sinc
    (r = none → exec (.fabricAckReceive hdr peer a) s = .next s ∧ exec (.fabricResend peer tag) s = .next s) ∧
    (¬ours → exec (.fabricAckReceive hdr peer a) s = .next s) ∧
    ∀ q, r = some q →
      (∀ op, ours → a.err = some op → exec (.fabricAckReceive hdr peer a) s = .next ((s.dropReq peer q).failReq q op).pump) ∧
      (ours → a.err = none → exec (.fabricAckReceive hdr peer a) s = .next ((s.dropReq peer q).answered q a.vals).pump) ∧
      (∀ x ∈ ((s.dropReq peer q).peer peer).outs, x.tag ≠ tag) ∧
      (s.clock < q.sentAt + s.te2e → exec (.fabricResend peer tag) s = .next s) ∧
      (q.sentAt + s.te2e ≤ s.clock → 8 ≤ q.resends →
        exec (.fabricResend peer tag) s = .next ((s.dropReq peer q).failReq q 3).pump) ∧
      (q.sentAt + s.te2e ≤ s.clock → q.resends < 8 → ∃ u : State, exec (.fabricResend peer tag) s = .next (u.sendPacket q.pkt) ∧
        (u.peer peer).outs = (s.peer peer).outs.map (fun x =>
          if x.tag = tag then { x with resends := x.resends + 1, sentAt := s.clock } else x) ∧ u.mem = s.mem)) ∧
  (∀ (s : State) (die idx gen : Nat),
    let p := (s.die die).pkts[idx]?
    (p = none → exec (.packetDiscard die idx) s = .next s ∧ exec (.packetSuspect die idx) s = .next s) ∧
    (∀ x, p = some x →
      (s.clock ≤ x.since + s.te2e → exec (.packetDiscard die idx) s = .next s) ∧
      (x.since + s.te2e < s.clock → ∃ u : State, exec (.packetDiscard die idx) s = .next u ∧ u.mem = s.mem ∧ u.teams = s.teams ∧
        (u.die die).pkts = (s.die die).pkts.eraseIdx idx) ∧
      (s.clock ≤ x.since + s.tdl ∨ x.pkt.hdr.esc = true → exec (.packetSuspect die idx) s = .next s) ∧
      (x.since + s.tdl < s.clock → x.pkt.hdr.esc = false → ∃ u : State, exec (.packetSuspect die idx) s = .next u ∧ u.mem = s.mem ∧ u.teams = s.teams ∧
        (u.die die).pkts[idx]? = some { x with suspect := true })) ∧
    let n := (tfind s.halters gen).getD 0
    ([4, 0, 1, 3, 2, 5][n]? ≠ some die → exec (.halterVisit die gen) s = .next s) ∧
    ([4, 0, 1, 3, 2, 5][n]? = some die → gen < (s.die die).halterGen →
      exec (.halterVisit die gen) s = .next { s with halters := tdel s.halters gen }) ∧
    ([4, 0, 1, 3, 2, 5][n]? = some die → (s.die die).halterGen ≤ gen → exec (.halterVisit die gen) s = .next (s.visit n gen)) ∧
    ([4, 0, 1, 3, 2, 5][n]? = some die → ((s.die die).pkts.all fun p => !p.suspect) = true →
      let u := s.visit n gen
      (u.die die).halterGen = gen ∧ (u.die die).halterSeen = s.clock ∧ u.mem = s.mem ∧
      (n < 5 → (u.die die).pkts = (s.die die).pkts ∧ tfind u.halters gen = some (n + 1)) ∧
      (n = 5 → ∃ x : Packet, (u.die (dieOfPort s.halterPort)).pkts =
        (s.die (dieOfPort s.halterPort)).pkts ++ [⟨x, some s.halterPort, s.clock, false⟩] ∧ x.body = .halter gen ∧ x.hdr.esc = true)) ∧
    (∀ (p : Packet) (port : Nat) (q : Packet), s.escapeRoute p = some (port, q) → s.portUp port = true ∧ q.hdr.esc = true ∧
      q.body = p.body ∧ q.dst = p.dst) ∧
    (s.clock < (s.die 4).halterSeen + 32 * s.tdl ∨ (∃ n, n < s.podNum ∧ s.reaches n = true) → exec .halterTimeout s = .next s) ∧
    ((s.die 4).halterSeen + 32 * s.tdl ≤ s.clock → (∀ n, n < s.podNum → s.reaches n = false) →
      exec .halterTimeout s = .next (s.visit 0 (s.topGen + 1)))) ∧
  ∀ (s : State) (core word line port n : Nat) (t : TeamId) (r i : Nat) (c : Ev),
    (∀ site, ∃ u : State, exec (.uncorrectableError site) s = .next u ∧ u.mem = s.mem) ∧
    (word < 65536 → ∃ u : State, exec (.uncorrectableError (.scratch core word)) s = .next u ∧ word ∈ (u.core core).scratchBad ∧
      (u.core core).scratch = (s.core core).scratch ∧ u.teams = s.teams) ∧
    (isMem (128 * line) = true → ∃ u : State, exec (.uncorrectableError (.dram line)) s = .next u ∧
      u.failedAt line = some (if 128 * line < 2 ^ 39 then 0 else 2) ∧ ∀ l, l ≠ line → u.failedAt l = s.failedAt l) ∧
    (s.hasTeam (teamIdKey t) = true → ∃ u : State, exec (.uncorrectableError (.register t r i)) s = .next u ∧
      (r, i) ∈ (u.team (teamIdKey t)).badSlices ∧ (u.team (teamIdKey t)).v = (s.team (teamIdKey t)).v) ∧
    (∃ u : State, exec (.uncorrectableError (.l1 core line)) s = .next u ∧
      ∀ l, l ∈ (u.core core).l1 ↔ l ∈ (s.core core).l1 ∧ l.pline ≠ line) ∧
    (tget 0 s.regs.fpc (16 * port + n) = BitVec.allOnes 48 → ∃ u : State, exec (.counterOverflow (.port port n)) s = .next u ∧
      (twf 0 s.regs.fpc = true → tget 0 u.regs.fpc (16 * port + n) = 0) ∧ u.teams = s.teams) ∧
    (tget 0 s.regs.fpc (16 * port + n) ≠ BitVec.allOnes 48 → exec (.counterOverflow (.port port n)) s = .next s) ∧
    (n < 8 → (s.core core).ev = [(n, c)] → (s.residentFns core).contains 0 = true → c.cnt = BitVec.allOnes 48 → c.sel.getLsbD 31 = true → ∃ u : State,
      exec (.counterOverflow (.core core n)) s = .next u ∧ (tget ⟨0, 0⟩ (u.core core).ev n).cnt = 0 ∧ u.teams = s.teams) ∧
    (n < 8 → (s.core core).ev = [(n, c)] → c.cnt ≠ BitVec.allOnes 48 ∨ c.sel.getLsbD 31 = false ∨
        (s.residentFns core).contains 0 = false → ∃ u : State,
      exec (.counterOverflow (.core core n)) s = .next u ∧ (u.core core).ev = [(n, c)] ∧ u.teams = s.teams)
end

