-- ==== Sys2Proof/Laws/Table.lean ====
section
/-!
SUPPORT. Sparse tables: reading after insertion, removal and canonical writing, and the canonical form.
-/

namespace Sys2Proof.Machine

variable {α : Type}

theorem tsorted_mono {t : Table α} : ∀ {lo hi : Nat}, lo ≤ hi → tsorted hi t = true → tsorted lo t = true := by
  cases t with
  | nil => simp [tsorted]
  | cons e t =>
    intro lo hi h
    simp only [tsorted, Bool.and_eq_true, decide_eq_true_eq]
    exact fun ⟨a, b⟩ => ⟨by omega, b⟩

@[simp] theorem tfind_tins_same (t : Table α) (k : Nat) (v : α) : tfind (tins t k v) k = some v := by
  induction t with
  | nil => simp [tins, tfind]
  | cons e t ih =>
    obtain ⟨j, w⟩ := e
    simp only [tins]
    split
    · simp [tfind]
    · split
      · simp [tfind]
      · rename_i h1 h2
        simp [tfind, h1, h2, ih]

theorem tfind_tins_other (t : Table α) {k j : Nat} (v : α) (h : j ≠ k) : tfind (tins t k v) j = tfind t j := by
  induction t with
  | nil =>
    simp only [tins, tfind, if_neg h]
    split <;> rfl
  | cons e t ih =>
    obtain ⟨i, w⟩ := e
    simp only [tins]
    split
    · rename_i hk
      subst hk
      simp only [tfind, if_neg h]
    · split
      · rename_i h1 h2
        simp only [tfind, if_neg h]
        by_cases hj : j < k
        · rw [if_pos hj, if_neg (by omega), if_pos (by omega)]
        · rw [if_neg hj]
      · simp only [tfind]
        split
        · rfl
        · split
          · rfl
          · exact ih

@[simp] theorem tget_tins_same (d : α) (t : Table α) (k : Nat) (v : α) : tget d (tins t k v) k = v := by
  simp [tget]

theorem tget_tins_other (d : α) (t : Table α) {k j : Nat} (v : α) (h : j ≠ k) : tget d (tins t k v) j = tget d t j := by
  simp [tget, tfind_tins_other t v h]

theorem tfind_none_of_low {t : Table α} {k : Nat} : ∀ {lo : Nat}, tsorted lo t = true → k < lo → tfind t k = none := by
  cases t with
  | nil => simp [tfind]
  | cons e t =>
    intro lo h hk
    simp only [tsorted, Bool.and_eq_true, decide_eq_true_eq] at h
    simp only [tfind]
    rw [if_neg (by omega), if_pos (by omega)]

theorem tfind_tdel_same {t : Table α} {k : Nat} : ∀ {lo : Nat}, tsorted lo t = true → tfind (tdel t k) k = none := by
  induction t with
  | nil => simp [tdel, tfind]
  | cons e t ih =>
    obtain ⟨j, w⟩ := e
    intro lo h
    simp only [tsorted, Bool.and_eq_true, decide_eq_true_eq] at h
    simp only [tdel]
    split
    · rename_i hk
      exact tfind_none_of_low h.2 (by omega)
    · split
      · rename_i h1 h2
        simp only [tfind, if_neg h1, if_pos h2]
      · rename_i h1 h2
        simp only [tfind, if_neg h1, if_neg h2]
        exact ih h.2

theorem tfind_tdel_other {t : Table α} {k j : Nat} (hj : j ≠ k) : ∀ {lo : Nat}, tsorted lo t = true →
    tfind (tdel t k) j = tfind t j := by
  induction t with
  | nil => simp [tdel]
  | cons e t ih =>
    obtain ⟨i, w⟩ := e
    intro lo h
    simp only [tsorted, Bool.and_eq_true, decide_eq_true_eq] at h
    simp only [tdel]
    split
    · rename_i hk
      subst hk
      simp only [tfind, if_neg hj]
      split
      · exact tfind_none_of_low h.2 (by omega)
      · rfl
    · split
      · rfl
      · simp only [tfind]
        split
        · rfl
        · split
          · rfl
          · exact ih h.2

theorem tsorted_tins {t : Table α} {k : Nat} (v : α) : ∀ {lo : Nat}, lo ≤ k → tsorted lo t = true →
    tsorted lo (tins t k v) = true := by
  induction t with
  | nil => intro lo h; simp [tins, tsorted, h]
  | cons e t ih =>
    obtain ⟨j, w⟩ := e
    intro lo hk h
    simp only [tsorted, Bool.and_eq_true, decide_eq_true_eq] at h
    simp only [tins]
    split
    · rename_i e
      subst e
      simp [tsorted, hk, h.2]
    · split
      · rename_i h1 h2
        simp only [tsorted, Bool.and_eq_true, decide_eq_true_eq]
        exact ⟨hk, by omega, h.2⟩
      · simp only [tsorted, Bool.and_eq_true, decide_eq_true_eq]
        exact ⟨h.1, ih (by omega) h.2⟩

theorem tsorted_tdel {t : Table α} {k : Nat} : ∀ {lo : Nat}, tsorted lo t = true → tsorted lo (tdel t k) = true := by
  induction t with
  | nil => simp [tdel]
  | cons e t ih =>
    obtain ⟨j, w⟩ := e
    intro lo h
    simp only [tsorted, Bool.and_eq_true, decide_eq_true_eq] at h
    simp only [tdel]
    split
    · exact tsorted_mono (by omega) h.2
    · split
      · simp [tsorted, h]
      · simp only [tsorted, Bool.and_eq_true, decide_eq_true_eq]
        exact ⟨h.1, ih h.2⟩

theorem all_tins {t : Table α} {k : Nat} {v : α} {p : Nat × α → Bool} (hv : p (k, v) = true) (h : t.all p = true) :
    (tins t k v).all p = true := by
  induction t with
  | nil => simp [tins, hv]
  | cons e t ih =>
    obtain ⟨j, w⟩ := e
    simp only [List.all_cons, Bool.and_eq_true] at h
    simp only [tins]
    split
    · simp [hv, h.2]
    · split
      · simp only [List.all_cons, Bool.and_eq_true]
        exact ⟨hv, h⟩
      · simp only [List.all_cons, Bool.and_eq_true]
        exact ⟨h.1, ih h.2⟩

theorem all_tdel {t : Table α} {k : Nat} {p : Nat × α → Bool} (h : t.all p = true) : (tdel t k).all p = true := by
  induction t with
  | nil => simp [tdel]
  | cons e t ih =>
    obtain ⟨j, w⟩ := e
    simp only [List.all_cons, Bool.and_eq_true] at h
    simp only [tdel]
    split
    · exact h.2
    · split
      · simp only [List.all_cons, Bool.and_eq_true]
        exact h
      · simp only [List.all_cons, Bool.and_eq_true]
        exact ⟨h.1, ih h.2⟩

variable [DecidableEq α]

/-- A canonical write keeps the canonical form. -/
theorem twf_tput {d : α} {t : Table α} (k : Nat) (v : α) (h : twf d t = true) : twf d (tput d t k v) = true := by
  simp only [twf, Bool.and_eq_true] at h ⊢
  simp only [tput]
  split
  · exact ⟨tsorted_tdel h.1, all_tdel h.2⟩
  · rename_i hv
    exact ⟨tsorted_tins v (Nat.zero_le k) h.1, all_tins (by simp [hv]) h.2⟩

/-- Reading what a canonical write has written. -/
theorem tget_tput_same {d : α} {t : Table α} (k : Nat) (v : α) (h : twf d t = true) : tget d (tput d t k v) k = v := by
  simp only [twf, Bool.and_eq_true] at h
  simp only [tput]
  split
  · rename_i hv
    simp [tget, tfind_tdel_same h.1, hv]
  · simp

/-- Reading anywhere else. -/
theorem tget_tput_other {d : α} {t : Table α} {k j : Nat} (v : α) (h : twf d t = true) (hj : j ≠ k) :
    tget d (tput d t k v) j = tget d t j := by
  simp only [twf, Bool.and_eq_true] at h
  simp only [tput]
  split
  · simp [tget, tfind_tdel_other hj h.1]
  · exact tget_tins_other d t v hj

end Sys2Proof.Machine
end

