-- ==== Sys2Proof/Laws/State.lean ====
section
/-!
SUPPORT. One lemma per field per update of the state, and of a team's registers: an update leaves every other field alone.
-/

namespace Sys2Proof.Machine

section
variable (s : State)


@[simp] theorem State.setCore_clock (c : Nat) (v : Core) : (s.setCore c v).clock = s.clock := rfl
@[simp] theorem State.setCore_cur (c : Nat) (v : Core) : (s.setCore c v).cur = s.cur := rfl
@[simp] theorem State.setCore_agenda (c : Nat) (v : Core) : (s.setCore c v).agenda = s.agenda := rfl
@[simp] theorem State.setCore_free (c : Nat) (v : Core) : (s.setCore c v).free = s.free := rfl
@[simp] theorem State.setCore_nextSeq (c : Nat) (v : Core) : (s.setCore c v).nextSeq = s.nextSeq := rfl
@[simp] theorem State.setCore_mem (c : Nat) (v : Core) : (s.setCore c v).mem = s.mem := rfl
@[simp] theorem State.setCore_failed (c : Nat) (v : Core) : (s.setCore c v).failed = s.failed := rfl
@[simp] theorem State.setCore_lineTag (c : Nat) (v : Core) : (s.setCore c v).lineTag = s.lineTag := rfl
@[simp] theorem State.setCore_lineKey (c : Nat) (v : Core) : (s.setCore c v).lineKey = s.lineKey := rfl
@[simp] theorem State.setCore_teams (c : Nat) (v : Core) : (s.setCore c v).teams = s.teams := rfl
@[simp] theorem State.setCore_blocks (c : Nat) (v : Core) : (s.setCore c v).blocks = s.blocks := rfl
@[simp] theorem State.setCore_quads (c : Nat) (v : Core) : (s.setCore c v).quads = s.quads := rfl
@[simp] theorem State.setCore_dies (c : Nat) (v : Core) : (s.setCore c v).dies = s.dies := rfl
@[simp] theorem State.setCore_ctxs (c : Nat) (v : Core) : (s.setCore c v).ctxs = s.ctxs := rfl
@[simp] theorem State.setCore_barriers (c : Nat) (v : Core) : (s.setCore c v).barriers = s.barriers := rfl
@[simp] theorem State.setCore_ops (c : Nat) (v : Core) : (s.setCore c v).ops = s.ops := rfl
@[simp] theorem State.setCore_rpc (c : Nat) (v : Core) : (s.setCore c v).rpc = s.rpc := rfl
@[simp] theorem State.setCore_regs (c : Nat) (v : Core) : (s.setCore c v).regs = s.regs := rfl
@[simp] theorem State.setCore_keys (c : Nat) (v : Core) : (s.setCore c v).keys = s.keys := rfl
@[simp] theorem State.setCore_meas (c : Nat) (v : Core) : (s.setCore c v).meas = s.meas := rfl
@[simp] theorem State.setCore_incarnation (c : Nat) (v : Core) : (s.setCore c v).incarnation = s.incarnation := rfl
@[simp] theorem State.setCore_peers (c : Nat) (v : Core) : (s.setCore c v).peers = s.peers := rfl
@[simp] theorem State.setCore_links (c : Nat) (v : Core) : (s.setCore c v).links = s.links := rfl
@[simp] theorem State.setCore_farDown (c : Nat) (v : Core) : (s.setCore c v).farDown = s.farDown := rfl
@[simp] theorem State.setCore_halters (c : Nat) (v : Core) : (s.setCore c v).halters = s.halters := rfl
@[simp] theorem State.setCore_flash (c : Nat) (v : Core) : (s.setCore c v).flash = s.flash := rfl
@[simp] theorem State.setCore_activeVf (c : Nat) (v : Core) : (s.setCore c v).activeVf = s.activeVf := rfl
@[simp] theorem State.setCore_vfNext (c : Nat) (v : Core) : (s.setCore c v).vfNext = s.vfNext := rfl
@[simp] theorem State.setCore_sliceAt (c : Nat) (v : Core) : (s.setCore c v).sliceAt = s.sliceAt := rfl
@[simp] theorem State.setCore_outs (c : Nat) (v : Core) : (s.setCore c v).outs = s.outs := rfl
@[simp] theorem State.setCore_irqs (c : Nat) (v : Core) : (s.setCore c v).irqs = s.irqs := rfl
@[simp] theorem State.setCore_spdm (c : Nat) (v : Core) : (s.setCore c v).spdm = s.spdm := rfl
@[simp] theorem State.setCore_boot (c : Nat) (v : Core) : (s.setCore c v).boot = s.boot := rfl
@[simp] theorem State.setCore_admitted (c : Nat) (v : Core) : (s.setCore c v).admitted = s.admitted := rfl
@[simp] theorem State.setCore_rr (c : Nat) (v : Core) : (s.setCore c v).rr = s.rr := rfl

@[simp] theorem State.modCore_clock (c : Nat) (f : Core → Core) : (s.modCore c f).clock = s.clock := rfl
@[simp] theorem State.modCore_cur (c : Nat) (f : Core → Core) : (s.modCore c f).cur = s.cur := rfl
@[simp] theorem State.modCore_agenda (c : Nat) (f : Core → Core) : (s.modCore c f).agenda = s.agenda := rfl
@[simp] theorem State.modCore_free (c : Nat) (f : Core → Core) : (s.modCore c f).free = s.free := rfl
@[simp] theorem State.modCore_nextSeq (c : Nat) (f : Core → Core) : (s.modCore c f).nextSeq = s.nextSeq := rfl
@[simp] theorem State.modCore_mem (c : Nat) (f : Core → Core) : (s.modCore c f).mem = s.mem := rfl
@[simp] theorem State.modCore_failed (c : Nat) (f : Core → Core) : (s.modCore c f).failed = s.failed := rfl
@[simp] theorem State.modCore_lineTag (c : Nat) (f : Core → Core) : (s.modCore c f).lineTag = s.lineTag := rfl
@[simp] theorem State.modCore_lineKey (c : Nat) (f : Core → Core) : (s.modCore c f).lineKey = s.lineKey := rfl
@[simp] theorem State.modCore_teams (c : Nat) (f : Core → Core) : (s.modCore c f).teams = s.teams := rfl
@[simp] theorem State.modCore_blocks (c : Nat) (f : Core → Core) : (s.modCore c f).blocks = s.blocks := rfl
@[simp] theorem State.modCore_quads (c : Nat) (f : Core → Core) : (s.modCore c f).quads = s.quads := rfl
@[simp] theorem State.modCore_dies (c : Nat) (f : Core → Core) : (s.modCore c f).dies = s.dies := rfl
@[simp] theorem State.modCore_ctxs (c : Nat) (f : Core → Core) : (s.modCore c f).ctxs = s.ctxs := rfl
@[simp] theorem State.modCore_barriers (c : Nat) (f : Core → Core) : (s.modCore c f).barriers = s.barriers := rfl
@[simp] theorem State.modCore_ops (c : Nat) (f : Core → Core) : (s.modCore c f).ops = s.ops := rfl
@[simp] theorem State.modCore_rpc (c : Nat) (f : Core → Core) : (s.modCore c f).rpc = s.rpc := rfl
@[simp] theorem State.modCore_regs (c : Nat) (f : Core → Core) : (s.modCore c f).regs = s.regs := rfl
@[simp] theorem State.modCore_keys (c : Nat) (f : Core → Core) : (s.modCore c f).keys = s.keys := rfl
@[simp] theorem State.modCore_meas (c : Nat) (f : Core → Core) : (s.modCore c f).meas = s.meas := rfl
@[simp] theorem State.modCore_incarnation (c : Nat) (f : Core → Core) : (s.modCore c f).incarnation = s.incarnation := rfl
@[simp] theorem State.modCore_peers (c : Nat) (f : Core → Core) : (s.modCore c f).peers = s.peers := rfl
@[simp] theorem State.modCore_links (c : Nat) (f : Core → Core) : (s.modCore c f).links = s.links := rfl
@[simp] theorem State.modCore_farDown (c : Nat) (f : Core → Core) : (s.modCore c f).farDown = s.farDown := rfl
@[simp] theorem State.modCore_halters (c : Nat) (f : Core → Core) : (s.modCore c f).halters = s.halters := rfl
@[simp] theorem State.modCore_flash (c : Nat) (f : Core → Core) : (s.modCore c f).flash = s.flash := rfl
@[simp] theorem State.modCore_activeVf (c : Nat) (f : Core → Core) : (s.modCore c f).activeVf = s.activeVf := rfl
@[simp] theorem State.modCore_vfNext (c : Nat) (f : Core → Core) : (s.modCore c f).vfNext = s.vfNext := rfl
@[simp] theorem State.modCore_sliceAt (c : Nat) (f : Core → Core) : (s.modCore c f).sliceAt = s.sliceAt := rfl
@[simp] theorem State.modCore_outs (c : Nat) (f : Core → Core) : (s.modCore c f).outs = s.outs := rfl
@[simp] theorem State.modCore_irqs (c : Nat) (f : Core → Core) : (s.modCore c f).irqs = s.irqs := rfl
@[simp] theorem State.modCore_spdm (c : Nat) (f : Core → Core) : (s.modCore c f).spdm = s.spdm := rfl
@[simp] theorem State.modCore_boot (c : Nat) (f : Core → Core) : (s.modCore c f).boot = s.boot := rfl
@[simp] theorem State.modCore_admitted (c : Nat) (f : Core → Core) : (s.modCore c f).admitted = s.admitted := rfl
@[simp] theorem State.modCore_rr (c : Nat) (f : Core → Core) : (s.modCore c f).rr = s.rr := rfl

@[simp] theorem State.modQuad_clock (q : Nat) (f : Quad → Quad) : (s.modQuad q f).clock = s.clock := rfl
@[simp] theorem State.modQuad_cur (q : Nat) (f : Quad → Quad) : (s.modQuad q f).cur = s.cur := rfl
@[simp] theorem State.modQuad_agenda (q : Nat) (f : Quad → Quad) : (s.modQuad q f).agenda = s.agenda := rfl
@[simp] theorem State.modQuad_free (q : Nat) (f : Quad → Quad) : (s.modQuad q f).free = s.free := rfl
@[simp] theorem State.modQuad_nextSeq (q : Nat) (f : Quad → Quad) : (s.modQuad q f).nextSeq = s.nextSeq := rfl
@[simp] theorem State.modQuad_mem (q : Nat) (f : Quad → Quad) : (s.modQuad q f).mem = s.mem := rfl
@[simp] theorem State.modQuad_failed (q : Nat) (f : Quad → Quad) : (s.modQuad q f).failed = s.failed := rfl
@[simp] theorem State.modQuad_lineTag (q : Nat) (f : Quad → Quad) : (s.modQuad q f).lineTag = s.lineTag := rfl
@[simp] theorem State.modQuad_lineKey (q : Nat) (f : Quad → Quad) : (s.modQuad q f).lineKey = s.lineKey := rfl
@[simp] theorem State.modQuad_teams (q : Nat) (f : Quad → Quad) : (s.modQuad q f).teams = s.teams := rfl
@[simp] theorem State.modQuad_blocks (q : Nat) (f : Quad → Quad) : (s.modQuad q f).blocks = s.blocks := rfl
@[simp] theorem State.modQuad_cores (q : Nat) (f : Quad → Quad) : (s.modQuad q f).cores = s.cores := rfl
@[simp] theorem State.modQuad_dies (q : Nat) (f : Quad → Quad) : (s.modQuad q f).dies = s.dies := rfl
@[simp] theorem State.modQuad_ctxs (q : Nat) (f : Quad → Quad) : (s.modQuad q f).ctxs = s.ctxs := rfl
@[simp] theorem State.modQuad_barriers (q : Nat) (f : Quad → Quad) : (s.modQuad q f).barriers = s.barriers := rfl
@[simp] theorem State.modQuad_ops (q : Nat) (f : Quad → Quad) : (s.modQuad q f).ops = s.ops := rfl
@[simp] theorem State.modQuad_rpc (q : Nat) (f : Quad → Quad) : (s.modQuad q f).rpc = s.rpc := rfl
@[simp] theorem State.modQuad_regs (q : Nat) (f : Quad → Quad) : (s.modQuad q f).regs = s.regs := rfl
@[simp] theorem State.modQuad_keys (q : Nat) (f : Quad → Quad) : (s.modQuad q f).keys = s.keys := rfl
@[simp] theorem State.modQuad_meas (q : Nat) (f : Quad → Quad) : (s.modQuad q f).meas = s.meas := rfl
@[simp] theorem State.modQuad_incarnation (q : Nat) (f : Quad → Quad) : (s.modQuad q f).incarnation = s.incarnation := rfl
@[simp] theorem State.modQuad_peers (q : Nat) (f : Quad → Quad) : (s.modQuad q f).peers = s.peers := rfl
@[simp] theorem State.modQuad_links (q : Nat) (f : Quad → Quad) : (s.modQuad q f).links = s.links := rfl
@[simp] theorem State.modQuad_farDown (q : Nat) (f : Quad → Quad) : (s.modQuad q f).farDown = s.farDown := rfl
@[simp] theorem State.modQuad_halters (q : Nat) (f : Quad → Quad) : (s.modQuad q f).halters = s.halters := rfl
@[simp] theorem State.modQuad_flash (q : Nat) (f : Quad → Quad) : (s.modQuad q f).flash = s.flash := rfl
@[simp] theorem State.modQuad_activeVf (q : Nat) (f : Quad → Quad) : (s.modQuad q f).activeVf = s.activeVf := rfl
@[simp] theorem State.modQuad_vfNext (q : Nat) (f : Quad → Quad) : (s.modQuad q f).vfNext = s.vfNext := rfl
@[simp] theorem State.modQuad_sliceAt (q : Nat) (f : Quad → Quad) : (s.modQuad q f).sliceAt = s.sliceAt := rfl
@[simp] theorem State.modQuad_outs (q : Nat) (f : Quad → Quad) : (s.modQuad q f).outs = s.outs := rfl
@[simp] theorem State.modQuad_irqs (q : Nat) (f : Quad → Quad) : (s.modQuad q f).irqs = s.irqs := rfl
@[simp] theorem State.modQuad_spdm (q : Nat) (f : Quad → Quad) : (s.modQuad q f).spdm = s.spdm := rfl
@[simp] theorem State.modQuad_boot (q : Nat) (f : Quad → Quad) : (s.modQuad q f).boot = s.boot := rfl
@[simp] theorem State.modQuad_admitted (q : Nat) (f : Quad → Quad) : (s.modQuad q f).admitted = s.admitted := rfl
@[simp] theorem State.modQuad_rr (q : Nat) (f : Quad → Quad) : (s.modQuad q f).rr = s.rr := rfl

@[simp] theorem State.modDie_clock (d : Nat) (f : Die → Die) : (s.modDie d f).clock = s.clock := rfl
@[simp] theorem State.modDie_cur (d : Nat) (f : Die → Die) : (s.modDie d f).cur = s.cur := rfl
@[simp] theorem State.modDie_agenda (d : Nat) (f : Die → Die) : (s.modDie d f).agenda = s.agenda := rfl
@[simp] theorem State.modDie_free (d : Nat) (f : Die → Die) : (s.modDie d f).free = s.free := rfl
@[simp] theorem State.modDie_nextSeq (d : Nat) (f : Die → Die) : (s.modDie d f).nextSeq = s.nextSeq := rfl
@[simp] theorem State.modDie_mem (d : Nat) (f : Die → Die) : (s.modDie d f).mem = s.mem := rfl
@[simp] theorem State.modDie_failed (d : Nat) (f : Die → Die) : (s.modDie d f).failed = s.failed := rfl
@[simp] theorem State.modDie_lineTag (d : Nat) (f : Die → Die) : (s.modDie d f).lineTag = s.lineTag := rfl
@[simp] theorem State.modDie_lineKey (d : Nat) (f : Die → Die) : (s.modDie d f).lineKey = s.lineKey := rfl
@[simp] theorem State.modDie_teams (d : Nat) (f : Die → Die) : (s.modDie d f).teams = s.teams := rfl
@[simp] theorem State.modDie_blocks (d : Nat) (f : Die → Die) : (s.modDie d f).blocks = s.blocks := rfl
@[simp] theorem State.modDie_cores (d : Nat) (f : Die → Die) : (s.modDie d f).cores = s.cores := rfl
@[simp] theorem State.modDie_quads (d : Nat) (f : Die → Die) : (s.modDie d f).quads = s.quads := rfl
@[simp] theorem State.modDie_ctxs (d : Nat) (f : Die → Die) : (s.modDie d f).ctxs = s.ctxs := rfl
@[simp] theorem State.modDie_barriers (d : Nat) (f : Die → Die) : (s.modDie d f).barriers = s.barriers := rfl
@[simp] theorem State.modDie_ops (d : Nat) (f : Die → Die) : (s.modDie d f).ops = s.ops := rfl
@[simp] theorem State.modDie_rpc (d : Nat) (f : Die → Die) : (s.modDie d f).rpc = s.rpc := rfl
@[simp] theorem State.modDie_regs (d : Nat) (f : Die → Die) : (s.modDie d f).regs = s.regs := rfl
@[simp] theorem State.modDie_keys (d : Nat) (f : Die → Die) : (s.modDie d f).keys = s.keys := rfl
@[simp] theorem State.modDie_meas (d : Nat) (f : Die → Die) : (s.modDie d f).meas = s.meas := rfl
@[simp] theorem State.modDie_incarnation (d : Nat) (f : Die → Die) : (s.modDie d f).incarnation = s.incarnation := rfl
@[simp] theorem State.modDie_peers (d : Nat) (f : Die → Die) : (s.modDie d f).peers = s.peers := rfl
@[simp] theorem State.modDie_links (d : Nat) (f : Die → Die) : (s.modDie d f).links = s.links := rfl
@[simp] theorem State.modDie_farDown (d : Nat) (f : Die → Die) : (s.modDie d f).farDown = s.farDown := rfl
@[simp] theorem State.modDie_halters (d : Nat) (f : Die → Die) : (s.modDie d f).halters = s.halters := rfl
@[simp] theorem State.modDie_flash (d : Nat) (f : Die → Die) : (s.modDie d f).flash = s.flash := rfl
@[simp] theorem State.modDie_activeVf (d : Nat) (f : Die → Die) : (s.modDie d f).activeVf = s.activeVf := rfl
@[simp] theorem State.modDie_vfNext (d : Nat) (f : Die → Die) : (s.modDie d f).vfNext = s.vfNext := rfl
@[simp] theorem State.modDie_sliceAt (d : Nat) (f : Die → Die) : (s.modDie d f).sliceAt = s.sliceAt := rfl
@[simp] theorem State.modDie_outs (d : Nat) (f : Die → Die) : (s.modDie d f).outs = s.outs := rfl
@[simp] theorem State.modDie_irqs (d : Nat) (f : Die → Die) : (s.modDie d f).irqs = s.irqs := rfl
@[simp] theorem State.modDie_spdm (d : Nat) (f : Die → Die) : (s.modDie d f).spdm = s.spdm := rfl
@[simp] theorem State.modDie_boot (d : Nat) (f : Die → Die) : (s.modDie d f).boot = s.boot := rfl
@[simp] theorem State.modDie_admitted (d : Nat) (f : Die → Die) : (s.modDie d f).admitted = s.admitted := rfl
@[simp] theorem State.modDie_rr (d : Nat) (f : Die → Die) : (s.modDie d f).rr = s.rr := rfl

@[simp] theorem State.modCtx_clock (c : Nat) (f : Ctx → Ctx) : (s.modCtx c f).clock = s.clock := rfl
@[simp] theorem State.modCtx_cur (c : Nat) (f : Ctx → Ctx) : (s.modCtx c f).cur = s.cur := rfl
@[simp] theorem State.modCtx_agenda (c : Nat) (f : Ctx → Ctx) : (s.modCtx c f).agenda = s.agenda := rfl
@[simp] theorem State.modCtx_free (c : Nat) (f : Ctx → Ctx) : (s.modCtx c f).free = s.free := rfl
@[simp] theorem State.modCtx_nextSeq (c : Nat) (f : Ctx → Ctx) : (s.modCtx c f).nextSeq = s.nextSeq := rfl
@[simp] theorem State.modCtx_mem (c : Nat) (f : Ctx → Ctx) : (s.modCtx c f).mem = s.mem := rfl
@[simp] theorem State.modCtx_failed (c : Nat) (f : Ctx → Ctx) : (s.modCtx c f).failed = s.failed := rfl
@[simp] theorem State.modCtx_lineTag (c : Nat) (f : Ctx → Ctx) : (s.modCtx c f).lineTag = s.lineTag := rfl
@[simp] theorem State.modCtx_lineKey (c : Nat) (f : Ctx → Ctx) : (s.modCtx c f).lineKey = s.lineKey := rfl
@[simp] theorem State.modCtx_teams (c : Nat) (f : Ctx → Ctx) : (s.modCtx c f).teams = s.teams := rfl
@[simp] theorem State.modCtx_blocks (c : Nat) (f : Ctx → Ctx) : (s.modCtx c f).blocks = s.blocks := rfl
@[simp] theorem State.modCtx_cores (c : Nat) (f : Ctx → Ctx) : (s.modCtx c f).cores = s.cores := rfl
@[simp] theorem State.modCtx_quads (c : Nat) (f : Ctx → Ctx) : (s.modCtx c f).quads = s.quads := rfl
@[simp] theorem State.modCtx_dies (c : Nat) (f : Ctx → Ctx) : (s.modCtx c f).dies = s.dies := rfl
@[simp] theorem State.modCtx_barriers (c : Nat) (f : Ctx → Ctx) : (s.modCtx c f).barriers = s.barriers := rfl
@[simp] theorem State.modCtx_ops (c : Nat) (f : Ctx → Ctx) : (s.modCtx c f).ops = s.ops := rfl
@[simp] theorem State.modCtx_rpc (c : Nat) (f : Ctx → Ctx) : (s.modCtx c f).rpc = s.rpc := rfl
@[simp] theorem State.modCtx_regs (c : Nat) (f : Ctx → Ctx) : (s.modCtx c f).regs = s.regs := rfl
@[simp] theorem State.modCtx_keys (c : Nat) (f : Ctx → Ctx) : (s.modCtx c f).keys = s.keys := rfl
@[simp] theorem State.modCtx_meas (c : Nat) (f : Ctx → Ctx) : (s.modCtx c f).meas = s.meas := rfl
@[simp] theorem State.modCtx_incarnation (c : Nat) (f : Ctx → Ctx) : (s.modCtx c f).incarnation = s.incarnation := rfl
@[simp] theorem State.modCtx_peers (c : Nat) (f : Ctx → Ctx) : (s.modCtx c f).peers = s.peers := rfl
@[simp] theorem State.modCtx_links (c : Nat) (f : Ctx → Ctx) : (s.modCtx c f).links = s.links := rfl
@[simp] theorem State.modCtx_farDown (c : Nat) (f : Ctx → Ctx) : (s.modCtx c f).farDown = s.farDown := rfl
@[simp] theorem State.modCtx_halters (c : Nat) (f : Ctx → Ctx) : (s.modCtx c f).halters = s.halters := rfl
@[simp] theorem State.modCtx_flash (c : Nat) (f : Ctx → Ctx) : (s.modCtx c f).flash = s.flash := rfl
@[simp] theorem State.modCtx_activeVf (c : Nat) (f : Ctx → Ctx) : (s.modCtx c f).activeVf = s.activeVf := rfl
@[simp] theorem State.modCtx_vfNext (c : Nat) (f : Ctx → Ctx) : (s.modCtx c f).vfNext = s.vfNext := rfl
@[simp] theorem State.modCtx_sliceAt (c : Nat) (f : Ctx → Ctx) : (s.modCtx c f).sliceAt = s.sliceAt := rfl
@[simp] theorem State.modCtx_outs (c : Nat) (f : Ctx → Ctx) : (s.modCtx c f).outs = s.outs := rfl
@[simp] theorem State.modCtx_irqs (c : Nat) (f : Ctx → Ctx) : (s.modCtx c f).irqs = s.irqs := rfl
@[simp] theorem State.modCtx_spdm (c : Nat) (f : Ctx → Ctx) : (s.modCtx c f).spdm = s.spdm := rfl
@[simp] theorem State.modCtx_boot (c : Nat) (f : Ctx → Ctx) : (s.modCtx c f).boot = s.boot := rfl
@[simp] theorem State.modCtx_admitted (c : Nat) (f : Ctx → Ctx) : (s.modCtx c f).admitted = s.admitted := rfl
@[simp] theorem State.modCtx_rr (c : Nat) (f : Ctx → Ctx) : (s.modCtx c f).rr = s.rr := rfl

@[simp] theorem State.modPeer_clock (n : Nat) (f : Peer → Peer) : (s.modPeer n f).clock = s.clock := rfl
@[simp] theorem State.modPeer_cur (n : Nat) (f : Peer → Peer) : (s.modPeer n f).cur = s.cur := rfl
@[simp] theorem State.modPeer_agenda (n : Nat) (f : Peer → Peer) : (s.modPeer n f).agenda = s.agenda := rfl
@[simp] theorem State.modPeer_free (n : Nat) (f : Peer → Peer) : (s.modPeer n f).free = s.free := rfl
@[simp] theorem State.modPeer_nextSeq (n : Nat) (f : Peer → Peer) : (s.modPeer n f).nextSeq = s.nextSeq := rfl
@[simp] theorem State.modPeer_mem (n : Nat) (f : Peer → Peer) : (s.modPeer n f).mem = s.mem := rfl
@[simp] theorem State.modPeer_failed (n : Nat) (f : Peer → Peer) : (s.modPeer n f).failed = s.failed := rfl
@[simp] theorem State.modPeer_lineTag (n : Nat) (f : Peer → Peer) : (s.modPeer n f).lineTag = s.lineTag := rfl
@[simp] theorem State.modPeer_lineKey (n : Nat) (f : Peer → Peer) : (s.modPeer n f).lineKey = s.lineKey := rfl
@[simp] theorem State.modPeer_teams (n : Nat) (f : Peer → Peer) : (s.modPeer n f).teams = s.teams := rfl
@[simp] theorem State.modPeer_blocks (n : Nat) (f : Peer → Peer) : (s.modPeer n f).blocks = s.blocks := rfl
@[simp] theorem State.modPeer_cores (n : Nat) (f : Peer → Peer) : (s.modPeer n f).cores = s.cores := rfl
@[simp] theorem State.modPeer_quads (n : Nat) (f : Peer → Peer) : (s.modPeer n f).quads = s.quads := rfl
@[simp] theorem State.modPeer_dies (n : Nat) (f : Peer → Peer) : (s.modPeer n f).dies = s.dies := rfl
@[simp] theorem State.modPeer_ctxs (n : Nat) (f : Peer → Peer) : (s.modPeer n f).ctxs = s.ctxs := rfl
@[simp] theorem State.modPeer_barriers (n : Nat) (f : Peer → Peer) : (s.modPeer n f).barriers = s.barriers := rfl
@[simp] theorem State.modPeer_ops (n : Nat) (f : Peer → Peer) : (s.modPeer n f).ops = s.ops := rfl
@[simp] theorem State.modPeer_rpc (n : Nat) (f : Peer → Peer) : (s.modPeer n f).rpc = s.rpc := rfl
@[simp] theorem State.modPeer_regs (n : Nat) (f : Peer → Peer) : (s.modPeer n f).regs = s.regs := rfl
@[simp] theorem State.modPeer_keys (n : Nat) (f : Peer → Peer) : (s.modPeer n f).keys = s.keys := rfl
@[simp] theorem State.modPeer_meas (n : Nat) (f : Peer → Peer) : (s.modPeer n f).meas = s.meas := rfl
@[simp] theorem State.modPeer_incarnation (n : Nat) (f : Peer → Peer) : (s.modPeer n f).incarnation = s.incarnation := rfl
@[simp] theorem State.modPeer_links (n : Nat) (f : Peer → Peer) : (s.modPeer n f).links = s.links := rfl
@[simp] theorem State.modPeer_farDown (n : Nat) (f : Peer → Peer) : (s.modPeer n f).farDown = s.farDown := rfl
@[simp] theorem State.modPeer_halters (n : Nat) (f : Peer → Peer) : (s.modPeer n f).halters = s.halters := rfl
@[simp] theorem State.modPeer_flash (n : Nat) (f : Peer → Peer) : (s.modPeer n f).flash = s.flash := rfl
@[simp] theorem State.modPeer_activeVf (n : Nat) (f : Peer → Peer) : (s.modPeer n f).activeVf = s.activeVf := rfl
@[simp] theorem State.modPeer_vfNext (n : Nat) (f : Peer → Peer) : (s.modPeer n f).vfNext = s.vfNext := rfl
@[simp] theorem State.modPeer_sliceAt (n : Nat) (f : Peer → Peer) : (s.modPeer n f).sliceAt = s.sliceAt := rfl
@[simp] theorem State.modPeer_outs (n : Nat) (f : Peer → Peer) : (s.modPeer n f).outs = s.outs := rfl
@[simp] theorem State.modPeer_irqs (n : Nat) (f : Peer → Peer) : (s.modPeer n f).irqs = s.irqs := rfl
@[simp] theorem State.modPeer_spdm (n : Nat) (f : Peer → Peer) : (s.modPeer n f).spdm = s.spdm := rfl
@[simp] theorem State.modPeer_boot (n : Nat) (f : Peer → Peer) : (s.modPeer n f).boot = s.boot := rfl
@[simp] theorem State.modPeer_admitted (n : Nat) (f : Peer → Peer) : (s.modPeer n f).admitted = s.admitted := rfl
@[simp] theorem State.modPeer_rr (n : Nat) (f : Peer → Peer) : (s.modPeer n f).rr = s.rr := rfl

@[simp] theorem State.setTeam_clock (k : Nat) (t : Team) : (s.setTeam k t).clock = s.clock := rfl
@[simp] theorem State.setTeam_cur (k : Nat) (t : Team) : (s.setTeam k t).cur = s.cur := rfl
@[simp] theorem State.setTeam_agenda (k : Nat) (t : Team) : (s.setTeam k t).agenda = s.agenda := rfl
@[simp] theorem State.setTeam_free (k : Nat) (t : Team) : (s.setTeam k t).free = s.free := rfl
@[simp] theorem State.setTeam_nextSeq (k : Nat) (t : Team) : (s.setTeam k t).nextSeq = s.nextSeq := rfl
@[simp] theorem State.setTeam_mem (k : Nat) (t : Team) : (s.setTeam k t).mem = s.mem := rfl
@[simp] theorem State.setTeam_failed (k : Nat) (t : Team) : (s.setTeam k t).failed = s.failed := rfl
@[simp] theorem State.setTeam_lineTag (k : Nat) (t : Team) : (s.setTeam k t).lineTag = s.lineTag := rfl
@[simp] theorem State.setTeam_lineKey (k : Nat) (t : Team) : (s.setTeam k t).lineKey = s.lineKey := rfl
@[simp] theorem State.setTeam_blocks (k : Nat) (t : Team) : (s.setTeam k t).blocks = s.blocks := rfl
@[simp] theorem State.setTeam_cores (k : Nat) (t : Team) : (s.setTeam k t).cores = s.cores := rfl
@[simp] theorem State.setTeam_quads (k : Nat) (t : Team) : (s.setTeam k t).quads = s.quads := rfl
@[simp] theorem State.setTeam_dies (k : Nat) (t : Team) : (s.setTeam k t).dies = s.dies := rfl
@[simp] theorem State.setTeam_ctxs (k : Nat) (t : Team) : (s.setTeam k t).ctxs = s.ctxs := rfl
@[simp] theorem State.setTeam_barriers (k : Nat) (t : Team) : (s.setTeam k t).barriers = s.barriers := rfl
@[simp] theorem State.setTeam_ops (k : Nat) (t : Team) : (s.setTeam k t).ops = s.ops := rfl
@[simp] theorem State.setTeam_rpc (k : Nat) (t : Team) : (s.setTeam k t).rpc = s.rpc := rfl
@[simp] theorem State.setTeam_regs (k : Nat) (t : Team) : (s.setTeam k t).regs = s.regs := rfl
@[simp] theorem State.setTeam_keys (k : Nat) (t : Team) : (s.setTeam k t).keys = s.keys := rfl
@[simp] theorem State.setTeam_meas (k : Nat) (t : Team) : (s.setTeam k t).meas = s.meas := rfl
@[simp] theorem State.setTeam_incarnation (k : Nat) (t : Team) : (s.setTeam k t).incarnation = s.incarnation := rfl
@[simp] theorem State.setTeam_peers (k : Nat) (t : Team) : (s.setTeam k t).peers = s.peers := rfl
@[simp] theorem State.setTeam_links (k : Nat) (t : Team) : (s.setTeam k t).links = s.links := rfl
@[simp] theorem State.setTeam_farDown (k : Nat) (t : Team) : (s.setTeam k t).farDown = s.farDown := rfl
@[simp] theorem State.setTeam_halters (k : Nat) (t : Team) : (s.setTeam k t).halters = s.halters := rfl
@[simp] theorem State.setTeam_flash (k : Nat) (t : Team) : (s.setTeam k t).flash = s.flash := rfl
@[simp] theorem State.setTeam_activeVf (k : Nat) (t : Team) : (s.setTeam k t).activeVf = s.activeVf := rfl
@[simp] theorem State.setTeam_vfNext (k : Nat) (t : Team) : (s.setTeam k t).vfNext = s.vfNext := rfl
@[simp] theorem State.setTeam_sliceAt (k : Nat) (t : Team) : (s.setTeam k t).sliceAt = s.sliceAt := rfl
@[simp] theorem State.setTeam_outs (k : Nat) (t : Team) : (s.setTeam k t).outs = s.outs := rfl
@[simp] theorem State.setTeam_irqs (k : Nat) (t : Team) : (s.setTeam k t).irqs = s.irqs := rfl
@[simp] theorem State.setTeam_spdm (k : Nat) (t : Team) : (s.setTeam k t).spdm = s.spdm := rfl
@[simp] theorem State.setTeam_boot (k : Nat) (t : Team) : (s.setTeam k t).boot = s.boot := rfl
@[simp] theorem State.setTeam_admitted (k : Nat) (t : Team) : (s.setTeam k t).admitted = s.admitted := rfl
@[simp] theorem State.setTeam_rr (k : Nat) (t : Team) : (s.setTeam k t).rr = s.rr := rfl

@[simp] theorem State.wrByte_clock (a : Nat) (b : Byte) : (s.wrByte a b).clock = s.clock := rfl
@[simp] theorem State.wrByte_cur (a : Nat) (b : Byte) : (s.wrByte a b).cur = s.cur := rfl
@[simp] theorem State.wrByte_agenda (a : Nat) (b : Byte) : (s.wrByte a b).agenda = s.agenda := rfl
@[simp] theorem State.wrByte_free (a : Nat) (b : Byte) : (s.wrByte a b).free = s.free := rfl
@[simp] theorem State.wrByte_nextSeq (a : Nat) (b : Byte) : (s.wrByte a b).nextSeq = s.nextSeq := rfl
@[simp] theorem State.wrByte_failed (a : Nat) (b : Byte) : (s.wrByte a b).failed = s.failed := rfl
@[simp] theorem State.wrByte_lineTag (a : Nat) (b : Byte) : (s.wrByte a b).lineTag = s.lineTag := rfl
@[simp] theorem State.wrByte_lineKey (a : Nat) (b : Byte) : (s.wrByte a b).lineKey = s.lineKey := rfl
@[simp] theorem State.wrByte_teams (a : Nat) (b : Byte) : (s.wrByte a b).teams = s.teams := rfl
@[simp] theorem State.wrByte_blocks (a : Nat) (b : Byte) : (s.wrByte a b).blocks = s.blocks := rfl
@[simp] theorem State.wrByte_cores (a : Nat) (b : Byte) : (s.wrByte a b).cores = s.cores := rfl
@[simp] theorem State.wrByte_quads (a : Nat) (b : Byte) : (s.wrByte a b).quads = s.quads := rfl
@[simp] theorem State.wrByte_dies (a : Nat) (b : Byte) : (s.wrByte a b).dies = s.dies := rfl
@[simp] theorem State.wrByte_ctxs (a : Nat) (b : Byte) : (s.wrByte a b).ctxs = s.ctxs := rfl
@[simp] theorem State.wrByte_barriers (a : Nat) (b : Byte) : (s.wrByte a b).barriers = s.barriers := rfl
@[simp] theorem State.wrByte_ops (a : Nat) (b : Byte) : (s.wrByte a b).ops = s.ops := rfl
@[simp] theorem State.wrByte_rpc (a : Nat) (b : Byte) : (s.wrByte a b).rpc = s.rpc := rfl
@[simp] theorem State.wrByte_regs (a : Nat) (b : Byte) : (s.wrByte a b).regs = s.regs := rfl
@[simp] theorem State.wrByte_keys (a : Nat) (b : Byte) : (s.wrByte a b).keys = s.keys := rfl
@[simp] theorem State.wrByte_meas (a : Nat) (b : Byte) : (s.wrByte a b).meas = s.meas := rfl
@[simp] theorem State.wrByte_incarnation (a : Nat) (b : Byte) : (s.wrByte a b).incarnation = s.incarnation := rfl
@[simp] theorem State.wrByte_peers (a : Nat) (b : Byte) : (s.wrByte a b).peers = s.peers := rfl
@[simp] theorem State.wrByte_links (a : Nat) (b : Byte) : (s.wrByte a b).links = s.links := rfl
@[simp] theorem State.wrByte_farDown (a : Nat) (b : Byte) : (s.wrByte a b).farDown = s.farDown := rfl
@[simp] theorem State.wrByte_halters (a : Nat) (b : Byte) : (s.wrByte a b).halters = s.halters := rfl
@[simp] theorem State.wrByte_flash (a : Nat) (b : Byte) : (s.wrByte a b).flash = s.flash := rfl
@[simp] theorem State.wrByte_activeVf (a : Nat) (b : Byte) : (s.wrByte a b).activeVf = s.activeVf := rfl
@[simp] theorem State.wrByte_vfNext (a : Nat) (b : Byte) : (s.wrByte a b).vfNext = s.vfNext := rfl
@[simp] theorem State.wrByte_sliceAt (a : Nat) (b : Byte) : (s.wrByte a b).sliceAt = s.sliceAt := rfl
@[simp] theorem State.wrByte_outs (a : Nat) (b : Byte) : (s.wrByte a b).outs = s.outs := rfl
@[simp] theorem State.wrByte_irqs (a : Nat) (b : Byte) : (s.wrByte a b).irqs = s.irqs := rfl
@[simp] theorem State.wrByte_spdm (a : Nat) (b : Byte) : (s.wrByte a b).spdm = s.spdm := rfl
@[simp] theorem State.wrByte_boot (a : Nat) (b : Byte) : (s.wrByte a b).boot = s.boot := rfl
@[simp] theorem State.wrByte_admitted (a : Nat) (b : Byte) : (s.wrByte a b).admitted = s.admitted := rfl
@[simp] theorem State.wrByte_rr (a : Nat) (b : Byte) : (s.wrByte a b).rr = s.rr := rfl

@[simp] theorem State.modTeam_clock (k : Nat) (f : Team → Team) : (s.modTeam k f).clock = s.clock := by unfold State.modTeam; split <;> rfl
@[simp] theorem State.modTeam_cur (k : Nat) (f : Team → Team) : (s.modTeam k f).cur = s.cur := by unfold State.modTeam; split <;> rfl
@[simp] theorem State.modTeam_agenda (k : Nat) (f : Team → Team) : (s.modTeam k f).agenda = s.agenda := by unfold State.modTeam; split <;> rfl
@[simp] theorem State.modTeam_free (k : Nat) (f : Team → Team) : (s.modTeam k f).free = s.free := by unfold State.modTeam; split <;> rfl
@[simp] theorem State.modTeam_nextSeq (k : Nat) (f : Team → Team) : (s.modTeam k f).nextSeq = s.nextSeq := by unfold State.modTeam; split <;> rfl
@[simp] theorem State.modTeam_mem (k : Nat) (f : Team → Team) : (s.modTeam k f).mem = s.mem := by unfold State.modTeam; split <;> rfl
@[simp] theorem State.modTeam_failed (k : Nat) (f : Team → Team) : (s.modTeam k f).failed = s.failed := by unfold State.modTeam; split <;> rfl
@[simp] theorem State.modTeam_lineTag (k : Nat) (f : Team → Team) : (s.modTeam k f).lineTag = s.lineTag := by unfold State.modTeam; split <;> rfl
@[simp] theorem State.modTeam_lineKey (k : Nat) (f : Team → Team) : (s.modTeam k f).lineKey = s.lineKey := by unfold State.modTeam; split <;> rfl
@[simp] theorem State.modTeam_blocks (k : Nat) (f : Team → Team) : (s.modTeam k f).blocks = s.blocks := by unfold State.modTeam; split <;> rfl
@[simp] theorem State.modTeam_cores (k : Nat) (f : Team → Team) : (s.modTeam k f).cores = s.cores := by unfold State.modTeam; split <;> rfl
@[simp] theorem State.modTeam_quads (k : Nat) (f : Team → Team) : (s.modTeam k f).quads = s.quads := by unfold State.modTeam; split <;> rfl
@[simp] theorem State.modTeam_dies (k : Nat) (f : Team → Team) : (s.modTeam k f).dies = s.dies := by unfold State.modTeam; split <;> rfl
@[simp] theorem State.modTeam_ctxs (k : Nat) (f : Team → Team) : (s.modTeam k f).ctxs = s.ctxs := by unfold State.modTeam; split <;> rfl
@[simp] theorem State.modTeam_barriers (k : Nat) (f : Team → Team) : (s.modTeam k f).barriers = s.barriers := by unfold State.modTeam; split <;> rfl
@[simp] theorem State.modTeam_ops (k : Nat) (f : Team → Team) : (s.modTeam k f).ops = s.ops := by unfold State.modTeam; split <;> rfl
@[simp] theorem State.modTeam_rpc (k : Nat) (f : Team → Team) : (s.modTeam k f).rpc = s.rpc := by unfold State.modTeam; split <;> rfl
@[simp] theorem State.modTeam_regs (k : Nat) (f : Team → Team) : (s.modTeam k f).regs = s.regs := by unfold State.modTeam; split <;> rfl
@[simp] theorem State.modTeam_keys (k : Nat) (f : Team → Team) : (s.modTeam k f).keys = s.keys := by unfold State.modTeam; split <;> rfl
@[simp] theorem State.modTeam_meas (k : Nat) (f : Team → Team) : (s.modTeam k f).meas = s.meas := by unfold State.modTeam; split <;> rfl
@[simp] theorem State.modTeam_incarnation (k : Nat) (f : Team → Team) : (s.modTeam k f).incarnation = s.incarnation := by unfold State.modTeam; split <;> rfl
@[simp] theorem State.modTeam_peers (k : Nat) (f : Team → Team) : (s.modTeam k f).peers = s.peers := by unfold State.modTeam; split <;> rfl
@[simp] theorem State.modTeam_links (k : Nat) (f : Team → Team) : (s.modTeam k f).links = s.links := by unfold State.modTeam; split <;> rfl
@[simp] theorem State.modTeam_farDown (k : Nat) (f : Team → Team) : (s.modTeam k f).farDown = s.farDown := by unfold State.modTeam; split <;> rfl
@[simp] theorem State.modTeam_halters (k : Nat) (f : Team → Team) : (s.modTeam k f).halters = s.halters := by unfold State.modTeam; split <;> rfl
@[simp] theorem State.modTeam_flash (k : Nat) (f : Team → Team) : (s.modTeam k f).flash = s.flash := by unfold State.modTeam; split <;> rfl
@[simp] theorem State.modTeam_activeVf (k : Nat) (f : Team → Team) : (s.modTeam k f).activeVf = s.activeVf := by unfold State.modTeam; split <;> rfl
@[simp] theorem State.modTeam_vfNext (k : Nat) (f : Team → Team) : (s.modTeam k f).vfNext = s.vfNext := by unfold State.modTeam; split <;> rfl
@[simp] theorem State.modTeam_sliceAt (k : Nat) (f : Team → Team) : (s.modTeam k f).sliceAt = s.sliceAt := by unfold State.modTeam; split <;> rfl
@[simp] theorem State.modTeam_outs (k : Nat) (f : Team → Team) : (s.modTeam k f).outs = s.outs := by unfold State.modTeam; split <;> rfl
@[simp] theorem State.modTeam_irqs (k : Nat) (f : Team → Team) : (s.modTeam k f).irqs = s.irqs := by unfold State.modTeam; split <;> rfl
@[simp] theorem State.modTeam_spdm (k : Nat) (f : Team → Team) : (s.modTeam k f).spdm = s.spdm := by unfold State.modTeam; split <;> rfl
@[simp] theorem State.modTeam_boot (k : Nat) (f : Team → Team) : (s.modTeam k f).boot = s.boot := by unfold State.modTeam; split <;> rfl
@[simp] theorem State.modTeam_admitted (k : Nat) (f : Team → Team) : (s.modTeam k f).admitted = s.admitted := by unfold State.modTeam; split <;> rfl
@[simp] theorem State.modTeam_rr (k : Nat) (f : Team → Team) : (s.modTeam k f).rr = s.rr := by unfold State.modTeam; split <;> rfl

@[simp] theorem State.modBlock_clock (k : Nat) (f : Block → Block) : (s.modBlock k f).clock = s.clock := by unfold State.modBlock; split <;> rfl
@[simp] theorem State.modBlock_cur (k : Nat) (f : Block → Block) : (s.modBlock k f).cur = s.cur := by unfold State.modBlock; split <;> rfl
@[simp] theorem State.modBlock_agenda (k : Nat) (f : Block → Block) : (s.modBlock k f).agenda = s.agenda := by unfold State.modBlock; split <;> rfl
@[simp] theorem State.modBlock_free (k : Nat) (f : Block → Block) : (s.modBlock k f).free = s.free := by unfold State.modBlock; split <;> rfl
@[simp] theorem State.modBlock_nextSeq (k : Nat) (f : Block → Block) : (s.modBlock k f).nextSeq = s.nextSeq := by unfold State.modBlock; split <;> rfl
@[simp] theorem State.modBlock_mem (k : Nat) (f : Block → Block) : (s.modBlock k f).mem = s.mem := by unfold State.modBlock; split <;> rfl
@[simp] theorem State.modBlock_failed (k : Nat) (f : Block → Block) : (s.modBlock k f).failed = s.failed := by unfold State.modBlock; split <;> rfl
@[simp] theorem State.modBlock_lineTag (k : Nat) (f : Block → Block) : (s.modBlock k f).lineTag = s.lineTag := by unfold State.modBlock; split <;> rfl
@[simp] theorem State.modBlock_lineKey (k : Nat) (f : Block → Block) : (s.modBlock k f).lineKey = s.lineKey := by unfold State.modBlock; split <;> rfl
@[simp] theorem State.modBlock_teams (k : Nat) (f : Block → Block) : (s.modBlock k f).teams = s.teams := by unfold State.modBlock; split <;> rfl
@[simp] theorem State.modBlock_cores (k : Nat) (f : Block → Block) : (s.modBlock k f).cores = s.cores := by unfold State.modBlock; split <;> rfl
@[simp] theorem State.modBlock_quads (k : Nat) (f : Block → Block) : (s.modBlock k f).quads = s.quads := by unfold State.modBlock; split <;> rfl
@[simp] theorem State.modBlock_dies (k : Nat) (f : Block → Block) : (s.modBlock k f).dies = s.dies := by unfold State.modBlock; split <;> rfl
@[simp] theorem State.modBlock_ctxs (k : Nat) (f : Block → Block) : (s.modBlock k f).ctxs = s.ctxs := by unfold State.modBlock; split <;> rfl
@[simp] theorem State.modBlock_barriers (k : Nat) (f : Block → Block) : (s.modBlock k f).barriers = s.barriers := by unfold State.modBlock; split <;> rfl
@[simp] theorem State.modBlock_ops (k : Nat) (f : Block → Block) : (s.modBlock k f).ops = s.ops := by unfold State.modBlock; split <;> rfl
@[simp] theorem State.modBlock_rpc (k : Nat) (f : Block → Block) : (s.modBlock k f).rpc = s.rpc := by unfold State.modBlock; split <;> rfl
@[simp] theorem State.modBlock_regs (k : Nat) (f : Block → Block) : (s.modBlock k f).regs = s.regs := by unfold State.modBlock; split <;> rfl
@[simp] theorem State.modBlock_keys (k : Nat) (f : Block → Block) : (s.modBlock k f).keys = s.keys := by unfold State.modBlock; split <;> rfl
@[simp] theorem State.modBlock_meas (k : Nat) (f : Block → Block) : (s.modBlock k f).meas = s.meas := by unfold State.modBlock; split <;> rfl
@[simp] theorem State.modBlock_incarnation (k : Nat) (f : Block → Block) : (s.modBlock k f).incarnation = s.incarnation := by unfold State.modBlock; split <;> rfl
@[simp] theorem State.modBlock_peers (k : Nat) (f : Block → Block) : (s.modBlock k f).peers = s.peers := by unfold State.modBlock; split <;> rfl
@[simp] theorem State.modBlock_links (k : Nat) (f : Block → Block) : (s.modBlock k f).links = s.links := by unfold State.modBlock; split <;> rfl
@[simp] theorem State.modBlock_farDown (k : Nat) (f : Block → Block) : (s.modBlock k f).farDown = s.farDown := by unfold State.modBlock; split <;> rfl
@[simp] theorem State.modBlock_halters (k : Nat) (f : Block → Block) : (s.modBlock k f).halters = s.halters := by unfold State.modBlock; split <;> rfl
@[simp] theorem State.modBlock_flash (k : Nat) (f : Block → Block) : (s.modBlock k f).flash = s.flash := by unfold State.modBlock; split <;> rfl
@[simp] theorem State.modBlock_activeVf (k : Nat) (f : Block → Block) : (s.modBlock k f).activeVf = s.activeVf := by unfold State.modBlock; split <;> rfl
@[simp] theorem State.modBlock_vfNext (k : Nat) (f : Block → Block) : (s.modBlock k f).vfNext = s.vfNext := by unfold State.modBlock; split <;> rfl
@[simp] theorem State.modBlock_sliceAt (k : Nat) (f : Block → Block) : (s.modBlock k f).sliceAt = s.sliceAt := by unfold State.modBlock; split <;> rfl
@[simp] theorem State.modBlock_outs (k : Nat) (f : Block → Block) : (s.modBlock k f).outs = s.outs := by unfold State.modBlock; split <;> rfl
@[simp] theorem State.modBlock_irqs (k : Nat) (f : Block → Block) : (s.modBlock k f).irqs = s.irqs := by unfold State.modBlock; split <;> rfl
@[simp] theorem State.modBlock_spdm (k : Nat) (f : Block → Block) : (s.modBlock k f).spdm = s.spdm := by unfold State.modBlock; split <;> rfl
@[simp] theorem State.modBlock_boot (k : Nat) (f : Block → Block) : (s.modBlock k f).boot = s.boot := by unfold State.modBlock; split <;> rfl
@[simp] theorem State.modBlock_admitted (k : Nat) (f : Block → Block) : (s.modBlock k f).admitted = s.admitted := by unfold State.modBlock; split <;> rfl
@[simp] theorem State.modBlock_rr (k : Nat) (f : Block → Block) : (s.modBlock k f).rr = s.rr := by unfold State.modBlock; split <;> rfl
end

section
variable (t : Team) (n : Nat)


@[simp] theorem Team.setX_pc (v : Word) : (t.setX n v).pc = t.pc := by unfold Team.setX; split <;> rfl
@[simp] theorem Team.setX_em (v : Word) : (t.setX n v).em = t.em := by unfold Team.setX; split <;> rfl
@[simp] theorem Team.setX_exited (v : Word) : (t.setX n v).exited = t.exited := by unfold Team.setX; split <;> rfl
@[simp] theorem Team.setX_p (v : Word) : (t.setX n v).p = t.p := by unfold Team.setX; split <;> rfl
@[simp] theorem Team.setX_v (v : Word) : (t.setX n v).v = t.v := by unfold Team.setX; split <;> rfl
@[simp] theorem Team.setX_fs (v : Word) : (t.setX n v).fs = t.fs := by unfold Team.setX; split <;> rfl
@[simp] theorem Team.setX_tiles (v : Word) : (t.setX n v).tiles = t.tiles := by unfold Team.setX; split <;> rfl
@[simp] theorem Team.setX_out (v : Word) : (t.setX n v).out = t.out := by unfold Team.setX; split <;> rfl
@[simp] theorem Team.setX_issued (v : Word) : (t.setX n v).issued = t.issued := by unfold Team.setX; split <;> rfl
@[simp] theorem Team.setX_contpc (v : Word) : (t.setX n v).contpc = t.contpc := by unfold Team.setX; split <;> rfl
@[simp] theorem Team.setX_tmode (v : Word) : (t.setX n v).tmode = t.tmode := by unfold Team.setX; split <;> rfl
@[simp] theorem Team.setX_stack (v : Word) : (t.setX n v).stack = t.stack := by unfold Team.setX; split <;> rfl
@[simp] theorem Team.setX_remap (v : Word) : (t.setX n v).remap = t.remap := by unfold Team.setX; split <;> rfl
@[simp] theorem Team.setX_pbs (v : Word) : (t.setX n v).pbs = t.pbs := by unfold Team.setX; split <;> rfl
@[simp] theorem Team.setX_handler (v : Word) : (t.setX n v).handler = t.handler := by unfold Team.setX; split <;> rfl
@[simp] theorem Team.setX_wait (v : Word) : (t.setX n v).wait = t.wait := by unfold Team.setX; split <;> rfl
@[simp] theorem Team.setX_hold (v : Word) : (t.setX n v).hold = t.hold := by unfold Team.setX; split <;> rfl
@[simp] theorem Team.setX_mon (v : Word) : (t.setX n v).mon = t.mon := by unfold Team.setX; split <;> rfl
@[simp] theorem Team.setX_bpSkip (v : Word) : (t.setX n v).bpSkip = t.bpSkip := by unfold Team.setX; split <;> rfl
@[simp] theorem Team.setX_fault (v : Word) : (t.setX n v).fault = t.fault := by unfold Team.setX; split <;> rfl
@[simp] theorem Team.setX_latched (v : Word) : (t.setX n v).latched = t.latched := by unfold Team.setX; split <;> rfl
@[simp] theorem Team.setX_place (v : Word) : (t.setX n v).place = t.place := by unfold Team.setX; split <;> rfl
@[simp] theorem Team.setX_parkedWaitF (v : Word) : (t.setX n v).parkedWaitF = t.parkedWaitF := by unfold Team.setX; split <;> rfl
@[simp] theorem Team.setX_served (v : Word) : (t.setX n v).served = t.served := by unfold Team.setX; split <;> rfl
@[simp] theorem Team.setX_relSeq (v : Word) : (t.setX n v).relSeq = t.relSeq := by unfold Team.setX; split <;> rfl
@[simp] theorem Team.setX_relSco (v : Word) : (t.setX n v).relSco = t.relSco := by unfold Team.setX; split <;> rfl
@[simp] theorem Team.setX_acqSeq (v : Word) : (t.setX n v).acqSeq = t.acqSeq := by unfold Team.setX; split <;> rfl
@[simp] theorem Team.setX_acqSco (v : Word) : (t.setX n v).acqSco = t.acqSco := by unfold Team.setX; split <;> rfl
@[simp] theorem Team.setX_relFences (v : Word) : (t.setX n v).relFences = t.relFences := by unfold Team.setX; split <;> rfl
@[simp] theorem Team.setX_acqBlock (v : Word) : (t.setX n v).acqBlock = t.acqBlock := by unfold Team.setX; split <;> rfl
@[simp] theorem Team.setX_reports (v : Word) : (t.setX n v).reports = t.reports := by unfold Team.setX; split <;> rfl
@[simp] theorem Team.setX_badSlices (v : Word) : (t.setX n v).badSlices = t.badSlices := by unfold Team.setX; split <;> rfl
@[simp] theorem Team.setX_frameBad (v : Word) : (t.setX n v).frameBad = t.frameBad := by unfold Team.setX; split <;> rfl
@[simp] theorem Team.setX_newFrame (v : Word) : (t.setX n v).newFrame = t.newFrame := by unfold Team.setX; split <;> rfl
@[simp] theorem Team.setX_tileSave (v : Word) : (t.setX n v).tileSave = t.tileSave := by unfold Team.setX; split <;> rfl
@[simp] theorem Team.setX_cxSave (v : Word) : (t.setX n v).cxSave = t.cxSave := by unfold Team.setX; split <;> rfl
@[simp] theorem Team.setX_ended (v : Word) : (t.setX n v).ended = t.ended := by unfold Team.setX; split <;> rfl
@[simp] theorem Team.setX_preempt (v : Word) : (t.setX n v).preempt = t.preempt := by unfold Team.setX; split <;> rfl

@[simp] theorem Team.setP_pc (v : Mask) : (t.setP n v).pc = t.pc := by unfold Team.setP; split <;> rfl
@[simp] theorem Team.setP_em (v : Mask) : (t.setP n v).em = t.em := by unfold Team.setP; split <;> rfl
@[simp] theorem Team.setP_exited (v : Mask) : (t.setP n v).exited = t.exited := by unfold Team.setP; split <;> rfl
@[simp] theorem Team.setP_x (v : Mask) : (t.setP n v).x = t.x := by unfold Team.setP; split <;> rfl
@[simp] theorem Team.setP_v (v : Mask) : (t.setP n v).v = t.v := by unfold Team.setP; split <;> rfl
@[simp] theorem Team.setP_fs (v : Mask) : (t.setP n v).fs = t.fs := by unfold Team.setP; split <;> rfl
@[simp] theorem Team.setP_tiles (v : Mask) : (t.setP n v).tiles = t.tiles := by unfold Team.setP; split <;> rfl
@[simp] theorem Team.setP_out (v : Mask) : (t.setP n v).out = t.out := by unfold Team.setP; split <;> rfl
@[simp] theorem Team.setP_issued (v : Mask) : (t.setP n v).issued = t.issued := by unfold Team.setP; split <;> rfl
@[simp] theorem Team.setP_contpc (v : Mask) : (t.setP n v).contpc = t.contpc := by unfold Team.setP; split <;> rfl
@[simp] theorem Team.setP_tmode (v : Mask) : (t.setP n v).tmode = t.tmode := by unfold Team.setP; split <;> rfl
@[simp] theorem Team.setP_stack (v : Mask) : (t.setP n v).stack = t.stack := by unfold Team.setP; split <;> rfl
@[simp] theorem Team.setP_remap (v : Mask) : (t.setP n v).remap = t.remap := by unfold Team.setP; split <;> rfl
@[simp] theorem Team.setP_pbs (v : Mask) : (t.setP n v).pbs = t.pbs := by unfold Team.setP; split <;> rfl
@[simp] theorem Team.setP_handler (v : Mask) : (t.setP n v).handler = t.handler := by unfold Team.setP; split <;> rfl
@[simp] theorem Team.setP_wait (v : Mask) : (t.setP n v).wait = t.wait := by unfold Team.setP; split <;> rfl
@[simp] theorem Team.setP_hold (v : Mask) : (t.setP n v).hold = t.hold := by unfold Team.setP; split <;> rfl
@[simp] theorem Team.setP_mon (v : Mask) : (t.setP n v).mon = t.mon := by unfold Team.setP; split <;> rfl
@[simp] theorem Team.setP_bpSkip (v : Mask) : (t.setP n v).bpSkip = t.bpSkip := by unfold Team.setP; split <;> rfl
@[simp] theorem Team.setP_fault (v : Mask) : (t.setP n v).fault = t.fault := by unfold Team.setP; split <;> rfl
@[simp] theorem Team.setP_latched (v : Mask) : (t.setP n v).latched = t.latched := by unfold Team.setP; split <;> rfl
@[simp] theorem Team.setP_place (v : Mask) : (t.setP n v).place = t.place := by unfold Team.setP; split <;> rfl
@[simp] theorem Team.setP_parkedWaitF (v : Mask) : (t.setP n v).parkedWaitF = t.parkedWaitF := by unfold Team.setP; split <;> rfl
@[simp] theorem Team.setP_served (v : Mask) : (t.setP n v).served = t.served := by unfold Team.setP; split <;> rfl
@[simp] theorem Team.setP_relSeq (v : Mask) : (t.setP n v).relSeq = t.relSeq := by unfold Team.setP; split <;> rfl
@[simp] theorem Team.setP_relSco (v : Mask) : (t.setP n v).relSco = t.relSco := by unfold Team.setP; split <;> rfl
@[simp] theorem Team.setP_acqSeq (v : Mask) : (t.setP n v).acqSeq = t.acqSeq := by unfold Team.setP; split <;> rfl
@[simp] theorem Team.setP_acqSco (v : Mask) : (t.setP n v).acqSco = t.acqSco := by unfold Team.setP; split <;> rfl
@[simp] theorem Team.setP_relFences (v : Mask) : (t.setP n v).relFences = t.relFences := by unfold Team.setP; split <;> rfl
@[simp] theorem Team.setP_acqBlock (v : Mask) : (t.setP n v).acqBlock = t.acqBlock := by unfold Team.setP; split <;> rfl
@[simp] theorem Team.setP_reports (v : Mask) : (t.setP n v).reports = t.reports := by unfold Team.setP; split <;> rfl
@[simp] theorem Team.setP_badSlices (v : Mask) : (t.setP n v).badSlices = t.badSlices := by unfold Team.setP; split <;> rfl
@[simp] theorem Team.setP_frameBad (v : Mask) : (t.setP n v).frameBad = t.frameBad := by unfold Team.setP; split <;> rfl
@[simp] theorem Team.setP_newFrame (v : Mask) : (t.setP n v).newFrame = t.newFrame := by unfold Team.setP; split <;> rfl
@[simp] theorem Team.setP_tileSave (v : Mask) : (t.setP n v).tileSave = t.tileSave := by unfold Team.setP; split <;> rfl
@[simp] theorem Team.setP_cxSave (v : Mask) : (t.setP n v).cxSave = t.cxSave := by unfold Team.setP; split <;> rfl
@[simp] theorem Team.setP_ended (v : Mask) : (t.setP n v).ended = t.ended := by unfold Team.setP; split <;> rfl
@[simp] theorem Team.setP_preempt (v : Mask) : (t.setP n v).preempt = t.preempt := by unfold Team.setP; split <;> rfl

@[simp] theorem Team.setV_pc (v : VReg) : (t.setV n v).pc = t.pc := rfl
@[simp] theorem Team.setV_em (v : VReg) : (t.setV n v).em = t.em := rfl
@[simp] theorem Team.setV_exited (v : VReg) : (t.setV n v).exited = t.exited := rfl
@[simp] theorem Team.setV_p (v : VReg) : (t.setV n v).p = t.p := rfl
@[simp] theorem Team.setV_x (v : VReg) : (t.setV n v).x = t.x := rfl
@[simp] theorem Team.setV_fs (v : VReg) : (t.setV n v).fs = t.fs := rfl
@[simp] theorem Team.setV_tiles (v : VReg) : (t.setV n v).tiles = t.tiles := rfl
@[simp] theorem Team.setV_out (v : VReg) : (t.setV n v).out = t.out := rfl
@[simp] theorem Team.setV_issued (v : VReg) : (t.setV n v).issued = t.issued := rfl
@[simp] theorem Team.setV_contpc (v : VReg) : (t.setV n v).contpc = t.contpc := rfl
@[simp] theorem Team.setV_tmode (v : VReg) : (t.setV n v).tmode = t.tmode := rfl
@[simp] theorem Team.setV_stack (v : VReg) : (t.setV n v).stack = t.stack := rfl
@[simp] theorem Team.setV_remap (v : VReg) : (t.setV n v).remap = t.remap := rfl
@[simp] theorem Team.setV_pbs (v : VReg) : (t.setV n v).pbs = t.pbs := rfl
@[simp] theorem Team.setV_handler (v : VReg) : (t.setV n v).handler = t.handler := rfl
@[simp] theorem Team.setV_wait (v : VReg) : (t.setV n v).wait = t.wait := rfl
@[simp] theorem Team.setV_hold (v : VReg) : (t.setV n v).hold = t.hold := rfl
@[simp] theorem Team.setV_mon (v : VReg) : (t.setV n v).mon = t.mon := rfl
@[simp] theorem Team.setV_bpSkip (v : VReg) : (t.setV n v).bpSkip = t.bpSkip := rfl
@[simp] theorem Team.setV_fault (v : VReg) : (t.setV n v).fault = t.fault := rfl
@[simp] theorem Team.setV_latched (v : VReg) : (t.setV n v).latched = t.latched := rfl
@[simp] theorem Team.setV_place (v : VReg) : (t.setV n v).place = t.place := rfl
@[simp] theorem Team.setV_parkedWaitF (v : VReg) : (t.setV n v).parkedWaitF = t.parkedWaitF := rfl
@[simp] theorem Team.setV_served (v : VReg) : (t.setV n v).served = t.served := rfl
@[simp] theorem Team.setV_relSeq (v : VReg) : (t.setV n v).relSeq = t.relSeq := rfl
@[simp] theorem Team.setV_relSco (v : VReg) : (t.setV n v).relSco = t.relSco := rfl
@[simp] theorem Team.setV_acqSeq (v : VReg) : (t.setV n v).acqSeq = t.acqSeq := rfl
@[simp] theorem Team.setV_acqSco (v : VReg) : (t.setV n v).acqSco = t.acqSco := rfl
@[simp] theorem Team.setV_relFences (v : VReg) : (t.setV n v).relFences = t.relFences := rfl
@[simp] theorem Team.setV_acqBlock (v : VReg) : (t.setV n v).acqBlock = t.acqBlock := rfl
@[simp] theorem Team.setV_reports (v : VReg) : (t.setV n v).reports = t.reports := rfl
@[simp] theorem Team.setV_badSlices (v : VReg) : (t.setV n v).badSlices = t.badSlices := rfl
@[simp] theorem Team.setV_frameBad (v : VReg) : (t.setV n v).frameBad = t.frameBad := rfl
@[simp] theorem Team.setV_newFrame (v : VReg) : (t.setV n v).newFrame = t.newFrame := rfl
@[simp] theorem Team.setV_tileSave (v : VReg) : (t.setV n v).tileSave = t.tileSave := rfl
@[simp] theorem Team.setV_cxSave (v : VReg) : (t.setV n v).cxSave = t.cxSave := rfl
@[simp] theorem Team.setV_ended (v : VReg) : (t.setV n v).ended = t.ended := rfl
@[simp] theorem Team.setV_preempt (v : VReg) : (t.setV n v).preempt = t.preempt := rfl

@[simp] theorem Team.setFs_pc (v : Word) : (t.setFs n v).pc = t.pc := rfl
@[simp] theorem Team.setFs_em (v : Word) : (t.setFs n v).em = t.em := rfl
@[simp] theorem Team.setFs_exited (v : Word) : (t.setFs n v).exited = t.exited := rfl
@[simp] theorem Team.setFs_p (v : Word) : (t.setFs n v).p = t.p := rfl
@[simp] theorem Team.setFs_x (v : Word) : (t.setFs n v).x = t.x := rfl
@[simp] theorem Team.setFs_v (v : Word) : (t.setFs n v).v = t.v := rfl
@[simp] theorem Team.setFs_tiles (v : Word) : (t.setFs n v).tiles = t.tiles := rfl
@[simp] theorem Team.setFs_out (v : Word) : (t.setFs n v).out = t.out := rfl
@[simp] theorem Team.setFs_issued (v : Word) : (t.setFs n v).issued = t.issued := rfl
@[simp] theorem Team.setFs_contpc (v : Word) : (t.setFs n v).contpc = t.contpc := rfl
@[simp] theorem Team.setFs_tmode (v : Word) : (t.setFs n v).tmode = t.tmode := rfl
@[simp] theorem Team.setFs_stack (v : Word) : (t.setFs n v).stack = t.stack := rfl
@[simp] theorem Team.setFs_remap (v : Word) : (t.setFs n v).remap = t.remap := rfl
@[simp] theorem Team.setFs_pbs (v : Word) : (t.setFs n v).pbs = t.pbs := rfl
@[simp] theorem Team.setFs_handler (v : Word) : (t.setFs n v).handler = t.handler := rfl
@[simp] theorem Team.setFs_wait (v : Word) : (t.setFs n v).wait = t.wait := rfl
@[simp] theorem Team.setFs_hold (v : Word) : (t.setFs n v).hold = t.hold := rfl
@[simp] theorem Team.setFs_mon (v : Word) : (t.setFs n v).mon = t.mon := rfl
@[simp] theorem Team.setFs_bpSkip (v : Word) : (t.setFs n v).bpSkip = t.bpSkip := rfl
@[simp] theorem Team.setFs_fault (v : Word) : (t.setFs n v).fault = t.fault := rfl
@[simp] theorem Team.setFs_latched (v : Word) : (t.setFs n v).latched = t.latched := rfl
@[simp] theorem Team.setFs_place (v : Word) : (t.setFs n v).place = t.place := rfl
@[simp] theorem Team.setFs_parkedWaitF (v : Word) : (t.setFs n v).parkedWaitF = t.parkedWaitF := rfl
@[simp] theorem Team.setFs_served (v : Word) : (t.setFs n v).served = t.served := rfl
@[simp] theorem Team.setFs_relSeq (v : Word) : (t.setFs n v).relSeq = t.relSeq := rfl
@[simp] theorem Team.setFs_relSco (v : Word) : (t.setFs n v).relSco = t.relSco := rfl
@[simp] theorem Team.setFs_acqSeq (v : Word) : (t.setFs n v).acqSeq = t.acqSeq := rfl
@[simp] theorem Team.setFs_acqSco (v : Word) : (t.setFs n v).acqSco = t.acqSco := rfl
@[simp] theorem Team.setFs_relFences (v : Word) : (t.setFs n v).relFences = t.relFences := rfl
@[simp] theorem Team.setFs_acqBlock (v : Word) : (t.setFs n v).acqBlock = t.acqBlock := rfl
@[simp] theorem Team.setFs_reports (v : Word) : (t.setFs n v).reports = t.reports := rfl
@[simp] theorem Team.setFs_badSlices (v : Word) : (t.setFs n v).badSlices = t.badSlices := rfl
@[simp] theorem Team.setFs_frameBad (v : Word) : (t.setFs n v).frameBad = t.frameBad := rfl
@[simp] theorem Team.setFs_newFrame (v : Word) : (t.setFs n v).newFrame = t.newFrame := rfl
@[simp] theorem Team.setFs_tileSave (v : Word) : (t.setFs n v).tileSave = t.tileSave := rfl
@[simp] theorem Team.setFs_cxSave (v : Word) : (t.setFs n v).cxSave = t.cxSave := rfl
@[simp] theorem Team.setFs_ended (v : Word) : (t.setFs n v).ended = t.ended := rfl
@[simp] theorem Team.setFs_preempt (v : Word) : (t.setFs n v).preempt = t.preempt := rfl
end

/-! ## Reading what an update has written -/

@[simp] theorem State.team_setTeam_same (s : State) (k : Nat) (t : Team) : (s.setTeam k t).team k = t := by
  simp [State.team, State.setTeam]

theorem State.team_setTeam_other (s : State) {k j : Nat} (t : Team) (h : j ≠ k) : (s.setTeam k t).team j = s.team j := by
  simp [State.team, State.setTeam, tget_tins_other _ _ _ h]

theorem State.team_modTeam_same {s : State} {k : Nat} (f : Team → Team) (h : s.hasTeam k = true) :
    (s.modTeam k f).team k = f (s.team k) := by
  unfold State.hasTeam at h
  unfold State.modTeam
  split
  · rename_i t ht
    simp [State.team, tget, ht, State.setTeam]
  · rename_i ht
    simp [ht] at h

theorem State.team_modTeam_other (s : State) {k j : Nat} (f : Team → Team) (h : j ≠ k) :
    (s.modTeam k f).team j = s.team j := by
  unfold State.modTeam
  split
  · exact s.team_setTeam_other _ h
  · rfl

@[simp] theorem State.hasTeam_modTeam (s : State) (k j : Nat) (f : Team → Team) : (s.modTeam k f).hasTeam j = s.hasTeam j := by
  unfold State.modTeam
  split
  · rename_i t ht
    by_cases h : j = k
    · subst h
      simp [State.hasTeam, State.setTeam, ht]
    · simp [State.hasTeam, State.setTeam, tfind_tins_other _ _ h]
  · rfl

@[simp] theorem State.team_modCore (s : State) (c k : Nat) (f : Core → Core) : (s.modCore c f).team k = s.team k := rfl
@[simp] theorem State.hasTeam_modCore (s : State) (c k : Nat) (f : Core → Core) : (s.modCore c f).hasTeam k = s.hasTeam k := rfl
@[simp] theorem State.core_modTeam (s : State) (c k : Nat) (f : Team → Team) : (s.modTeam k f).core c = s.core c := by
  simp [State.core]

@[simp] theorem State.core_modCore_same (s : State) (c : Nat) (f : Core → Core) : (s.modCore c f).core c = f (s.core c) := by
  simp [State.modCore, State.setCore, State.core]

theorem State.core_modCore_other (s : State) {c d : Nat} (f : Core → Core) (h : d ≠ c) : (s.modCore c f).core d = s.core d := by
  simp [State.modCore, State.setCore, State.core, tget_tins_other _ _ _ h]

@[simp] theorem State.quad_modQuad_same (s : State) (q : Nat) (f : Quad → Quad) : (s.modQuad q f).quad q = f (s.quad q) := by
  simp [State.modQuad, State.quad]

@[simp] theorem State.die_modDie_same (s : State) (d : Nat) (f : Die → Die) : (s.modDie d f).die d = f (s.die d) := by
  simp [State.modDie, State.die]

@[simp] theorem State.ctx_modCtx_same (s : State) (c : Nat) (f : Ctx → Ctx) : (s.modCtx c f).ctx c = f (s.ctx c) := by
  simp [State.modCtx, State.ctx]

/-! ## Registers (R132) -/

@[simp] theorem Team.getX_zero (t : Team) : t.getX 0 = 0 := rfl
@[simp] theorem Team.setX_zero (t : Team) (v : Word) : t.setX 0 v = t := rfl
@[simp] theorem Team.getP_zero (t : Team) : t.getP 0 = BitVec.allOnes 32 := rfl
@[simp] theorem Team.setP_zero (t : Team) (v : Mask) : t.setP 0 v = t := rfl

end Sys2Proof.Machine
end

