-- ==== Sys2Proof/Laws/Memory.lean ====
section
/-!
SUPPORT. Memory keeps its canonical form under every operation that writes it: one lemma for each.
-/

namespace Sys2Proof.Machine

/-- `t` has canonical memory where `s` has. -/
def State.MemKept (s t : State) : Prop := Memory.wf s.mem = true → Memory.wf t.mem = true

theorem State.MemKept.refl (s : State) : s.MemKept s := id

theorem State.MemKept.trans {s t u : State} (a : s.MemKept t) (b : t.MemKept u) : s.MemKept u := b ∘ a

theorem State.MemKept.of_eq {s t : State} (h : t.mem = s.mem) : s.MemKept t := by
  intro hs
  rw [h, hs]

theorem foldl_memKept {α : Type} {f : State → α → State} (hf : ∀ (s : State) a, s.MemKept (f s a)) (l : List α) (s : State) :
    s.MemKept (l.foldl f s) := by
  induction l generalizing s with
  | nil => exact .refl s
  | cons a l ih => exact (hf s a).trans (ih _)

/-- The same for a fold that carries something beside the state. -/
theorem foldl_memKept_fst {α β : Type} {f : State × β → α → State × β} (hf : ∀ (r : State × β) a, r.1.MemKept (f r a).1) (l : List α)
    (r : State × β) : r.1.MemKept (l.foldl f r).1 := by
  induction l generalizing r with
  | nil => exact .refl r.1
  | cons a l ih => exact (hf r a).trans (ih _)

theorem State.reset_memory_wf : Memory.wf State.reset.mem = true := rfl

theorem State.wrByte_memKept (s : State) (pa : Nat) (b : Byte) : s.MemKept (s.wrByte pa b) := twf_tput pa b

theorem State.rekey_memKept (s : State) (line key : Nat) : s.MemKept (s.rekey line key) := by
  unfold State.rekey
  split
  · exact .refl s
  · dsimp only
    have h := foldl_memKept (f := fun t i => t.wrByte (128 * line + i)
      (BitVec.ofNat 8 (bitsOf (s.lineView line (s.keyMat key)) (8 * i) 8))) (fun t i => t.wrByte_memKept _ _) (List.range 128) s
    generalize List.foldl _ s _ = t at h ⊢
    exact h.trans (.of_eq rfl)

theorem State.retag_memKept (s : State) (line : Nat) (cmp : Bool) : s.MemKept (s.retag line cmp) := .of_eq rfl

theorem State.writeLine_memKept (s : State) (key : Nat) (cmp : Bool) (line : Nat) (ws : List (Nat × Byte)) :
    s.MemKept (s.writeLine key cmp line ws) :=
  ((s.rekey_memKept line key).trans (foldl_memKept (fun s _ => s.wrByte_memKept _ _) ws _)).trans (State.retag_memKept _ _ _)

theorem State.homeWrite_memKept (s : State) (key : Nat) (cmp : Bool) (line : Nat) (ws : List (Nat × Byte)) :
    s.MemKept (s.homeWrite key cmp line ws).1 := by
  unfold State.homeWrite
  split
  · exact s.writeLine_memKept key cmp line ws
  · split
    · refine .trans (.of_eq ?_) (State.writeLine_memKept _ key cmp line ws)
      rfl
    · exact .refl s

theorem State.wrNat_memKept (s : State) (key : Nat) (cmp : Bool) (pa n v : Nat) : s.MemKept (s.wrNat key cmp pa n v) :=
  s.writeLine_memKept key cmp _ _

theorem State.writeRun_memKept (s : State) (key : Nat) (cmp : Bool) (pa : Nat) (bytes : List Byte) :
    s.MemKept (s.writeRun key cmp pa bytes).1 := by
  unfold State.writeRun
  refine foldl_memKept_fst (fun r l => ?_) _ (s, none)
  exact r.1.homeWrite_memKept key cmp l.1 l.2

theorem State.toHost_memKept (s : State) (ctx mt pa : Nat) (a : HostAcc) : s.MemKept (s.toHost ctx mt pa a) := by
  unfold State.toHost
  dsimp only
  split
  · exact .of_eq rfl
  · exact .of_eq rfl

theorem State.keepWorld_memKept (s old : State) (secure cmp : Bool) (line : Nat) : s.MemKept (s.keepWorld old secure cmp line) := by
  unfold State.keepWorld
  dsimp only
  split
  · exact .refl s
  · exact (s.wrByte_memKept _ _).trans (State.retag_memKept _ _ _)

theorem State.writeBitsAt_memKept (s : State) (key : Nat) (cmp : Bool) (pa lo len v : Nat) :
    s.MemKept (s.writeBitsAt key cmp pa lo len v) :=
  s.writeLine_memKept key cmp _ _

/-- An access performed at its home, of whatever kind. -/
theorem State.homeDo_memKept (s : State) (kind : ReqKind) (key : Nat) (cmp : Bool) (pa lo len : Nat) (a b : Word)
    (words : List Word) : s.MemKept (s.homeDo kind key cmp pa lo len a b words).1 := by
  unfold State.homeDo
  dsimp only
  split
  · exact .refl s
  · split
    · exact .refl s
    · exact s.writeBitsAt_memKept key cmp pa lo len _
    · exact s.writeBitsAt_memKept key cmp pa lo len _
    · exact s.writeBitsAt_memKept key cmp pa lo len _
    · dsimp only
      split
      · exact foldl_memKept (fun s _ => s.wrNat_memKept key cmp _ _ _) _ s
      · exact .refl s
    · dsimp only
      split
      · exact (s.wrNat_memKept key cmp _ _ _).trans (State.wrNat_memKept _ key cmp _ _ _)
      · exact s.wrNat_memKept key cmp _ _ _
    · refine foldl_memKept (fun s i => ?_) _ s
      split
      · exact s.wrNat_memKept key cmp _ _ _
      · exact .refl s

theorem State.inboundWrite_memKept (s : State) (pa : Nat) (bytes : List Byte) : s.MemKept (s.inboundWrite pa bytes) :=
  foldl_memKept (fun s (l : Nat × List (Nat × Byte)) =>
    (s.homeWrite_memKept (s.regionKey (128 * l.1)) false l.1 l.2).trans (State.keepWorld_memKept _ s false false l.1)) _ s

end Sys2Proof.Machine
end

