-- ==== Sys2Proof/Laws/Ops.lean ====
section
/-!
SUPPORT. What the shared operations of Machine/Ops.lean can do: counting events, leaving an issue slot, retiring, and the
outcome of an instruction that completes.
-/

namespace Sys2Proof.Machine

/-! ## Changes that no team sees -/

/-- `t` differs from `s` at most in issue slots, event counters and counter interrupts. -/
structure State.Quiet (s t : State) : Prop where
  rest : t.rest = s.rest
  cores : ∀ c, (t.core c).still = (s.core c).still
  teams : t.teams = s.teams

theorem State.Quiet.refl (s : State) : s.Quiet s := ⟨rfl, fun _ => rfl, rfl⟩

theorem State.Quiet.trans {s t u : State} (a : s.Quiet t) (b : t.Quiet u) : s.Quiet u :=
  ⟨b.rest.trans a.rest, fun c => (b.cores c).trans (a.cores c), b.teams.trans a.teams⟩

theorem State.Quiet.team {s t : State} (h : s.Quiet t) (k : Nat) : t.team k = s.team k := by
  simp [State.team, h.teams]

theorem State.Quiet.hasTeam {s t : State} (h : s.Quiet t) (k : Nat) : t.hasTeam k = s.hasTeam k := by
  simp [State.hasTeam, h.teams]

/-- A change of a core that keeps all but its slots and counters. -/
theorem State.modCore_quiet (s : State) (c : Nat) {f : Core → Core} (h : ∀ x, (f x).still = x.still) :
    s.Quiet (s.modCore c f) where
  rest := by simp [State.rest]
  cores d := by
    by_cases hd : d = c
    · subst hd
      simp [h]
    · rw [s.core_modCore_other f hd]
  teams := rfl

theorem State.irq_quiet (s : State) (fn e : Nat) : s.Quiet (s.irq fn e) := by
  unfold State.irq
  dsimp only
  split <;> exact ⟨rfl, fun _ => rfl, rfl⟩

theorem State.countOne_quiet (s : State) (core fn ev n i : Nat) : s.Quiet (s.countOne core fn ev n i) := by
  unfold State.countOne
  split
  · exact .refl s
  · dsimp only
    split
    · refine .trans ?_ (State.irq_quiet _ _ _)
      exact s.modCore_quiet core fun _ => rfl
    · exact s.modCore_quiet core fun _ => rfl

theorem foldl_quiet {α : Type} (f : State → α → State) (hf : ∀ (s : State) a, s.Quiet (f s a)) (l : List α) (s : State) :
    s.Quiet (l.foldl f s) := by
  induction l generalizing s with
  | nil => exact .refl s
  | cons a l ih => exact (hf s a).trans (ih _)

theorem State.countEv_quiet (s : State) (core ctx ev n : Nat) : s.Quiet (s.countEv core ctx ev n) :=
  foldl_quiet _ (fun s i => s.countOne_quiet core _ ev n i) _ s

theorem State.modSlotsOf_quiet (s : State) (k : Nat) (f : IssueSlot → IssueSlot) : s.Quiet (s.modSlotsOf k f) :=
  s.modCore_quiet _ fun _ => rfl

/-! ## Changes of one team -/

/-- Outside team `k`, `t` differs from `s` quietly; team `k` becomes what `f` makes of it. -/
structure State.OneTeam (s t : State) (k : Nat) (v : Team) : Prop where
  rest : t.rest = s.rest
  cores : ∀ c, (t.core c).still = (s.core c).still
  teams : ∀ j, j ≠ k → t.team j = s.team j
  has : ∀ j, t.hasTeam j = s.hasTeam j
  team : t.team k = v

theorem State.OneTeam.refl (s : State) (k : Nat) : s.OneTeam s k (s.team k) := ⟨rfl, fun _ => rfl, fun _ _ => rfl, fun _ => rfl, rfl⟩

theorem State.OneTeam.quiet {s t u : State} {k : Nat} {v : Team} (a : s.OneTeam t k v) (b : t.Quiet u) : s.OneTeam u k v :=
  ⟨b.rest.trans a.rest, fun c => (b.cores c).trans (a.cores c), fun j h => (b.team j).trans (a.teams j h),
    fun j => (b.hasTeam j).trans (a.has j), (b.team k).trans a.team⟩

theorem State.OneTeam.mod {s t : State} {k : Nat} {v : Team} (a : s.OneTeam t k v) (h : s.hasTeam k = true)
    (f : Team → Team) : s.OneTeam (t.modTeam k f) k (f v) where
  rest := by rw [← a.rest]; simp [State.rest]
  cores c := by rw [State.core_modTeam]; exact a.cores c
  teams j hj := (t.team_modTeam_other f hj).trans (a.teams j hj)
  has j := by rw [State.hasTeam_modTeam]; exact a.has j
  team := by rw [State.team_modTeam_same f (by rw [a.has]; exact h), a.team]

theorem State.OneTeam.only {s t : State} {k : Nat} {v : Team} (a : s.OneTeam t k v) : s.TeamOnly t k where
  rest := a.rest
  cores := a.cores
  teams := a.teams
  bytes b := by
    have h := congrArg State.mem a.rest
    simp only [State.rest] at h
    simp [State.rdByte, h]

/-! ## Retiring -/

/-- What retirement makes of its team: the wait and the breakpoint pass are over. -/
def Team.retired (t : Team) : Team := { t with wait := none, bpSkip := false }

theorem State.leaveSlot_one {s t : State} {k : Nat} {v : Team} (a : s.OneTeam t k v) (h : s.hasTeam k = true) :
    s.OneTeam (t.leaveSlot k) k v ∨ s.OneTeam (t.leaveSlot k) k { v with served := true } := by
  unfold State.leaveSlot
  dsimp only
  split
  · exact .inr ((a.quiet (t.modSlotsOf_quiet k _)).mod h _)
  · exact .inl (a.quiet (t.modSlotsOf_quiet k _))

theorem State.capSlot_one {s t : State} {k : Nat} {v : Team} (a : s.OneTeam t k v) (h : s.hasTeam k = true) :
    s.OneTeam (t.capSlot k) k v ∨ s.OneTeam (t.capSlot k) k { v with served := true } := by
  unfold State.capSlot
  split
  · exact .inr ((a.quiet (t.modSlotsOf_quiet k _)).mod h _)
  · exact .inl a

theorem State.OneTeam.ctxOf {s t : State} {k : Nat} {v : Team} (a : s.OneTeam t k v) (j : Nat) : t.ctxOf j = s.ctxOf j := by
  have h := congrArg State.blocks a.rest
  simp only [State.rest] at h
  simp [State.ctxOf, State.block, h]

theorem State.OneTeam.cur {s t : State} {k : Nat} {v : Team} (a : s.OneTeam t k v) : t.cur = s.cur := by
  have h := congrArg State.cur a.rest
  simpa [State.rest] using h

/-- Retirement changes nothing but the bookkeeping of its team, unless the farrier monitor steps that team. -/
theorem State.retireAt_one {s t : State} {v : Team} (a : s.OneTeam t s.ck v) (h : s.hasTeam s.ck = true)
    (hm : ∀ c, v.mon ≠ .step true c) :
    s.OneTeam t.retireAt s.ck v.retired ∨ s.OneTeam t.retireAt s.ck { v.retired with served := true } := by
  have hk : t.ck = s.ck := by simp [State.ck, a.cur]
  have hstep : ∀ {u : State} {w : Team}, s.OneTeam u s.ck w → w.mon = v.mon → u.stepDone s.ck = u := by
    intro u w b e
    unfold State.stepDone
    rw [b.team, e]
    split
    · rename_i c hc
      exact absurd hc (hm c)
    · rfl
  unfold State.retireAt
  simp only [hk]
  have b := ((a.mod h (fun t => { t with wait := none, bpSkip := false })).quiet
    (State.modSlotsOf_quiet _ s.ck fun x => { x with run := x.run + 1 })).quiet
    (State.countEv_quiet _ t.cur.core (t.ctxOf s.ck) 0x2 1)
  simp only [a.cur, State.modTeam_cur, State.modSlotsOf, State.modCore_cur, a.ctxOf] at b ⊢
  have hc : ∀ f g, ((t.modTeam s.ck f).modCore (coreOf s.ck) g).ctxOf s.ck = s.ctxOf s.ck := by
    intro f g
    rw [← a.ctxOf]
    simp [State.ctxOf, State.block]
  simp only [hc]
  rcases State.capSlot_one b h with c | c
  · exact .inl (by rw [hstep c rfl]; exact c)
  · exact .inr (by rw [hstep c rfl]; exact c)

/-- What falling through makes of its team. -/
def Team.fallThrough (t : Team) (pc : Word) : Team := { t with pc := pc, pbs := { t.pbs with left := t.pbs.left - 1 } }

/-- Retirement with fall-through, of a state in which only the issuing team may differ from `s`. -/
theorem State.retire_one {s t : State} {v : Team} (a : s.OneTeam t s.ck v) (h : s.hasTeam s.ck = true)
    (hm : ∀ c, v.mon ≠ .step true c) :
    let w := (v.fallThrough (v.pc + BitVec.ofNat 64 s.cur.len)).retired
    s.OneTeam t.retire s.ck w ∨ s.OneTeam t.retire s.ck { w with served := true } := by
  intro w
  have hk : t.ck = s.ck := by simp [State.ck, a.cur]
  have hn : t.nextPc = v.pc + BitVec.ofNat 64 s.cur.len := by
    unfold State.nextPc
    rw [a.cur, State.ct, hk, a.team]
  have b := a.mod h (fun u => u.fallThrough (v.pc + BitVec.ofNat 64 s.cur.len))
  have := State.retireAt_one b h (by simpa [Team.fallThrough] using hm)
  unfold State.retire
  rw [hn]
  unfold State.modCur
  rw [hk]
  exact this

/-! ## The outcome of an instruction that acts on its team alone -/

/-- `f` leaves the monitor's request and the PC alone: what every register-only instruction does. -/
structure KeepsPc (t : Team) (v : Team) : Prop where
  pc : v.pc = t.pc
  mon : v.mon = t.mon
  pbs : v.pbs = t.pbs

theorem completes_of_done {s : State} {i : Instr} {f : Team → Team} (hs : s.Ready)
    (he : exec i s = finish s (.done (s.modCur f))) (hf : KeepsPc s.ct (f s.ct)) : s.Completes i f := by
  have a := (State.OneTeam.refl s s.ck).mod hs.team f
  have hm : ∀ c, (f (s.team s.ck)).mon ≠ .step true c := fun c => by
    exact (show (f (s.team s.ck)).mon = (s.team s.ck).mon from hf.mon) ▸ hs.unstepped c
  have hx : exec i s = .next (s.modCur f).retire := by
    rw [he]
    simp [finish, Eff.fallsOut, hs.canonical]
  have hp : (f (s.team s.ck)).pc = (s.team s.ck).pc := hf.pc
  refine ⟨_, hx, ?_⟩
  rcases State.retire_one a hs.team hm with b | b
  all_goals
    refine ⟨b.only, ?_, ?_, ?_⟩
    · rw [State.ct, show (s.modCur f).retire.team s.ck = _ from b.team]; rfl
    · rw [show (s.modCur f).retire.team s.ck = _ from b.team]
      simp [Team.retired, Team.fallThrough, State.nextPc, State.ct, hp]
    · rw [show (s.modCur f).retire.team s.ck = _ from b.team]
      have : (f (s.team s.ck)).pbs = (s.team s.ck).pbs := hf.pbs
      simp [Team.retired, Team.fallThrough, State.ct, this]

/-- An instruction without any effect of its own completes. -/
theorem completes_of_nothing {s : State} {i : Instr} (hs : s.Ready) (he : exec i s = finish s (.done s)) : s.Completes i id := by
  have hx : exec i s = .next s.retire := by
    rw [he]
    simp [finish, Eff.fallsOut, hs.canonical]
  refine ⟨_, hx, ?_⟩
  rcases State.retire_one (State.OneTeam.refl s s.ck) hs.team hs.unstepped with b | b
  all_goals
    refine ⟨b.only, ?_, ?_, ?_⟩
    · rw [show s.retire.team s.ck = _ from b.team]; rfl
    · rw [show s.retire.team s.ck = _ from b.team]; rfl
    · rw [show s.retire.team s.ck = _ from b.team]; rfl

/-- What an instruction does to its team matters only on that team. -/
theorem State.Completes.congr {s : State} {i : Instr} {f g : Team → Team} (c : s.Completes i f) (h : f s.ct = g s.ct) :
    s.Completes i g := by
  unfold State.Completes at *
  rwa [← h]

theorem State.Jumps.congr {s : State} {i : Instr} {f g : Team → Team} (c : s.Jumps i f) (h : f s.ct = g s.ct) :
    s.Jumps i g := by
  unfold State.Jumps at *
  rwa [← h]

/-- An instruction that only changes its team completes. -/
theorem completes_of_teamEff {s : State} {i : Instr} {f : Team → Team} (hs : s.Ready)
    (he : exec i s = finish s (teamEff s f)) (hf : KeepsPc s.ct (f s.ct)) : s.Completes i f :=
  completes_of_done hs (by rw [he, teamEff, whenActive, if_neg hs.active]) hf

/-! What `finish` answers: a jump is never stopped, and nothing is where the fall-through PC lies in the address space. -/

@[simp] theorem finish_jump (s t : State) : finish s (.jump t) = .next t.retireAt := by simp [finish, Eff.fallsOut]

theorem finish_wait {s : State} (h : nonCanonical s.nextPc.toNat = false) (t : State) (k : WaitKind) :
    finish s (.wait t k) = .next (t.waitAt k) := by simp [finish, Eff.fallsOut, h]

theorem finish_trap {s : State} (h : nonCanonical s.nextPc.toNat = false) (t : State) (c : Nat) (m : Mask) (d : Word) :
    finish s (.trap t c m d) = .next (t.raise t.ck c m d t.ct.pc false) := by simp [finish, Eff.fallsOut, h]

theorem jumps_of_jump {s : State} {i : Instr} {f : Team → Team} (hs : s.Standing)
    (he : exec i s = finish s (.jump (s.modCur f))) (hf : (f s.ct).mon = s.ct.mon) : s.Jumps i f := by
  have a := (State.OneTeam.refl s s.ck).mod hs.team f
  have hm : ∀ c, (f (s.team s.ck)).mon ≠ .step true c := fun c => by
    exact (show (f (s.team s.ck)).mon = (s.team s.ck).mon from hf) ▸ hs.unstepped c
  refine ⟨_, by rw [he, finish_jump], ?_⟩
  rcases State.retireAt_one a hs.team hm with b | b
  all_goals
    refine ⟨b.only, ?_, ?_⟩
    · rw [State.ct, show (s.modCur f).retireAt.team s.ck = _ from b.team]; rfl
    · rw [State.ct, show (s.modCur f).retireAt.team s.ck = _ from b.team]; rfl

theorem keepsPc_setX (t : Team) (n : Nat) (v : Word) : KeepsPc t (t.setX n v) := by constructor <;> simp
theorem keepsPc_setP (t : Team) (n : Nat) (v : Mask) : KeepsPc t (t.setP n v) := by constructor <;> simp
theorem keepsPc_setFs (t : Team) (n : Nat) (v : Word) : KeepsPc t (t.setFs n v) := by constructor <;> simp
theorem keepsPc_setV (t : Team) (n : Nat) (v : VReg) : KeepsPc t (t.setV n v) := by constructor <;> simp

/-- An instruction that writes one x register completes. -/
theorem completes_of_writeX {s : State} {i : Instr} {d : BitVec 5} {f : Team → Word} (hs : s.Ready)
    (he : exec i s = writeX s d f) : s.Completes i fun t => t.setX d.toNat (f t) :=
  completes_of_teamEff hs he (keepsPc_setX _ _ _)

end Sys2Proof.Machine
end

