-- ==== Sys2Proof/Laws/PerInstr.lean ====
section
/-!
SUPPORT. For each instruction, as syntax: the first word of its base is no prefix word, so that a reader of words takes it for
the base that it is (R128). Events have no words.
-/

namespace Sys2Proof.Laws.BaseWordIsNoPrefix

def Statement (i : Instr) : Prop := i.isEvent = true ∨ wordKind (encodeBase i % 2 ^ 32) = .base

theorem of_low {i : Instr} (h : encodeBase i % 16 ≠ 15) : Statement i := by
  refine .inr ?_
  have h2 : encodeBase i % 2 ^ 32 % 16 = encodeBase i % 16 := Nat.mod_mod_of_dvd _ (by decide)
  simp [wordKind, h2, h]

/-! The layouts that instructions of one shape share. -/

theorem low_wrS3 (op fn : Nat) (d a b : BitVec 5) (h : op % 16 ≠ 15) : wrS3 op fn d a b % 16 ≠ 15 := by
  unfold wrS3 opfn
  omega
theorem low_wrS2 (op fn : Nat) (d a : BitVec 5) (h : op % 16 ≠ 15) : wrS2 op fn d a % 16 ≠ 15 := by
  unfold wrS2 opfn
  omega
theorem low_wrSImm (fn : Nat) (d a : BitVec 5) (i : BitVec 35) : wrSImm fn d a i % 16 ≠ 15 := by
  unfold wrSImm opfn
  omega
theorem low_wrSSh (fn : Nat) (d a : BitVec 5) (s : BitVec 6) : wrSSh fn d a s % 16 ≠ 15 := by
  unfold wrSSh opfn
  omega
theorem low_wrSConst (fn : Nat) (d : BitVec 5) (i : BitVec 35) : wrSConst fn d i % 16 ≠ 15 := by
  unfold wrSConst opfn
  omega
theorem low_wrP3 (fn : Nat) (d a b : BitVec 3) : wrP3 fn d a b % 16 ≠ 15 := by
  unfold wrP3 opfn
  omega
theorem low_wrP2 (fn : Nat) (d a : BitVec 3) : wrP2 fn d a % 16 ≠ 15 := by
  unfold wrP2 opfn
  omega
theorem low_wrXP (fn : Nat) (d : BitVec 5) (a : BitVec 3) : wrXP fn d a % 16 ≠ 15 := by
  unfold wrXP opfn
  omega
theorem low_wrVBin (op fn : Nat) (o : VBin) (h : op % 16 ≠ 15) : wrVBin op fn o % 16 ≠ 15 := by
  unfold wrVBin opfn
  omega
theorem low_wrVUn (op fn : Nat) (o : VUn) (h : op % 16 ≠ 15) : wrVUn op fn o % 16 ≠ 15 := by
  unfold wrVUn opfn
  omega
theorem low_wrVCmp (fn : Nat) (o : VCmp) : wrVCmp fn o % 16 ≠ 15 := by
  unfold wrVCmp opfn
  omega
theorem low_wrVLogic (fn : Nat) (o : VLogic) : wrVLogic fn o % 16 ≠ 15 := by
  unfold wrVLogic opfn
  omega
theorem low_wrVShift (fn : Nat) (o : VShift) : wrVShift fn o % 16 ≠ 15 := by
  unfold wrVShift opfn
  omega
theorem low_wrVDot (fn : Nat) (o : VDotOps) : wrVDot fn o % 16 ≠ 15 := by
  unfold wrVDot opfn
  omega
theorem low_wrMem (op fn : Nat) (o : MemOps) (h : op % 16 ≠ 15) : wrMem op fn o % 16 ≠ 15 := by
  unfold wrMem opfn
  omega
theorem low_wrPack (fn : Nat) (o : PackOps) : wrPack fn o % 16 ≠ 15 := by
  unfold wrPack opfn
  omega
theorem low_wrXMem (fn : Nat) (o : XMemOps) : wrXMem fn o % 16 ≠ 15 := by
  unfold wrXMem opfn
  omega
theorem low_wrScr (fn : Nat) (o : ScrOps) : wrScr fn o % 16 ≠ 15 := by
  unfold wrScr opfn
  omega
theorem low_wrInv (fn : Nat) (o : InvOps) : wrInv fn o % 16 ≠ 15 := by
  unfold wrInv opfn
  omega
theorem low_wrA (op fn : Nat) (o : AOps) (h : op % 16 ≠ 15) : wrA op fn o % 16 ≠ 15 := by
  unfold wrA opfn
  omega
theorem low_wrQ (fn : Nat) (nb : Bool) (pd : BitVec 3) (q : BitVec 5) (reg : BitVec 7) : wrQ fn nb pd q reg % 16 ≠ 15 := by
  unfold wrQ opfn
  omega
theorem low_wrVElt (fn : Nat) (o : VElt) (v x : Nat) : wrVElt fn o v x % 16 ≠ 15 := by
  unfold wrVElt opfn
  omega
theorem low_wrC (fn vd va xa xd lvl col : Nat) (opt : Bool) : wrC fn vd va xa xd lvl col opt % 16 ≠ 15 := by
  unfold wrC opfn
  omega

theorem nop : Statement (.nop) :=
  of_low (show (opfn 0x00 0x00) % 16 ≠ 15 by unfold opfn; omega)
theorem exit : Statement (.exit) :=
  of_low (show (opfn 0x00 0x01) % 16 ≠ 15 by unfold opfn; omega)
theorem waitc (ld : BitVec 6) (st : BitVec 6) (cp : BitVec 6) (tl : BitVec 6) : Statement (.waitc ld st cp tl) :=
  of_low (show (opfn 0x00 0x02 + ld.toNat * 2 ^ 31 + st.toNat * 2 ^ 37 + cp.toNat * 2 ^ 43 + tl.toNat * 2 ^ 49) % 16 ≠ 15 by unfold opfn; omega)
theorem yield (cnt : BitVec 2) (k : BitVec 6) (off : BitVec 33) : Statement (.yield cnt k off) :=
  of_low (show (opfn 0x00 0x03 + cnt.toNat * 2 ^ 14 + k.toNat * 2 ^ 16 + off.toNat * 2 ^ 31) % 16 ≠ 15 by unfold opfn; omega)
theorem launch (x : BitVec 5) (q : BitVec 7) : Statement (.launch x q) :=
  of_low (show (opfn 0x00 0x04 + x.toNat * 2 ^ 26 + q.toNat * 2 ^ 31) % 16 ≠ 15 by unfold opfn; omega)
theorem locq (xd : BitVec 5) : Statement (.locq xd) :=
  of_low (show (opfn 0x00 0x05 + xd.toNat * 2 ^ 26) % 16 ≠ 15 by unfold opfn; omega)
theorem homeq (xd : BitVec 5) (xa : BitVec 5) : Statement (.homeq xd xa) :=
  of_low (show (opfn 0x00 0x06 + xa.toNat * 2 ^ 14 + xd.toNat * 2 ^ 26) % 16 ≠ 15 by unfold opfn; omega)
theorem br (tgt : BitVec 42) : Statement (.br tgt) :=
  of_low (show (opfn 0x01 0x00 + tgt.toNat * 2 ^ 22) % 16 ≠ 15 by unfold opfn; omega)
theorem brp (pr : BitVec 3) (cond : Cond) (join : Bool) (tgt : BitVec 42) : Statement (.brp pr cond join tgt) :=
  of_low (show (opfn 0x01 0x01 + cond.code * 2 ^ 14 + pr.toNat * 2 ^ 18 + b2n join * 2 ^ 21 + tgt.toNat * 2 ^ 22) % 16 ≠ 15 by unfold opfn; omega)
theorem call (tgt : BitVec 42) : Statement (.call tgt) :=
  of_low (show (opfn 0x01 0x02 + tgt.toNat * 2 ^ 22) % 16 ≠ 15 by unfold opfn; omega)
theorem jr (xa : BitVec 5) (imm : BitVec 35) : Statement (.jr xa imm) :=
  of_low (show (opfn 0x02 0x00 + xa.toNat * 2 ^ 19 + imm.toNat * 2 ^ 29) % 16 ≠ 15 by unfold opfn; omega)
theorem ret (xa : BitVec 5) : Statement (.ret xa) :=
  of_low (show (opfn 0x02 0x01 + xa.toNat * 2 ^ 19) % 16 ≠ 15 by unfold opfn; omega)
theorem bar (sco : Scope) (id : BitVec 8) (n : BitVec 24) : Statement (.bar sco id n) :=
  of_low (show (opfn 0x03 0x00 + sco.code * 2 ^ 14 + id.toNat * 2 ^ 31 + n.toNat * 2 ^ 39) % 16 ≠ 15 by unfold opfn; omega)
theorem barar (xd : BitVec 5) (sco : Scope) (id : BitVec 8) (n : BitVec 24) : Statement (.barar xd sco id n) :=
  of_low (show (opfn 0x03 0x01 + sco.code * 2 ^ 14 + xd.toNat * 2 ^ 26 + id.toNat * 2 ^ 31 + n.toNat * 2 ^ 39) % 16 ≠ 15 by unfold opfn; omega)
theorem barwt (xa : BitVec 5) (sco : Scope) (id : BitVec 8) : Statement (.barwt xa sco id) :=
  of_low (show (opfn 0x03 0x02 + sco.code * 2 ^ 14 + xa.toNat * 2 ^ 26 + id.toNat * 2 ^ 31) % 16 ≠ 15 by unfold opfn; omega)
theorem regroup : Statement (.regroup) :=
  of_low (show (opfn 0x04 0x00 + 1 * 2 ^ 14) % 16 ≠ 15 by unfold opfn; omega)
theorem regroupHome : Statement (.regroupHome) :=
  of_low (show (opfn 0x04 0x00 + 1 * 2 ^ 14 + 1 * 2 ^ 17) % 16 ≠ 15 by unfold opfn; omega)
theorem pand (d : BitVec 3) (a : BitVec 3) (b : BitVec 3) : Statement (.pand d a b) := of_low (low_wrP3 0x00 d a b)
theorem por (d : BitVec 3) (a : BitVec 3) (b : BitVec 3) : Statement (.por d a b) := of_low (low_wrP3 0x01 d a b)
theorem pxor (d : BitVec 3) (a : BitVec 3) (b : BitVec 3) : Statement (.pxor d a b) := of_low (low_wrP3 0x02 d a b)
theorem pandn (d : BitVec 3) (a : BitVec 3) (b : BitVec 3) : Statement (.pandn d a b) := of_low (low_wrP3 0x03 d a b)
theorem pnot (d : BitVec 3) (a : BitVec 3) : Statement (.pnot d a) := of_low (low_wrP2 0x04 d a)
theorem pmov (d : BitVec 3) (a : BitVec 3) : Statement (.pmov d a) := of_low (low_wrP2 0x05 d a)
theorem emget (xd : BitVec 5) : Statement (.emget xd) :=
  of_low (show (opfn 0x11 0x00 + xd.toNat * 2 ^ 14) % 16 ≠ 15 by unfold opfn; omega)
theorem emset (xa : BitVec 5) : Statement (.emset xa) :=
  of_low (show (opfn 0x11 0x01 + xa.toNat * 2 ^ 19) % 16 ≠ 15 by unfold opfn; omega)
theorem emand (pa : BitVec 3) : Statement (.emand pa) :=
  of_low (show (opfn 0x11 0x02 + pa.toNat * 2 ^ 19) % 16 ≠ 15 by unfold opfn; omega)
theorem pget (xd : BitVec 5) (pa : BitVec 3) : Statement (.pget xd pa) := of_low (low_wrXP 0x03 xd pa)
theorem pset (pd : BitVec 3) (xa : BitVec 5) (bc : Bool) : Statement (.pset pd xa bc) :=
  of_low (show (opfn 0x11 0x04 + pd.toNat * 2 ^ 14 + xa.toNat * 2 ^ 19 + b2n bc * 2 ^ 29) % 16 ≠ 15 by unfold opfn; omega)
theorem pany (xd : BitVec 5) (pa : BitVec 3) : Statement (.pany xd pa) := of_low (low_wrXP 0x05 xd pa)
theorem pall (xd : BitVec 5) (pa : BitVec 3) : Statement (.pall xd pa) := of_low (low_wrXP 0x06 xd pa)
theorem pcnt (xd : BitVec 5) (pa : BitVec 3) : Statement (.pcnt xd pa) := of_low (low_wrXP 0x07 xd pa)
theorem add (d : BitVec 5) (a : BitVec 5) (b : BitVec 5) : Statement (.add d a b) := of_low (low_wrS3 0x20 0x00 d a b (by decide))
theorem sub (d : BitVec 5) (a : BitVec 5) (b : BitVec 5) : Statement (.sub d a b) := of_low (low_wrS3 0x20 0x01 d a b (by decide))
theorem mul (d : BitVec 5) (a : BitVec 5) (b : BitVec 5) : Statement (.mul d a b) := of_low (low_wrS3 0x20 0x02 d a b (by decide))
theorem mulh (d : BitVec 5) (a : BitVec 5) (b : BitVec 5) : Statement (.mulh d a b) := of_low (low_wrS3 0x20 0x03 d a b (by decide))
theorem mulhu (d : BitVec 5) (a : BitVec 5) (b : BitVec 5) : Statement (.mulhu d a b) := of_low (low_wrS3 0x20 0x04 d a b (by decide))
theorem div (d : BitVec 5) (a : BitVec 5) (b : BitVec 5) : Statement (.div d a b) := of_low (low_wrS3 0x20 0x05 d a b (by decide))
theorem divu (d : BitVec 5) (a : BitVec 5) (b : BitVec 5) : Statement (.divu d a b) := of_low (low_wrS3 0x20 0x06 d a b (by decide))
theorem rem (d : BitVec 5) (a : BitVec 5) (b : BitVec 5) : Statement (.rem d a b) := of_low (low_wrS3 0x20 0x07 d a b (by decide))
theorem remu (d : BitVec 5) (a : BitVec 5) (b : BitVec 5) : Statement (.remu d a b) := of_low (low_wrS3 0x20 0x08 d a b (by decide))
theorem and (d : BitVec 5) (a : BitVec 5) (b : BitVec 5) : Statement (.and d a b) := of_low (low_wrS3 0x21 0x00 d a b (by decide))
theorem or (d : BitVec 5) (a : BitVec 5) (b : BitVec 5) : Statement (.or d a b) := of_low (low_wrS3 0x21 0x01 d a b (by decide))
theorem xor (d : BitVec 5) (a : BitVec 5) (b : BitVec 5) : Statement (.xor d a b) := of_low (low_wrS3 0x21 0x02 d a b (by decide))
theorem andn (d : BitVec 5) (a : BitVec 5) (b : BitVec 5) : Statement (.andn d a b) := of_low (low_wrS3 0x21 0x03 d a b (by decide))
theorem shl (d : BitVec 5) (a : BitVec 5) (b : BitVec 5) : Statement (.shl d a b) := of_low (low_wrS3 0x21 0x04 d a b (by decide))
theorem shr (d : BitVec 5) (a : BitVec 5) (b : BitVec 5) : Statement (.shr d a b) := of_low (low_wrS3 0x21 0x05 d a b (by decide))
theorem sar (d : BitVec 5) (a : BitVec 5) (b : BitVec 5) : Statement (.sar d a b) := of_low (low_wrS3 0x21 0x06 d a b (by decide))
theorem rol (d : BitVec 5) (a : BitVec 5) (b : BitVec 5) : Statement (.rol d a b) := of_low (low_wrS3 0x21 0x07 d a b (by decide))
theorem ror (d : BitVec 5) (a : BitVec 5) (b : BitVec 5) : Statement (.ror d a b) := of_low (low_wrS3 0x21 0x08 d a b (by decide))
theorem addi (d : BitVec 5) (a : BitVec 5) (imm : BitVec 35) : Statement (.addi d a imm) := of_low (low_wrSImm 0x00 d a imm)
theorem andi (d : BitVec 5) (a : BitVec 5) (imm : BitVec 35) : Statement (.andi d a imm) := of_low (low_wrSImm 0x01 d a imm)
theorem ori (d : BitVec 5) (a : BitVec 5) (imm : BitVec 35) : Statement (.ori d a imm) := of_low (low_wrSImm 0x02 d a imm)
theorem xori (d : BitVec 5) (a : BitVec 5) (imm : BitVec 35) : Statement (.xori d a imm) := of_low (low_wrSImm 0x03 d a imm)
theorem shli (d : BitVec 5) (a : BitVec 5) (sh : BitVec 6) : Statement (.shli d a sh) := of_low (low_wrSSh 0x04 d a sh)
theorem shri (d : BitVec 5) (a : BitVec 5) (sh : BitVec 6) : Statement (.shri d a sh) := of_low (low_wrSSh 0x05 d a sh)
theorem sari (d : BitVec 5) (a : BitVec 5) (sh : BitVec 6) : Statement (.sari d a sh) := of_low (low_wrSSh 0x06 d a sh)
theorem seq (d : BitVec 5) (a : BitVec 5) (b : BitVec 5) : Statement (.seq d a b) := of_low (low_wrS3 0x23 0x00 d a b (by decide))
theorem sne (d : BitVec 5) (a : BitVec 5) (b : BitVec 5) : Statement (.sne d a b) := of_low (low_wrS3 0x23 0x01 d a b (by decide))
theorem slt (d : BitVec 5) (a : BitVec 5) (b : BitVec 5) : Statement (.slt d a b) := of_low (low_wrS3 0x23 0x02 d a b (by decide))
theorem sltu (d : BitVec 5) (a : BitVec 5) (b : BitVec 5) : Statement (.sltu d a b) := of_low (low_wrS3 0x23 0x03 d a b (by decide))
theorem sle (d : BitVec 5) (a : BitVec 5) (b : BitVec 5) : Statement (.sle d a b) := of_low (low_wrS3 0x23 0x04 d a b (by decide))
theorem sleu (d : BitVec 5) (a : BitVec 5) (b : BitVec 5) : Statement (.sleu d a b) := of_low (low_wrS3 0x23 0x05 d a b (by decide))
theorem min (d : BitVec 5) (a : BitVec 5) (b : BitVec 5) : Statement (.min d a b) := of_low (low_wrS3 0x24 0x00 d a b (by decide))
theorem max (d : BitVec 5) (a : BitVec 5) (b : BitVec 5) : Statement (.max d a b) := of_low (low_wrS3 0x24 0x01 d a b (by decide))
theorem minu (d : BitVec 5) (a : BitVec 5) (b : BitVec 5) : Statement (.minu d a b) := of_low (low_wrS3 0x24 0x02 d a b (by decide))
theorem maxu (d : BitVec 5) (a : BitVec 5) (b : BitVec 5) : Statement (.maxu d a b) := of_low (low_wrS3 0x24 0x03 d a b (by decide))
theorem clz (d : BitVec 5) (a : BitVec 5) : Statement (.clz d a) := of_low (low_wrS2 0x24 0x04 d a (by decide))
theorem ctz (d : BitVec 5) (a : BitVec 5) : Statement (.ctz d a) := of_low (low_wrS2 0x24 0x05 d a (by decide))
theorem popc (d : BitVec 5) (a : BitVec 5) : Statement (.popc d a) := of_low (low_wrS2 0x24 0x06 d a (by decide))
theorem bswap (d : BitVec 5) (a : BitVec 5) : Statement (.bswap d a) := of_low (low_wrS2 0x24 0x07 d a (by decide))
theorem li (d : BitVec 5) (imm : BitVec 35) : Statement (.li d imm) := of_low (low_wrSConst 0x00 d imm)
theorem lhi (d : BitVec 5) (imm : BitVec 35) : Statement (.lhi d imm) := of_low (low_wrSConst 0x01 d imm)
theorem addpc (d : BitVec 5) (imm : BitVec 35) : Statement (.addpc d imm) := of_low (low_wrSConst 0x02 d imm)
theorem fsset (slot : BitVec 4) (xa : BitVec 5) : Statement (.fsset slot xa) :=
  of_low (show (opfn 0x2E 0x00 + slot.toNat * 2 ^ 14 + xa.toNat * 2 ^ 19) % 16 ≠ 15 by unfold opfn; omega)
theorem fsget (xd : BitVec 5) (slot : BitVec 4) : Statement (.fsget xd slot) :=
  of_low (show (opfn 0x2E 0x01 + xd.toNat * 2 ^ 14 + slot.toNat * 2 ^ 19) % 16 ≠ 15 by unfold opfn; omega)
theorem vadd (xp : Option Xp) (o : VBin) : Statement (.vadd xp o) := of_low (low_wrVBin 0x40 0x00 o (by decide))
theorem vsub (xp : Option Xp) (o : VBin) : Statement (.vsub xp o) := of_low (low_wrVBin 0x40 0x01 o (by decide))
theorem vmul (xp : Option Xp) (o : VBin) : Statement (.vmul xp o) := of_low (low_wrVBin 0x40 0x02 o (by decide))
theorem vdiv (xp : Option Xp) (o : VBin) : Statement (.vdiv xp o) := of_low (low_wrVBin 0x40 0x03 o (by decide))
theorem vmin (xp : Option Xp) (o : VBin) : Statement (.vmin xp o) := of_low (low_wrVBin 0x40 0x04 o (by decide))
theorem vmax (xp : Option Xp) (o : VBin) : Statement (.vmax xp o) := of_low (low_wrVBin 0x40 0x05 o (by decide))
theorem vabs (xp : Option Xp) (o : VUn) : Statement (.vabs xp o) := of_low (low_wrVUn 0x40 0x06 o (by decide))
theorem vneg (xp : Option Xp) (o : VUn) : Statement (.vneg xp o) := of_low (low_wrVUn 0x40 0x07 o (by decide))
theorem vfma (xp : Option Xp) (o : VBin) : Statement (.vfma xp o) := of_low (low_wrVBin 0x41 0x00 o (by decide))
theorem vfms (xp : Option Xp) (o : VBin) : Statement (.vfms xp o) := of_low (low_wrVBin 0x41 0x01 o (by decide))
theorem vfnma (xp : Option Xp) (o : VBin) : Statement (.vfnma xp o) := of_low (low_wrVBin 0x41 0x02 o (by decide))
theorem vfnms (xp : Option Xp) (o : VBin) : Statement (.vfnms xp o) := of_low (low_wrVBin 0x41 0x03 o (by decide))
theorem vcmpeq (xp : Option Xp) (o : VCmp) : Statement (.vcmpeq xp o) := of_low (low_wrVCmp 0x00 o)
theorem vcmpne (xp : Option Xp) (o : VCmp) : Statement (.vcmpne xp o) := of_low (low_wrVCmp 0x01 o)
theorem vcmplt (xp : Option Xp) (o : VCmp) : Statement (.vcmplt xp o) := of_low (low_wrVCmp 0x02 o)
theorem vcmple (xp : Option Xp) (o : VCmp) : Statement (.vcmple xp o) := of_low (low_wrVCmp 0x03 o)
theorem vcmpun (xp : Option Xp) (o : VCmp) : Statement (.vcmpun xp o) := of_low (low_wrVCmp 0x04 o)
theorem vsel (xp : Option Xp) (o : VSelOps) : Statement (.vsel xp o) :=
  of_low (show (opfn 0x43 0x00 + o.vd.toNat * 2 ^ 14 + o.va.toNat * 2 ^ 21 + o.vb.toNat * 2 ^ 28 + o.fs.toNat * 2 ^ 35 + o.fs.toNat * 2 ^ 39 + o.vm.toNat * 2 ^ 51) % 16 ≠ 15 by unfold opfn; omega)
theorem vclass (xp : Option Xp) (o : VCls) : Statement (.vclass xp o) :=
  of_low (show (opfn 0x43 0x01 + o.vd.toNat * 2 ^ 14 + o.va.toNat * 2 ^ 21 + o.fs.toNat * 2 ^ 35 + o.fs.toNat * 2 ^ 39 + b2n o.pdst * 2 ^ 43 + b2n o.all * 2 ^ 44 + o.cls.toNat * 2 ^ 51) % 16 ≠ 15 by unfold opfn; omega)
theorem vdot (xp : Option Xp) (o : VDotOps) : Statement (.vdot xp o) := of_low (low_wrVDot 0x00 o)
theorem vdota (xp : Option Xp) (o : VDotOps) : Statement (.vdota xp o) := of_low (low_wrVDot 0x01 o)
theorem vredsum (xp : Option Xp) (o : VUn) : Statement (.vredsum xp o) := of_low (low_wrVUn 0x45 0x00 o (by decide))
theorem vredmax (xp : Option Xp) (o : VUn) : Statement (.vredmax xp o) := of_low (low_wrVUn 0x45 0x01 o (by decide))
theorem vredmin (xp : Option Xp) (o : VUn) : Statement (.vredmin xp o) := of_low (low_wrVUn 0x45 0x02 o (by decide))
theorem vrcp (xp : Option Xp) (o : VUn) : Statement (.vrcp xp o) := of_low (low_wrVUn 0x46 0x00 o (by decide))
theorem vsqrt (xp : Option Xp) (o : VUn) : Statement (.vsqrt xp o) := of_low (low_wrVUn 0x46 0x01 o (by decide))
theorem vrsqrt (xp : Option Xp) (o : VUn) : Statement (.vrsqrt xp o) := of_low (low_wrVUn 0x46 0x02 o (by decide))
theorem vexp2 (xp : Option Xp) (o : VUn) : Statement (.vexp2 xp o) := of_low (low_wrVUn 0x46 0x03 o (by decide))
theorem vlog2 (xp : Option Xp) (o : VUn) : Statement (.vlog2 xp o) := of_low (low_wrVUn 0x46 0x04 o (by decide))
theorem vsinpi (xp : Option Xp) (o : VUn) : Statement (.vsinpi xp o) := of_low (low_wrVUn 0x46 0x05 o (by decide))
theorem vcospi (xp : Option Xp) (o : VUn) : Statement (.vcospi xp o) := of_low (low_wrVUn 0x46 0x06 o (by decide))
theorem vtanh (xp : Option Xp) (o : VUn) : Statement (.vtanh xp o) := of_low (low_wrVUn 0x46 0x07 o (by decide))
theorem vand (xp : Option Xp) (o : VLogic) : Statement (.vand xp o) := of_low (low_wrVLogic 0x00 o)
theorem vor (xp : Option Xp) (o : VLogic) : Statement (.vor xp o) := of_low (low_wrVLogic 0x01 o)
theorem vxor (xp : Option Xp) (o : VLogic) : Statement (.vxor xp o) := of_low (low_wrVLogic 0x02 o)
theorem vandn (xp : Option Xp) (o : VLogic) : Statement (.vandn xp o) := of_low (low_wrVLogic 0x03 o)
theorem vshl (xp : Option Xp) (o : VShift) : Statement (.vshl xp o) := of_low (low_wrVShift 0x04 o)
theorem vshr (xp : Option Xp) (o : VShift) : Statement (.vshr xp o) := of_low (low_wrVShift 0x05 o)
theorem vsar (xp : Option Xp) (o : VShift) : Statement (.vsar xp o) := of_low (low_wrVShift 0x06 o)
theorem vcvt (xp : Option Xp) (o : VCvt) : Statement (.vcvt xp o) :=
  of_low (show (opfn 0x70 0x00 + o.vd.toNat * 2 ^ 14 + o.va.toNat * 2 ^ 21 + o.fs.toNat * 2 ^ 35 + o.fsa.toNat * 2 ^ 39 + o.from32.toNat * 2 ^ 51 + o.to32.toNat * 2 ^ 56) % 16 ≠ 15 by unfold opfn; omega)
theorem vrint (xp : Option Xp) (o : VUn) : Statement (.vrint xp o) := of_low (low_wrVUn 0x70 0x01 o (by decide))
theorem vtid (xp : Option Xp) (sel : BitVec 2) (fs : BitVec 4) (vd : BitVec 7) : Statement (.vtid xp sel fs vd) :=
  of_low (show (opfn 0x71 0x00 + vd.toNat * 2 ^ 14 + fs.toNat * 2 ^ 35 + fs.toNat * 2 ^ 39 + sel.toNat * 2 ^ 51) % 16 ≠ 15 by unfold opfn; omega)
theorem vbcast (xp : Option Xp) (fs : BitVec 4) (xa : BitVec 5) (vd : BitVec 7) : Statement (.vbcast xp fs xa vd) :=
  of_low (show (opfn 0x71 0x01 + vd.toNat * 2 ^ 14 + xa.toNat * 2 ^ 21 + fs.toNat * 2 ^ 35 + fs.toNat * 2 ^ 39) % 16 ≠ 15 by unfold opfn; omega)
theorem vbcastl (xp : Option Xp) (id : BitVec 10) (va : BitVec 7) (vd : BitVec 7) : Statement (.vbcastl xp id va vd) :=
  of_low (show (opfn 0x71 0x02 + vd.toNat * 2 ^ 14 + va.toNat * 2 ^ 21 + id.toNat * 2 ^ 51) % 16 ≠ 15 by unfold opfn; omega)
theorem vmov (xp : Option Xp) (va : BitVec 7) (vd : BitVec 7) : Statement (.vmov xp va vd) :=
  of_low (show (opfn 0x71 0x03 + vd.toNat * 2 ^ 14 + va.toNat * 2 ^ 21) % 16 ≠ 15 by unfold opfn; omega)
theorem vgetx (o : VElt) : Statement (.vgetx o) := of_low (low_wrVElt 0x00 o o.v.toNat o.x.toNat)
theorem vsetx (o : VElt) : Statement (.vsetx o) := of_low (low_wrVElt 0x01 o o.x.toNat o.v.toNat)
theorem vpatld (p : BitVec 3) (va : BitVec 7) : Statement (.vpatld p va) :=
  of_low (show (opfn 0x72 0x02 + va.toNat * 2 ^ 21 + p.toNat * 2 ^ 51) % 16 ≠ 15 by unfold opfn; omega)
theorem vshfl (xp : Option Xp) (vb : BitVec 7) (va : BitVec 7) (vd : BitVec 7) : Statement (.vshfl xp vb va vd) :=
  of_low (show (opfn 0x73 0x00 + vd.toNat * 2 ^ 14 + va.toNat * 2 ^ 21 + vb.toNat * 2 ^ 28) % 16 ≠ 15 by unfold opfn; omega)
theorem vrot (xp : Option Xp) (o : VRotOps) : Statement (.vrot xp o) :=
  of_low (show (opfn 0x73 0x01 + o.vd.toNat * 2 ^ 14 + o.va.toNat * 2 ^ 21 + b2n o.wrap * 2 ^ 43 + o.n.toNat * 2 ^ 51) % 16 ≠ 15 by unfold opfn; omega)
theorem vxchg (xp : Option Xp) (m : BitVec 5) (va : BitVec 7) (vd : BitVec 7) : Statement (.vxchg xp m va vd) :=
  of_low (show (opfn 0x73 0x02 + vd.toNat * 2 ^ 14 + va.toNat * 2 ^ 21 + m.toNat * 2 ^ 51) % 16 ≠ 15 by unfold opfn; omega)
theorem vpat (xp : Option Xp) (p : BitVec 3) (va : BitVec 7) (vd : BitVec 7) : Statement (.vpat xp p va vd) :=
  of_low (show (opfn 0x73 0x03 + vd.toNat * 2 ^ 14 + va.toNat * 2 ^ 21 + p.toNat * 2 ^ 51) % 16 ≠ 15 by unfold opfn; omega)
theorem fscmp (t : BitVec 4) (va : BitVec 7) : Statement (.fscmp t va) :=
  of_low (show (opfn 0x7E 0x00 + va.toNat * 2 ^ 21 + t.toNat * 2 ^ 51) % 16 ≠ 15 by unfold opfn; omega)
theorem ld8 (xp : Option Xp) (o : MemOps) : Statement (.ld8 xp o) := of_low (low_wrMem 0x80 0x00 o (by decide))
theorem ld16 (xp : Option Xp) (o : MemOps) : Statement (.ld16 xp o) := of_low (low_wrMem 0x80 0x01 o (by decide))
theorem ld32 (xp : Option Xp) (o : MemOps) : Statement (.ld32 xp o) := of_low (low_wrMem 0x80 0x02 o (by decide))
theorem ld64 (xp : Option Xp) (o : MemOps) : Statement (.ld64 xp o) := of_low (low_wrMem 0x80 0x03 o (by decide))
theorem ld8s (xp : Option Xp) (o : MemOps) : Statement (.ld8s xp o) := of_low (low_wrMem 0x80 0x04 o (by decide))
theorem ld16s (xp : Option Xp) (o : MemOps) : Statement (.ld16s xp o) := of_low (low_wrMem 0x80 0x05 o (by decide))
theorem ld32s (xp : Option Xp) (o : MemOps) : Statement (.ld32s xp o) := of_low (low_wrMem 0x80 0x06 o (by decide))
theorem st8 (xp : Option Xp) (o : MemOps) : Statement (.st8 xp o) := of_low (low_wrMem 0x81 0x00 o (by decide))
theorem st16 (xp : Option Xp) (o : MemOps) : Statement (.st16 xp o) := of_low (low_wrMem 0x81 0x01 o (by decide))
theorem st32 (xp : Option Xp) (o : MemOps) : Statement (.st32 xp o) := of_low (low_wrMem 0x81 0x02 o (by decide))
theorem st64 (xp : Option Xp) (o : MemOps) : Statement (.st64 xp o) := of_low (low_wrMem 0x81 0x03 o (by decide))
theorem ldp (xp : Option Xp) (o : PackOps) : Statement (.ldp xp o) := of_low (low_wrPack 0x00 o)
theorem stp (xp : Option Xp) (o : PackOps) : Statement (.stp xp o) := of_low (low_wrPack 0x01 o)
theorem ldx (o : XMemOps) : Statement (.ldx o) := of_low (low_wrXMem 0x00 o)
theorem stx (o : XMemOps) : Statement (.stx o) := of_low (low_wrXMem 0x01 o)
theorem ldg (xp : Option Xp) (o : AOps) : Statement (.ldg xp o) := of_low (low_wrA 0x84 0x00 o (by decide))
theorem stg (xp : Option Xp) (o : AOps) : Statement (.stg xp o) := of_low (low_wrA 0x84 0x01 o (by decide))
theorem sld (xp : Option Xp) (o : ScrOps) : Statement (.sld xp o) := of_low (low_wrScr 0x00 o)
theorem sst (xp : Option Xp) (o : ScrOps) : Statement (.sst xp o) := of_low (low_wrScr 0x01 o)
theorem sldt (xp : Option Xp) (o : ScrOps) : Statement (.sldt xp o) := of_low (low_wrScr 0x02 o)
theorem pf (off : BitVec 24) (cache : BitVec 2) (base : BitVec 5) : Statement (.pf off cache base) :=
  of_low (show (opfn 0x86 0x00 + base.toNat * 2 ^ 21 + cache.toNat * 2 ^ 38 + off.toNat * 2 ^ 40) % 16 ≠ 15 by unfold opfn; omega)
theorem icinv (o : InvOps) : Statement (.icinv o) := of_low (low_wrInv 0x01 o)
theorem dcinv (o : InvOps) : Statement (.dcinv o) := of_low (low_wrInv 0x02 o)
theorem aadd (xp : Option Xp) (o : AOps) : Statement (.aadd xp o) := of_low (low_wrA 0xA0 0x00 o (by decide))
theorem aand (xp : Option Xp) (o : AOps) : Statement (.aand xp o) := of_low (low_wrA 0xA0 0x01 o (by decide))
theorem aor (xp : Option Xp) (o : AOps) : Statement (.aor xp o) := of_low (low_wrA 0xA0 0x02 o (by decide))
theorem axor (xp : Option Xp) (o : AOps) : Statement (.axor xp o) := of_low (low_wrA 0xA0 0x03 o (by decide))
theorem amin (xp : Option Xp) (o : AOps) : Statement (.amin xp o) := of_low (low_wrA 0xA0 0x04 o (by decide))
theorem amax (xp : Option Xp) (o : AOps) : Statement (.amax xp o) := of_low (low_wrA 0xA0 0x05 o (by decide))
theorem aminu (xp : Option Xp) (o : AOps) : Statement (.aminu xp o) := of_low (low_wrA 0xA0 0x06 o (by decide))
theorem amaxu (xp : Option Xp) (o : AOps) : Statement (.amaxu xp o) := of_low (low_wrA 0xA0 0x07 o (by decide))
theorem aswp (xp : Option Xp) (o : AOps) : Statement (.aswp xp o) := of_low (low_wrA 0xA0 0x08 o (by decide))
theorem acas (xp : Option Xp) (o : AOps) : Statement (.acas xp o) := of_low (low_wrA 0xA0 0x09 o (by decide))
theorem redAdd (xp : Option Xp) (o : AOps) : Statement (.redAdd xp o) := of_low (low_wrA 0xA1 0x00 o (by decide))
theorem redAnd (xp : Option Xp) (o : AOps) : Statement (.redAnd xp o) := of_low (low_wrA 0xA1 0x01 o (by decide))
theorem redOr (xp : Option Xp) (o : AOps) : Statement (.redOr xp o) := of_low (low_wrA 0xA1 0x02 o (by decide))
theorem redXor (xp : Option Xp) (o : AOps) : Statement (.redXor xp o) := of_low (low_wrA 0xA1 0x03 o (by decide))
theorem redMin (xp : Option Xp) (o : AOps) : Statement (.redMin xp o) := of_low (low_wrA 0xA1 0x04 o (by decide))
theorem redMax (xp : Option Xp) (o : AOps) : Statement (.redMax xp o) := of_low (low_wrA 0xA1 0x05 o (by decide))
theorem redMinu (xp : Option Xp) (o : AOps) : Statement (.redMinu xp o) := of_low (low_wrA 0xA1 0x06 o (by decide))
theorem redMaxu (xp : Option Xp) (o : AOps) : Statement (.redMaxu xp o) := of_low (low_wrA 0xA1 0x07 o (by decide))
theorem osCas4 (xp : Option Xp) (o : AOps) : Statement (.osCas4 xp o) := of_low (low_wrA 0xA2 0x00 o (by decide))
theorem osEnq (xp : Option Xp) (o : AOps) : Statement (.osEnq xp o) := of_low (low_wrA 0xA2 0x01 o (by decide))
theorem osChase (xp : Option Xp) (o : AOps) : Statement (.osChase xp o) := of_low (low_wrA 0xA2 0x02 o (by decide))
theorem osRun (xp : Option Xp) (o : AOps) : Statement (.osRun xp o) := of_low (low_wrA 0xA2 0x03 o (by decide))
theorem hgath (xp : Option Xp) (o : AOps) : Statement (.hgath xp o) := of_low (low_wrA 0xA3 0x00 o (by decide))
theorem fence (sem : Sem) (sco : Scope) : Statement (.fence sem sco) :=
  of_low (show (opfn 0xB0 0x00 + sco.code * 2 ^ 29 + sem.code * 2 ^ 32) % 16 ≠ 15 by unfold opfn; omega)
theorem bind (ent : BitVec 6) (xo : BitVec 5) (xb : BitVec 5) (xl : BitVec 5) : Statement (.bind ent xo xb xl) :=
  of_low (show (opfn 0xB1 0x00 + xo.toNat * 2 ^ 14 + xb.toNat * 2 ^ 19 + xl.toNat * 2 ^ 24 + ent.toNat * 2 ^ 29) % 16 ≠ 15 by unfold opfn; omega)
theorem unbind (ent : BitVec 6) : Statement (.unbind ent) :=
  of_low (show (opfn 0xB1 0x01 + ent.toNat * 2 ^ 29) % 16 ≠ 15 by unfold opfn; omega)
theorem qpush (nb : Bool) (pd : BitVec 3) (q : BitVec 5) (reg : BitVec 7) : Statement (.qpush nb pd q reg) := of_low (low_wrQ 0x00 nb pd q reg)
theorem qpop (nb : Bool) (pd : BitVec 3) (q : BitVec 5) (reg : BitVec 7) : Statement (.qpop nb pd q reg) := of_low (low_wrQ 0x01 nb pd q reg)
theorem qbind (q : BitVec 5) (port : BitVec 4) (idx : BitVec 2) : Statement (.qbind q port idx) :=
  of_low (show (opfn 0xC0 0x02 + q.toNat * 2 ^ 14 + port.toNat * 2 ^ 30 + idx.toNat * 2 ^ 34) % 16 ≠ 15 by unfold opfn; omega)
theorem tcopy (nb : Bool) (pd : BitVec 3) (eng : Bool) (reg : BitVec 7) : Statement (.tcopy nb pd eng reg) :=
  of_low (show (opfn 0xC0 0x03 + b2n eng * 2 ^ 14 + reg.toNat * 2 ^ 19 + b2n nb * 2 ^ 26 + pd.toNat * 2 ^ 27) % 16 ≠ 15 by unfold opfn; omega)
theorem own (st : BitVec 7) (n : BitVec 7) (dst : BitVec 2) : Statement (.own st n dst) :=
  of_low (show (opfn 0xC1 0x00 + st.toNat * 2 ^ 29 + n.toNat * 2 ^ 36 + dst.toNat * 2 ^ 43) % 16 ≠ 15 by unfold opfn; omega)
theorem tmma (o : MmaOps) : Statement (.tmma o) :=
  of_low (show (opfn 0xC2 0x00 + o.td.toNat * 2 ^ 14 + o.qa.toNat * 2 ^ 18 + o.qb.toNat * 2 ^ 23 + o.fsa.toNat * 2 ^ 28 + o.fsb.toNat * 2 ^ 32 + o.tid.toNat * 2 ^ 36 + o.aoff.toNat * 2 ^ 44 + o.boff.toNat * 2 ^ 48 + b2n o.popa * 2 ^ 52 + b2n o.popb * 2 ^ 53) % 16 ≠ 15 by unfold opfn; omega)
theorem tzero (td : BitVec 4) : Statement (.tzero td) :=
  of_low (show (opfn 0xC2 0x01 + td.toNat * 2 ^ 14) % 16 ≠ 15 by unfold opfn; omega)
theorem talloc (td : BitVec 4) : Statement (.talloc td) :=
  of_low (show (opfn 0xC2 0x02 + td.toNat * 2 ^ 14) % 16 ≠ 15 by unfold opfn; omega)
theorem tfree (td : BitVec 4) : Statement (.tfree td) :=
  of_low (show (opfn 0xC2 0x03 + td.toNat * 2 ^ 14) % 16 ≠ 15 by unfold opfn; omega)
theorem tld (xp : Option Xp) (o : TldOps) : Statement (.tld xp o) :=
  of_low (show (opfn 0xC3 0x00 + o.vd.toNat * 2 ^ 14 + o.t.toNat * 2 ^ 21 + o.fs.toNat * 2 ^ 35 + o.fs.toNat * 2 ^ 39 + o.row0.toNat * 2 ^ 51) % 16 ≠ 15 by unfold opfn; omega)
theorem tst (xp : Option Xp) (o : TstOps) : Statement (.tst xp o) :=
  of_low (show (opfn 0xC4 0x00 + o.t.toNat * 2 ^ 14 + o.base.toNat * 2 ^ 21 + o.fs.toNat * 2 ^ 34 + o.cache.toNat * 2 ^ 38 + o.off.toNat * 2 ^ 40) % 16 ≠ 15 by unfold opfn; omega)
theorem ujobCommit (xa : BitVec 5) : Statement (.ujobCommit xa) :=
  of_low (show (opfn 0xC5 0x00 + xa.toNat * 2 ^ 26) % 16 ≠ 15 by unfold opfn; omega)
theorem ujobDrop (xa : BitVec 5) : Statement (.ujobDrop xa) :=
  of_low (show (opfn 0xC5 0x01 + xa.toNat * 2 ^ 26) % 16 ≠ 15 by unfold opfn; omega)
theorem cxClaim (xd : BitVec 5) (wait : Bool) : Statement (.cxClaim xd wait) := of_low (low_wrC 0x00 0 0 0 xd.toNat 0 0 wait)
theorem cxFree : Statement (.cxFree) := of_low (low_wrC 0x01 0 0 0 0 0 0 false)
theorem cxClr (keep : Bool) : Statement (.cxClr keep) := of_low (low_wrC 0x02 0 0 0 0 0 0 keep)
theorem cxLdc (va : BitVec 7) (xa : BitVec 5) (col : BitVec 11) (app : Bool) : Statement (.cxLdc va xa col app) := of_low (low_wrC 0x03 0 va.toNat xa.toNat 0 0 col.toNat app)
theorem cxDis (xa : BitVec 5) (col : BitVec 11) (en : Bool) : Statement (.cxDis xa col en) := of_low (low_wrC 0x04 0 0 xa.toNat 0 0 col.toNat en)
theorem cxAsg (xa : BitVec 5) (newl : Bool) : Statement (.cxAsg xa newl) := of_low (low_wrC 0x05 0 0 xa.toNat 0 0 0 newl)
theorem cxProp (xd : BitVec 5) (async : Bool) : Statement (.cxProp xd async) := of_low (low_wrC 0x06 0 0 0 xd.toNat 0 0 async)
theorem cxBt (xa : BitVec 5) (lvl : BitVec 9) : Statement (.cxBt xa lvl) := of_low (low_wrC 0x07 0 0 xa.toNat 0 lvl.toNat 0 false)
theorem cxLvl (all : Bool) (xd : BitVec 5) (xa : BitVec 5) (vd : BitVec 7) : Statement (.cxLvl all xd xa vd) := of_low (low_wrC 0x08 vd.toNat 0 xa.toNat xd.toNat 0 0 all)
theorem cxTrl (vd : BitVec 7) (xd : BitVec 5) (xa : BitVec 5) : Statement (.cxTrl vd xd xa) := of_low (low_wrC 0x09 vd.toNat 0 xa.toNat xd.toNat 0 0 false)
theorem cxCfl (vd : BitVec 7) (xd : BitVec 5) (xa : BitVec 5) : Statement (.cxCfl vd xd xa) := of_low (low_wrC 0x0A vd.toNat 0 xa.toNat xd.toNat 0 0 false)
theorem cxSt (xd : BitVec 5) : Statement (.cxSt xd) := of_low (low_wrC 0x0B 0 0 0 xd.toNat 0 0 false)
theorem trap (code : BitVec 16) : Statement (.trap code) :=
  of_low (show (opfn 0xE0 0x00 + code.toNat * 2 ^ 31) % 16 ≠ 15 by unfold opfn; omega)
theorem rett : Statement (.rett) :=
  of_low (show (opfn 0xE0 0x01) % 16 ≠ 15 by unfold opfn; omega)
theorem brk (code : BitVec 16) : Statement (.brk code) :=
  of_low (show (opfn 0xE0 0x02 + code.toNat * 2 ^ 31) % 16 ≠ 15 by unfold opfn; omega)
theorem rdsr (xd : BitVec 5) (sr : BitVec 12) : Statement (.rdsr xd sr) :=
  of_low (show (opfn 0xE0 0x03 + sr.toNat * 2 ^ 14 + xd.toNat * 2 ^ 26) % 16 ≠ 15 by unfold opfn; omega)
theorem wrsr (sr : BitVec 12) (xa : BitVec 5) : Statement (.wrsr sr xa) :=
  of_low (show (opfn 0xE0 0x04 + sr.toNat * 2 ^ 14 + xa.toNat * 2 ^ 26) % 16 ≠ 15 by unfold opfn; omega)
theorem pageWalk (core : Nat) (ctx : Nat) (va : Nat) (acc : Acc) : Statement (.pageWalk core ctx va acc) := .inl rfl
theorem translationFaultSwap (t : TeamId) : Statement (.translationFaultSwap t) := .inl rfl
theorem swapRestore (t : TeamId) : Statement (.swapRestore t) := .inl rfl
theorem replayRetry (t : TeamId) : Statement (.replayRetry t) := .inl rfl
theorem operationComplete (op : Nat) (ext : List Resp) : Statement (.operationComplete op ext) := .inl rfl
theorem l2HomeAccess (op : Nat) (part : Nat) : Statement (.l2HomeAccess op part) := .inl rfl
theorem secondTierHomeAccess (op : Nat) (part : Nat) : Statement (.secondTierHomeAccess op part) := .inl rfl
theorem wcEntryDrain (core : Nat) (entry : Nat) : Statement (.wcEntryDrain core entry) := .inl rfl
theorem deferredReport (t : TeamId) : Statement (.deferredReport t) := .inl rfl
theorem launchQueuePoll (ctx : Nat) (q : Nat) : Statement (.launchQueuePoll ctx q) := .inl rfl
theorem admitLaunch (ctx : Nat) (q : Nat) : Statement (.admitLaunch ctx q) := .inl rfl
theorem bindBlock (ctx : Nat) (lnh : Nat) (core : Nat) (slot : Nat) (stb : Nat) : Statement (.bindBlock ctx lnh core slot stb) := .inl rfl
theorem stealRequest (die : Nat) : Statement (.stealRequest die) := .inl rfl
theorem stealAnswer (die : Nat) : Statement (.stealAnswer die) := .inl rfl
theorem issueSlotChoice (core : Nat) (slot : Nat) : Statement (.issueSlotChoice core slot) := .inl rfl
theorem parkBlock (core : Nat) (slot : Nat) : Statement (.parkBlock core slot) := .inl rfl
theorem unparkBlock (core : Nat) (slot : Nat) : Statement (.unparkBlock core slot) := .inl rfl
theorem evictTeams (core : Nat) (ctx : Nat) (lnh : Nat) : Statement (.evictTeams core ctx lnh) := .inl rfl
theorem evictedTeamReturn (t : TeamId) : Statement (.evictedTeamReturn t) := .inl rfl
theorem regroupSetFormed (core : Nat) (slot : Nat) (pc : Word) : Statement (.regroupSetFormed core slot pc) := .inl rfl
theorem barrierPhaseComplete (b : BarRef) : Statement (.barrierPhaseComplete b) := .inl rfl
theorem yieldResume (t : TeamId) : Statement (.yieldResume t) := .inl rfl
theorem teamEnd (t : TeamId) : Statement (.teamEnd t) := .inl rfl
theorem launchCompletion (ctx : Nat) (lnh : Nat) : Statement (.launchCompletion ctx lnh) := .inl rfl
theorem tallocGrant (t : TeamId) : Statement (.tallocGrant t) := .inl rfl
theorem cxClaimGrant (quad : Nat) : Statement (.cxClaimGrant quad) := .inl rfl
theorem cxPropRetire (quad : Nat) : Statement (.cxPropRetire quad) := .inl rfl
theorem cxPropResultPlace (quad : Nat) : Statement (.cxPropResultPlace quad) := .inl rfl
theorem copyCommandStart (core : Nat) (eng : Nat) : Statement (.copyCommandStart core eng) := .inl rfl
theorem copyCommandEnd (core : Nat) (eng : Nat) : Statement (.copyCommandEnd core eng) := .inl rfl
theorem stripAppend (core : Nat) (eng : Nat) : Statement (.stripAppend core eng) := .inl rfl
theorem nvmeDoorbellWrite (core : Nat) (eng : Nat) (ok : Bool) : Statement (.nvmeDoorbellWrite core eng ok) := .inl rfl
theorem matrixPassStart (core : Nat) : Statement (.matrixPassStart core) := .inl rfl
theorem matrixPassComplete (core : Nat) (failed : BitVec 4) : Statement (.matrixPassComplete core failed) := .inl rfl
theorem offloadCommand (iod : Nat) (fromHost : List (List Byte)) (hostErrorAt : Option Nat) : Statement (.offloadCommand iod fromHost hostErrorAt) := .inl rfl
theorem ujobTake (die : Nat) : Statement (.ujobTake die) := .inl rfl
theorem ujobRecordComplete (die : Nat) : Statement (.ujobRecordComplete die) := .inl rfl
theorem ujobCommitPublish (die : Nat) : Statement (.ujobCommitPublish die) := .inl rfl
theorem ujobDropApply (die : Nat) : Statement (.ujobDropApply die) := .inl rfl
theorem ostcCommand (core : Nat) : Statement (.ostcCommand core) := .inl rfl
theorem ostlerOperation (op : Nat) (part : Nat) : Statement (.ostlerOperation op part) := .inl rfl
theorem trapRecordWrite (ctx : Nat) : Statement (.trapRecordWrite ctx) := .inl rfl
theorem trapQueuePoll (ctx : Nat) (entry : Nat) : Statement (.trapQueuePoll ctx entry) := .inl rfl
theorem handlerTimeout (t : TeamId) : Statement (.handlerTimeout t) := .inl rfl
theorem longStall (t : TeamId) : Statement (.longStall t) := .inl rfl
theorem vfSliceSwitch : Statement (.vfSliceSwitch) := .inl rfl
theorem contextEnable (ctx : Nat) : Statement (.contextEnable ctx) := .inl rfl
theorem contextDisable (ctx : Nat) : Statement (.contextDisable ctx) := .inl rfl
theorem tlbiCtl (fn : Nat) (v : Word) : Statement (.tlbiCtl fn v) := .inl rfl
theorem tlbInvalidationComplete (fn : Nat) : Statement (.tlbInvalidationComplete fn) := .inl rfl
theorem registerWrite (off : Nat) (v : Word) (secure : Bool) : Statement (.registerWrite off v secure) := .inl rfl
theorem mextGo (v : Word) : Statement (.mextGo v) := .inl rfl
theorem rkeyLock (v : Word) : Statement (.rkeyLock v) := .inl rfl
theorem halt (seq : BitVec 8) : Statement (.halt seq) := .inl rfl
theorem resume (seq : BitVec 8) : Statement (.resume seq) := .inl rfl
theorem step (seq : BitVec 8) : Statement (.step seq) := .inl rfl
theorem readFrame (seq : BitVec 8) : Statement (.readFrame seq) := .inl rfl
theorem writeFrame (seq : BitVec 8) : Statement (.writeFrame seq) := .inl rfl
theorem setBp (seq : BitVec 8) : Statement (.setBp seq) := .inl rfl
theorem clrBp (seq : BitVec 8) : Statement (.clrBp seq) := .inl rfl
theorem admitCmd (seq : BitVec 8) : Statement (.admitCmd seq) := .inl rfl
theorem list (seq : BitVec 8) : Statement (.list seq) := .inl rfl
theorem mbxCommandFinish : Statement (.mbxCommandFinish) := .inl rfl
theorem inboundBar2Access (fn : Nat) (off : Nat) (req : HostReq) : Statement (.inboundBar2Access fn off req) := .inl rfl
theorem inboundCxlMemAccess (port : Nat) (pa : Nat) (req : HostReq) : Statement (.inboundCxlMemAccess port pa req) := .inl rfl
theorem getVersion : Statement (.getVersion) := .inl rfl
theorem getCapabilities : Statement (.getCapabilities) := .inl rfl
theorem negotiateAlgorithms (hash : BitVec 32) (sig : BitVec 32) : Statement (.negotiateAlgorithms hash sig) := .inl rfl
theorem getDigests : Statement (.getDigests) := .inl rfl
theorem getCertificate (slot : Nat) (off : Nat) (len : Nat) : Statement (.getCertificate slot off len) := .inl rfl
theorem challenge (nonce : BitVec 256) : Statement (.challenge nonce) := .inl rfl
theorem getMeasurements (nonce : BitVec 256) (index : Nat) : Statement (.getMeasurements nonce index) := .inl rfl
theorem keyExchange (exchange : List Byte) : Statement (.keyExchange exchange) := .inl rfl
theorem finish (mac : BitVec 256) : Statement (.finish mac) := .inl rfl
theorem endSession : Statement (.endSession) := .inl rfl
theorem keyLoad (k : Nat) (key : BitVec 512) : Statement (.keyLoad k key) := .inl rfl
theorem deviceReset (image : List Byte) (sig : List Byte) (flashReads : Bool) (flashWrites : Bool) : Statement (.deviceReset image sig flashReads flashWrites) := .inl rfl
theorem linkUp (port : Nat) : Statement (.linkUp port) := .inl rfl
theorem incarnationAnnounce (peer : Nat) (inc : BitVec 16) : Statement (.incarnationAnnounce peer inc) := .inl rfl
theorem linkDown (port : Nat) : Statement (.linkDown port) := .inl rfl
theorem fabricPacketReceive (p : Packet) : Statement (.fabricPacketReceive p) := .inl rfl
theorem relayForward (p : Packet) : Statement (.relayForward p) := .inl rfl
theorem fabricAckReceive (hdr : PktHdr) (src : Nat) (resp : Resp) : Statement (.fabricAckReceive hdr src resp) := .inl rfl
theorem fabricResend (peer : Nat) (tag : BitVec 12) : Statement (.fabricResend peer tag) := .inl rfl
theorem packetDiscard (die : Nat) (idx : Nat) : Statement (.packetDiscard die idx) := .inl rfl
theorem packetSuspect (die : Nat) (idx : Nat) : Statement (.packetSuspect die idx) := .inl rfl
theorem halterVisit (die : Nat) (generation : Nat) : Statement (.halterVisit die generation) := .inl rfl
theorem halterTimeout : Statement (.halterTimeout) := .inl rfl
theorem counterOverflow (c : CounterRef) : Statement (.counterOverflow c) := .inl rfl
theorem uncorrectableError (site : ErrSite) : Statement (.uncorrectableError site) := .inl rfl

end Sys2Proof.Laws.BaseWordIsNoPrefix
end

