-- ==== Sys2Proof/Tests/Slice0.lean ====
section
/-!
SUPPORT. The model's own tests: ill-formed terms that WellFormed refuses, words written out from the encodings of chapters 03 to
17 with the instruction each stands for, one step of small states with results taken from the text of the rule, and, for each
obligation with hypotheses, a state and operands that meet them.
-/

namespace Sys2Proof.Tests

set_option Elab.async false

open Sys2Proof.Machine Sys2Proof.Claims

/-! ## Well-formedness: one ill-formed term for each check -/

/-- A prefix that masks with MZ though KM is 000, and one with SV though SO is 0 (R135). -/
theorem test_wf_xp_mz : Instr.wf (.vadd (some ⟨false, false, 0, 0, true, 0⟩) ⟨0, 0, 0, 0, 0⟩) = false := by decide
theorem test_wf_xp_sv : Instr.wf (.vadd (some ⟨true, false, 0, 0, false, 0⟩) ⟨0, 0, 0, 0, 0⟩) = false := by decide
/-- A prefix part that the instruction does not use (R137, R141): VC of `vadd`, RO of `vand`, KM of `tld`. -/
theorem test_wf_xp_vc : Instr.wf (.vadd (some ⟨false, false, 3, 0, false, 0⟩) ⟨0, 0, 0, 0, 0⟩) = false := by decide
theorem test_wf_xp_ro : Instr.wf (.vand (some ⟨false, false, 0, 1, false, 0⟩) ⟨0, 0, 0, 0⟩) = false := by decide
theorem test_wf_xp_km : Instr.wf (.tld (some ⟨false, false, 0, 0, false, 1⟩) ⟨0, 0, 0, 0⟩) = false := by decide
/-- A join with a condition on the whole mask (R149). -/
theorem test_wf_brp_join : Instr.wf (.brp 1 .any true 4) = false := by decide
/-- A barrier of team scope, and one of core scope with an id (R158). -/
theorem test_wf_bar_scope : Instr.wf (.bar .team 0 0) = false := by decide
theorem test_wf_bar_id : Instr.wf (.barar 1 .core 1 0) = false := by decide
theorem test_wf_barwt : Instr.wf (.barwt 1 .system 0) = false := by decide
/-- A predicate destination above 7, and ALL without one (R179). -/
theorem test_wf_cmp_pdst : Instr.wf (.vcmpeq none ⟨true, false, 0, 0, 0, 8⟩) = false := by decide
theorem test_wf_cls_all : Instr.wf (.vclass none ⟨1, false, true, 0, 0, 0⟩) = false := by decide
/-- A shift with a count both in VB and in AMT (R184). -/
theorem test_wf_shift : Instr.wf (.vshl none ⟨3, true, 0, 1, 0, 0⟩) = false := by decide
/-- A slice number above 1023 (R190). -/
theorem test_wf_elt : Instr.wf (.vgetx ⟨false, 1024, 0, 0, 1⟩) = false := by decide
/-- Table 0 cannot be loaded (R69). -/
theorem test_wf_fscmp : Instr.wf (.fscmp 0 1) = false := by decide
/-- A release on a load, a scope without an ordering, a reserved CACHE (R194, R399). -/
theorem test_wf_ld_release : Instr.wf (.ld32 none ⟨0, 0, .release, .device, 1, 2⟩) = false := by decide
theorem test_wf_ld_scope : Instr.wf (.ld32 none ⟨0, 0, .relaxed, .device, 1, 2⟩) = false := by decide
theorem test_wf_st_acquire : Instr.wf (.st32 none ⟨0, 0, .acquire, .device, 1, 2⟩) = false := by decide
theorem test_wf_ld_cache : Instr.wf (.ld32 none ⟨0, 3, .relaxed, .team, 1, 2⟩) = false := by decide
theorem test_wf_ldp_cache : Instr.wf (.ldp none ⟨0, 3, 0, 1, 2⟩) = false := by decide
theorem test_wf_stx_sx : Instr.wf (.stx ⟨0, 0, true, 3, .relaxed, .team, 1, 2⟩) = false := by decide
/-- Sizes and orderings that a format-A instruction does not have (R194, R205, R206, R208–R210, R212, R403). -/
theorem test_wf_ldg : Instr.wf (.ldg none ⟨0, 4, .relaxed, .team, 1, 2, 3⟩) = false := by decide
theorem test_wf_atomic : Instr.wf (.aadd none ⟨0, 1, .relaxed, .team, 1, 2, 3⟩) = false := by decide
theorem test_wf_red : Instr.wf (.redAdd none ⟨0, 3, .acquire, .device, 1, 2, 3⟩) = false := by decide
theorem test_wf_cas4 : Instr.wf (.osCas4 none ⟨0, 4, .relaxed, .team, 1, 2, 8⟩) = false := by decide
theorem test_wf_enq : Instr.wf (.osEnq none ⟨0, 2, .relaxed, .team, 1, 2, 3⟩) = false := by decide
theorem test_wf_chase : Instr.wf (.osChase none ⟨0, 3, .release, .device, 1, 2, 3⟩) = false := by decide
theorem test_wf_hgath : Instr.wf (.hgath none ⟨0, 3, .acquire, .device, 1, 2, 8⟩) = false := by decide
/-- A pitch on `sld`, a CACHE of 10 on `pf`, an invalidation at pod scope, a fence with SEM 00 (R202–R204, R216). -/
theorem test_wf_sld : Instr.wf (.sld none ⟨0, 1, 0, 1, 2⟩) = false := by decide
theorem test_wf_pf : Instr.wf (.pf 0 2 1) = false := by decide
theorem test_wf_dcinv : Instr.wf (.dcinv ⟨0, .pod, 1, 2⟩) = false := by decide
theorem test_wf_fence : Instr.wf (.fence .relaxed .device) = false := by decide
/-- A predicate without NB, a port above 9, an owner of 11, a CACHE of 11 on `tst` (R218, R221, R223, R241). -/
theorem test_wf_qpush : Instr.wf (.qpush false 1 0 0) = false := by decide
theorem test_wf_qbind : Instr.wf (.qbind 0 10 0) = false := by decide
theorem test_wf_own : Instr.wf (.own 0 0 3) = false := by decide
theorem test_wf_tst : Instr.wf (.tst none ⟨0, 3, 0, 1, 0⟩) = false := by decide
/-- `cx.prop` with ASYNC and a destination (R405), `cx.lvl` with ALL and an x register (R269). -/
theorem test_wf_cxprop : Instr.wf (.cxProp 6 true) = false := by decide
theorem test_wf_cxlvl : Instr.wf (.cxLvl true 1 0 0) = false := by decide
/-- A system register that R171 does not list, and a write of one that only reads. -/
theorem test_wf_rdsr : Instr.wf (.rdsr 1 7) = false := by decide
theorem test_wf_wrsr : Instr.wf (.wrsr 2 1) = false := by decide

/-! ## Decoding: words written out in the manual -/

/-- The words decode, with no PB prefix, to the instruction. -/
def decodesTo (ws : List Nat) (i : Instr) : Bool :=
  match decodeWords ws with
  | .ok d => d.pb = none && d.instr = i && d.len = 4 * ws.length
  | .error _ => false

/-- The words are no instruction. -/
def illegal (ws : List Nat) : Bool :=
  match decodeWords ws with
  | .ok _ => false
  | .error _ => true

/-- Control: the examples of R149, R154, R158 and the programs of chapters 13 to 16. -/
theorem test_decode_brp : decodesTo [0xFEA40101, 0x000017FF] (.brp 1 .t true ((0x1FFFFA : BitVec 21).zeroExtend 42 + 0x400000)) = true := by
  decide
theorem test_decode_brp_any : decodesTo [0x0D048101, 0] (.brp 1 .any false 52) = true := by decide
theorem test_decode_br : decodesTo [0xF4000001, 0xFFFFFFFF] (.br (BitVec.ofInt 42 (-48))) = true := by decide
theorem test_decode_waitc : decodesTo [0x00000200, 0x007E17E0] (.waitc 0 63 2 63) = true := by decide
theorem test_decode_exit : decodesTo [0x00000100, 0] .exit = true := by decide
theorem test_decode_bar : decodesTo [0x00004003, 0] (.bar .core 0 0) = true := by decide
/-- Predicates and mask: chapter 16. -/
theorem test_decode_pset : decodesTo [0x20504411, 0] (.pset 1 10 true) = true := by decide
theorem test_decode_emset : decodesTo [0x00B00111, 0] (.emset 22) = true := by decide
/-- Scalar: R53, R169 and chapters 13 to 16. -/
theorem test_decode_add : decodesTo [0x07738020, 0] (.add 14 14 7) = true := by decide
theorem test_decode_addi : decodesTo [0xE0630022, 0xFFFFFFFF] (.addi 12 12 (BitVec.ofInt 35 (-1))) = true := by decide
theorem test_decode_shl : decodesTo [0x144D4421, 0] (.shl 21 9 20) = true := by decide
theorem test_decode_shli : decodesTo [0x80738422, 0] (.shli 14 14 4) = true := by decide
theorem test_decode_sltu : decodesTo [0x0A22C323, 0] (.sltu 11 4 10) = true := by decide
theorem test_decode_li : decodesTo [0xA001C025, 0x03E94F82] (.li 7 0x1F4A7C15) = true := by decide
theorem test_decode_lhi : decodesTo [0x6001C125, 0x9E3779B9] (.lhi 7 0x4F1BBCDCB) = true := by decide
theorem test_decode_addpc : decodesTo [0x00018225, 0x000003EE] (.addpc 6 0x1F70) = true := by decide
theorem test_decode_fsset : decodesTo [0x002B002E, 0] (.fsset 12 5) = true := by decide
/-- Vector: the encodings of R131 with its prefix, of chapter 08, and of chapters 13 and 16. -/
theorem test_decode_vfma : decodesTo [0x0004AB0F, 0x60A10041, 0x00000110]
    (.vfma (some ⟨false, false, 9, 2, true, 3⟩) ⟨2, 2, 6, 5, 4⟩) = true := by decide
theorem test_decode_vdot : decodesTo [0x40418044, 0x00786610] (.vdot none ⟨15, 12, 12, 2, 4, 2, 6⟩) = true := by decide
theorem test_decode_vcvt : decodesTo [0x00C1C070, 0x00000128] (.vcvt none ⟨0, 0, 2, 5, 6, 7⟩) = true := by decide
theorem test_decode_vbcast : decodesTo [0x02410171, 0] (.vbcast none 0 18 4) = true := by decide
theorem test_decode_vgetx : decodesTo [0x00C1C072, 0x00000910] (.vgetx ⟨true, 0, 2, 6, 7⟩) = true := by decide
/-- Memory: chapters 09, 13, 15 and 16. -/
theorem test_decode_ld64 : decodesTo [0x00A28380, 0] (.ld64 none ⟨0, 0, .relaxed, .team, 5, 10⟩) = true := by decide
theorem test_decode_st64 : decodesTo [0x00834381, 0x00010000] (.st64 none ⟨256, 0, .relaxed, .team, 4, 13⟩) = true := by decide
theorem test_decode_ldp : decodesTo [0x00608082, 0x00000530] (.ldp none ⟨5, 0, 12, 3, 2⟩) = true := by decide
theorem test_decode_ldx : decodesTo [0xA0A2C083, 0x0000080D] (.ldx ⟨8, 0, false, 3, .acquire, .system, 5, 11⟩) = true := by decide
theorem test_decode_stx : decodesTo [0x60C14183, 0x0000000E] (.stx ⟨0, 0, false, 3, .release, .device, 6, 5⟩) = true := by decide
theorem test_decode_sldt : decodesTo [0x1C80C285, 0x00000014] (.sldt none ⟨0, 5, 7, 4, 3⟩) = true := by decide
theorem test_decode_aadd : decodesTo [0x506080A0, 0x000000C0] (.aadd none ⟨0, 3, .relaxed, .team, 5, 3, 2⟩) = true := by decide
theorem test_decode_red : decodesTo [0x806100A1, 0x000010C0] (.redAdd none ⟨8, 3, .relaxed, .team, 8, 3, 4⟩) = true := by decide
theorem test_decode_fence : decodesTo [0x600000B0, 0x00000003] (.fence .acqRel .device) = true := by decide
/-- Queues, tiles, jobs: chapters 10, 13, 14 and 17. -/
theorem test_decode_qpush : decodesTo [0x004000C0, 0] (.qpush false 0 0 8) = true := by decide
theorem test_decode_qpop : decodesTo [0x0060C1C0, 0] (.qpop false 0 3 12) = true := by decide
theorem test_decode_qbind : decodesTo [0x8000C2C0, 0x00000004] (.qbind 3 2 1) = true := by decide
theorem test_decode_tcopy : decodesTo [0x004843C0, 0] (.tcopy false 0 true 9) = true := by decide
theorem test_decode_own : decodesTo [0x400000C1, 0x00000800] (.own 2 0 1) = true := by decide
theorem test_decode_tmma : decodesTo [0x510400C2, 0x00300055] (.tmma ⟨true, true, 0, 0, 5, 5, 5, 2, 1, 0⟩) = true := by decide
theorem test_decode_tfree : decodesTo [0x000043C2, 0] (.tfree 1) = true := by decide
theorem test_decode_tst : decodesTo [0x00E040C4, 0x00000008] (.tst none ⟨0, 0, 2, 7, 1⟩) = true := by decide
theorem test_decode_ujob : decodesTo [0x140000C5, 0] (.ujobCommit 5) = true := by decide
/-- The clause array: chapters 11 and 15. -/
theorem test_decode_cxldc : decodesTo [0x004003D0, 0x00018000] (.cxLdc 2 0 3 false) = true := by decide
theorem test_decode_cxprop : decodesTo [0x000006D0, 0x0000000C] (.cxProp 6 false) = true := by decide
theorem test_decode_cxasg : decodesTo [0x100005D0, 0x04000001] (.cxAsg 17 true) = true := by decide
theorem test_decode_cxbt : decodesTo [0x000007D0, 0x00000040] (.cxBt 0 1) = true := by decide
theorem test_decode_cxlvl : decodesTo [0x000408D0, 0x04000000] (.cxLvl true 0 0 16) = true := by decide
/-- Exceptions and system registers, from the opcode map (R141): OP 0xE0 with FN 00 and code 5 at [46:31]; FN 03, SR 5, XD 2. -/
theorem test_decode_trap : decodesTo [0x800000E0, 0x00000002] (.trap 5) = true := by decide
theorem test_decode_rdsr : decodesTo [0x080143E0, 0] (.rdsr 2 5) = true := by decide
/-- A PB word (R138, R343) before an instruction: p2, LEN 2, PAT 101. -/
theorem test_decode_pb : (match decodeWords [0x0001521F, 0x07738020, 0] with
    | .ok d => d.pb = some ⟨5, 2, 2⟩ && d.instr = .add 14 14 7 && d.len = 12
    | .error _ => false) = true := by decide
/-- `cx.prop` with ASYNC 1 and XD 6 is illegal (R405); so are a reserved prefix and a PB word after an XP word (R128, R129). -/
theorem test_illegal_cxprop : illegal [0x000006D0, 0x0400000C] = true := by decide
theorem test_illegal_prefix : illegal [0x0000002F, 0x07738020, 0] = true := by decide
theorem test_illegal_order : illegal [0x0004AB0F, 0x0001521F, 0x60A10041, 0x00000110] = true := by decide

/-! ## Small states -/

/-- The placed team of the model's fetch words, changed by `f`, alone on core 0, about to run an instruction of 8 bytes. -/
def ready (f : Team → Team) : State :=
  { State.reset with
    teams := [(0, f placedTeam)]
    blocks := [(0, placedBlock)]
    ctxs := [(placedCtx, placedCx)]
    cur := ⟨0, 0, 0, 8, 0, [], true⟩ }

/-- The instruction answers a next state of which `p` holds. -/
def after (i : Instr) (s : State) (p : State → Bool) : Bool :=
  match exec i s with
  | .next t => p t
  | _ => false

/-- The instruction answers a next state in which x3 of the team is `v`. -/
def gives (i : Instr) (s : State) (v : Word) : Bool := after i s fun t => (t.team 0).getX 3 == v

theorem steps_of_none {m : MonReq} (h : m = .none) : ∀ b c, m ≠ .step b c := by
  subst h
  nofun

theorem ready_of {s : State} (h : s.hasTeam s.ck = true ∧ s.ct.mon = .none ∧ s.ct.em ≠ 0 ∧ nonCanonical s.nextPc.toNat = false) :
    s.Ready := ⟨⟨h.1, steps_of_none h.2.1 true⟩, h.2.2.1, h.2.2.2⟩

/-! ## One instruction -/

/-- R165: sums wrap; the high half of a product; a shift counts modulo 64. -/
theorem test_add_wraps : gives (.add 3 1 2) (ready fun t => (t.setX 1 5).setX 2 (BitVec.allOnes 64)) 4 = true := by decide +kernel
theorem test_mulh_signs : gives (.mulh 3 1 2) (ready fun t => (t.setX 1 (BitVec.allOnes 64)).setX 2 7) (BitVec.allOnes 64) = true := by
  decide +kernel
theorem test_mulhu : gives (.mulhu 3 1 2) (ready fun t => (t.setX 1 (BitVec.allOnes 64)).setX 2 7) 6 = true := by decide +kernel
theorem test_sar_count : gives (.sar 3 1 2) (ready fun t => (t.setX 1 (BitVec.intMin 64)).setX 2 (64 + 62))
    (BitVec.ofInt 64 (-2)) = true := by decide +kernel
theorem test_clz_zero : gives (.clz 3 1) (ready id) 64 = true := by decide +kernel
theorem test_bswap : gives (.bswap 3 1) (ready fun t => t.setX 1 0x0102030405060708) 0x0807060504030201 = true := by decide +kernel
/-- R166: division by zero, and the most negative number by −1. -/
theorem test_div_zero : gives (.div 3 1 2) (ready fun t => t.setX 1 9) (BitVec.allOnes 64) = true := by decide +kernel
theorem test_rem_zero : gives (.rem 3 1 2) (ready fun t => t.setX 1 9) 9 = true := by decide +kernel
theorem test_div_corner : gives (.div 3 1 2) (ready fun t => (t.setX 1 (BitVec.intMin 64)).setX 2 (BitVec.allOnes 64))
    (BitVec.intMin 64) = true := by decide +kernel
/-- R169's example: `lhi` over `li` builds 0x9E37_79B9_7F4A_7C15. -/
theorem test_lhi : gives (.lhi 3 0x4F1BBCDCB) (ready fun t => t.setX 3 0x1F4A7C15) 0x9E3779B97F4A7C15 = true := by decide +kernel
/-- R132: x0 discards writes. -/
theorem test_x0 : after (.li 0 5) (ready id) (fun t => (t.team 0).getX 0 == 0) = true := by decide +kernel
/-- R162: inactive slots keep their predicate bits. -/
theorem test_pnot_active : after (.pnot 1 0) (ready fun t => { t.setP 1 0xFFFF0000 with em := 0xFF })
    (fun t => (t.team 0).getP 1 == 0xFFFF0000) = true := by decide +kernel
/-- R150: a divergent branch goes to its target with the others waiting above the join. -/
theorem test_brp_divides : after (.brp 1 .t true (0x1FFFFA + 0x400000)) (ready fun t => t.setP 1 0xFF) (fun t =>
    (t.team 0).pc == 0x10000 - 24 && (t.team 0).em == 0xFF && (t.team 0).stack.length == 2) = true := by decide +kernel
/-- R21, R164: a write of the mask keeps only live threads. -/
theorem test_emset_live : after (.emset 1) (ready fun t => { t.setX 1 0xFFFF with exited := 0xFF }) (fun t => (t.team 0).em == 0xFF00) = true := by
  decide +kernel
/-- R177: 1.0 + 1.0 in slot 2, which holds binary32 after reset (R51); thread 0 owns elements 0 and 1. -/
theorem test_vadd : gives (.vgetx ⟨false, 0, 0, 3, 3⟩) (match exec (.vadd none ⟨2, 2, 2, 1, 3⟩)
    (ready fun t => (t.setV 1 (BitVec.ofNat 2048 0x3F800000)).setV 2 (BitVec.ofNat 2048 0x3F800000)) with
    | .next t => t
    | _ => State.reset) 0x40000000 = true := by decide +kernel
/-- R51: slot 0 holds the wrapping 64-bit integers after reset. -/
theorem test_vadd_int : after (.vadd none ⟨0, 0, 2, 1, 3⟩)
    (ready fun t => (t.setV 1 (BitVec.ofNat 2048 (2 ^ 64 - 1))).setV 2 (BitVec.ofNat 2048 2))
    (fun t => sliceOf ((t.team 0).getV 3) 0 == 1) = true := by decide +kernel
/-- R189: every thread takes the slice of thread 1. -/
theorem test_vbcastl : after (.vbcastl none 1 1 3) (ready fun t => t.setV 1 (BitVec.ofNat 2048 (7 * 2 ^ 64)))
    (fun t => sliceOf ((t.team 0).getV 3) 31 == 7) = true := by decide +kernel
/-- R142, R196: a load leaves one operation in flight, counted on LDC, and its result has not come. -/
theorem test_load_counts : after (.ldx ⟨0, 0, false, 3, .relaxed, .team, 1, 3⟩)
    ({ (ready fun t => t.setX 1 0x10000) with quads := [(0, { Quad.reset with ranges := [placedMap] })] })
    (fun t => (t.team 0).count .ld == 1 && t.ops.length == 1 && (t.team 0).getX 3 == 0) = true := by decide +kernel
/-- R193: an address that is no multiple of the size is the operand trap: nothing is left in flight. -/
theorem test_load_unaligned : after (.ldx ⟨1, 0, false, 3, .relaxed, .team, 1, 3⟩)
    ({ (ready fun t => t.setX 1 0x10000) with ctxs := [(placedCtx, { placedCx with launches := [(0, ⟨{ placedRec with handler := 0x20000 }, 0, 0, 0, 1, [], false⟩)] })] })
    (fun t => (t.team 0).pc == 0x20000 && t.ops.length == 0) = true := by decide +kernel
/-- R205: an atomic addition of 4 bytes at a home gives the old value and changes no byte beside. -/
theorem test_home_add : (match State.homeDo { State.reset with mem := [(0x1000, 0xFF), (0x1004, 7)] } (.atomic .add) 0 false 0x1000 0 32 1 0 [] with
    | (t, .ok ws) => ws == [0xFF] && t.mem == [(0x1001, 1), (0x1004, 7)]
    | _ => false) = true := by decide +kernel
/-- R218, R219: `qbind` binds a register of the core's file for the team's context. -/
theorem test_qbind : after (.qbind 3 2 1) (ready id) (fun t => tfind (t.core 0).q 3 == some ⟨2, 1, placedCtx⟩) = true := by decide +kernel
/-- R236: `talloc` gives the lowest free tile, all zeros. -/
theorem test_talloc : after (.talloc 0) (ready id) (fun t => (t.team 0).tiles == [(0, 0)] && ((t.core 0).tile 0).team == 0) = true := by
  decide +kernel
/-- R263: a free array goes to the claimant, and x3 is 1. -/
theorem test_cxclaim : after (.cxClaim 3 false) (ready id) (fun t => (t.team 0).getX 3 == 1 && (t.quad 0).owner == some 0) = true := by
  decide +kernel
/-- R317: FAB_TDL below its range takes the lower limit. -/
theorem test_register_clamp : after (.registerWrite 0x20 0 false) State.reset (fun t => t.regs.fabTdl == 1) = true := by decide +kernel
/-- R321: a device that a link reaches announces its incarnation. -/
theorem test_link_up : after (.linkUp 3) State.reset (fun t => t.portUp 3 &&
    ((t.die 4).pkts.map fun x => (x.pkt.body, x.pkt.dst, x.port)) == [(.announce, 4, some 3)]) = true := by decide +kernel
/-- R15: in a pod of 8, port 7 is connected to nothing. -/
theorem test_link_unwired : after (.linkUp 7) State.reset (fun t => t == State.reset) = true := by decide +kernel
/-- The host's two questions, on `li x10, 3` of chapter 13: the decoder's answer, and the first step after reset. -/
theorem test_table_word : decodeTableWord 64 0x60028025 = some (.li 10 3) := by decide +kernel
theorem test_first_step : (match step (State.reset.withFetchWord 64 0x60028025) with
    | .next t => (t.team 0).getX 10 == 3 && (t.team 0).pc == 0x10008
    | _ => false) = true := by decide +kernel

/-! ## States and operands that meet the hypotheses of the obligations -/

/-- The same state with a changed context. -/
def readyCx (f : Team → Team) (c : Ctx) : State := { ready f with ctxs := [(placedCtx, c)] }

/-- The placed context with a handler at 0x20000. -/
def handledCx : Ctx := { placedCx with launches := [(0, ⟨{ placedRec with handler := 0x20000 }, 0, 0, 0, 1, [], false⟩)] }

/-- A saved state of a handler. -/
def save : Save := ⟨0x30000, 0xFF, [], ⟨0, 0, 0, 0, 0⟩, [1, 2, 3, 4], 0x10000, 0, none⟩

theorem hyps_DecodeOfEncodeIsIdentity : (Instr.add 31 31 31).isEvent = false ∧ (Instr.add 31 31 31).wf = true ∧
    (Instr.vfma (some ⟨true, true, 127, 7, true, 7⟩) ⟨15, 15, 127, 127, 127⟩).wf = true := by decide +kernel
theorem hyps_DecodedIsWellFormed : decodesTo [0x07738020, 0] (.add 14 14 7) = true ∧ wordKind 0x2F = .reserved ∧
    wordKind 0xFF = .reserved ∧ wordKind 0x0F = .xp ∧ wordKind 0x1F = .pb := by decide +kernel
/-- The words of a state's next issue, with the state in which they are decoded, as `StepRunsDecodedInstruction` names them. -/
def issuing (s : State) : Option (Nat × List Nat × State) :=
  match s.agenda with
  | .issue core slot :: rest =>
    let s1 := ((({ s with agenda := rest } : State).flow 1).unmark core).serveSlot core slot
    match ((s1.core core).slots[slot]?).bind IssueSlot.team with
    | some k =>
      let s2 := s1.modTeam k Team.arrival
      if s1.ready k && (s2.interrupt k).isNone && (s2.acquiring k).isNone then
        match State.fetchAt { s2 with cur := ⟨coreOf k, slotOf k, idxOf k, 8, 0, [], true⟩ } k with
        | (s3, .ok ws) => some (k, ws, { s3 with cur := { s3.cur with base := bits64 ws } })
        | _ => none
      else none
    | none => none
  | _ => none
/-- They decode to an instruction that may run, with or without a predicate block, and may be covered by one or not. -/
def issues (s : State) (pb covered ok : Bool) : Bool :=
  (issuing s).any fun e => match decodeWords e.2.1 with
    | .ok d =>
      let t := (e.2.2.team e.1).begin d.pb
      let h := e.2.2.holdReports e.1 t d.instr
      e.2.2.reportDue e.1 t d.instr = none && d.pb.isSome = pb &&
      (decide (t.pbs.left ≠ 0)) = covered && (d.instr.pbOk && d.instr.xp.all fun x => x.km = 0) = ok &&
      h.stall e.1 t d.instr = none && h.badRead e.1 t d.instr = none && t.mon = .none
    | .error _ => false
/-- The word is fetched inside a predicate block of which four instructions are left. -/
def inBlock (w : Nat) : State :=
  let s := State.reset.withFetchWord 64 w
  { s with teams := [(0, { placedTeam with pbs := ⟨1, 0, 4, 0, 0⟩ })] }

theorem hyps_StepRunsDecodedInstruction :
    issues (State.reset.withFetchWord 64 0x02410171) false false true = true ∧ issues (inBlock 0x02410171) false true true = true ∧
    issues (inBlock 0x60028025) false true false = true ∧ issues (State.reset.withFetchWord 96 (0x02410171 * 2 ^ 32 + 0x1F)) true true true = true ∧
    ((issuing (State.reset.withFetchWord 64 0x2F)).any fun e => match decodeWords e.2.1 with
      | .ok _ => false
      | .error _ => true) = true := by decide +kernel
theorem hyps_StepRunsDecodedInstruction_chosen : Instr.halterTimeout.isEvent = true ∧
    { State.reset with agenda := [.event .halterTimeout, .tick 3] }.agenda = [.event .halterTimeout, .tick 3] ∧
    { State.reset with agenda := [.podArrival 3 7 1 0 2] }.agenda = [.podArrival 3 7 1 0 2] := by decide +kernel
theorem hyps_StepKeepsMemoryCanonical : Memory.wf (State.reset.withFetchWord 64 0x60028025).mem = true ∧
    (match step (State.reset.withFetchWord 64 0x60028025) with | .next _ => true | _ => false) = true := by decide +kernel
theorem hyps_ByteReadsAsWritten : Memory.wf [(3, 1), (2 ^ 41 - 1, 255)] = true ∧ (4 : Nat) ≠ 3 := by decide +kernel
theorem hyps_HardWiredRegisters : (1 : Nat) ≠ 0 ∧ (0 : Nat) ≠ 1 ∧ twf 0 (placedTeam.setX 31 9).x = true ∧
    twf 0 (placedTeam.setP 7 9).p = true := by decide +kernel
theorem hyps_RetirementChangesOnlyBookkeeping : (ready id).Standing := ⟨by decide +kernel, steps_of_none (by decide +kernel) true⟩
theorem hyps_RetirementChangesOnlyBookkeeping_stepped :
    let s := readyCx (fun t => { t with mon := .step true 7 }) { placedCx with pending := [⟨7, 0, 0, 0, 0, 0, 0, true, false, false⟩] }
    s.hasTeam 0 = true ∧ (s.team 0).mon = .step true 7 ∧ ((s.stepDone 0).ctx (s.ctxOf 0)).killed = false := by decide +kernel
theorem hyps_HandlerEntrySavesAndJumps :
    let s := readyCx id handledCx
    (s.hasTeam 0 = true ∧ coreOf 0 < 256 ∧ (s.team 0).handler = none ∧ s.handlerOf 0 ≠ 0 ∧ twf 0 (s.team 0).x = true ∧
      (∀ c, (s.team 0).mon ≠ .stepped c)) ∧ (∀ b c, (s.team 0).mon ≠ .step b c) ∧
      5 ∈ [0x01, 0x02, 0x03, 0x04, 0x05, 0x08, 0x0A, 0x0B] ∧ 0x0B ∈ [0x01, 0x02, 0x03, 0x04, 0x05, 0x08, 0x0A, 0x0B] :=
  ⟨⟨by decide +kernel, by decide +kernel, by decide +kernel, by decide +kernel, by decide +kernel, nofun⟩,
    steps_of_none (by decide +kernel), by decide⟩
theorem hyps_HandlerReturnRestores : (ready fun t => { t with handler := some save }).Ready ∧
    (ready fun t => { t with handler := some save }).ct.handler = some save ∧
    twf 0 (ready fun t => { t with handler := some save }).ct.x = true := ⟨ready_of (by decide +kernel), by decide +kernel⟩
theorem hyps_SoftwareTrapsAreTaken : (ready id).hasTeam (ready id).ck = true ∧ (ready id).ct.em ≠ 0 ∧
    (ready id).ct.precise = true := by decide +kernel
theorem hyps_HandlerModeIllegalInstructions : (ready id).ct.handler = none ∧
    (ready fun t => { t with handler := some save }).ct.handler ≠ none := by decide +kernel
theorem ready_ready : (ready id).Ready := ready_of (by decide +kernel)
theorem hyps_ScalarForms : (ready id).Ready ∧ (scalarForm (.add 31 1 2)).isSome = true ∧ (immediateForm (.li 0 5)).isSome = true ∧
    (compareForm (.sltu 31 1 2)).isSome = true := ⟨ready_ready, by decide +kernel⟩
theorem hyps_ScalarDivisions : (ready id).Ready ∧ (divisionForm (.rem 31 1 2)).isSome = true := ⟨ready_ready, by decide +kernel⟩
theorem hyps_FormatSlotMoves : (ready id).Ready ∧ twf 0 (ready fun t => t.setFs 15 1).ct.fs = true := ⟨ready_ready, by decide +kernel⟩
/-- Slot 11's reset image is an unsigned, slot 10's a signed integer (R51); a word of each SAT, and each kind of image. -/
theorem hyps_IntegerElements :
    fmtReason 0x07C00000000B = 0 ∧ (fmtOf 0x07C00000000B).kind = 3 ∧ (fmtOf 0x07C00000000B).cmpd = 0 ∧ (fmtOf 0x07C00000000B).sgn = 1 ∧
    (fmtOf 0x07C00000000B).sat = 0 ∧ fmtReason 0x07D000000003 = 0 ∧ (fmtOf 0x07D000000003).sgn = 0 ∧ (fmtOf 0x07D000000003).sat = 1 ∧
    (fmtOf 0x07E000000003).sat = 2 ∧ (⟨7, 2⟩ : Q).den ≠ 0 ∧ (6 : Int) % 2 = 0 := by decide +kernel
theorem hyps_OverridesAndPrecision :
    (∀ i ∈ [0, 2, 5, 7, 9], fmtReason (resetImage i) = 0) ∧ (fmtOf (resetImage 0)).kind = 3 ∧ (fmtOf (resetImage 0)).cmpd = 0 ∧
    (fmtOf (resetImage 2)).kind = 0 ∧ (fmtOf (resetImage 9)).kind = 2 ∧ fmtReason (resetImage 10) = 0 ∧ (fmtOf (resetImage 10)).kind = 1 ∧
    fmtReason 0x000107C00000000B = 0 ∧ (fmtOf 0x000107C00000000B).cmpd = 1 := by decide +kernel
theorem hyps_PredicateInstructions : (ready id).Ready ∧ (predicateForm (.pand 7 1 2)).isSome = true ∧
    (maskRead (.pcnt 31 7)).isSome = true := ⟨ready_ready, by decide +kernel⟩
theorem hyps_MaskWrites :
    let s := ready fun t => { t with stack := [⟨.pend, 0x20000, 1, 0x30000⟩] }
    ((ready id).Ready ∧ s.Ready) ∧ (maskAsked (.emset 1)).isSome = true ∧ (maskAsked (.emand 0)).isSome = true ∧
    (ready id).ct.em &&& (ready id).ct.getP 0 &&& (ready id).ct.live ≠ 0 ∧
    ((s.ct.getX 1).truncate 32 : Mask) &&& s.ct.live = 0 ∧ s.ct.stack ≠ [] ∧ (ready id).ct.stack = [] :=
  ⟨⟨ready_ready, ready_of (by decide +kernel)⟩, by decide +kernel⟩
theorem hyps_CountersAndPlaces :
    let s := ready fun t => t.addOut .ld 1
    let m := { ready (fun t => t.setX 1 0x1FFFF) with quads := [(0, { Quad.reset with ranges := [placedMap] })] }
    ((ready id).Ready ∧ s.Ready ∧ m.Ready) ∧ (ready id).ct.count .tl ≤ (0 : BitVec 6).toNat ∧ (0 : BitVec 6).toNat < s.ct.count .ld ∧
    (match m.peek 0 (m.teamActor m.ck) (m.ct.getX 1).toNat with
      | (u, .ok pa _) => decide (u = m) && decide (m.localPa pa < 2 ^ 39)
      | _ => false) = true ∧
    2 ^ 56 ≤ ((ready fun t => t.setX 1 (2 ^ 56)).ct.getX 1).toNat :=
  ⟨⟨ready_ready, ready_of (by decide +kernel), ready_of (by decide +kernel)⟩, by decide +kernel⟩
/-- A translation of the placed page to `pa`, at MT 11 for device registers; the first and the last page of each range of homes, a walk
that finds no entry, and one that meets a failed line. -/
def homed (pa : Nat) : State :=
  { ready (fun t => t.setX 1 0x10000) with
    quads := [(0, { Quad.reset with ranges := [{ placedMap with pbase := pa, mt := if homeOf pa = .devreg then 3 else 0 }] })] }
theorem hyps_CountersAndPlaces_homes :
    (∀ pa ∈ [0, 2 ^ 39 - 0x10000, 2 ^ 40, 2 ^ 40 + 2 ^ 39 - 0x10000, 2 ^ 40 + 2 ^ 39, 2 ^ 41 - 0x10000, 2 ^ 41, 2 ^ 41 + 2 ^ 32 - 0x10000,
        2 ^ 50 + 2 ^ 46, 2 ^ 50 + 8 * 2 ^ 46 - 0x10000, 2 ^ 51, 2 ^ 52 - 0x10000],
      (homed pa).localPa pa = pa ∧ (match (homed pa).peek 0 ((homed pa).teamActor 0) 0x10000 with
        | (u, .ok p _) => u == homed pa && p == pa
        | _ => false) = true) ∧
    (homed (2 ^ 50)).localPa (2 ^ 50) = 0 ∧
    (∀ pa ∈ [2 ^ 39, 2 ^ 41 + 2 ^ 32, 2 ^ 52], (match (homed pa).peek 0 ((homed pa).teamActor 0) 0x10000 with
      | (_, .fault ..) => true
      | _ => false) = true) ∧
    (match (ready id).peek 0 ((ready id).teamActor 0) 0x10000 with
      | (_, .fault ..) => true
      | _ => false) = true ∧
    (match ({ ready id with failed := [(0, 0)] } : State).peek 0 ((ready id).teamActor 0) 0x10000 with
      | (_, .mem _) => true
      | _ => false) = true := by decide +kernel
theorem hyps_CountersAndPlaces_homes_ready : ∀ pa, (homed pa).Ready := fun pa =>
  have h : (ready fun t => t.setX 1 0x10000).Ready := ready_of (by decide +kernel)
  ⟨⟨h.toStanding.1, h.toStanding.2⟩, h.2, h.3⟩
theorem hyps_JumpsOfATeam :
    let s := ready fun t => t.setX 1 (2 ^ 56 - 4)
    s.Standing ∧ s.ct.em ≠ 0 ∧ (s.ct.pc + BitVec.ofInt 64 (4 * (1 : BitVec 42).toInt)).toNat < 2 ^ 56 ∧
    2 ^ 56 ≤ (s.ct.pc + BitVec.ofInt 64 (4 * (BitVec.intMin 42).toInt)).toNat ∧ (s.ct.getX 1).toNat % 4 = 0 ∧
    (s.ct.getX 1).toNat < 2 ^ 56 ∧ (s.ct.getX 1 + (0 : BitVec 35).signExtend 64).toNat < 2 ^ 56 ∧
    ((ready fun t => t.setX 1 2).ct.getX 1).toNat % 4 ≠ 0 ∧ 2 ^ 56 ≤ ((ready fun t => t.setX 1 (2 ^ 56)).ct.getX 1).toNat ∧
    (s.ct.getX 1 + (2 : BitVec 35).signExtend 64).toNat % 4 ≠ 0 ∧ 2 ^ 56 ≤ (s.ct.getX 1 + (4 : BitVec 35).signExtend 64).toNat ∧
    (s.ct.getX 1 + (4 : BitVec 35).signExtend 64).toNat % 4 = 0 :=
  ⟨(ready_of (by decide +kernel)).toStanding, by decide +kernel⟩
/-- A uniform branch, each condition on the mask, a divergent one with room on the stack and with a full one, and a loop exit into
the waiting path. -/
theorem hyps_PredicatedBranches :
    let s := ready fun t => t.setP 1 0xFF
    let a := brTargets s.ct.pc true 0x400004
    let full := ready fun t => { t.setP 1 0xFF with stack := List.replicate 15 ⟨.join, 0x20000, 1, 0⟩ }
    let loop := ready fun t => { t.setP 1 0xFF with stack := [⟨.pend, 0x10008, 0, 0x10008⟩] }
    (s.Ready ∧ full.Ready ∧ loop.Ready) ∧ nonCanonical a.1.toNat = false ∧ nonCanonical a.2.toNat = false ∧
    s.ct.em &&& s.ct.getP 1 ≠ 0 ∧ s.ct.em &&& ~~~s.ct.getP 0 = 0 ∧ s.ct.em &&& s.ct.getP 2 = 0 ∧ s.ct.em &&& ~~~s.ct.getP 1 ≠ 0 ∧
    s.ct.em &&& s.ct.getP 1 ≠ s.ct.em ∧ s.ct.stack.length ≤ 14 ∧ 14 < full.ct.stack.length ∧
    (loop.ct.stack.head?.map fun e => (e.kind, e.jpc, e.pc)) = some (.pend, (brTargets loop.ct.pc true 0x400004).2, loop.ct.pc + 8) ∧
    (s.ct.pc + 8).toNat < 2 ^ 56 :=
  ⟨⟨ready_of (by decide +kernel), ready_of (by decide +kernel), ready_of (by decide +kernel)⟩, by decide +kernel⟩
/-- The last instruction of the address space, with threads on both sides. -/
theorem hyps_PredicatedBranches_end :
    let s := ready fun t => { t.setP 1 0xFF with pc := 2 ^ 56 - 8 }
    s.Standing ∧ s.ct.em ≠ 0 ∧ s.ct.em &&& s.ct.getP 1 ≠ 0 ∧ s.ct.em &&& ~~~s.ct.getP 1 ≠ 0 ∧ 2 ^ 56 ≤ (s.ct.pc + 8).toNat :=
  ⟨⟨by decide +kernel, steps_of_none (by decide +kernel) true⟩, by decide +kernel⟩
theorem hyps_ArrivalPopsTheStack :
    let e : StackEntry := ⟨.pend, 8, 1, 16⟩
    let j : StackEntry := ⟨.join, 16, 3, 0⟩
    (1 : Mask) ≠ 0 ∧ (4 : Word) ≠ e.topJoin ∧ e.kind = .pend ∧ (16 : Word) = e.jpc ∧ j.kind = .join ∧ (16 : Word) = j.pc := by
  decide +kernel
theorem hyps_ExitLeavesTheTeam :
    let s := ready fun t => { t with exited := BitVec.allOnes 32 }
    (ready id).Ready ∧ (ready id).ct.handler = none ∧ s.hasTeam (teamIdKey ⟨0, 0, 0⟩) = true ∧ (s.team 0).ended = false ∧
      (s.team 0).live = 0 ∧ (s.team 0).out = [] ∧ s.homeAway (blockKeyOf 0) (idxOf 0) = false ∧
      (∀ o ∈ s.ops, o.by (teamIdKey ⟨0, 0, 0⟩) = false) ∧ (s.team 0).place = .resident ∧ (s.team 0).hold = none ∧
      (s.team 0).reports = [] := ⟨ready_ready, by decide +kernel⟩
theorem hyps_YieldContinuesElsewhere :
    let s := ready fun t => { t.addOut .ld 1 with wait := some ⟨.yield .ld 1, 0, false⟩ }
    let w := ready fun t => { t.addOut .ld 1 with wait := some ⟨.yield .ld 0, 0, false⟩ }
    (ready id).Ready ∧ ((ready id).ct.pc + BitVec.ofInt 64 (4 * (1 : BitVec 33).toInt)).toNat < 2 ^ 56 ∧
      2 ^ 56 ≤ ((ready id).ct.pc + BitVec.ofInt 64 (4 * (BitVec.intMin 33).toInt)).toNat ∧ s.hasTeam 0 = true ∧
      (s.team 0).place = .resident ∧ (s.team 0).hold = none ∧ (s.block 0).st = .bound ∧ (s.team 0).mon = .none ∧
      (s.team 0).count .ld ≤ 1 ∧ 0 < (w.team 0).count .ld := ⟨ready_ready, by decide +kernel⟩
/-- An arrival that leaves its phase open (N is 2), a phase that is over, one that is not, and a disagreement on N. -/
theorem hyps_BarrierInstructions :
    let s := ready id
    let b := s.barRef s.ck .quad 0
    let past : BarRef → Table Barrier := fun b => [(barKey b, ⟨1, []⟩)]
    let t := { ready (fun t => { t with wait := some ⟨.bar b 0, 0, false⟩ }) with barriers := past b }
    let odd := { ready id with barriers := [(barKey b, ⟨0, [⟨0, 3, [⟨32, 7, 0⟩]⟩]⟩)] }
    (s.Ready ∧ t.Ready ∧ odd.Ready) ∧ s.ct.wait = none ∧ s.ct.parkedWaitF = none ∧
    (match s.arriveAt s.ck b 2 (scoNum .quad) with
      | some (u, p) => !phaseOver (u.barrier b).completed p
      | none => false) = true ∧
    t.ct.wait = some ⟨.bar b 0, 0, false⟩ ∧ phaseOver (t.barrier b).completed 0 = true ∧
    phaseOver (s.barrier b).completed ((s.ct.getX 1).truncate 32) = false ∧
    (odd.arriveAt odd.ck b 2 (scoNum .quad)).isNone = true :=
  ⟨⟨ready_ready, ready_of (by decide +kernel), ready_of (by decide +kernel)⟩, by decide +kernel⟩
theorem hyps_BarrierPhases :
    let p : Phase := ⟨0, 2, [⟨5, 0, 0⟩]⟩
    let a : Arrival := ⟨64, 3, 1⟩
    (∀ x ∈ p.arrived, x.team ≠ a.team) ∧ p.blocks.length < p.n ∧ p.n ≠ 3 ∧ a.block ∉ p.blocks ∧
    ({ p with n := 1 } : Phase).n ≤ ({ p with n := 1 } : Phase).blocks.length ∧
    { State.reset with barriers := [(barKey (.quad 0 1), ⟨0, [⟨0, 1, [⟨5, 0, 0⟩]⟩]⟩)] }.phaseComplete (.quad 0 1) = true ∧
    1 ≠ State.reset.podNum ∧ (3 : Nat).testBit 1 = true ∧ (3 : Nat).testBit State.reset.podNum = true ∧
    (joinPhase ⟨remoteKey 1 0, 0, 0⟩ 2 false 0 (State.reset.barrier (.pod 3 7)).phases).isSome = true := by
  decide +kernel
/-- R159: a block that a phase of N blocks has not counted opens the next. -/
theorem test_full_phase : joinPhase ⟨64, 3, 1⟩ 1 false 8 [⟨7, 1, [⟨5, 0, 0⟩]⟩] = some ([⟨7, 1, [⟨5, 0, 0⟩]⟩, ⟨8, 1, [⟨64, 3, 1⟩]⟩], 8) := by
  decide +kernel
/-- One block of each of two devices completes a pod barrier of two. -/
theorem test_pod_barrier :
    let s := { State.reset with barriers := [(barKey (.pod 3 7), ⟨0, [⟨0, 2, [⟨5, 0, 0⟩]⟩]⟩)] }
    s.phaseComplete (.pod 3 7) = false ∧ (s.podArrive 3 7 1 0 2).phaseComplete (.pod 3 7) = true ∧ s.podArrive 3 7 1 0 3 = s := by
  decide +kernel
theorem hyps_RegroupInstructions :
    let p := ready fun t => { t with em := 0xFF, exited := ~~~0xFF }
    let w : State := { p with
      teams := [(0, { p.team 0 with wait := some ⟨.regroup false, 0, false⟩ })]
      blocks := [(0, { placedBlock with regroups := [⟨0x10000, 0, none⟩] })]
      clock := 512 }
    ((ready id).Ready ∧ p.Ready) ∧ (ready id).ct.stack = [] ∧ (ready id).ct.em = (ready id).ct.live ∧ (ready id).ct.tiles = [] ∧
    ((ready id).quad (quadOfCore (coreOf (ready id).ck))).owner ≠ some (ready id).ck ∧ (ready id).ct.live = BitVec.allOnes 32 ∧
    p.ct.em = p.ct.live ∧ p.ct.live ≠ BitVec.allOnes 32 ∧ (ready id).homeReady 0 0x10000 (some 0) = true ∧
    w.regroupDue 0 0x10000 = true ∧ w.setQuiet (w.regroupers 0 0x10000) = true ∧ (w.formSet 0 0x10000).formedSet 0 0x10000 = some [0] ∧
    (w.formSet 0 0x10000).regroupDue 0 0x10000 = false ∧ (tfind w.blocks 0).isSome = true ∧
    (let l : State := { w with teams := [(0, { w.team 0 with out := [⟨.ld, 0, false⟩] })] }
     l.regroupDue 0 0x10000 = true ∧ l.setQuiet (l.regroupers 0 0x10000) = false) :=
  ⟨⟨ready_ready, ready_of (by decide +kernel)⟩, by decide +kernel⟩
theorem hyps_SystemRegisters :
    let g := readyCx id { placedCx with cgrant := true }
    ((ready id).Ready ∧ g.Ready) ∧ (0x20 : Word).toNat % 16 = 0 ∧ (0x20 : Word).toNat / 16 % 4 ≠ 3 ∧ (0x30 : Word).toNat / 16 % 4 = 3 ∧
    (1 : Word).toNat % 16 ≠ 0 ∧ (0x40 : Word).toNat / 64 % 2 ^ 26 ≠ 0 ∧ 0x10 ≤ (0x10 : BitVec 12).toNat ∧
    ((ready id).ctx (ready id).cctx).cgrant = false ∧ (g.ctx g.cctx).cgrant = true :=
  ⟨⟨ready_ready, ready_of (by decide +kernel)⟩, by decide +kernel⟩

/-! ### Vector and memory instructions -/

/-- The placed block with 8 vector registers only. -/
def small (f : Team → Team) : State := { ready f with blocks := [(0, { placedBlock with vrb := 0 })] }

/-- Checks pass, the format fails, or the operands fail. -/
def vecRuns (s : State) (v : Option VecSpec) : Bool :=
  v.any fun v => (s.formatErr v.slots).isNone && s.opdsOk v.opds && v.cond
def vecFormat (s : State) (v : Option VecSpec) : Bool := v.any fun v => (s.formatErr v.slots).isSome
def vecOperand (s : State) (v : Option VecSpec) : Bool :=
  v.any fun v => (s.formatErr v.slots).isNone && !(s.opdsOk v.opds && v.cond)

theorem small_ready : (small id).Ready := ready_of (by decide +kernel)

theorem hyps_VectorArithmetic : ((ready id).Ready ∧ (small id).Ready) ∧
    vecRuns (ready id) (arithSpec (ready id) (.vadd none ⟨2, 2, 2, 1, 3⟩)) = true ∧
    vecRuns (ready id) (arithSpec (ready id) (.vabs none ⟨15 - 13, 2, 1, 127⟩)) = true ∧
    vecRuns (ready id) (arithSpec (ready id) (.vfma (some ⟨false, false, 9, 2, true, 3⟩) ⟨2, 2, 6, 5, 4⟩)) = true ∧
    vecFormat (ready id) (arithSpec (ready id) (.vadd none ⟨2, 12, 2, 1, 3⟩)) = true ∧
    vecOperand (small id) (arithSpec (small id) (.vadd none ⟨2, 2, 2, 1, 8⟩)) = true :=
  ⟨⟨ready_ready, small_ready⟩, by decide +kernel⟩
theorem hyps_VectorTestsAndBits : ((ready id).Ready ∧ (small id).Ready) ∧
    vecRuns (ready id) (testSpec (ready id) (.vcmpeq none ⟨true, true, 2, 2, 1, 7⟩)) = true ∧
    vecRuns (ready id) (testSpec (ready id) (.vclass none ⟨511, false, false, 2, 1, 127⟩)) = true ∧
    vecRuns (ready id) (bitsSpec (ready id) (.vsel none ⟨3, 2, 2, 1, 4⟩)) = true ∧
    vecRuns (ready id) (bitsSpec (ready id) (.vshl none ⟨32, true, 2, 0, 1, 3⟩)) = true ∧
    vecFormat (ready id) (bitsSpec (ready id) (.vand none ⟨15, 2, 1, 3⟩)) = true ∧
    vecOperand (small id) (testSpec (small id) (.vcmplt none ⟨false, false, 2, 2, 1, 8⟩)) = true :=
  ⟨⟨ready_ready, small_ready⟩, by decide +kernel⟩
theorem hyps_VectorReductions : ((ready id).Ready ∧ (small id).Ready) ∧
    vecRuns (ready id) (reduceSpec (ready id) (.vdot none ⟨31, 2, 2, 2, 2, 1, 3⟩)) = true ∧
    vecRuns (ready id) (reduceSpec (ready id) (.vredsum none ⟨2, 2, 1, 3⟩)) = true ∧
    vecFormat (ready id) (reduceSpec (ready id) (.vredmax none ⟨2, 13, 1, 3⟩)) = true ∧
    vecOperand (ready id) (reduceSpec (ready id) (.vdot none ⟨64, 2, 2, 2, 2, 1, 3⟩)) = true :=
  ⟨⟨ready_ready, small_ready⟩, by decide +kernel⟩
theorem hyps_VectorMoves : ((ready id).Ready ∧ (small id).Ready) ∧
    vecRuns (ready id) (moveSpec (ready id) (.vshfl none 1 2 3)) = true ∧
    vecRuns (ready id) (moveSpec (ready id) (.vcvt none ⟨1, 0, 2, 2, 1, 3⟩)) = true ∧
    vecRuns (ready id) (moveSpec (ready id) (.vtid none 3 2 3)) = true ∧
    vecRuns ({ ready id with cores := [(0, { Core.reset with pat := [(7, (placedCtx, 0))] })] })
      (moveSpec ({ ready id with cores := [(0, { Core.reset with pat := [(7, (placedCtx, 0))] })] }) (.vpat none 7 1 2)) = true ∧
    vecOperand (ready id) (moveSpec (ready id) (.vpat none 7 1 2)) = true ∧
    vecFormat (ready id) (moveSpec (ready id) (.vcvt none ⟨0, 0, 12, 2, 1, 3⟩)) = true :=
  ⟨⟨ready_ready, small_ready⟩, by decide +kernel⟩
theorem hyps_SliceAndStoreMoves : (ready id).Ready ∧ (127 : BitVec 7).toNat < (ready id).cblock.vregs ∧
    (ready id).formatErr [(0, 2)] = none ∧ (63 : BitVec 11).toNat < 2048 / ((ready id).slot none 2).f.width ∧
    tableOk ((ready id).ct.getV 1) = false ∧
    tableOk (BitVec.ofNat 2048 ((List.range 15).foldl (fun a j => a + (0x3F800000 + j) * 2 ^ (32 * j)) 0)) = true :=
  ⟨ready_ready, by decide +kernel⟩
/-- Both ends of the slots and of the elements of slot 2 and of a width that straddles; threads allowed, masked, and masked with MZ. -/
theorem hyps_MaskedThreadsKeepTheirSlices :
    let t := (placedTeam.setV 1 5).setP 2 1
    let sl := (ready id).slot none 2
    let kept : Option Xp := some ⟨false, false, 0, 0, false, 2⟩
    let zero : Option Xp := some ⟨false, false, 0, 0, true, 2⟩
    (31 : Nat) < 32 ∧ (7 : Nat) ≠ 0 ∧ twf 0 t.v = true ∧ twf 0 t.p = true ∧ (2048 / 24 - 1 : Nat) < 2048 / 24 ∧
    sl.f.count ≠ 0 ∧ sl.f.count * sl.f.width ≤ 2048 ∧ sl.f.block = 0 ∧
    (t.masked kept).getLsbD 0 = true ∧ (t.masked kept).getLsbD 31 = false ∧ (t.zeroed kept).getLsbD 31 = false ∧
    (t.masked zero).getLsbD 31 = false ∧ (t.zeroed zero).getLsbD 31 = true := by decide +kernel

/-- The placed team with x1 at its page, which a range entry of its quad maps. -/
def mapped (f : Team → Team) : State :=
  { ready (fun t => f ((t.setX 1 0x10000).setP 2 1)) with quads := [(0, { Quad.reset with ranges := [placedMap] })] }

/-- The parts of an instruction whose accesses were all found. -/
def partsOf (l : List (Want × Except NoAccess Found)) : List Part :=
  l.filterMap fun e => match e.2 with
    | .ok f => some (e.1.part f)
    | .error _ => none

/-- The accesses run; no thread is left; some operand is bad. -/
def memRuns (s : State) (m : Option MemSpec) : Bool :=
  m.any fun m => (s.formatErr m.slots).isNone && s.opdsOk m.opds && m.cond && m.bad.isNone && m.wants ≠ [] &&
    !semReleases (s.ct.semOf m.acs ((m.wants.filter fun w => w.kind ≠ .read).map fun w => w.va / 8 * 8)).1 &&
    (let r := s.findAll s.ck m.acs m.wants
     (partsOf r.2).length = m.wants.length && r.1.ct.rdet = 0 && r.1.wcBlocked s.ck (partsOf r.2) = [])
def memNone (s : State) (m : Option MemSpec) : Bool :=
  m.any fun m => (s.formatErr m.slots).isNone && s.opdsOk m.opds && m.cond && m.bad.isNone && m.wants = []
def memBad (s : State) (m : Option MemSpec) : Bool :=
  m.any fun m => (s.formatErr m.slots).isNone && s.opdsOk m.opds && m.cond && m.bad.isSome

/-- No thread allowed by KM 001 where p1 is 0, and one allowed by KM 002 where p2 is 1. -/
def noThreads : Option Xp := some ⟨false, false, 0, 0, false, 1⟩
def one : Option Xp := some ⟨false, false, 0, 0, false, 2⟩

theorem mapped_ready : (mapped id).Ready := ready_of (by decide +kernel)

theorem hyps_ElementAccesses : (mapped id).Ready ∧
    memRuns (mapped id) (elementSpec (mapped id) (.ld32 none ⟨0, 0, .relaxed, .team, 1, 2⟩)) = true ∧
    memRuns (mapped id) (elementSpec (mapped id) (.st64 none ⟨0, 0, .relaxed, .team, 1, 2⟩)) = true ∧
    memRuns (mapped id) (elementSpec (mapped id) (.aadd none ⟨0, 3, .relaxed, .team, 1, 3, 2⟩)) = true ∧
    memRuns (mapped id) (elementSpec (mapped id) (.acas none ⟨0, 3, .relaxed, .team, 1, 3, 2⟩)) = true ∧
    memRuns (mapped id) (elementSpec (mapped id) (.stg none ⟨0, 0, .relaxed, .team, 1, 3, 2⟩)) = true ∧
    memNone (mapped id) (elementSpec (mapped id) (.ld8 noThreads ⟨0, 0, .relaxed, .team, 1, 2⟩)) = true ∧
    memBad (mapped id) (elementSpec (mapped id) (.ld16 none ⟨1, 0, .relaxed, .team, 1, 2⟩)) = true :=
  ⟨mapped_ready, by decide +kernel⟩
theorem hyps_GroupAccesses :
    let r := { mapped id with ctxs := [(placedCtx, { placedCx with routines := [(1, [0])] })] }
    let c := mapped fun t => t.setV 8 (BitVec.ofNat 2048 ((List.range 32).foldl (fun a i => a + 2 ^ (64 * i)) 0))
    ((mapped id).Ready ∧ r.Ready ∧ c.Ready) ∧
    memRuns (mapped id) (groupSpec (mapped id) (.ldx ⟨0, 0, false, 3, .relaxed, .team, 1, 3⟩)) = true ∧
    memRuns (mapped id) (groupSpec (mapped id) (.stp one ⟨0, 0, 2, 1, 2⟩)) = true ∧
    memRuns (mapped id) (groupSpec (mapped id) (.osCas4 none ⟨0, 3, .relaxed, .team, 1, 3, 8⟩)) = true ∧
    memRuns (mapped id) (groupSpec (mapped id) (.hgath one ⟨0, 0, .relaxed, .team, 1, 3, 120⟩)) = true ∧
    memRuns r (groupSpec r (.osRun none ⟨0, 1, .relaxed, .team, 1, 3, 2⟩)) = true ∧
    memBad (mapped id) (groupSpec (mapped id) (.osEnq none ⟨0, 3, .relaxed, .team, 1, 3, 2⟩)) = true ∧
    memBad (mapped id) (groupSpec (mapped id) (.ldx ⟨1, 0, false, 3, .relaxed, .team, 1, 3⟩)) = true ∧
    (mapped id).opdsOk [(false, 3), (false, 8)] = true ∧
    (badThreads c.ct none fun i => (sliceOf (c.ct.getV 8) i).toNat = 0 || 16 < (sliceOf (c.ct.getV 8) i).toNat) = none ∧
    (badThreads (mapped id).ct none fun i => (sliceOf ((mapped id).ct.getV 8) i).toNat = 0 ||
      16 < (sliceOf ((mapped id).ct.getV 8) i).toNat).isSome = true ∧ c.ct.masked none ≠ 0 ∧ c.ct.rdet = 0 :=
  ⟨⟨mapped_ready, ready_of (by decide +kernel), ready_of (by decide +kernel)⟩, by decide +kernel⟩
theorem hyps_IssueLeavesAnOperation : (mapped id).hasTeam (mapped id).ck = true ∧ (∀ o ∈ (mapped id).ops, o.seq < (mapped id).nextSeq) ∧
    Memory.wf (mapped id).mem = true ∧ (∀ e ∈ ((mapped id).core (coreOf (mapped id).ck)).wcb, e.line ≠ 0x20000 / 128) := by
  decide +kernel
theorem hyps_ScratchpadAccesses :
    let s := { ready id with blocks := [(0, { placedBlock with stn := 1 })], cores := [(0, { Core.reset with owner := [(0, 0)] })] }
    let lost := { s with cores := [(0, { Core.reset with owner := [(0, 0)], scratchBad := List.range 32 })] }
    (s.Ready ∧ lost.Ready) ∧ s.opdsOk [(false, 127)] = true ∧
    badThreads s.ct none (fun j => stallRefused s (stallAddr s.ct ⟨0, 0, 0, 1, 127⟩ false j)) = none ∧
    (badThreads s.ct none (fun j => stallRefused s (stallAddr s.ct ⟨0, 9, 0, 1, 127⟩ true j))).isSome = true ∧
    lost.cc.scratchBad.contains (lost.cellOf 0 (stallAddr lost.ct ⟨0, 0, 0, 1, 127⟩ false 31)) = true ∧ twf 0 s.cc.scratch = true :=
  ⟨⟨ready_of (by decide +kernel), ready_of (by decide +kernel)⟩, by decide +kernel⟩
/-- One access of 8 bytes, and an operation of the placed team with given accesses. -/
def part (kind : ReqKind) (pa : Nat) (st : PartSt) : Part := ⟨0, pa, pa, 0, 64, 0, kind, 0, 0, [], 0, 0, false, true, st, 0⟩
def flight (cls : Cnt) (d : Dest) (e : Option Ext) (parts : List Part) : MemOp where
  seq := 0
  team := 0
  ctx := placedCtx
  pc := 0
  cls := some cls
  sem := .relaxed
  sco := 0
  dest := d
  ext := e
  slots := 1
  parts := parts
  nt := false
  carry := []
  install := false
  stream := false
  noL1 := []
  noRdc := []
  gather := false
  chase := []
  unchecked := []
  tile := none
  ostc := none
  drain := []
  actor := none
  quiet := false
  handler := false

theorem hyps_CacheInstructions :
    let w := { mapped id with ops := [flight .st .none none [part .write 0x10000 .waiting]] }
    ((mapped id).Ready ∧ w.Ready) ∧ ((mapped id).ct.getX 1 + (0 : BitVec 24).signExtend 64).toNat < 2 ^ 56 ∧
    2 ^ 56 ≤ ((mapped id).ct.getX 0 + (0xFFFFFF : BitVec 24).signExtend 64).toNat ∧ ((mapped id).ct.getX 2).toNat < 2 ^ 32 ∧
    2 ^ 32 ≤ ((mapped fun t => t.setX 2 (2 ^ 32)).ct.getX 2).toNat ∧ (mapped id).storesDone (mapped id).ck = true ∧
    w.storesDone w.ck = false := ⟨⟨mapped_ready, ready_of (by decide +kernel)⟩, by decide +kernel⟩
theorem hyps_FencesAndBindings :
    let w := { mapped id with nextSeq := 1, ops := [flight .ld (.xreg 3) (some ⟨64, false⟩) [part .read 0x10000 .waiting]] }
    ((mapped id).Ready ∧ w.Ready) ∧
    (mapped id).performedBefore (mapped id).ck (mapped id).nextSeq (fun o => o.parts.any fun p => !p.writes) = true ∧
    w.performedBefore w.ck w.nextSeq (fun o => o.parts.any fun p => !p.writes) = false ∧
    ((mapped id).releaseDrain (mapped id).ck).allPerformed (mapped id).ck = true ∧ (w.releaseDrain w.ck).allPerformed w.ck = false ∧ ((mapped id).ct.getX 1).toNat % 128 = 0 ∧
    ((mapped id).ct.getX 1).toNat < 2 ^ 56 ∧ ((mapped id).ct.getX 2).toNat = 0 ∧ ((mapped fun t => t.setX 2 64).ct.getX 2).toNat % 128 ≠ 0 ∧
    2 ^ 56 ≤ ((mapped fun t => t.setX 2 (2 ^ 56)).ct.getX 2).toNat ∧ tsorted 0 ((mapped id).ctx (mapped id).cctx).binds = true :=
  ⟨⟨mapped_ready, ready_of (by decide +kernel)⟩, by decide +kernel⟩

/-! ### Homes and completion -/

theorem hyps_HomesPerformAccesses :
    let s := { State.reset with failed := [(8, 0)] }
    Memory.wf s.mem = true ∧ (s.failedAt (0x400 / 128)).isSome = true ∧ s.failedAt (0x3F0 / 128) = none ∧
    tget none s.lineKey (0x3F0 / 128) = s.keyMat 0 ∧ 0 + 64 ≤ 64 ∧ 63 + 1 ≤ 64 ∧ (0x3F0 : Nat) % 16 = 0 ∧ 0x3F0 % 128 + 8 * 2 ≤ 128 ∧
    ([1, 2, 3, 4] : List Word).length = 2 * 2 ∧ s.lineWords 0 0x3F0 2 = ([0, 0, 3, 4] : List Word).take 2 ∧
    s.lineWords 0 0x3F0 2 ≠ ([1, 0, 3, 4] : List Word).take 2 ∧ s.rdWord 0 0x3F8 = 0 := by decide +kernel

/-- A waiting access of 8 bytes by the placed team. -/
def op (kind : ReqKind) (pa : Nat) (st : PartSt) : MemOp :=
  flight .ld (.vreg 3) (some ⟨64, false⟩) [part kind pa st]

/-- A region of the secure world over the placed page. -/
def guarded : State :=
  { State.reset with regs := { Regs.reset with regions := [(0, BitVec.ofNat 128 (5 + 0x10 * 2 ^ 48 + 0x20 * 2 ^ 88))] } }

/-- A home in HBM and one in the second tier that may perform the part, the ostler, a part that is done; a write-combining entry of
whose 1,700 clocks none, and all, have passed. -/
theorem hyps_HomeEvents :
    let s (o : MemOp) : State := { mapped id with ops := [o] }
    let runs (k : ReqKind) (pa : Nat) : Bool := match (s (op k pa .waiting)).op? 0, (op k pa .waiting).parts[0]? with
      | some o, some p => p.st = .waiting && (s o).guard o 0 p && !o.coversLine (lineOf p.pa)
      | _, _ => false
    runs .read 0x10000 = true ∧ homeOf 0x10000 = .hbm 0 ∧ runs .read (2 ^ 40) = true ∧ homeOf (2 ^ 40) = .tier2 0 ∧
    runs .enq 0x10000 = true ∧ (op .read 0 .done).parts[0]?.map Part.st ≠ some .waiting ∧ (op .read 0 .done).chase = [] ∧
    (op .read 0 .waiting).unchecked.contains 0 = false ∧ ({ op .read 0 .waiting with unchecked := [0] } : MemOp).unchecked.contains 0 = true ∧
    (s (op .read 0x10000 .waiting)).violation false 0x10000 0 = 0 ∧ guarded.violation false 0x10000 0 ≠ 0 ∧
    (let e : WcEntry := ⟨512, 512, placedCtx, 0, false, [(0, 255, 5), (127, 15, 6)], [⟨0, 0, 0, 0, 1, false⟩], 100⟩
     let u (c : Nat) : State := { mapped id with clock := c, cores := [(0, { Core.reset with wcb := [e] })] }
     ((u 1800).core 0).wcb[0]? = some e ∧ (1799 : Nat) < e.last + 1700 ∧ e.last + 1700 ≤ (u 1800).clock ∧
      Memory.wf (u 1800).mem = true ∧ isMem (128 * e.line) = true ∧ (u 1800).failedAt e.line = none ∧
      tget none (u 1800).lineKey e.line = (u 1800).keyMat e.key ∧ 0 + 8192 ≤ 128 * e.line ∧ (u 1800).regs.ctxtBase = 0 ∧ tsorted 0 e.bytes = true ∧ ∀ x ∈ e.bytes, x.1 < 128) := by decide +kernel
theorem hyps_OperationsDeliver :
    let o := op .read 0x10000 .done
    let s : State := { mapped (fun t => t.addOut .ld 0) with ops := [o] }
    s.tileOp? 0 = none ∧ s.op? 0 = some o ∧ o.performed = true ∧ o.ostc = none ∧ o.failures = [] ∧ o.actor = none ∧ o.quiet = false ∧
    o.drain = [] ∧
    (let t := (placedTeam.addOut .ld 0).addOut .ld 1
     t.out = [⟨.ld, 0, false⟩, ⟨.ld, 1, false⟩] ∧ (∀ r ∈ [(⟨.ld, 1, false⟩ : OutRec)], r.done = false ∧ r.seq ≠ o.seq) ∧
      twf 0 t.v = true ∧ twf 0 t.x = true ∧ o.ext = some ⟨64, false⟩ ∧
      (∀ p ∈ o.parts, p.kind = .read ∧ p.st = .done ∧ p.slot < 32 ∧ p.dbit = 64 * p.slot ∧ p.len = 64) ∧
      (o.parts.map Part.slot).Nodup) := by decide +kernel

/-! ### Launches, queues, tiles, the matrix unit, the clause array -/

/-- Page tables that map the first GiB of the placed context onto itself, readable, writable and executable. -/
def pages : Table Byte :=
  [(0x200000, 0x01), (0x200001, 0x10), (0x200002, 0x20), (0x201000, 0x01), (0x201001, 0x20), (0x201002, 0x20), (0x202000, 0xFD)]

/-- The placed team with that page table, memory `m` below it, and a context changed by `c`. -/
def paged (m : Table Byte) (f : Team → Team) (c : Ctx → Ctx) : State :=
  { ready f with mem := m ++ pages, ctxs := [(placedCtx, c { placedCx with ptroot := 0x200000, qtable := 0x20000 })] }

/-- A descriptor of queue 0 with 2^LOG records from 0x21000 and WIDX as given, a record at 0x21000, and its kernel at 0x22000. -/
def queueMem (log widx : Byte) : Table Byte :=
  [(0x20001, 0x10), (0x20002, 0x02), (0x20008, 0x80 + log), (0x20018, widx), (0x21001, 0x20), (0x21002, 0x02), (0x21010, 1),
    (0x21012, 0x20), (0x21015, 0x04), (0x21030, 3), (0x22002, 0x01), (0x2201A, 1), (0x2201B, 1)]

/-- A launch instruction reads its descriptor and its record; the ring has room, or is full as `full` says, and the slot translates.
WIDX lies in the package, or outside while the slot does not yet hold the record, as `here` says. -/
def launches (s : State) (full here : Bool) : Bool :=
  match (s.releaseDrain s.ck).teamRead s.ck (s.ctx s.cctx).qtable.toNat 32 2 .rmw with
  | (s1, .ok (ds, dpa, de)) =>
    match s1.teamRead s.ck 0x10000 64 2 .read with
    | (s2, .ok (bytes, _, _)) =>
      let d := ofBytes ds
      4 ≤ bitsOf d 64 5 && bitsOf d 64 5 ≤ 16 && bitsOf d 0 64 % 4096 = 0 && de.mt < 2 &&
      ((bitsOf d 192 64 + 2 ^ 64 - bitsOf d 128 64) % 2 ^ 64 = 2 ^ bitsOf d 64 5) = full &&
      match s2.teamXlate s.ck (bitsOf d 0 64 + bitsOf d 192 64 % 2 ^ bitsOf d 64 5 * 64) .write with
      | (s3, .ok (pa, e)) => s3.failedAt (pa / 128) = none && (if here then isMem dpa else isMem pa && !isMem dpa && s3.rdBytes e.key pa 64 ≠ bytes)
      | _ => false
    | _ => false
  | _ => false
/-- The second GiB of the context's addresses is the host's. -/
def hosted (s : State) : State := { s with mem := s.mem ++ [(0x202008, 0xFD), (0x20200E, 0x08)] }
/-- The placed team with its queue table in the host's memory, whose answer, a ring of 16 slots at 0x21000 with WIDX 1, has come. -/
def farTable : State :=
  let s := paged ([(0x21040, 1)]) (fun t => t.setX 1 0x10000) fun c => { c with qtable := 0x40000000 }
  let h := hosted s
  let asks := ((h.teamRead h.ck 0x40000000 32 2 .rmw).1.rpc.asks.map Prod.snd).zip [0x21000, 0x84, 0, 1]
  { h with ops := [askOp (h.teamActor h.ck) 0 (asks.map fun e => { e.1 with st := .done, val := e.2 })] }

/-- A poll reads the descriptor of queue 0, which is bad or not; and a record is admitted, or refused. -/
def polls (s : State) (bad : Bool) : Bool :=
  s.serves 1 0 && match s.devRead (launchActor 1 0) .rmw 0x20000 32 with
    | (_, .ok bs, _) => qdescBad (qdescOf 0x20000 (ofBytes bs)) (ofBytes bs) = bad
    | _ => false
def admits (s : State) (ok : Bool) : Bool :=
  s.serves 1 0 && match s.readQueue 1 0 with
    | (u, some d) => d.en && !d.dbgh && d.ridx ≠ d.widx && (tfind (u.ctx 1).queues 0).isNone &&
      match u.readLaunch (launchActor 1 0) ((d.rbase + d.ridx % 2 ^ d.log2n * 64) % 2 ^ 64) with
      | (_, .ok l) => ok && l.waitAddr = 0
      | (_, .error _) => !ok
    | _ => false

/-- The record at RIDX names a signal word: what its read gives, with WAITVAL. -/
def signals (s : State) : Option (Except Rec (Nat × Nat)) :=
  match s.readQueue 1 0 with
  | (u, some d) =>
    let va := (d.rbase + d.ridx % 2 ^ d.log2n * 64) % 2 ^ 64
    match u.readLaunch (launchActor 1 0) va with
    | (v, .ok l) => if l.waitAddr = 0 then none
      else match (v.launchRead (launchActor 1 0) .read l.waitAddr.toNat 8 (rejectRec l.waitAddr.toNat va l.ltag)).2 with
        | .ok n => some (.ok (n, l.waitVal.toNat))
        | .error e => some (.error e)
    | _ => none
  | _ => none
/-- Queue 0 with a record whose signal word is at 0x23000, or at an address that does not translate, and whose WAITVAL is `v`. -/
def waitMem (far : Bool) (v : Byte) : Table Byte :=
  (queueMem 4 1).flatMap fun e => if e.1 = 0x21015 then
    [e] ++ [(0x21019, 0x30), (0x2101A, 0x02)] ++ (if far then [(0x2101B, 0x40)] else []) ++ (if v = 0 then [] else [(0x21020, v)]) else [e]

/-- All blocks of launch 5 have completed; its DONE word, its interrupt and its watch counts are as given. -/
def completing (done : Word) (irq : Bool) (counts : Table Nat) : State :=
  paged [] id fun c => { c with
    launches := [(5, ⟨{ placedRec with done := done, irq := irq }, 0, 0, 0, 1, [0], false⟩)], watch := 0x26000, watchCounts := counts }
/-- Its DONE word counts up, once its watch counts are in the table; and how. -/
def completes (s : State) (done : Nat) : Option DevRes :=
  let f := (s.drainLaunch 1).flushWatch 1 5 0
  if ((s.drainLaunch 1).ctx 1).watchTids 5 ≠ [] && !f.releasedHere (launchActor 1 (8192 + 5)) done then none
  else some ((f.modCtx 1 fun c => { c with launches := tdel c.launches 5 }).devAddOne (launchActor 1 (8192 + 5)) done).2

theorem hyps_LaunchAndAdmission_signal :
    (match signals (paged (waitMem false 0) id id) with
      | some (.ok (n, v)) => decide (v ≤ n)
      | _ => false) = true ∧
    (match signals (paged (waitMem false 1) id id) with
      | some (.ok (n, v)) => decide (n < v)
      | _ => false) = true ∧
    (match signals (paged (waitMem true 0) id id) with
      | some (.error _) => true
      | _ => false) = true ∧
    (let r : LaunchRec := { placedRec with tmpl := [BitVec.ofNat 256 (0x1000 + 0x2000 * 2 ^ 64 + 8 * 2 ^ 128 + 3 * 2 ^ 192 + 2 ^ 198)], args := 0x100 }
     let s := paged (queueMem 4 1) id fun c => { c with queues := [(0, ⟨r, 0⟩)] }
     (match s.readQueue 1 0 with
       | (u, some d) => d.en && !d.dbgh && decide (d.ridx ≠ d.widx) && decide (d.ridx < 2 ^ 64) &&
         tfind (u.ctx 1).queues 0 == some ⟨r, BitVec.ofNat 64 d.ridx⟩
       | _ => false) = true) := by decide +kernel
theorem hyps_LaunchAndAdmission_done :
    let s := completing 0x25000 true []
    let w := completing 0x25000 true [(5 * 1024 + 4, 7)]
    let far := hosted (completing 0x40000000 true [(5 * 1024 + 4, 7)])
    let none_ := completing 0x40000000 true []
    let bad : State := { completing 0x25000 true [] with failed := [(0x25000 / 128, 0)] }
    let lost : State := { completing 0x25000 true [] with regs := { Regs.reset with
      regions := [(0, BitVec.ofNat 128 (5 + 0x25 * 2 ^ 48 + 0x26 * 2 ^ 88))] } }
    (∀ v ∈ [s, w, far, none_, bad, lost], (v.ctx 1).en = true ∧ (v.ctx 1).killed = false ∧ (v.drainLaunch 1).drained 1 = true ∧ (v.ctx 1).posted = []) ∧
    (∀ v ∈ [s, w], (match completes v 0x25000 with
      | some (.ok _) => true
      | _ => false) = true) ∧ completes far 0x40000000 = none ∧
    (match completes none_ 0x40000000 with
      | some (.noXlate _) => true
      | _ => false) = true ∧
    (match completes bad 0x25000 with
      | some (.mem ..) => true
      | _ => false) = true ∧
    (match completes lost 0x25000 with
      | some (.viol ..) => true
      | _ => false) = true ∧
    (let z := completing 0 true []
     let l : Launch := ⟨{ placedRec with done := 0, irq := true }, 0, 0, 0, 1, [0], false⟩
     tfind (z.ctx 1).launches 5 = some l ∧ l.rcd.dsco ≠ 5 ∧ (z.drainLaunch 1).drained 1 = true) := by decide +kernel
theorem hyps_LaunchAndAdmission :
    let s := paged (queueMem 4 1) (fun t => t.setX 1 0x10000) id
    let full := paged (queueMem 4 16) (fun t => t.setX 1 0x10000) id
    let l : Launch := ⟨placedRec, 0, 0, 0, 1, [0], false⟩
    (s.Ready ∧ full.Ready) ∧ (s.ct.getX 1).toNat % 64 = 0 ∧ (s.ct.getX 1).toNat < 2 ^ 56 ∧ (s.releaseDrain s.ck).allPerformed s.ck = true ∧
    (let o : State := { s with ops := [op .read 0x10000 .waiting] }
     (o.releaseDrain o.ck).allPerformed o.ck = false) ∧
    launches s false true = true ∧ launches full true true = true ∧ launches farTable false false = true ∧ ((paged [] (fun t => t.setX 1 0x10008) id).ct.getX 1).toNat % 64 ≠ 0 ∧
    polls s false = true ∧ polls (paged (queueMem 3 1) id id) true = true ∧ (State.reset.serves 1 0) = false ∧
    admits s true = true ∧ admits (paged ((queueMem 4 1).filter fun e => e.1 ≠ 0x2201A) id id) false = true ∧
    ((List.range 1024).find? fun h => (tfind (s.ctx 1).launches h).all fun l => l.done) = some 1 ∧
    (let v := paged [] id fun c => { c with launches := [(5, l)] }
     tfind (v.ctx 1).launches 5 = some l ∧ l.rcd.blocks ≤ l.finished.length ∧ l.done = false ∧ (v.ctx 1).en = true ∧
      (v.ctx 1).killed = false ∧ (v.drainLaunch 1).drained 1 = true ∧ l.rcd.done = 0 ∧ l.rcd.irq = false ∧
      (let o : State := { v with ops := [{ op .write 0x10000 .waiting with nt := true }] }
       (o.drainLaunch 1).drained 1 = false) ∧
      (match (((v.drainLaunch 1).flushWatch 1 5 l.rcd.ltag).modCtx 1 fun c => { c with launches := [] }).devAddOne
          (launchActor 1 (8192 + 5)) 0x25000 with
        | (_, .ok _) => true
        | _ => false) = true) ∧
    ((⟨placedRec, 0, 0, 0, 1, [], false⟩ : Launch).finished.length < placedRec.blocks) :=
  ⟨⟨ready_of (by decide +kernel), ready_of (by decide +kernel)⟩, by decide +kernel⟩
theorem hyps_BlockDispatch :
    let l : Launch := ⟨placedRec, 0, 0, 0, 0, [], false⟩
    let s : State := { State.reset with
      ctxs := [(1, { Ctx.reset with en := true, launches := [(0, l)] })]
      dies := [(0, { Die.reset with ranges := [⟨1, 0, 0, 2⟩] })] }
    let held : State := { s with dies := [(0, { Die.reset with ranges := [⟨1, 0, 0, 2⟩] }), (1, { Die.reset with steal := some ⟨0, 1, 0⟩ })] }
    s.serving (dieOfCore 0) = some (1, 0, l) ∧
    ((s.die (dieOfCore 0)).ranges.find? fun r => r.ctx = 1 && r.lnh = 0) = some ⟨1, 0, 0, 2⟩ ∧ l.rcd.regs ≤ s.regsFree 0 ∧
    s.stallsFree 0 128 l.rcd.stalls = true ∧ s.stallsFree 0 129 l.rcd.stalls = false ∧ tfind s.blocks 31 = none ∧
    (s.die 1).steal = none ∧ s.serving 1 = none ∧ s.slotOnDie 1 = true ∧
    firstLaunch (s.runnables.filter fun x => (s.victim x.1 x.2.1).isSome) = some (1, 0, l) ∧ s.victim 1 0 = some 0 ∧
    (held.die 1).steal = some ⟨0, 1, 0⟩ ∧ (held.die 0).largest 1 0 = some ⟨1, 0, 0, 2⟩ ∧ (0 : Nat) + 1 < 2 := by decide +kernel

/-- The placed team with queue register 0 bound to a port. -/
def bound (port : Nat) (f : Core → Core) : State :=
  { ready id with cores := [(0, f { Core.reset with q := [(0, ⟨port, 0, placedCtx⟩)] })] }

/-- A command of the placed team. -/
def cmd (d : VReg) : Cmd := ⟨d, ⟨placedCtx, 0, 0, 0, 0x10000, 1, false⟩, 0, 0, 0, []⟩

theorem hyps_QueueInstructions :
    let full := bound 1 fun c => { c with eng0 := { CopyEngine.reset with cmds := List.replicate 16 (cmd 0) } }
    let other := { ready id with cores := [(0, { Core.reset with q := [(0, ⟨1, 0, 2⟩)], eng0 := { CopyEngine.reset with
      cmds := [⟨0, ⟨2, 0, 0, 0, 0, 1, false⟩, 0, 0, 0, []⟩] } })] }
    let owning := { ready id with blocks := [(0, { placedBlock with stn := 1 })], cores := [(0, { Core.reset with owner := [(0, 0)] })] }
    let lent := { ready id with blocks := [(0, { placedBlock with stn := 1 })], cores := [(0, { Core.reset with
      owner := [(0, 1)], eng0 := { CopyEngine.reset with accepted := 1 } })] }
    ((bound 1 id).Ready ∧ full.Ready ∧ other.Ready ∧ owning.Ready ∧ lent.Ready) ∧
    portTop 1 < (2 : BitVec 2).toNat ∧ (other.portHolds 0 ⟨1, 0, 2⟩ 2) = true ∧ (127 : BitVec 7).toNat < (bound 1 id).cblock.vregs ∧
    (bound 1 id).binding 0 = some ⟨1, 0, placedCtx⟩ ∧ (bound 2 id).binding 0 = some ⟨2, 0, placedCtx⟩ ∧ (ready id).binding 0 = none ∧
    ((bound 1 id).portCmds 0 1 0).length < portCap 1 ∧ (bound 1 id).storesDone 0 = true ∧ portCap 1 ≤ (full.portCmds 0 1 0).length ∧
    (bound 2 id).cc.popPort ⟨2, 0, placedCtx⟩ = [] ∧
    ((bound 2 fun c => { c with eng0 := { CopyEngine.reset with cpl := [⟨placedCtx, 7, 0⟩] } }).cc.popPort ⟨2, 0, placedCtx⟩).length = 1 ∧
    (small id).cblock.vregs ≤ (8 : BitVec 7).toNat ∧ owning.cblock.stn < (0 : BitVec 7).toNat + (1 : BitVec 7).toNat + 1 ∧
    (0 : BitVec 7).toNat + (0 : BitVec 7).toNat + 1 ≤ owning.cblock.stn ∧ tget 3 owning.cc.owner 0 = 0 ∧ lent.ct.wait = none ∧
    tget 3 lent.cc.owner 0 = 1 ∧ lent.cc.eng0.completed < lent.cc.eng0.accepted ∧ (0 : BitVec 2).toNat ≤ 2 ∧
    (let many : State := { bound 1 id with teams := [(0, { placedTeam with out := List.replicate 63 ⟨.cp, 0, false⟩ })] }
     ¬many.ct.count .cp < 63) ∧
    (let busy : State := { bound 1 id with ops := [flight .st .none none [part .write 0x10000 .waiting]] }
     busy.storesDone 0 = false) ∧
    (let owned : State := { owning with teams := [(0, { placedTeam with wait := some ⟨.own [], 0, false⟩ })] }
     owned.ct.wait = some ⟨.own [], 0, false⟩) :=
  ⟨⟨ready_of (by decide +kernel), ready_of (by decide +kernel), ready_of (by decide +kernel), ready_of (by decide +kernel),
    ready_of (by decide +kernel)⟩, by decide +kernel⟩

/-- The placed team with tile 0 under handle 0, and tile operations in flight on it. -/
def tiled (ops : List TileOp) : State :=
  { ready (fun t => { t with tiles := [(0, 0)] }) with cores := [(0, { Core.reset with tiles := [(0, ⟨0, 0, [0, 0, 0], []⟩)], tileOps := ops })] }

/-- The placed team stalled at `talloc t0`, whose word stands at its PC, and a free tile. -/
def waiting : State :=
  let s := State.reset.withFetchWord 64 0x2C2
  { s with
    teams := [(0, { placedTeam with wait := some ⟨.talloc, 0, false⟩ })]
    quads := [(0, { Quad.reset with ranges := [placedMap] })]
    cur := ⟨0, 0, 0, 8, 0x2C2, [], true⟩ }

theorem hyps_TileInstructions :
    let w : State := tiled [⟨0, 0, 0, ⟨placedCtx, 0, 0, 0, 0x10000, 1, false⟩, .zero⟩]
    let r : State := tiled [⟨0, 0, 0, ⟨placedCtx, 0, 0, 0, 0x10000, 1, false⟩, .load []⟩]
    let full : State := { ready id with cores := [(0, { Core.reset with tiles := (List.range 16).map fun i => (i, ⟨0, 0, [], []⟩) })] }
    let m : Acs := ⟨.tl, .relaxed, 0, .none, none, false, false, false, true, .any, some 0⟩
    let st : State := { tiled [] with quads := [(0, { Quad.reset with ranges := [⟨placedCtx, 7, 0, 0, 0x20000, 0, true, true, true, true, 0, 0, false⟩] })] }
    let ws := tstWants (st.slot none 2) 0 0 (tstCodes (st.slot none 2) st.ct.draw (st.cc.tile 0)).2 (tstCodes (st.slot none 2) st.ct.draw (st.cc.tile 0)).1
    let g : State := { waiting with cur := ⟨0, 0, 0, 8, 0x2C2, [], true⟩ }
    ((tiled []).Ready ∧ w.Ready ∧ r.Ready ∧ full.Ready ∧ st.Ready ∧ g.Ready) ∧
    (tiled []).handle? 0 = some 0 ∧ (tiled []).handle? 1 = none ∧ (tiled []).cc.freeTile = some 1 ∧ full.cc.freeTile = none ∧
    r.tileRead 0 0 = true ∧ w.tileRead 0 0 = false ∧ (w.tileWrite 0 0).isSome = true ∧ (tiled []).tileWrite 0 0 = none ∧
    tsorted 0 (tiled []).ct.tiles = true ∧ (tiled []).formatErr [(0, 2)] = none ∧
    opdOk (tiled []).cblock.vregs (((tiled []).slot none 2).blocked, 127) = true ∧ ((tiled []).cc.tile 0).bad = [] ∧
    st.ct.relFences = [] ∧ st.ct.rdet = 0 ∧ ws ≠ [] ∧ 0 + 1024 * (st.slot none 2).f.width ≤ 2 ^ 59 ∧
    (let q := st.findAll st.ck m ws
     (partsOf q.2).length = ws.length ∧ q.1.ct = st.ct ∧ q.1.wcBlocked st.ck (partsOf q.2) = []) ∧
    waiting.ready 0 = true ∧ (waiting.team 0).wait = some ⟨.talloc, 0, false⟩ ∧
    (match waiting.fetchAt 0 with
      | (_, .ok ws) => (match decodeWords ws with
        | .ok d => d.instr = .talloc 0 && d.len = 8 && d.base = 0x2C2
        | _ => false)
      | _ => false) = true ∧ g.handle? 0 = none ∧ g.cc.freeTile = some 0 :=
  ⟨⟨ready_of (by decide +kernel), ready_of (by decide +kernel), ready_of (by decide +kernel), ready_of (by decide +kernel),
    ready_of (by decide +kernel), ready_of (by decide +kernel)⟩, by decide +kernel⟩

/-- A strip of binary32 in the placed context, streams of one strip, and the two streams bound to queue registers 1 and 2. -/
def strip : Strip := ⟨placedCtx, 0, 32, [], [], false⟩
def matrix (q : List QuarterOp) (p : List QuarterOp) : Matrix := ⟨[(0, ⟨0, 0, [strip]⟩)], [(0, ⟨0, 0, [strip]⟩)], q, p, 0, 0, []⟩
def multiplying (m : Matrix) (ops : List TileOp) : State :=
  { tiled ops with cores := [(0, { Core.reset with
      tiles := [(0, ⟨0, 0, [0], []⟩)], tileOps := ops, q := [(1, ⟨3, 0, placedCtx⟩), (2, ⟨4, 0, placedCtx⟩)], mx := m })] }

/-- A quarter operation on tile 0, issued at clock 0. -/
def quarter : QuarterOp := ⟨0, 0, 0, 0xA01FD788, [], 0xA01FD788, [], 0, 0, 0, 0, false, false, 16, 0⟩

theorem hyps_MatrixProducts :
    let s := multiplying (matrix [] []) []
    let empty := multiplying .reset []
    let busy := multiplying (matrix [] []) [⟨0, 0, 0, ⟨placedCtx, 0, 0, 0, 0, 1, false⟩, .load []⟩]
    let queued := multiplying (matrix [quarter] []) []
    let late : State := { queued with clock := 4 }
    let four := multiplying (matrix [quarter, quarter, quarter, quarter] []) []
    let pass : State := { multiplying (matrix [] [quarter]) [⟨0, 0, 0, ⟨placedCtx, 0, 0, 0, 0, 1, false⟩, .mma [0] [] none none⟩] with clock := 16 }
    (s.Ready ∧ empty.Ready ∧ busy.Ready) ∧ s.formatErr [(1, 2), (2, 2)] = none ∧ s.handle? 0 = some 0 ∧ s.mxStream 1 3 = some 0 ∧
    s.mxStream 2 4 = some 0 ∧ s.ct.wait = none ∧ (s.stripFirst s.ck (s.turn 0 0 0 0).2.ticket 0 0) = true ∧ s.tileRead 0 0 = false ∧ busy.tileRead 0 0 = true ∧
    (empty.cc.mx.streamA 0).at? 0 = none ∧ (s.cc.mx.streamA 0).at? 0 = some strip ∧ (s.cc.mx.streamB 0).at? 0 = some strip ∧
    strip.ctx = s.cctx ∧ strip.width = (s.slot none 2).f.width ∧ strip.width ≠ (s.slot none 0).f.width ∧
    choosePass (s.core 0).zeroFirst (s.core 0).mx.queue [] [] = [] ∧
    choosePass (queued.core 0).zeroFirst (queued.core 0).mx.queue [] [] = [quarter] ∧ queued.clock < quarter.issued + 4 ∧
    quarter.issued + 4 ≤ late.clock ∧ (queued.core 0).mx.pass = [] ∧
    4 ≤ (choosePass (four.core 0).zeroFirst (four.core 0).mx.queue [] []).length ∧ (pass.core 0).mx.pass = [quarter] ∧
    (pass.core 0).mx.passStart + (pass.core 0).mx.passClocks ≤ pass.clock ∧ (pass.core 0).mx.live ≠ [] ∧
    (((pass.core 0).tileOps.find? fun o => o.seq = quarter.seq).map TileOp.kind) = some (.mma [quarter.quarter] [] none none) ∧
    ((pass.core 0).opsOn quarter.tile).map TileOp.kind = [.mma [quarter.quarter] [] none none] ∧ (fmtOf quarter.imgA).cmpd = 0 ∧
    (pass.core 0).mx.badStrip quarter = none ∧ ((pass.core 0).tile quarter.tile).bad = [] ∧ pass.hasTeam 0 = true ∧
    ((pass.core 0).tile 0).elems[0]? = some 0 :=
  ⟨⟨ready_of (by decide +kernel), ready_of (by decide +kernel), ready_of (by decide +kernel)⟩, by decide +kernel⟩
/-- A strip for which an earlier instruction waits. -/
theorem hyps_MatrixProducts_turn :
    let t := multiplying (matrix [] []) []
    { t with clock := 1, teams := t.teams ++ [(1, { placedTeam with wait := some ⟨.strip ⟨0, 0, 0, 1, 0⟩ [], 0, false⟩ })] }.stripFirst 0 1 0 0 = false := by
  decide +kernel

/-- The placed team with its quad as given. -/
def arrayed (q : Quad) : State := { ready id with quads := [(0, q)] }

/-- The claim is free, held by the team with or without a propagation or a failure, and another's. -/
theorem hyps_ClauseArrayInstructions :
    let free := arrayed .reset
    let mine := arrayed { Quad.reset with owner := some 0 }
    let other := arrayed { Quad.reset with owner := some 1 }
    let run := arrayed { Quad.reset with owner := some 0, prop := some ⟨none, 0x10000, 0, none, 0, 1, false⟩ }
    let bad := arrayed { Quad.reset with owner := some 0, cx := { CxArray.empty with badRows := [3] } }
    let low (f : Team → Team) := { ready f with quads := [(0, { Quad.reset with owner := some 0 })] }
    (free.Ready ∧ mine.Ready ∧ other.Ready ∧ run.Ready ∧ bad.Ready) ∧ (free.quad 0).owner = none ∧ (free.quad 0).claims = [] ∧
    free.returningHolder 0 = none ∧ (mine.quad (quadOfCore mine.cur.core)).owner = some mine.ck ∧ (mine.quad 0).prop = none ∧
    (other.quad 0).owner = some 1 ∧ (1 : Nat) ≠ other.ck ∧ (run.quad 0).prop ≠ none ∧ (bad.quad 0).cx.failure.isSome = true ∧
    (mine.quad 0).cx.failure = none ∧ (cxChange mine .empty (.cxDis 1 2047 true)).any Option.isSome = true ∧
    (cxChange mine .empty (.cxAsg 1 true)).any Option.isNone = true ∧
    (cxChange (low fun t => t.setX 1 0x8000) .empty (.cxAsg 1 true)).any Option.isSome = true ∧
    (cxChange mine .empty (.cxBt 1 0)).any Option.isSome = true ∧ (cxChange mine .empty (.cxBt 1 1)).any Option.isNone = true ∧
    (cxChange mine .empty (.cxLdc 1 2 2047 false)).any Option.isSome = true ∧
    (cxChange (low fun t => t.setX 2 1) .empty (.cxLdc 1 2 2047 false)).any Option.isNone = true ∧
    (cxGives mine .empty (.cxLvl true 0 0 127)).any Option.isSome = true ∧
    (cxGives (low fun t => t.setX 1 512) .empty (.cxLvl false 3 1 0)).any Option.isNone = true ∧
    (cxGives mine .empty (.cxTrl 1 2 3)).any Option.isSome = true ∧ (cxGives mine .empty (.cxCfl 1 2 3)).any Option.isSome = true :=
  ⟨⟨ready_of (by decide +kernel), ready_of (by decide +kernel), ready_of (by decide +kernel), ready_of (by decide +kernel),
    ready_of (by decide +kernel)⟩, by decide +kernel⟩
theorem hyps_ClauseArrayEvents :
    let claimed := arrayed { Quad.reset with claims := [(0, 5)] }
    let prop (xd : Option Nat) (ended : Option Nat) (clock : Nat) : State :=
      { ready (fun t => { t with wait := some ⟨.cxProp, 0, false⟩ }) with
        clock := clock, quads := [(0, { Quad.reset with owner := some 0, prop := some ⟨xd, 0x10000, 0, ended, 0, 1, false⟩ })] }
    let a : CxArray := { CxArray.empty with cols := [(3, [(7, false)])], val := [(7, 2)] }
    (claimed.quad 0).owner = none ∧ claimed.returningHolder 0 = none ∧ nextClaim (claimed.quad 0).claims = some 0 ∧
    ((prop none none 10).quad 0).owner = some 0 ∧ (10 : Nat) < 0 + (8 + 3 * (CxArray.empty.prop).sweeps.toNat) ∧
    0 + (8 + 3 * (CxArray.empty.prop).sweeps.toNat) ≤ (prop (some 6) none 11).clock ∧ ((prop none none 10).quad 0).cx.failure = none ∧
    (((prop (some 6) none 11).team 0).wait.map Wait.kind) = some .cxProp ∧ ((prop (some 6) none 11).team 0).pc = 0x10000 ∧
    (prop (some 6) none 11).hasTeam 0 = true ∧ ((prop (some 6) none 11).team 0).mon = .none ∧
    (let b : State := { prop (some 6) none 10 with quads :=
      [(0, { Quad.reset with owner := some 0, prop := some ⟨some 6, 0x10000, 0, none, 0, 1, false⟩, cx := { CxArray.empty with badRows := [3] } })] }
     (b.quad 0).cx.failure.isSome = true ∧ ((b.team 0).wait.map Wait.kind) = some .cxProp ∧ (b.team 0).pc = 0x10000) ∧
    (((prop none (some 11) 12).quad 0).prop.map Prop1.ended) = some (some 11) ∧
    ((prop none (some 11) 12).core (coreOf 0)).clause.length < 8 ∧ a.conf = false ∧ a.failedCol = some 3 ∧
    CxArray.empty.failedCol = none ∧ (∀ c ∈ CxArray.empty.taking, CxArray.empty.forces c.2 = none) ∧
    ([(7, false), (8, true)] : List Lit).Nodup := by decide +kernel

/-! ### Engines -/

/-- A copy of one 64-bit element from memory to memory: KIND 0, NDIM 1 with extent 1, XFM 0, FSA of slot 2. -/
def copyCard : VReg := BitVec.ofNat 2048 (2 ^ 248 + 2 ^ 256 + 0xA01FD788)

/-- An engine of the placed core with what it runs and what waits. -/
def copying (cur : Option CopyRun) (cmds : List Cmd) : State :=
  { paged [] id id with cores := [(0, { Core.reset with eng0 := { CopyEngine.reset with cur := cur, cmds := cmds } })] }

/-- A performed card, with strips and a doorbell to come as given. -/
def performed (d : VReg) (strips : List Strip) (bell : Bool) : CopyRun := ⟨cmd d, strips, true, false, true, bell, 0, 0, 0, 0⟩

theorem hyps_CopyEngineEvents_stores :
    let s := copying none [cmd copyCard]
    s.dieStoresOver 0 1 = true ∧ ({ s with ops := [op .write 0x10000 .waiting] } : State).dieStoresOver 0 1 = false := by decide +kernel
theorem hyps_CopyEngineEvents :
    let bell : VReg := BitVec.ofNat 2048 (0x40000000 * 2 ^ 1728 + 5 * 2 ^ 1696)
    let out : State := { copying (some (performed bell [] true)) [] with mem := pages ++ [(0x202008, 0xFD), (0x20200E, 0x08)] }
    let toA : VReg := BitVec.ofNat 2048 (2 * 2 ^ 226)
    (0 : Nat) < 2 ∧ (1 : Nat) < 2 ∧ (cardOf copyCard).kind ≠ 7 ∧ (cardOf copyCard).reserved = false ∧
    (cardOf copyCard).badImage .reset placedCtx = none ∧ (cardOf (BitVec.ofNat 2048 (2 ^ 219))).reserved = true ∧
    ((cardOf (BitVec.ofNat 2048 (2 ^ 248 + 2 ^ 256 + 4))).badImage .reset placedCtx).isSome = true ∧
    (cardOf (BitVec.ofNat 2048 (2 ^ 248 + 2 ^ 256 + 4))).reserved = false ∧
    ((copying none [cmd copyCard]).engOf 0 0).cmds = [cmd copyCard] ∧ (copying none []).engOf 0 0 = .reset ∧
    ((copying (some (performed copyCard [] false)) []).engOf 0 0).cur = some (performed copyCard [] false) ∧
    (cardOf copyCard).csel ≠ 1 ∧ (cardOf (BitVec.ofNat 2048 (2 ^ 246))).csel = 1 ∧ (copying none []).hasTeam 0 = true ∧
    (cardOf toA).toStream = true ∧ ((copying none []).core 0).mx.room (cardOf toA) = true ∧
    (copying none []).otherAppends 0 0 (cardOf toA) = false ∧
    (Matrix.room ⟨[(0, ⟨0, 0, List.replicate 16 strip⟩)], [], [], [], 0, 0, []⟩ (cardOf toA)) = false ∧
    (match out.locate (workerOf 0 0 (cmd bell)) false .write (8 * (cardOf bell).dba) 32 with
      | (_, .ok [.out pa _ _ _ 0 32 0]) => homeOf pa = .host
      | _ => false) = true ∧ (cardOf bell).dbv < 2 ^ 32 := by decide +kernel

/-- A job of one record at 0x24000 whose control block lies at 0x23000, with slot 2 for each array. -/
def jobCard : VReg := BitVec.ofNat 2048 (0x23000 * 2 ^ 64 + 0x24000 * 2 ^ 128 + 2 ^ 192 + 0xA01FD788 * (2 ^ 320 + 2 ^ 384 + 2 ^ 448))
def jobMem : Table Byte :=
  [(0x24001, 0x50), (0x24002, 0x02), (0x24009, 0x51), (0x2400A, 0x02), (0x24011, 0x52), (0x24012, 0x02), (0x24021, 0x53),
    (0x24022, 0x02), (0x24028, 1)]
def job (state : Nat) (reqs : List JobReq) : Job := ⟨cmd jobCard, state, 0, reqs, ⟨jobMem ++ pages, []⟩, 0, [], none⟩
/-- A job whose control block lies in the second GiB. -/
def outJob : Job := { job 1 [] with cmd := cmd (BitVec.ofNat 2048 (0x40000000 * 2 ^ 64 + 0x24000 * 2 ^ 128 + 2 ^ 192 + 0xA01FD788 * (2 ^ 320 + 2 ^ 384 + 2 ^ 448))) }
def working (j : Job) (running : Option Nat) : State :=
  { paged jobMem (fun t => t.setX 5 0x23000) id with dies := [(0, { Die.reset with jobs := [j], running := running })] }
/-- The record that a free or busy engine stages and publishes next, with the control block in the package or outside. -/
def stages (s : State) (j : Job) (here : Bool) : Bool :=
  match s.readShard j j.cursor with
  | (u, .ok w) => !urecBad w && match u.stageRecord j j.cursor (urecOf w) with
    | (v, .ok out) =>
      let kept := v.modJob 0 j.cmd.seq fun x => { x with shards := tins x.shards j.cursor (w, out) }
      (tfind j.shards j.cursor).isNone && kept.releasedHere j.actor j.ctrl == here &&
        (!here || match kept.devWrite j.actor j.ctrl (bytesOf 8 (j.cursor + 1) ++ [1]) with
          | (_, .ok _, _) => true
          | _ => false)
    | _ => false
  | _ => false

theorem hyps_JobEngineEvents :
    let s := working (job 0 []) none
    let r := working (job 1 []) (some 0)
    let who : Issuer := ⟨placedCtx, 0, 0, 0, 0x10000, 1, false⟩
    let off (d : VReg) : State := { paged [] id id with dies := [(4, { Die.reset with offl := [cmd d] })] }
    let bad := ocmdOf (BitVec.ofNat 2048 3)
    s.Ready ∧ (s.ct.getX 5).toNat % 64 = 0 ∧ (s.ct.getX 5).toNat < 2 ^ 56 ∧ s.storesDone s.ck = true ∧
    s.jobAt s.cctx 0x23000 = some (0, job 0 []) ∧ s.jobAt s.cctx 0x24000 = none ∧ ((ready fun t => t.setX 5 32).ct.getX 5).toNat % 64 ≠ 0 ∧
    (s.die 0).running = none ∧ pickJob (s.waitingJobs 0) = some (job 0 []) ∧
    pickJob ((working (job 2 []) none).waitingJobs 0) = some (job 2 []) ∧ (job 0 []).ctrl % 64 = 0 ∧ (job 0 []).cardBad = false ∧
    (job 0 []).reqs = [] ∧ (match s.devRead (jobActor placedCtx 0) .rmw (job 0 []).ctrl 64 with
      | (u, .ok bs, _) => bitsOf (ofBytes bs) 64 8 = 0 && u.bytesAt (job 0 []).actor (job 0 []).before .rmw (job 0 []).ctrl bs = bs
      | _ => false) = true ∧
    (r.die 0).running = some 0 ∧ ((r.die 0).jobs.find? fun j => j.cmd.seq = 0) = some (job 1 []) ∧ (job 1 []).cursor < (job 1 []).nrec ∧
    stages r (job 1 []) true = true ∧ stages (hosted (working outJob (some 0))) outJob false = true ∧
    (s.ctx placedCtx).posted = [] ∧ (match r.devWrite (jobActor placedCtx 0) (job 1 []).ctrl (bytesOf 8 0 ++ [4]) with
      | (_, .ok _, _) => true
      | _ => false) = true ∧ (match (working outJob none).devWrite (jobActor placedCtx 0) outJob.ctrl (bytesOf 8 0 ++ [4]) with
      | (_, .noXlate _, _) => true
      | _ => false) = true ∧ (∀ x ∈ (s.die 0).jobs, x.due = none) ∧
    (((working { job 3 [] with due := some ⟨4, none⟩ } none).die 0).jobs.findSome? fun x => x.due.map fun e => (x, e)).isSome = true ∧ (job 2 [⟨true, who⟩]).dropped = true ∧ (job 2 []).dropped = false ∧
    ((working (job 3 [⟨false, who⟩]) none).die 0).dueReq false = some (job 3 [⟨false, who⟩], who) ∧
    ((working (job 1 [⟨true, who⟩]) none).die 0).dueReq true = some (job 1 [⟨true, who⟩], who) ∧ (s.die 0).dueReq true = none ∧
    ((off 0).die 4).offl = [cmd 0] ∧ (ocmdOf 0).nent = 0 ∧ (ocmdOf 0).done = 0 ∧ 3 ≤ bad.opc ∧
    (match (off 0).devAddOne (offloadActor placedCtx 0) 0x25000 with
      | (_, .ok _) => true
      | _ => false) = true ∧
    (ocmdOf (BitVec.ofNat 2048 (0x25000 * 2 ^ 256))).done ≠ 0 ∧ (ocmdOf (BitVec.ofNat 2048 (0x25000 * 2 ^ 256))).nent = 0 ∧
    (off 0).releasedHere (offloadActor placedCtx 0) 0x25000 = true ∧
    (hosted (off 0)).releasedHere (offloadActor placedCtx 0) 0x40000000 = false ∧ ((off 0).die 4).offlDue ≠ some 0 ∧
    ({ Die.reset with offl := [cmd 0], offlDue := some 0 } : Die).offlDue = some (cmd 0).seq ∧ (s.core 0).ostcRun = none ∧
    ({ Core.reset with ostcRun := some ⟨cmd 0, []⟩ } : Core).ostr.length < 4 :=
  ⟨ready_of (by decide +kernel), by decide +kernel⟩

/-! ### Residency, faults, contexts, the monitor, the host and the fabric -/

/-- Two blocks of one launch on core 0, block 1 of the grid in slot 0 and block 0 in slot 1, with a team each. -/
def halves (f g : Team → Team) (b : Block → Block) : State :=
  { State.reset with
    teams := [(0, f placedTeam), (32, g placedTeam)]
    blocks := [(0, b { placedBlock with bidx := 1 }), (1, placedBlock)]
    ctxs := [(placedCtx, { placedCx with launches := [(0, ⟨{ placedRec with gx := 2 }, 0, 0, 0, 2, [], false⟩)] })] }

/-- A load that the team has issued. -/
def loading (t : Team) : Team := { t with out := [⟨.ld, 0, false⟩] }
/-- The team at a `yield` until no load is outstanding. -/
def yielding (t : Team) : Team := { t with wait := some ⟨.yield .ld 0, 0, false⟩ }

/-- A launch of low priority holds all the stalls of core 0; its die has a block of a launch of priority `pri` that wants one. -/
def crowded (pri : Nat) (f : Team → Team) : State :=
  { State.reset with
    teams := [(0, f placedTeam)]
    blocks := [(0, { placedBlock with stn := 128 })]
    dies := [(0, { Die.reset with ranges := [⟨1, 1, 0, 1⟩] })]
    ctxs := [(placedCtx, { placedCx with launches :=
      [(0, ⟨{ placedRec with stalls := 128 }, 0, 0, 0, 1, [], false⟩), (1, ⟨{ placedRec with stalls := 1 }, 0, pri, 1, 0, [], false⟩)] })] }

/-- A handler that the team is in. -/
def handling (t : Team) : Team := { t with handler := some ⟨0, 0, [], ⟨0, 0, 0, 0, 0⟩, [0, 0, 0, 0], 0x40, 0, none⟩ }

theorem hyps_ResidencyEvents_parking :
    let s := halves (fun t => yielding (loading t)) id id
    let busy := halves id id id
    let p := halves yielding id fun b => { b with st := .parked }
    let held := halves (fun t => yielding (loading t)) id fun b => { b with st := .parked }
    (s.core 0).slots[0]? = some ⟨none, 0, none, false⟩ ∧
    s.oldest (((s.candidates 0).filter fun k => !s.mustWait k).filter fun k => !(s.team k).served) = some 32 ∧
    ((s.chooseTeam 0 0).core 0).slots[0]?.map IssueSlot.team = some (some 32) ∧ busy.parkable 0 = false ∧
    (let t := halves (fun t => { t with served := true }) (fun t => { t with served := true }) id
     let m := (t.candidates 0).filter fun k => !t.mustWait k
     (m.filter fun k => !(t.team k).served) = [] ∧
      ({ t with teams := tmap (fun k x => if coreOf k = 0 then { x with served := false } else x) t.teams } : State).oldest
        (m.filter fun k => some k ≠ none) = some 0) ∧
    (s.block 0).st = .bound ∧ s.isPromised 0 = false ∧ s.isPromised 1 = true ∧ s.parkable 0 = true ∧
    (1 ∈ s.coreBlocks 0 ∧ (1 : Nat) ≠ 0 ∧ 32 ∈ s.blockTeams 1 ∧ s.ready 32 = true) ∧
    (p.block 0).st = .parked ∧ (p.block 0).stalls = none ∧ p.switchedOut (p.block 0).ctx = false ∧ p.parkedRegs 0 ≤ p.regsFree 0 ∧
    (0 ∈ p.blockTeams 0 ∧ p.wakes 0 = true) ∧ p.outranked 0 = false ∧ (∀ k ∈ p.present 0, (p.team k).frameBad = false) ∧
    (∀ k ∈ held.blockTeams 0, held.wakes k = false) := by decide +kernel
/-- R48: a team that has begun two holds since another became ready begins none before that one has. -/
theorem test_two_holds :
    let s := halves id (fun t => { t with ahead := [0, 0] }) id
    s.mustWait 0 = true ∧ s.mustWait 32 = false ∧ ((s.chooseTeam 0 0).core 0).slots[0]?.map IssueSlot.team = some (some 32) ∧
    ((s.serveSlot 0 0).team 32).ahead = [] := by decide +kernel
/-- A team in the paddock, its block evicted. -/
def outside : State := { ready (fun t => { t with place := .evicted }) with blocks := [(0, { placedBlock with st := .parked })] }
def comers (s : State) : List Nat := s.returners 0 fun _ => false
/-- The launch that wants the stall. -/
def wanting (pri : Nat) : Launch := ⟨{ placedRec with stalls := 1 }, 0, pri, 1, 0, [], false⟩

theorem hyps_ResidencyEvents_eviction :
    (crowded 1 id).incoming (dieOfCore 0) = some (1, 1, wanting 1, true) ∧ (crowded 0 id).incoming (dieOfCore 0) = some (1, 1, wanting 0, false) ∧
    ((crowded 1 id).coreBlocks 0).length < 32 ∧
    (crowded 1 id).evictionPlan 0 (wanting 1).rcd ((crowded 1 id).victims 0 (wanting 1) true) = some ([0], [0]) ∧
    (crowded 0 id).evictionPlan 0 (wanting 0).rcd ((crowded 0 id).victims 0 (wanting 0) false) = none ∧
    (crowded 1 id).evictable 0 = true ∧ (crowded 1 handling).evictable 0 = false ∧
    (crowded 1 handling).evictionPlan 0 (wanting 1).rcd ((crowded 1 handling).victims 0 (wanting 1) true) = some ([0], [0]) ∧
    (crowded 1 id).hasTeam 0 = true ∧ (crowded 1 id).wanted 0 = none ∧ (crowded 1 id).planOf 0 = some (1, 1, [0], [0]) ∧
    (crowded 0 id).planOf 0 = none := by decide +kernel
/-- A promised block that is parked, for whose return another launch's block gives its stalls. -/
theorem hyps_ResidencyEvents_wanted :
    let s : State := { crowded 0 id with
      teams := [(0, placedTeam), (32, placedTeam)]
      blocks := [(0, { placedBlock with stn := 128 }), (1, { placedBlock with lnh := 1, st := .parked, stn := 1, stalls := some ⟨[], [], []⟩ })]
      dies := []
      ctxs := [(placedCtx, { placedCx with launches :=
        [(0, ⟨{ placedRec with stalls := 128 }, 0, 0, 5, 1, [], false⟩), (1, ⟨{ placedRec with stalls := 1 }, 0, 1, 1, 1, [], false⟩)] })] }
    s.wanted 0 = some 1 ∧ s.isPromised 1 = true ∧ (s.returnPlan 1).isSome = true ∧ (s.planOf 0).isSome = true := by decide +kernel
theorem hyps_ResidencyEvents_return :
    comers outside = [0] ∧ outside.oldest [0] = some 0 ∧ outside.regsOf 0 ≤ outside.regsFree 0 ∧ outside.outranked 0 = false ∧
    (outside.team 0).frameBad = false ∧ (outside.team 0).tileSave = [] ∧ (outside.team 0).cxSave = none ∧
    (outside.block 0).st ≠ .empty ∧ comers (ready id) = [] := by decide +kernel
theorem hyps_ResidencyEvents_functions :
    let s : State := { ready id with vfNext := some 2, activeVf := 1, ctxs := [(placedCtx, { placedCx with vf := 1 })] }
    let busy : State := { ready handling with vfNext := some 2, activeVf := 1, ctxs := [(placedCtx, { placedCx with vf := 1 })] }
    let out (s : State) := (tkeys s.teams).filter fun k => s.vfOf (s.ctxOf k) ≠ 0 && s.vfOf (s.ctxOf k) = s.activeVf &&
      (s.team k).place = .resident && !(s.team k).ended
    (State.reset.vfNext.getD State.reset.nextVf) = State.reset.activeVf ∧ out s = [0] ∧ s.evictable 0 = true ∧ out busy = [0] ∧
    busy.evictable 0 = false := by decide +kernel

/-- A translation fault of the team, and the team away in its frame. -/
def faulting (st : FaultStage) (t : Team) : Team := { t with fault := some ⟨st, 1, 0x10000, [⟨0, 0x10000, 0, false⟩], false⟩ }
def away (t : Team) : Team := { t with place := .swapped }
/-- A report of an uncorrectable error, which any instruction delivers. -/
def report : Report := ⟨0xA, 0, 1, 0x10000, 0, some .ld, 0, [], none, false, false, none⟩

theorem hyps_FaultEvents_teams :
    let walked := paged [] id id
    let s := ready (faulting .swapping)
    let r := paged [] (fun t => faulting .retry (away t)) id
    let back := ready (fun t => faulting .present (away t))
    let rep : State := { State.reset.withFetchWord 64 0 with teams := [(0, { placedTeam with reports := [report] })], quads := [(0, { Quad.reset with ranges := [placedMap] })] }
    let h : State := { ready (fun t => handling { t with preempt := some 0 }) with clock := 170000 }
    let w : State := { ready (fun t => { t with wait := some ⟨.talloc, 0, false⟩ }) with clock := 2 ^ 31 }
    (nonCanonical 0x10000 = false ∧ (walked.ctx 1).en = true ∧ walked.tlbHit 0 1 0x10000 = false ∧
      (match (walked.walkFill 0 (walkerActor 1 0) 0x10000 .read).2 with
        | .ok .. => true
        | _ => false) = true) ∧
    ((ready id).team 0).fault = none ∧ (s.team 0).fault = some ⟨.swapping, 1, 0x10000, [⟨0, 0x10000, 0, false⟩], false⟩ ∧
    s.hasTeam 0 = true ∧ (s.team 0).precise = true ∧ (s.team 0).count .st = 0 ∧ (s.team 0).place = .resident ∧ (s.ctx (s.ctxOf 0)).killed = false ∧
    (let f : PendingFault := ⟨.retry, 1, 0x10000, [⟨0, 0x10000, 0, false⟩], false⟩
     (r.team 0).fault = some f ∧ (r.retryAll 0 (f.retries (r.team 0).pc)).2 = [] ∧ (r.retryAll 0 (f.retries (r.team 0).pc)).1.hasTeam 0 = true ∧
      (r.retryAll 0 (f.retries (r.team 0).pc)).1.team 0 = r.team 0) ∧
    back.hasTeam 0 = true ∧ (back.team 0).place = .swapped ∧ (back.team 0).hold = none ∧
    ((back.team 0).fault.all fun f => f.stage = .present) = true ∧ (back.block 0).st = .bound ∧ back.regsOf 0 ≤ back.regsFree 0 ∧
    back.outranked 0 = false ∧ (back.team 0).frameBad = false ∧ (back.team 0).tileSave = [] ∧
    (rep.hasTeam 0 = true ∧ rep.ready 0 = true ∧ rep.acquiring 0 = none ∧
      (match rep.fetchAt 0 with
        | (u, .ok ws) => (match decodeWords ws with
          | .ok d => u.reportDue 0 ((rep.team 0).begin d.pb) d.instr = some report
          | _ => false)
        | _ => false) = true) ∧
    (h.team 0).preempt = some 0 ∧ ((h.team 0).handler.map Save.entry) = some 0x40 ∧ ((h.launchOf? 0).map fun l => l.rcd.htmo) = some 0 ∧
    0 + 100 * 1700 ≤ h.clock ∧ (w.team 0).wait = some ⟨.talloc, 0, false⟩ ∧ WaitKind.talloc.stallNum = some 1 ∧ 0 + 2 ^ 31 ≤ w.clock := by
  decide +kernel

/-- An entry of the trap queue at 0x26000 in which V stands as given and RESP is `resp`, with its team's fault waiting for it. -/
def answered (kind : Nat) (v : Bool) (resp : Byte) : State :=
  paged [(0x26009, (if v then 0x80 else 0) + resp * 0x20)] (fun t => faulting .waiting (away t)) fun c =>
    { c with trapq := 0x26000, entries := [⟨0, kind, 7, 0, true⟩] }

theorem hyps_FaultEvents_records :
    let r : Rec := ⟨0x14, kindNotice, 0, 0, 0, 0, 0, true, false, false⟩
    let es := List.replicate 252 (⟨0, kindFatal, 1, 0, true⟩ : TqEntry)
    let s := paged [] id fun c => { c with trapq := 0x26000, pending := [r] }
    let full := readyCx id { placedCx with trapq := 2 ^ 63, killed := true, pending := [r], entries := es }
    let read (s : State) := s.devRead (s.trapActor 1) .rmw 0x26000 32
    let bits (s : State) : Option Nat := match (read s).2.1 with
      | .ok bs => some (ofBytes bs)
      | _ => none
    (s.ctx 1).pending = [r] ∧ ((s.tryRecord 1 r).2 = true ∧ ((s.tryRecord 1 r).1.ctx 1).killed = false) ∧ r.kind ≠ kindReplayable ∧
    ((full.pollForRoom 1).2 = .none ∧ ((full.pollForRoom 1).1.ctx 1).freeEntries < 5) ∧ ((ready id).ctx 1).pending = [] ∧
    ((bits (answered kindReplayable true 0)).map fun w => bitOf w 79) = some true ∧
    ((bits (answered kindNotice false 0)).map fun w => bitOf w 79) = some false ∧
    ((bits (answered kindReplayable false 0)).map fun w => (bitOf w 79, bitsOf w 77 2)) = some (false, 0) ∧
    ((bits (answered kindReplayable false 1)).map fun w => (bitOf w 79, bitsOf w 77 2)) = some (false, 1) ∧
    (read (answered kindReplayable false 0)).1.hasTeam 0 = true ∧ (read (answered kindReplayable false 0)).1.ctxOf 0 = 1 ∧
    (((read (answered kindReplayable false 0)).1.team 0).fault.map PendingFault.stage) = some .waiting := by decide +kernel

theorem hyps_ContextAndRegisterEvents :
    let r : State := { State.reset with mem := [(0x80, 1)] }
    let bad : State := { r with failed := [(1, 0)] }
    let on := ready id
    let off : State := { r with ctxs := [(1, { placedCx with en := true })] }
    let asked (c : Word) : State := { ready id with regs := { Regs.reset with tlbi := [(0, ⟨c, 0, 0x1000, 1, true⟩)] } }
    let flying : State := { asked 1 with ops := [op .read 0x800 .waiting] }
    let mext : State := { State.reset with regs := { Regs.reset with mextIdx := 8 } }
    (r.ctx 1).en = false ∧ r.boot = .running ∧ isMem 0x80 = true ∧ isMem (0x80 + 127) = true ∧ (r.rdNat 0 0x80 128).testBit 0 = true ∧
    r.failedAt (0x80 / 128) = none ∧ (r.ctx 1).world = (r.rdNat 0 0x80 128).testBit 13 ∧ (State.reset.rdNat 0 0x80 128).testBit 0 = false ∧
    bad.failedAt 1 ≠ none ∧ (on.ctx 1).en = true ∧ (on.rdNat 0 0x80 128).testBit 0 = false ∧ tsorted 0 on.teams = true ∧
    (off.rdNat 0 0x80 128).testBit 0 = true ∧ (State.reset.tlbi 0).busy = false ∧ (State.reset.ctx 0).vf = 0 ∧
    (1 : Nat) ≠ (State.reset.ctx 0).vf ∧ ((asked 1).tlbi 0).busy = true ∧ (asked 1).inFlight 1 0 0x1000 = false ∧
    flying.inFlight 1 0 0x1000 = true ∧ mext.regs.mextIdx.toNat = 8 ∧ State.reset.regs.mextIdx.toNat < 8 ∧
    State.reset.regs.rkeyLocked.getLsbD 0 = false ∧ twf 0 State.reset.meas = true ∧ State.reset.spdm.session = false := by decide +kernel

/-- The mailbox with a command in progress, its SEQ 5 and its arguments. -/
def mailbox (code : Nat) (args : List Word) : Mbx := ⟨BitVec.ofNat 64 (code + 5 * 2 ^ 16), args, 0, 0, false, true, none⟩
def commanded (code : Nat) (args : List Word) (f : Team → Team) (bps : List Word) : State :=
  { ready f with regs := { Regs.reset with mbx := mailbox code args }, ctxs := [(placedCtx, { placedCx with bps := bps })] }
/-- The team held by a breakpoint. -/
def held (t : Team) : Team := { t with hold := some ⟨0x18, 0⟩ }

theorem mbxSelf_of {s : State} (h : (s.ctx (s.mbxArg 0)).world = false) : s.mbxSelf = false := by simp [State.mbxSelf, h]

theorem hyps_MonitorCommands :
    let a : List Word := [1, 0, 0x30000, 0x10000]
    let s (c : Nat) := commanded c a held []
    let idle := commanded 0 [] id []
    (∀ c ∈ [1, 2, 3, 4, 5, 6, 7, 8, 9], (s c).mbxIs c 5 = true) ∧ idle.mbxIs 1 5 = false ∧ (s 1).mbxTeam = some 0 ∧
    (commanded 1 [2, 0, 0, 0] id []).mbxTeam = none ∧ ((commanded 1 a id []).team 0).hold = none ∧ ((s 1).team 0).hold ≠ none ∧
    ((commanded 1 a id []).team 0).precise = true ∧ ((commanded 1 a loading []).team 0).precise = false ∧
    (s 2).holdPending 0 = false ∧ ((s 2).team 0).frameBad = false ∧ ((s 2).team 0).newFrame = none ∧
    (let r : Rec := ⟨0x18, kindHeld, 0, 0, 0, 0, 0, true, false, false⟩
     ({ s 2 with ctxs := [(placedCtx, { placedCx with pending := [r] })] } : State).holdPending 0 = true) ∧
    (s 4).mbxArg 3 = 0x10000 ∧ (s 4).mbxArg 2 = 0x30000 ∧ ((s 4).frameOf 0).length ≤ 0x10000 ∧
    0x100 < ((s 4).frameOf 0).length ∧ memRun 0x30000 ((s 4).frameOf 0).length = true ∧
    (s 5).runFailed 0x30000 ((s 5).frameOf 0).length = none ∧
    frameOk ((s 5).frameOf 0) ((s 5).rdBytes 0 0x30000 ((s 5).frameOf 0).length) = false := by decide +kernel
/-- Headers of a frame: a mask with a live thread, an empty mask over an empty stack, and a TMODE with a reserved bit. -/
theorem hyps_MonitorCommands_masks :
    let f (h : Nat) : List Byte := bytesOf 64 h
    let em (h : Nat) : Mask := BitVec.ofNat 32 (frameField (f h) 0 64 / 2 ^ 288) &&& placedTeam.live
    em (2 ^ 288) ≠ 0 ∧ em 0 = 0 ∧ frameField (f 0) 0 64 / 2 ^ 233 % 32 = 0 ∧ frameField (f (2 ^ 233)) 0 64 / 2 ^ 233 % 32 ≠ 0 ∧
    frameField (f (2 ^ 320)) 0 64 / 2 ^ 320 % 2 ^ 4 ≠ 0 := by decide +kernel
/-- Memory that holds the team's own frame is a frame that WRITEFRAME accepts. -/
theorem hyps_MonitorCommands_frame :
    let s := commanded 5 [1, 0, 0x30000, 0x10000] held []
    let f := s.frameOf 0
    let m := (f.zipIdx).filterMap fun e => if e.1 = 0 then none else some (0x30000 + e.2, e.1)
    let u : State := { s with mem := m }
    frameOk (u.frameOf 0) (u.rdBytes (u.regionKey 0x30000) 0x30000 (u.frameOf 0).length) = true := by decide +kernel
theorem hyps_MonitorCommands_breakpoints :
    let s := commanded 6 [1, 0, 0x100, 0] id []
    let full := commanded 6 [1, 0, 0x100, 0] id [0, 4, 8, 12, 16, 20, 24, 28]
    let c := commanded 7 [1, 0, 0x100, 0] id [0x100]
    let odd := commanded 6 [1, 0, 0x101, 0] id []
    let l := commanded 9 [1, 0, 0x30000, 0] held []
    (s.mbxArg 0 = 1 ∧ s.mbxArg 2 = 0x100 ∧ BitVec.ofNat 64 0x100 ∉ (s.ctx 1).bps ∧ (s.ctx 1).bps.length < 8) ∧
    (BitVec.ofNat 64 0x100 ∉ (full.ctx 1).bps ∧ 8 ≤ (full.ctx 1).bps.length) ∧ odd.mbxArg 2 % 4 ≠ 0 ∧
    (BitVec.ofNat 64 0x100 ∈ (c.ctx 1).bps ∧ BitVec.ofNat 64 0x100 ∉ (s.ctx 1).bps) ∧ memRun 0x30000 16 = true ∧
    ((tkeys l.teams).filter fun k => (l.team k).hold.isSome && !(l.team k).ended && l.ctxOf k = 1) = [0] ∧
    (let u := State.reset
     u.regs.mbx.busy = false) ∧ s.regs.mbx.busy = true ∧ s.mbxUnknown = false ∧ s.regs.mbx.pend = none := by decide +kernel
/-- Every context is secure, and the command names context `m`. -/
def secure (m : BitVec 6) : State :=
  { State.reset with
    regs := { Regs.reset with mbx := mailbox 1 [m.setWidth 64, 0, 0, 0] }
    ctxs := (List.range 64).map fun n => (n, { Ctx.reset with world := true }) }

/-- No command of these is against the monitor; and one that names the monitor's context in the secure world is. -/
theorem hyps_MonitorCommands_self :
    (∀ c f b x y z, (commanded c [1, x, y, z] f b).mbxSelf = false) ∧ (secure Config.monitorContext).mbxSelf = true ∧
    (secure Config.monitorContext).mbxIs 1 5 = true := by
  refine ⟨fun c f b x y z => mbxSelf_of rfl, ?_, ?_⟩
  · have h : ∀ m : BitVec 6, (secure m).mbxArg 0 = m.toNat ∧ ((secure m).ctx m.toNat).world = true := by decide +kernel
    simp only [State.mbxSelf, (h Config.monitorContext).1, (h Config.monitorContext).2, Bool.and_true, decide_true]
  · have h : ∀ m : BitVec 6, (secure m).mbxIs 1 5 = true := by decide +kernel
    exact h _

theorem hyps_HostRequests :
    let s := State.reset
    let up : State := { s with spdm := ⟨true, true, true, some [1], true⟩ }
    let bad : State := { s with failed := [(0x30000 / 128, 0)] }
    (s.spdm.version = false ∧ s.spdm.caps = false ∧ s.spdm.algs = false ∧ s.spdm.exchange = none ∧ s.spdm.session = false) ∧
    (up.spdm.version = true ∧ up.spdm.caps = true ∧ up.spdm.algs = true ∧ up.spdm.exchange = some [1] ∧ up.spdm.session = true) ∧
    (8 : BitVec 32).getLsbD 3 = true ∧ (1 : BitVec 32).getLsbD 0 = true ∧ (∀ i, i < 8 → isMem (0x30000 + i) = true) ∧
    s.regs.regions = [] ∧ isMem (2 ^ 52) = false ∧ s.runFailed 0x30000 8 = none ∧ bad.runFailed 0x30000 8 ≠ none ∧
    s.failedAt (0x30000 / 128) = none ∧ (0x30000 : Nat) % 8 = 0 := by decide +kernel

/-- A packet of device 1 in incarnation 0, with this tag, to device `dst`, of one read or one write at `pa`. -/
def packet (tag : BitVec 12) (dst pa : Nat) (rv write : Bool) : Packet :=
  ⟨⟨0, 0, 0, rv, false, 0, tag⟩, 1, dst, .req [⟨if write then .write else .read, pa, 0, 64, 0, 0, [], false, 0, false⟩]⟩
def joined (p : Peer) : State := { State.reset with peers := [(1, { p with inc := some 0 })] }
/-- A request to device 1, sent at clock 0 and `n` times again. -/
def sent (n : Nat) : Peer := { Peer.reset with outs := [⟨7, 0, [0], packet 7 1 0 false false, n, 0⟩] }

theorem hyps_FabricAndErrorEvents_packets :
    let s := joined .reset
    let r := packet 0 0 0x30000 false false
    let w := packet 1 0 0x30000 false true
    let d := joined { Peer.reset with newest := 0, low := 1 }
    let via := packet 0 2 0 true false
    let up : State := { s with links := [(((s.peerPorts 2).headD 0), true)] }
    r.dst = s.podNum ∧ r.src ≠ s.podNum ∧ r.src < s.podSize ∧ r.hdr.dinc = s.incarnation ∧ (s.peer r.src).inc = some r.hdr.sinc ∧
    (State.reset.peer 1).inc = none ∧ (s.peer 1).isDone 0 = false ∧ (d.peer 1).isDone 0 = true ∧ packetWrites r = false ∧
    packetWrites w = true ∧ ((s.peer 1).receive 0).noGap 0 = true ∧ ((s.peer 1).receive 1).noGap 1 = false ∧ (s.peer 1).isDone 1 = false ∧
    (s.peer 1).held = [] ∧ ((packet 0 0 (2 ^ 45) false false).reqs.all s.peerMayReach) = false ∧
    via.hdr.rv = true ∧ via.hdr.rly.toNat = s.podNum ∧ via.dst ≠ s.podNum ∧ via.dst < s.podSize ∧
    (up.peerPorts 2).any up.portUp = true ∧ r.reqs ≠ [] ∧ up.ways via ≠ [] ∧ up.reaches 2 = true ∧ up.wired ((s.peerPorts 2).headD 0) = true ∧
    s.wired 7 = false ∧ ((up.escapeRoute via).map Prod.fst) = some ((s.peerPorts 2).headD 0) := by decide +kernel
theorem hyps_FabricAndErrorEvents_answers :
    let s (n : Nat) := joined (sent n)
    let late (n : Nat) : State := { s n with clock := 200 * 1700 }
    (((s 0).peer 1).outs.find? fun r => r.tag = 8) = none ∧ ((((s 0).peer 1).outs.find? fun r => r.tag = 7).map OutReq.resends) = some 0 ∧
    (s 0).clock < 0 + (s 0).te2e ∧ 0 + (late 8).te2e ≤ (late 8).clock ∧ ((((late 8).peer 1).outs.find? fun r => r.tag = 7).map OutReq.resends) = some 8 ∧
    ((((late 7).peer 1).outs.find? fun r => r.tag = 7).map OutReq.resends) = some 7 := by decide +kernel
theorem hyps_FabricAndErrorEvents_buffers :
    let p : OutPkt := ⟨packet 0 1 0 false false, some 0, 0, false⟩
    let s (c : Nat) : State := { State.reset with clock := c, dies := [(4, { Die.reset with pkts := [p] })] }
    ((s 0).die 4).pkts[1]? = none ∧ ((s 0).die 4).pkts[0]? = some p ∧ (s 0).clock ≤ p.since + (s 0).tdl ∧
    p.since + (s 340001).te2e < (s 340001).clock ∧ p.since + (s 34001).tdl < (s 34001).clock ∧ (s 34001).clock ≤ p.since + (s 34001).te2e ∧
    ((s 0).die 4).halterGen = 0 ∧ ((s 0).die 4).pkts.all (fun p => !p.suspect) = true ∧ (s 0).clock < ((s 0).die 4).halterSeen + 32 * (s 0).tdl ∧
    ((s 1088000).die 4).halterSeen + 32 * (s 1088000).tdl ≤ (s 1088000).clock ∧ (s 0).podNum = 0 ∧
    ([4, 0, 1, 3, 2, 5] : List Nat)[(tfind (s 0).halters 0).getD 0]? = some 4 ∧
    ([4, 0, 1, 3, 2, 5] : List Nat)[(tfind ({ s 0 with halters := [(0, 5)] } : State).halters 0).getD 0]? = some 5 := by decide +kernel
theorem hyps_FabricAndErrorEvents_errors :
    let c : Ev := ⟨2 ^ 31, BitVec.allOnes 48⟩
    let s : State := { State.reset with regs := { Regs.reset with fpc := [(16, BitVec.allOnes 48)] }, cores := [(0, { Core.reset with ev := [(0, c)] })] }
    isMem (128 * 0) = true ∧ (ready id).hasTeam (teamIdKey ⟨0, 0, 0⟩) = true ∧ tget 0 s.regs.fpc (16 * 1 + 0) = BitVec.allOnes 48 ∧
    tget 0 s.regs.fpc 0 ≠ BitVec.allOnes 48 ∧ twf 0 s.regs.fpc = true ∧ (s.core 0).ev = [(0, c)] ∧ ((ready id).residentFns 0).contains 0 = true ∧ c.cnt = BitVec.allOnes 48 ∧
    c.sel.getLsbD 31 = true ∧ (0 : Word).getLsbD 31 = false := by decide +kernel

end Sys2Proof.Tests
end

section
/-!
PROOF. A byte of memory read after a write of a byte, and O7.
-/

namespace Sys2Proof.Machine

/-- Canonical memory is what makes this hold when the byte written is 0: the write then deletes the entry, and no second
entry for the address may be left behind it. -/
@[simp] theorem State.rdByte_wrByte_same {s : State} (a : Nat) (v : Byte) (h : Memory.wf s.mem = true) :
    (s.wrByte a v).rdByte a = v :=
  tget_tput_same a v h

theorem State.rdByte_wrByte_other {s : State} {a b : Nat} (v : Byte) (h : Memory.wf s.mem = true) (hb : b ≠ a) :
    (s.wrByte a v).rdByte b = s.rdByte b :=
  tget_tput_other v h hb

/-- Settles O7: `State.rdByte` and `State.wrByte` are a read and a write of the sparse table, whose laws are those of
Laws/Table.lean. -/
theorem byteReadsAsWritten : Obligations.ByteReadsAsWritten := by
  intro s a b v h
  exact ⟨State.rdByte_wrByte_same a v h, State.rdByte_wrByte_other v h⟩

end Sys2Proof.Machine
end

section
/-!
PROOF. What a step does with each kind of choice, and O4: the issue of a slot is followed through the slot's team, the fetch, the
decoding and the checks before an instruction runs, one lemma for each.
-/

namespace Sys2Proof.Machine

/-! ## Committing where nothing is asked -/

theorem State.dropUsed_of_idle {t : State} (h : t.rpc = .idle) : t.dropUsed = t := if_pos h

theorem State.commit_of_idle (s : State) {t : State} (h : t.rpc = .idle) : s.commit t = t := by
  simp [State.commit, h, Rpc.idle, State.dropUsed_of_idle h]

theorem State.commitSlot_of_idle (s : State) (core slot : Nat) {t : State} (h : t.rpc = .idle) :
    s.commitSlot core slot t = t := by
  simp [State.commitSlot, h, Rpc.idle, State.dropUsed_of_idle h]

/-! ## The choice -/

theorem step_of_agenda {s : State} {c : Choice} {rest : List Choice} (h : s.agenda = c :: rest) :
    step s = runChoice c { s with agenda := rest } := by
  simp only [step, h]

theorem runChoice_event {i : Instr} (h : i.isEvent = true) (s : State) :
    runChoice (.event i) s = onNext s.commit (exec i s) := if_pos h

/-- What was learned of a link between two other devices stands (log 18). -/
theorem runChoice_farLink (a b : Nat) (up : Bool) (s : State) :
    ∃ u, runChoice (.farLink a b up) s = .next u ∧ (twf false s.farDown = true → u.farUp a b = up) ∧
      u.teams = s.teams ∧ u.mem = s.mem := by
  refine ⟨_, rfl, fun h => ?_, rfl, rfl⟩
  simp [State.farUp, tget_tput_same _ _ h]

/-! ## From the slot to the words -/

section
variable {s s' : State} {core slot k : Nat} {ws : List Nat} {d : Decoded}

theorem issueFrom_other {s0 t : State} (h0 : s0 = (s.flow 1).unmark core)
    (h : s0.issueSlot core slot = (s', .other (.next t))) :
    issueFrom core slot s = .next (s0.commitSlot core slot t) := by
  simp only [issueFrom, ← h0, h, onNext]

theorem issueFrom_run {s0 : State} {i : Instr} (h0 : s0 = (s.flow 1).unmark core) (h : s0.issueSlot core slot = (s', .run i)) :
    issueFrom core slot s = onNext (s0.commitSlot core slot) (exec i s') := by
  simp only [issueFrom, ← h0, h]

theorem State.issueSlot_of_ready {s1 : State} (h1 : s1 = s.serveSlot core slot)
    (hk : ((s1.core core).slots[slot]?).bind IssueSlot.team = some k) (hr : s1.ready k = true) :
    s.issueSlot core slot = s1.issueTeam k := by
  simp only [State.issueSlot, ← h1, hk, hr, if_true]

/-- An acquire in flight holds the team whatever the issue has set of `cur`. -/
theorem State.acquiring_setCur (s : State) (c : Cur) (k : Nat) : { s with cur := c }.acquiring k = s.acquiring k := rfl

/-- The team fetches `ws` at its PC: nothing interrupts it, and no acquire of it is in flight (R111, R120). `s'` is the state in
which the words are decoded. -/
def State.Fetches (s : State) (k : Nat) (ws : List Nat) (s' : State) : Prop :=
  (s.modTeam k Team.arrival).interrupt k = none ∧ (s.modTeam k Team.arrival).acquiring k = none ∧
    ∃ u, { s.modTeam k Team.arrival with cur := ⟨coreOf k, slotOf k, idxOf k, 8, 0, [], true⟩ }.fetchAt k = (u, .ok ws) ∧
      s' = { u with cur := { u.cur with base := bits64 ws } }

theorem State.issueTeam_of_decodes (h : s.Fetches k ws s') (hd : decodeWords ws = .ok d) :
    s.issueTeam k = s'.prepared k d := by
  obtain ⟨hi, ha, u, hf, rfl⟩ := h
  simp only [State.issueTeam, hi, State.acquiring_setCur, ha, hf, hd]

/-- Words that begin no instruction raise the illegal-instruction trap (R130). -/
theorem State.issueTeam_of_illegal {e : DecodeErr} (h : s.Fetches k ws s') (he : decodeWords ws = .error e) :
    let t := (s.modTeam k Team.arrival).team k
    let b := s'.illegalBits (s'.teamActor k) (coreOf k) t.pc.toNat ws
    let r := b.1.raise k 1 t.active b.2 t.pc false
    s.issueTeam k = (r, .other (.next r)) := by
  obtain ⟨hi, ha, u, hf, rfl⟩ := h
  simp only [State.issueTeam, hi, State.acquiring_setCur, ha, hf, he]

/-! ## From the decoded instruction to its meaning -/

/-- A predicate block may cover the instruction (R138, R139). -/
def MayBeCovered (i : Instr) : Prop := i.pbOk = true ∧ ∀ x, i.xp = some x → x.km = 0

/-- A covered instruction that no block may cover is the illegal instruction (R138). -/
theorem State.prepared_of_uncoverable (hr : s.reportDue k ((s.team k).begin d.pb) d.instr = none)
    (hl : ((s.team k).begin d.pb).pbs.left ≠ 0) (hc : ¬MayBeCovered d.instr) :
    let t := (s.team k).begin d.pb
    let held := s.holdReports k t d.instr
    let r := (held.modTeam k fun x => x.begin d.pb).raise k 1 t.active held.cur.base t.pc false
    s.prepared k d = (r, .other (.next r)) := by
  simp only [State.prepared, hr]
  rw [if_pos]
  cases hx : d.instr.xp with
  | none => simpa [hl, MayBeCovered, hx] using hc
  | some x => simpa [hl, MayBeCovered, hx, Decidable.imp_iff_not_or] using hc

/-- The instruction runs, for a team that the monitor does not step: `hm` decides the last match of `State.prepared`. -/
theorem State.prepared_of_runs (hr : s.reportDue k ((s.team k).begin d.pb) d.instr = none)
    (hc : ((s.team k).begin d.pb).pbs.left ≠ 0 → MayBeCovered d.instr)
    (hs : (s.holdReports k ((s.team k).begin d.pb) d.instr).stall k ((s.team k).begin d.pb) d.instr = none)
    (hb : (s.holdReports k ((s.team k).begin d.pb) d.instr).badRead k ((s.team k).begin d.pb) d.instr = none)
    (hm : ∀ c, ((s.team k).begin d.pb).mon ≠ .step false c) :
    let begun := (s.holdReports k ((s.team k).begin d.pb) d.instr).modTeam k fun x => x.begin d.pb
    s.prepared k d = ({ begun with cur := { begun.cur with len := d.len, base := d.base } }, .run d.instr) := by
  simp only [State.prepared, hr, hs, hb, State.modTeam_cur]
  rw [if_neg]
  cases hx : d.instr.xp with
  | none => simpa [MayBeCovered, hx] using hc
  | some x => simpa [MayBeCovered, hx] using hc

end

/-! ## The step -/

/-- Settles O4: the words that the slot's team fetches are decoded, and what `State.prepared` answers is committed; every other choice
is what `runChoice` makes of it. -/
theorem stepRunsDecodedInstruction : Obligations.StepRunsDecodedInstruction := by
  refine ⟨?_, fun s rest => ⟨?_, ?_, ?_, ?_⟩, fun s t core slot h => ⟨s.commit_of_idle h, s.commitSlot_of_idle core slot h⟩⟩
  · rintro s s0 s1 _ s3 s4 core slot k rest ws hag h0 h1 hk hr rfl hi ha hf h4
    have fetches : s1.Fetches k ws s4 := ⟨hi, ha, s3, hf, h4⟩
    have hslot : s0.issueSlot core slot = s1.issueTeam k := State.issueSlot_of_ready h1 hk hr
    have hstep : step s = issueFrom core slot { s with agenda := rest } := step_of_agenda hag
    rw [hstep]
    refine ⟨fun e he => issueFrom_other h0 (hslot.trans (State.issueTeam_of_illegal fetches he)), fun d hd hrep => ⟨?_, ?_⟩⟩
    all_goals have hprep : s0.issueSlot core slot = s4.prepared k d := hslot.trans (State.issueTeam_of_decodes fetches hd)
    · intro hl hc
      exact issueFrom_other h0 (hprep.trans (State.prepared_of_uncoverable hrep hl hc))
    · intro hc hs hb hm
      exact issueFrom_run h0 (hprep.trans (State.prepared_of_runs hrep hc hs hb hm))
  · intro i hi hag
    exact (step_of_agenda hag).trans (runChoice_event hi _)
  · intro n hag
    exact step_of_agenda hag
  · intro g id dev block n hag
    exact step_of_agenda hag
  · intro a b up hag
    rw [step_of_agenda hag]
    exact runChoice_farLink a b up _

end Sys2Proof.Machine
end

section
/-!
PROOF. The vector instructions that change only their team: O31, O32 and O34. Each runs `vecOp`, which makes the checks of R175, on the
operands and the effect of its table in the obligations, and no vector write touches the PC, the predicate block or the monitor's
request; that is all that the completion of an instruction and its traps need.
-/

namespace Sys2Proof.Machine

/-! ## What the writes of vector operands leave alone (R136, R361) -/

theorem KeepsPc.trans {t u v : Team} (a : KeepsPc t u) (b : KeepsPc u v) : KeepsPc t v :=
  ⟨b.pc.trans a.pc, b.mon.trans a.mon, b.pbs.trans a.pbs⟩

theorem keepsPc_mend (t : Team) (n : Nat) (m : Nat → Bool) : KeepsPc t (t.mend n m) := by
  unfold Team.mend
  split <;> exact ⟨rfl, rfl, rfl⟩

theorem keepsPc_setV_mend (t : Team) (n : Nat) (v : VReg) (m : Nat → Bool) : KeepsPc t ((t.setV n v).mend n m) :=
  (keepsPc_setV t n v).trans (keepsPc_mend _ n m)

theorem keepsPc_writeElems (t : Team) (xp : Option Xp) (sl : Slot) (d : BitVec 7) (f : Nat → Option Val) :
    KeepsPc t (t.writeElems xp sl d f) := by
  unfold Team.writeElems Team.writeDrawn
  dsimp only
  split
  · exact keepsPc_setV_mend ..
  · exact (keepsPc_setV_mend ..).trans (keepsPc_setV_mend ..)

theorem keepsPc_writeBits (t : Team) (xp : Option Xp) (w : Nat) (d : BitVec 7) (f : Nat → Nat) :
    KeepsPc t (t.writeBits xp w d f) := keepsPc_setV_mend ..

theorem keepsPc_writeSlices (t : Team) (xp : Option Xp) (d : BitVec 7) (f : Nat → Word) :
    KeepsPc t (t.writeSlices xp d f) := keepsPc_setV_mend ..

theorem keepsPc_writePred (t : Team) (xp : Option Xp) (n : Nat) (f : Nat → Bool) : KeepsPc t (t.writePred xp n f) :=
  keepsPc_setP ..

theorem keepsPc_writeTest (t : Team) (xp : Option Xp) (pdst all : Bool) (w : Nat) (d : BitVec 7) (test : Nat → Bool) :
    KeepsPc t (writeTest xp pdst all w d test t) := by
  cases pdst
  case false => exact keepsPc_writeBits ..
  case true => exact keepsPc_writePred ..

/-! ## The checks of R175 -/

section
variable {s : State} {i : Instr} {slots : List (Nat × BitVec 4)} {opds : List VOpd} {cond : Bool} {d : Word}

theorem checked_of_pass (ha : s.ct.em ≠ 0) (hslots : s.formatErr slots = none) (hopds : (s.opdsOk opds && cond) = true)
    (f : State → Eff) : checked s slots opds cond f = f s := by
  simp only [checked, whenActive, if_neg ha, hslots, if_pos hopds]

/-- A slot that fails is the format trap, whatever the registers. -/
theorem checked_of_badSlot (ha : s.ct.em ≠ 0) (hslots : s.formatErr slots = some d) (f : State → Eff) :
    checked s slots opds cond f = .trap s 3 s.ct.active d := by
  simp only [checked, whenActive, if_neg ha, hslots]

theorem checked_of_badOperand (ha : s.ct.em ≠ 0) (hslots : s.formatErr slots = none) (hopds : (s.opdsOk opds && cond) = false)
    (f : State → Eff) : checked s slots opds cond f = opTrap s := by
  simp only [checked, whenActive, if_neg ha, hslots, hopds, Bool.false_eq_true, if_false]

/-- A meaning that ends in a trap raises it. -/
theorem traps_of_trap {c : Nat} {m : Mask} (hs : s.Ready) (he : exec i s = finish s (.trap s c m d)) : s.Traps i c m d := by
  rw [State.Traps, he, finish_trap hs.canonical]

end

/-! ## Shifts and rotations in the words of the manual (R184, R189) -/

theorem exec_vshl (xp : Option Xp) (o : VShift) (s : State) :
    exec (.vshl xp o) s = vecShift xp o s fun w a n => if w ≤ n then 0 else a * 2 ^ n % 2 ^ w := by
  simp only [← Nat.shiftLeft_eq]
  rfl

theorem exec_vshr (xp : Option Xp) (o : VShift) (s : State) :
    exec (.vshr xp o) s = vecShift xp o s fun w a n => if w ≤ n then 0 else a / 2 ^ n := by
  simp only [← Nat.shiftRight_eq_div_pow]
  rfl

/-- The thread whose slice `vrot` takes: modulo 32 within its home team, or without wrapping where there is one. -/
theorem rotSrc_eq (o : VRotOps) (own : Nat) :
    rotSrc o own =
      let n : Int := own + o.n.toInt
      if o.wrap then some (own / 32 * 32 + (n % 32).toNat) else if 0 ≤ n ∧ n ≤ 1023 then some n.toNat else none := by
  simp [rotSrc]

theorem exec_vrot (xp : Option Xp) (o : VRotOps) (s : State) :
    exec (.vrot xp o) s = sliceMove xp o.va o.vd [] s fun _ _ own =>
      let n : Int := own + o.n.toInt
      if o.wrap then some (own / 32 * 32 + (n % 32).toNat) else if 0 ≤ n ∧ n ≤ 1023 then some n.toNat else none := by
  simp only [← rotSrc_eq]
  rfl

end Sys2Proof.Machine

namespace Sys2Proof.Claims
open Sys2Proof.Machine

variable {s : State} {i : Instr}

/-! ## From a table to the obligation -/

/-- The instruction is the one of the table's row: it checks the row's operands and has the row's effect. -/
structure VecSpec.Runs (v : VecSpec) (s : State) (i : Instr) : Prop where
  exec_eq : exec i s = vecOp s v.slots v.opds v.cond v.effect
  keepsPc : ∀ t, KeepsPc t (v.effect t)

theorem VecSpec.Runs.holds {v : VecSpec} (h : v.Runs s i) (hs : s.Ready) : v.Holds s i := by
  have he := h.exec_eq
  unfold vecOp at he
  refine ⟨fun hslots hopds hcond => ?_, fun d hslots => ?_, fun hslots hbad => ?_⟩
  · rw [checked_of_pass hs.active hslots (by rw [hopds, hcond, Bool.and_self])] at he
    exact completes_of_done hs he (h.keepsPc _)
  · rw [checked_of_badSlot hs.active hslots] at he
    exact traps_of_trap hs he
  · rw [checked_of_badOperand hs.active hslots hbad] at he
    exact traps_of_trap hs he

/-! ## Arithmetic (R177, R178, R183, R185) -/

theorem exec_of_binaryOp {xp : Option Xp} {o : VBin} {g : Nat → Val → Val → Val} (h : binaryOp i = some (xp, o, g)) :
    exec i s = vecBin xp o s g := by
  unfold binaryOp at h
  split at h <;> cases h <;> rfl

theorem exec_of_unaryOp {xp : Option Xp} {o : VUn} {g : Slot → Nat → Val → Val} (h : unaryOp i = some (xp, o, g)) :
    exec i s = vecUn xp o s g := by
  unfold unaryOp at h
  split at h <;> cases h <;> rfl

theorem exec_of_fusedOp {xp : Option Xp} {o : VBin} {np nc : Bool} (h : fusedOp i = some (xp, o, np, nc)) :
    exec i s = vecFma xp o s fun r p c => Val.add r (if np then p.neg else p) (if nc then c.neg else c) := by
  unfold fusedOp at h
  split at h <;> cases h <;> rfl

theorem arithSpec_runs {v : VecSpec} (h : arithSpec s i = some v) : v.Runs s i := by
  unfold arithSpec at h
  split at h <;> cases h
  · exact ⟨exec_of_binaryOp ‹_›, fun _ => keepsPc_writeElems ..⟩
  · exact ⟨exec_of_unaryOp ‹_›, fun _ => keepsPc_writeElems ..⟩
  · exact ⟨exec_of_fusedOp ‹_›, fun _ => keepsPc_writeElems ..⟩

/-- Settles O31: every row of the table is a `vecBin`, a `vecUn` or a `vecFma`, which read their factors under FSA and round once, in
`Team.writeElems`, under FS. -/
theorem vectorArithmetic : Obligations.VectorArithmetic :=
  fun _ _ _ hs h => (arithSpec_runs h).holds hs

/-! ## Tests, selection, bit logic, shifts and broadcast (R179, R180, R184, R187) -/

theorem exec_of_testOp {xp : Option Xp} {fs : BitVec 4} {opds : List VOpd} {pdst all : Bool} {vd : BitVec 7}
    {test : Team → Nat → Bool} (h : testOp s i = some (xp, fs, opds, pdst, all, vd, test)) :
    exec i s = vecOp s [(0, fs)] (opds ++ testDest pdst vd) true
      fun t => writeTest xp pdst all (s.slot xp fs).f.width vd (test t) t := by
  unfold testOp at h
  split at h <;> cases h <;> rfl

theorem testSpec_runs {v : VecSpec} (h : testSpec s i = some v) : v.Runs s i := by
  obtain ⟨⟨xp, fs, opds, pdst, all, vd, test⟩, hop, rfl⟩ := Option.map_eq_some_iff.mp h
  have he := exec_of_testOp hop
  cases pdst
  case false => exact ⟨he, fun t => keepsPc_writeTest t xp false all _ vd (test t)⟩
  case true =>
    rw [testDest, if_pos rfl, List.append_nil] at he
    exact ⟨he, fun t => keepsPc_writeTest t xp true all _ vd (test t)⟩

theorem bitsSpec_runs {v : VecSpec} (h : bitsSpec s i = some v) : v.Runs s i := by
  unfold bitsSpec at h
  split at h <;> cases h
  case h_6.refl xp o => exact ⟨exec_vshl xp o s, fun _ => keepsPc_writeBits ..⟩
  case h_7.refl xp o => exact ⟨exec_vshr xp o s, fun _ => keepsPc_writeBits ..⟩
  all_goals exact ⟨rfl, fun _ => keepsPc_writeBits ..⟩

/-- Settles O32: a test is a `writeTest` into elements or into a predicate, and the others are a `Team.writeBits` of raw bits. -/
theorem vectorTestsAndBits : Obligations.VectorTestsAndBits :=
  fun _ _ _ hs h => (h.elim testSpec_runs bitsSpec_runs).holds hs

/-! ## Slice moves, conversions, thread numbers and patterns (R185, R186, R189, R192) -/

theorem exec_of_moveOp {xp : Option Xp} {va vd : BitVec 7} {regs : List (BitVec 7)} {src : Team → Nat → Nat → Option Nat}
    (h : moveOp i = some (xp, va, vd, regs, src)) : exec i s = sliceMove xp va vd regs s src := by
  unfold moveOp at h
  split at h <;> cases h
  case h_4.refl o => exact exec_vrot xp o s
  all_goals rfl

theorem moveSpec_runs {v : VecSpec} (h : moveSpec s i = some v) : v.Runs s i := by
  unfold moveSpec at h
  split at h <;> cases h
  · exact ⟨exec_of_moveOp ‹_›, fun _ => keepsPc_writeSlices ..⟩
  · exact ⟨rfl, fun _ => keepsPc_writeElems ..⟩
  · exact ⟨rfl, fun _ => keepsPc_writeElems ..⟩
  · exact ⟨rfl, fun _ => keepsPc_writeSlices ..⟩

/-- Settles O34: a slice move is a `sliceMove` from the thread that the table names, and the other three are their own equations. -/
theorem vectorMoves : Obligations.VectorMoves :=
  fun _ _ _ hs h => (moveSpec_runs h).holds hs

end Sys2Proof.Claims
end

section
/-!
PROOF. What translation, fills and sending leave alone: no walk, TLB, cache fill or packet changes a team.
-/

namespace Sys2Proof.Machine

/-! ## Counting and memory -/

section
variable (s : State)

@[simp] theorem State.irq_teams (fn e : Nat) : (s.irq fn e).teams = s.teams := (s.irq_quiet fn e).teams

@[simp] theorem State.countEv_teams (core ctx ev n : Nat) : (s.countEv core ctx ev n).teams = s.teams :=
  (s.countEv_quiet core ctx ev n).teams

@[simp] theorem State.countL2_teams (pa vf event : Nat) : (s.countL2 pa vf event).teams = s.teams := by
  unfold State.countL2
  split
  · refine List.foldlRecOn (motive := fun (t : State) => t.teams = s.teams) _ _ rfl fun t ht i _ => ?_
    dsimp only
    split
    · exact ht
    · split
      · exact ht
      · split <;> simp [ht]
  · rfl

@[simp] theorem State.freeVal_teams : s.freeVal.2.teams = s.teams := rfl

@[simp] theorem State.rekey_teams (line key : Nat) : (s.rekey line key).teams = s.teams := by
  unfold State.rekey
  split
  · rfl
  · exact List.foldlRecOn (motive := fun (t : State) => t.teams = s.teams) _ _ rfl fun t ht _ _ => ht

@[simp] theorem State.writeLine_teams (key : Nat) (cmp : Bool) (line : Nat) (ws : List (Nat × Byte)) :
    (s.writeLine key cmp line ws).teams = s.teams :=
  List.foldlRecOn (motive := fun (t : State) => t.teams = s.teams) _ _ (s.rekey_teams line key) fun _ ht _ _ => ht

@[simp] theorem State.wrNat_teams (key : Nat) (cmp : Bool) (pa n v : Nat) : (s.wrNat key cmp pa n v).teams = s.teams :=
  s.writeLine_teams key cmp _ _

/-! ## Translation (R98–R105) -/

@[simp] theorem State.remote_teams (w : Actor) (p : Part) (free : Bool) : (s.remote w p free).1.teams = s.teams := by
  unfold State.remote
  dsimp only
  split
  · split <;> rfl
  · rfl

@[simp] theorem State.readEntry_teams (w : Actor) (ea : Nat) : (s.readEntry w ea).1.teams = s.teams := by
  unfold State.readEntry
  dsimp only
  split
  · split <;> simp
  · split <;> simp

@[simp] theorem State.setEntry_teams (w : Actor) (ea e e' : Nat) : (s.setEntry w ea e e').teams = s.teams := by
  unfold State.setEntry
  split
  · rfl
  · split <;> simp

@[simp] theorem State.groupPick_teams (level ea e : Nat) : (s.groupPick level ea e).1.teams = s.teams := by
  unfold State.groupPick
  dsimp only
  split
  · rfl
  · split <;> rfl

end

/-- One level of a walk, whose next level `next` speaks of. -/
theorem walkTable_teams_of_next (w : Actor) (va : Nat) (acc : Acc) (mark : Bool) (level table : Nat) (s : State)
    (next : ∀ l, level = l + 1 → ∀ table t, (walkTable w va acc mark l table t).1.teams = t.teams) :
    (walkTable w va acc mark level table s).1.teams = s.teams := by
  rw [walkTable.eq_def]
  dsimp only
  split
  · rfl
  have hread := s.readEntry_teams w (s.localPa (table + 8 * vaIndex level va))
  split
  · exact hread
  next e _ =>
  have hpick := (State.groupPick_teams _ level (s.localPa (table + 8 * vaIndex level va)) e).trans hread
  generalize State.groupPick _ level _ e = g at hpick ⊢
  split
  · exact hpick
  split
  · exact hpick
  split
  · split
    · exact hpick
    split
    · exact hpick
    split
    · exact (g.1.setEntry_teams ..).trans hpick
    · exact hpick
  · split
    · exact hpick
    · exact (next _ rfl _ g.1).trans hpick

@[simp] theorem walkTable_teams (w : Actor) (va : Nat) (acc : Acc) (mark : Bool) (level table : Nat) (s : State) :
    (walkTable w va acc mark level table s).1.teams = s.teams := by
  induction level generalizing table s with
  | zero => exact walkTable_teams_of_next w va acc mark 0 table s nofun
  | succ l ih => exact walkTable_teams_of_next w va acc mark (l + 1) table s fun _ h => Nat.succ.inj h ▸ ih

section
variable (s : State)

@[simp] theorem State.readDesc_teams (w : Actor) (key mt pa : Nat) : (s.readDesc w key mt pa).1.teams = s.teams := by
  unfold State.readDesc
  split
  · split <;> simp
  · split
    · rfl
    · refine List.foldlRecOn (motive := fun (r : State × Option Nat) => r.1.teams = s.teams) _ _ rfl fun r hr i _ => ?_
      split <;> simp [hr]

@[simp] theorem State.pageWalk_teams (w : Actor) (va : Nat) (acc : Acc) (mark : Bool) :
    (s.pageWalk w va acc mark).1.teams = s.teams := walkTable_teams ..

@[simp] theorem State.readRanges_teams (w : Actor) (mark : Bool) : (s.readRanges w mark).1.teams = s.teams := by
  unfold State.readRanges
  refine List.foldlRecOn (motive := fun (r : State × List TlbEntry × Option XRes) => r.1.teams = s.teams) _ _ rfl fun r hr i _ => ?_
  dsimp only
  repeat' split
  all_goals simp [hr]

@[simp] theorem State.walk_teams (w : Actor) (va : Nat) (acc : Acc) (mark : Bool) :
    (s.walk w va acc mark).1.teams = s.teams := by
  unfold State.walk
  dsimp only
  repeat' split
  all_goals simp

@[simp] theorem State.tlbLoad_teams (core : Nat) (e : TlbEntry) : (s.tlbLoad core e).teams = s.teams := by
  unfold State.tlbLoad
  split <;> rfl

@[simp] theorem State.walkFill_teams (core : Nat) (w : Actor) (va : Nat) (acc : Acc) :
    (s.walkFill core w va acc).1.teams = s.teams := by
  unfold State.walkFill
  dsimp only
  split <;> simp

@[simp] theorem State.tlbLookup_teams (core ctx va : Nat) : (s.tlbLookup core ctx va).1.teams = s.teams := by
  unfold State.tlbLookup
  dsimp only
  repeat' split
  all_goals simp

@[simp] theorem State.xlate_teams (core : Nat) (w : Actor) (va : Nat) (acc : Acc) :
    (s.xlate core w va acc).1.teams = s.teams := by
  unfold State.xlate
  dsimp only
  repeat' split
  all_goals simp

@[simp] theorem State.teamXlate_teams (k va : Nat) (acc : Acc) : (s.teamXlate k va acc).1.teams = s.teams := by
  unfold State.teamXlate State.actorXlate
  dsimp only
  repeat' split
  all_goals simp

/-! ## Fills (R89, R94) -/

@[simp] theorem State.quadDrop_teams (quad pline : Nat) (keep : Nat → CLine → Bool) :
    (s.quadDrop quad pline keep).teams = s.teams := by
  unfold State.quadDrop
  refine List.foldlRecOn (motive := fun (t : State) => t.teams = s.teams) _ _ rfl fun t ht i _ => ?_
  dsimp only
  split <;> exact ht

@[simp] theorem State.l1Fill_teams (core : Nat) (l : CLine) (stream : Bool) : (s.l1Fill core l stream).teams = s.teams := by
  simp [State.l1Fill]

@[simp] theorem State.rdcFill_teams (die : Nat) (l : CLine) (stream : Bool) : (s.rdcFill die l stream).teams = s.teams := rfl

end

/-! ## Sending to pod peers (R125, R320, R370) -/

/-- `t` has the teams of `s` and as many operations in flight: what sending their parts keeps. -/
structure State.Sends (s t : State) : Prop where
  teams : t.teams = s.teams
  ops : t.ops.length = s.ops.length

theorem State.Sends.refl (s : State) : s.Sends s := ⟨rfl, rfl⟩

theorem State.Sends.trans {s t u : State} (a : s.Sends t) (b : t.Sends u) : s.Sends u :=
  ⟨b.teams.trans a.teams, b.ops.trans a.ops⟩

theorem foldl_sends {α : Type} {f : State → α → State} (hf : ∀ (s : State) a, s.Sends (f s a)) (l : List α) (s : State) :
    s.Sends (l.foldl f s) :=
  List.foldlRecOn (motive := s.Sends) l f (.refl s) fun t ht a _ => ht.trans (hf t a)

theorem State.modPart_sends (s : State) (seq i : Nat) (f : Part → Part) : s.Sends (s.modPart seq i f) :=
  ⟨rfl, List.length_map ..⟩

theorem State.sendGroup_sends (s : State) (n : Nat) (o : MemOp) (idxs : List Nat) : s.Sends (s.sendGroup n o idxs) := by
  unfold State.sendGroup
  dsimp only
  generalize hu : s.modPeer n _ = u
  have asked : s.Sends u := hu ▸ ⟨rfl, rfl⟩
  have sent := asked.trans (foldl_sends (fun t i => t.modPart_sends o.seq i fun q => { q with st := .sent }) idxs u)
  split <;> exact sent.trans ⟨rfl, rfl⟩

theorem State.trySend_sends (s : State) (seq i : Nat) : s.Sends (s.trySend seq i) := by
  unfold State.trySend
  split
  · exact .refl s
  split
  · exact .refl s
  split
  · split
    · exact .refl s
    extract_lets early g writes
    split
    · exact s.sendGroup_sends ..
    · exact .refl s
  · exact .refl s

theorem State.pump_sends (s : State) : s.Sends s.pump := by
  unfold State.pump
  refine foldl_sends (fun t o => foldl_sends (fun u e => ?_) _ t) _ s
  split
  · split
    · exact u.trySend_sends ..
    · exact .refl u
  · exact .refl u

@[simp] theorem State.pump_teams (s : State) : s.pump.teams = s.teams := s.pump_sends.teams

end Sys2Proof.Machine
end

section
/-!
PROOF. Prefetch and cache maintenance, and O41.
-/

namespace Sys2Proof.Machine

/-! ## `pf` (R193, R203, R400) -/

@[simp] theorem State.prefetch_teams (s : State) (k va : Nat) (stream : Bool) : (s.prefetch k va stream).teams = s.teams := by
  unfold State.prefetch
  dsimp only
  split
  · simp
  · split
    · simp
    split
    · repeat' split
      all_goals simp
    · split <;> simp [State.newSeq]

theorem nonCanonical_eq (a : Nat) : nonCanonical a = decide (2 ^ 56 ≤ a) := by
  unfold nonCanonical
  exact decide_eq_decide.mpr (by rw [← Nat.pos_iff_ne_zero]; exact Nat.div_pos_iff.trans (by simp))

theorem finish_done {s : State} (h : nonCanonical s.nextPc.toNat = false) (t : State) : finish s (.done t) = .next t.retire := by
  simp [finish, Eff.fallsOut, h]

theorem exec_pf (off : BitVec 24) (cache : BitVec 2) (base : BitVec 5) (s : State) :
    exec (.pf off cache base) s = finish s (whenActive s fun s =>
      if nonCanonical (s.ct.baseOff base off).toNat then opTrap s
      else .done (s.prefetch s.ck (s.ct.baseOff base off).toNat (cache = 1))) := rfl

section
variable {s : State} {off : BitVec 24} {cache : BitVec 2} {base : BitVec 5} (hs : s.Ready)
include hs

theorem completes_pf (h : (s.ct.baseOff base off).toNat < 2 ^ 56) :
    s.CompletesAs (.pf off cache base) (s.prefetch s.ck (s.ct.baseOff base off).toNat (cache = 1)) := by
  have hn : nonCanonical (s.ct.baseOff base off).toNat = false := by simpa [nonCanonical_eq] using h
  rw [State.CompletesAs, exec_pf, whenActive, if_neg hs.active, if_neg (by simp [hn]), finish_done hs.canonical]

theorem traps_pf (h : 2 ^ 56 ≤ (s.ct.baseOff base off).toNat) : s.Traps (.pf off cache base) 2 s.ct.active s.cur.base := by
  refine traps_of_trap hs ?_
  have hn : nonCanonical (s.ct.baseOff base off).toNat = true := by simpa [nonCanonical_eq] using h
  rw [exec_pf, whenActive, if_neg hs.active, if_pos hn]
  rfl

end

/-! ## `icinv` and `dcinv` (R204) -/

theorem tfind_tmap {α : Type} (f : Nat → α → α) (t : Table α) (k : Nat) : tfind (tmap f t) k = (tfind t k).map (f k) := by
  induction t with
  | nil => rfl
  | cons e t ih =>
    obtain ⟨j, v⟩ := e
    simp only [tmap, List.map_cons, tfind] at ih ⊢
    split
    · next h => subst h; rfl
    · split
      · rfl
      · exact ih

theorem tget_tmap {α : Type} {d : α} {f : Nat → α → α} (t : Table α) (k : Nat) (h : f k d = d) :
    tget d (tmap f t) k = f k (tget d t k) := by
  unfold tget
  rw [tfind_tmap]
  cases tfind t k with
  | none => exact h.symm
  | some v => rfl

/-- A line of core `c` that `icinv` and `dcinv` drop (R204). -/
def State.Drops (s : State) (o : InvOps) (c : Nat) (l : CLine) : Prop :=
  let a := (s.ct.getX o.base.toNat + o.off.signExtend 64).toNat
  let n := (s.ct.getX o.x.toNat).toNat
  (o.sco = .core → c = s.cur.core) ∧ (o.sco = .quad → c / 4 = s.cur.core / 4) ∧
    l.ctx = s.cctx ∧ n ≠ 0 ∧ 128 * l.vline < a + n ∧ a < 128 * l.vline + 128

theorem maintCores_iff (sco : Scope) (core c : Nat) :
    maintCores (scoNum sco) core c = true ↔ (sco = .core → c = core) ∧ (sco = .quad → c / 4 = core / 4) := by
  cases sco
  case quad =>
    simp only [maintCores, scoNum, Scope.code, decide_eq_true_eq, reduceCtorEq, false_implies, true_implies, true_and]
    exact Iff.rfl
  all_goals simp [maintCores, scoNum, Scope.code]

theorem scoNum_eq_three (sco : Scope) : scoNum sco = 3 ↔ sco = .device := by
  cases sco <;> simp [scoNum, Scope.code]

section
variable {s : State} {o : InvOps}

theorem State.drops_iff (hn : (s.ct.getX o.x.toNat).toNat ≠ 0) (c : Nat) (l : CLine) :
    s.Drops o c l ↔ maintCores (scoNum o.sco) s.cur.core c = true ∧
      lineMeets s.cctx (s.ct.baseOff o.base o.off).toNat ((s.ct.baseOff o.base o.off).toNat + (s.ct.getX o.x.toNat).toNat) l = true := by
  simp only [State.Drops, maintCores_iff, lineMeets, Bool.and_eq_true, decide_eq_true_eq, and_assoc, ne_eq, hn, not_false_eq_true, true_and]
  rfl

theorem State.not_drops_of_empty (hn : (s.ct.getX o.x.toNat).toNat = 0) (c : Nat) (l : CLine) : ¬s.Drops o c l :=
  fun ⟨_, _, _, h, _⟩ => h hn

/-- What `icinv` and `dcinv` leave, by what they do to a range that is not empty. -/
def State.maintained (s : State) (o : InvOps) (f : State → Nat → Nat → State) : State :=
  let a := (s.ct.baseOff o.base o.off).toNat
  let n := (s.ct.getX o.x.toNat).toNat
  if n = 0 then s else f s a (a + n)

variable {i : Instr} {f : State → Nat → Nat → State} (hs : s.Ready) (he : exec i s = finish s (maintain s o f))
include hs he

theorem traps_of_maintain (h : 2 ^ 56 ≤ (s.ct.baseOff o.base o.off).toNat ∨ 2 ^ 32 ≤ (s.ct.getX o.x.toNat).toNat) :
    s.Traps i 2 s.ct.active s.cur.base := by
  refine traps_of_trap hs (he.trans ?_)
  rw [maintain, whenActive, if_neg hs.active, if_pos (by simpa [nonCanonical_eq] using h)]
  rfl

theorem maintain_of_range (ha : (s.ct.baseOff o.base o.off).toNat < 2 ^ 56) (hn : (s.ct.getX o.x.toNat).toNat < 2 ^ 32) :
    exec i s = finish s (if s.storesDone s.ck = true then .done (s.maintained o f)
      else .wait s (.memory (s.openOps s.ck fun o => o.parts.any Part.writes) true)) := by
  rw [he, maintain, whenActive, if_neg hs.active, if_neg (by simp [nonCanonical_eq]; omega)]
  cases s.storesDone s.ck <;> rfl

theorem waits_of_maintain (ha : (s.ct.baseOff o.base o.off).toNat < 2 ^ 56) (hn : (s.ct.getX o.x.toNat).toNat < 2 ^ 32)
    (hd : s.storesDone s.ck = false) : s.Waits i (.memory (s.openOps s.ck fun o => o.parts.any Part.writes) true) := by
  rw [State.Waits, maintain_of_range hs he ha hn, if_neg (by simp [hd]), finish_wait hs.canonical]

theorem completes_of_maintain (ha : (s.ct.baseOff o.base o.off).toNat < 2 ^ 56) (hn : (s.ct.getX o.x.toNat).toNat < 2 ^ 32)
    (hd : s.storesDone s.ck = true) : s.CompletesAs i (s.maintained o f) := by
  rw [State.CompletesAs, maintain_of_range hs he ha hn, if_pos hd, finish_done hs.canonical]

end

/-- Each core is changed by `f`, which leaves an unlisted one as it is. -/
theorem State.core_of_tmap {s u : State} {f : Nat → Core → Core} {c : Nat} (h : u.cores = tmap f s.cores)
    (hf : f c .reset = .reset) : u.core c = f c (s.core c) := by
  rw [State.core, h, tget_tmap _ _ hf, State.core]

theorem State.die_of_tmap {s u : State} {f : Nat → Die → Die} {d : Nat} (h : u.dies = tmap f s.dies)
    (hf : f d .reset = .reset) : u.die d = f d (s.die d) := by
  rw [State.die, h, tget_tmap _ _ hf, State.die]

/-- Drop from the instruction caches of a scope the lines of a range. -/
def icDrop (o : InvOps) (s : State) (lo hi : Nat) : State :=
  { s with cores := tmap (fun c x => if maintCores (scoNum o.sco) s.cur.core c then
      { x with l1i := x.l1i.filter fun l => !lineMeets s.cctx lo hi l } else x) s.cores }

/-- Drop from the data caches of a scope the lines of a range, and at device scope from every RDC. -/
def dcDrop (o : InvOps) (s : State) (lo hi : Nat) : State :=
  let s' := { s with cores := tmap (fun c x => if maintCores (scoNum o.sco) s.cur.core c then
    { x with l1 := x.l1.filter fun l => !lineMeets s.cctx lo hi l } else x) s.cores }
  if scoNum o.sco = 3 then
    { s' with dies := tmap (fun _ d => { d with rdc := d.rdc.filter fun l => !lineMeets s.cctx lo hi l }) s'.dies }
  else s'

theorem exec_icinv (o : InvOps) (s : State) : exec (.icinv o) s = finish s (maintain s o (icDrop o)) := rfl
theorem exec_dcinv (o : InvOps) (s : State) : exec (.dcinv o) s = finish s (maintain s o (dcDrop o)) := rfl

section
variable (o : InvOps) (s : State) (lo hi : Nat)

theorem cores_icDrop : (icDrop o s lo hi).cores = tmap (fun c x => if maintCores (scoNum o.sco) s.cur.core c then
    { x with l1i := x.l1i.filter fun l => !lineMeets s.cctx lo hi l } else x) s.cores := rfl

theorem core_icDrop (c : Nat) (l : CLine) : l ∈ ((icDrop o s lo hi).core c).l1i ↔
    l ∈ (s.core c).l1i ∧ ¬(maintCores (scoNum o.sco) s.cur.core c = true ∧ lineMeets s.cctx lo hi l = true) := by
  rw [State.core_of_tmap (cores_icDrop o s lo hi) (by split <;> rfl)]
  split <;> simp_all

theorem cores_dcDrop : (dcDrop o s lo hi).cores = tmap (fun c x => if maintCores (scoNum o.sco) s.cur.core c then
    { x with l1 := x.l1.filter fun l => !lineMeets s.cctx lo hi l } else x) s.cores := by
  unfold dcDrop
  split <;> rfl

theorem core_dcDrop (c : Nat) (l : CLine) : l ∈ ((dcDrop o s lo hi).core c).l1 ↔
    l ∈ (s.core c).l1 ∧ ¬(maintCores (scoNum o.sco) s.cur.core c = true ∧ lineMeets s.cctx lo hi l = true) := by
  rw [State.core_of_tmap (cores_dcDrop o s lo hi) (by split <;> rfl)]
  split <;> simp_all

theorem dies_dcDrop (h : scoNum o.sco = 3) : (dcDrop o s lo hi).dies =
    tmap (fun _ d => { d with rdc := d.rdc.filter fun l => !lineMeets s.cctx lo hi l }) s.dies := by
  rw [dcDrop, if_pos h]

theorem die_dcDrop (d : Nat) (l : CLine) : l ∈ ((dcDrop o s lo hi).die d).rdc ↔
    l ∈ (s.die d).rdc ∧ ¬(o.sco = .device ∧ lineMeets s.cctx lo hi l = true) := by
  rw [← scoNum_eq_three]
  by_cases h : scoNum o.sco = 3
  · rw [State.die_of_tmap (dies_dcDrop o s lo hi h) rfl]
    simp [h]
  · rw [dcDrop, if_neg h]
    exact (and_iff_left fun k => h k.1).symm

theorem teams_dcDrop : (dcDrop o s lo hi).teams = s.teams := by
  unfold dcDrop
  split <;> rfl

theorem mem_dcDrop : (dcDrop o s lo hi).mem = s.mem := by
  unfold dcDrop
  split <;> rfl

end

section
variable (s : State) (o : InvOps)

/-- A range that is not empty leaves what `f` makes of it, an empty one leaves the state; both in one rule for a part of it. -/
theorem State.maintained_iff {f : State → Nat → Nat → State} {p : State → Prop} {q : Prop}
    (empty : (s.ct.getX o.x.toNat).toNat = 0 → (p s ↔ q))
    (full : (s.ct.getX o.x.toNat).toNat ≠ 0 → (p (f s (s.ct.baseOff o.base o.off).toNat
      ((s.ct.baseOff o.base o.off).toNat + (s.ct.getX o.x.toNat).toNat)) ↔ q)) :
    p (s.maintained o f) ↔ q := by
  unfold State.maintained
  dsimp only
  split
  · exact empty ‹_›
  · exact full ‹_›

theorem State.mem_l1i_maintained (c : Nat) (l : CLine) :
    l ∈ ((s.maintained o (icDrop o)).core c).l1i ↔ l ∈ (s.core c).l1i ∧ ¬s.Drops o c l :=
  s.maintained_iff o (p := fun u => l ∈ (u.core c).l1i)
    (fun h => (and_iff_left (not_drops_of_empty h c l)).symm)
    (fun h => by rw [core_icDrop, drops_iff h])

theorem State.mem_l1_maintained (c : Nat) (l : CLine) :
    l ∈ ((s.maintained o (dcDrop o)).core c).l1 ↔ l ∈ (s.core c).l1 ∧ ¬s.Drops o c l :=
  s.maintained_iff o (p := fun u => l ∈ (u.core c).l1)
    (fun h => (and_iff_left (not_drops_of_empty h c l)).symm)
    (fun h => by rw [core_dcDrop, drops_iff h])

theorem State.mem_rdc_maintained (d : Nat) (l : CLine) : l ∈ ((s.maintained o (dcDrop o)).die d).rdc ↔
    l ∈ (s.die d).rdc ∧ ¬(o.sco = .device ∧ s.Drops o 0 l) := by
  refine s.maintained_iff o (p := fun u => l ∈ (u.die d).rdc)
    (fun h => (and_iff_left fun k => not_drops_of_empty h 0 l k.2).symm) fun h => ?_
  rw [die_dcDrop, drops_iff h, maintCores_iff]
  by_cases hd : o.sco = .device <;> simp [hd]

theorem State.maintained_keeps {α : Type} (g : State → α) {f : State → Nat → Nat → State} (hf : ∀ lo hi, g (f s lo hi) = g s) :
    g (s.maintained o f) = g s := by
  unfold State.maintained
  dsimp only
  split
  · rfl
  · exact hf _ _

end

/-- Settles O41: `pf` completes with `State.prefetch`, which keeps every team; `icinv` and `dcinv` are `maintain` of `icDrop` and
`dcDrop`, which filter each cache of their scope. -/
theorem cacheInstructions : Obligations.CacheInstructions := by
  intro s off cache base o hs
  refine ⟨fun h => ⟨_, completes_pf hs h, s.prefetch_teams ..⟩, traps_pf hs, fun h => ?_, fun ha hn hd => ?_, fun ha hn hd => ⟨?_, ?_⟩⟩
  · exact ⟨traps_of_maintain hs (exec_icinv o s) h, traps_of_maintain hs (exec_dcinv o s) h⟩
  · exact ⟨waits_of_maintain hs (exec_icinv o s) ha hn hd, waits_of_maintain hs (exec_dcinv o s) ha hn hd⟩
  · exact ⟨_, completes_of_maintain hs (exec_icinv o s) ha hn hd, s.maintained_keeps o State.teams fun _ _ => rfl,
      s.maintained_keeps o State.mem fun _ _ => rfl, s.mem_l1i_maintained o⟩
  · exact ⟨_, completes_of_maintain hs (exec_dcinv o s) ha hn hd, s.maintained_keeps o State.teams (teams_dcDrop o s),
      s.maintained_keeps o State.mem (mem_dcDrop o s), s.mem_l1_maintained o, s.mem_rdc_maintained o⟩

end Sys2Proof.Machine
end

section
/-!
PROOF. The refutation of O38. An instruction that completes with `State.putOp` leaves an operation in flight, unless the end of a step
holds its team, whose record leaves a mark in its context. The first hop of an `os.chase` can meet a violation, which leaves neither.
-/

namespace Sys2Proof.Machine

/-! ## What a record leaves in its context (R344, R345, R346) -/

/-- The context has met a record: it is killed, or a record waits or stands in its trap queue, or was fatal. -/
def Ctx.Marked (c : Ctx) : Prop := c.killed = true ∨ c.pending ≠ [] ∨ c.entries ≠ [] ∨ c.fatals ≠ 0

theorem State.Quiet.ctx {s t : State} (h : s.Quiet t) (c : Nat) : t.ctx c = s.ctx c := by
  have e := congrArg State.ctxs h.rest
  simp only [State.rest] at e
  rw [State.ctx, e, State.ctx]

section
variable (s : State) (ctx : Nat)

/-- Stated for every `m`, so that no digest is computed where a measurement is extended. -/
theorem State.ctx_setMeas (m : Table (BitVec 256)) (c : Nat) : { s with meas := m }.ctx c = s.ctx c := rfl

theorem State.ctx_extendMeas (i : Nat) (d : BitVec 256) (c : Nat) : (s.extendMeas i d).ctx c = s.ctx c :=
  s.ctx_setMeas _ c

theorem State.killed_kill : ((s.kill ctx).ctx ctx).killed = true := by
  unfold State.kill
  dsimp only
  split
  · rw [State.ctx_extendMeas, State.ctx_modCtx_same]
  · rw [State.ctx_modCtx_same]

theorem State.marked_kill : ((s.kill ctx).ctx ctx).Marked := .inl (s.killed_kill ctx)

theorem State.marked_pending (r : Rec) : ((s.modCtx ctx fun c => { c with pending := c.pending ++ [r] }).ctx ctx).Marked := by
  rw [State.ctx_modCtx_same]
  exact .inr (.inl (by simp))

theorem State.marked_putRecord {r : Rec} : (s.putRecord ctx r).2.1 = true → ((s.putRecord ctx r).1.ctx ctx).Marked := by
  unfold State.putRecord
  dsimp only
  split
  · nofun
  split
  · intro _
    rw [(State.irq_quiet ..).ctx, State.ctx_modCtx_same]
    exact .inr (.inr (.inl (by simp)))
  · nofun

theorem State.marked_fatal (r : Rec) : ((s.fatal ctx r).ctx ctx).Marked := by
  unfold State.fatal
  dsimp only
  split
  · next h => exact .inl (Bool.and_eq_true_iff.mp h).1
  split
  · rw [State.ctx_modCtx_same]
    exact .inr (.inr (.inr (Nat.succ_ne_zero _)))
  · exact State.marked_kill ..

theorem State.marked_settle {a : Answer} (h : a ≠ .none) : ((s.settle ctx a).ctx ctx).Marked := by
  cases a with
  | none => exact absurd rfl h
  | kill r => exact s.marked_fatal ctx r
  | unwritten => exact State.marked_kill ..

theorem State.marked_tryRecord {r : Rec} : (s.tryRecord ctx r).2 = true → ((s.tryRecord ctx r).1.ctx ctx).Marked := by
  unfold State.tryRecord
  dsimp only
  split
  · exact fun _ => State.marked_settle _ _ ‹_›
  split
  · nofun
  split
  · exact fun _ => State.marked_putRecord _ _ ‹_›
  split
  · exact fun _ => State.marked_kill ..
  · nofun

theorem State.marked_queueRecord (r : Rec) : ((s.queueRecord ctx r).ctx ctx).Marked := by
  unfold State.queueRecord
  dsimp only
  split
  · exact .inl ‹_›
  split
  · exact s.marked_pending ctx r
  split
  · exact s.marked_tryRecord ctx ‹_›
  · exact State.marked_pending ..

theorem State.marked_hold (k cause : Nat) (detail : Word) (mask : Mask) (pc : Word) (async : Bool) :
    ∃ c, ((s.hold k cause detail mask pc async).ctx c).Marked := by
  unfold State.hold
  dsimp only
  exact ⟨_, State.marked_queueRecord ..⟩

theorem State.marked_stepHold (k cause : Nat) : ∃ c, ((s.stepHold k cause).ctx c).Marked := by
  unfold State.stepHold
  exact s.marked_hold ..

end

/-! ## An operation that a completion leaves in flight -/

/-- An operation is in flight, or a context has met a record. -/
def State.OpOrMark (s : State) : Prop := s.ops ≠ [] ∨ ∃ c, (s.ctx c).Marked

theorem State.ops_putOp (s : State) (m : Acs) (ps : List Part) (cs : List Chase) : (s.putOp m ps cs).ops ≠ [] := by
  unfold State.putOp
  dsimp only
  refine List.ne_nil_of_length_pos ?_
  rw [(State.pump_sends _).ops]
  simp

theorem State.Quiet.ops {s t : State} (h : s.Quiet t) : t.ops = s.ops := by
  simpa only [State.rest] using congrArg State.ops h.rest

theorem State.ops_leaveSlot (s : State) (k : Nat) : (s.leaveSlot k).ops = s.ops := by
  unfold State.leaveSlot
  dsimp only
  split
  · rw [State.modTeam_ops, (State.modSlotsOf_quiet ..).ops]
  · exact (State.modSlotsOf_quiet ..).ops

theorem State.ops_capSlot (s : State) (k : Nat) : (s.capSlot k).ops = s.ops := by
  unfold State.capSlot
  split
  · rw [State.modTeam_ops, (State.modSlotsOf_quiet ..).ops]
  · rfl

/-- A held team leaves a record with its context; another step's end leaves the operations in flight. -/
theorem State.opOrMark_stepDone {s : State} (k : Nat) (h : s.ops ≠ []) : (s.stepDone k).OpOrMark := by
  unfold State.stepDone
  split
  · split
    · exact .inr (s.marked_stepHold ..)
    · exact .inl (by rwa [State.ops_leaveSlot, State.modTeam_ops])
  · exact .inl h

theorem State.opOrMark_retire {s : State} (h : s.ops ≠ []) : s.retire.OpOrMark := by
  unfold State.retire State.retireAt
  dsimp only
  refine State.opOrMark_stepDone _ ?_
  rw [State.ops_capSlot, (State.countEv_quiet ..).ops, (State.modSlotsOf_quiet ..).ops, State.modTeam_ops, State.modCur, State.modTeam_ops]
  exact h

/-- What an instruction that completes with an operation answers. -/
theorem opOrMark_of_completesAs_putOp {s u t : State} {i : Instr} {m : Acs} {ps : List Part} {cs : List Chase}
    (hc : s.CompletesAs i (u.putOp m ps cs)) (he : exec i s = .next t) : t.OpOrMark := by
  have ht : t = (u.putOp m ps cs).retire := by
    rw [State.CompletesAs, he] at hc
    exact Host.Outcome.next.inj hc
  exact ht ▸ State.opOrMark_retire (u.ops_putOp m ps cs)

/-! ## A hop that violates (R367) -/

/-- Page tables that map the first GiB of the placed context onto itself under key 1 (R99). -/
def keyedPages : Table Byte :=
  [(0x200000, 0x01), (0x200001, 0x10), (0x200002, 0x20), (0x201000, 0x01), (0x201001, 0x20), (0x201002, 0x20),
    (0x202000, 0xFD), (0x202007, 0x02)]

/-- The placed team with one thread, whose chase starts at 0x10000 and makes one hop. A load of the team has not completed, so that
a cause it raises waits (R343) and its context lives on for the moment. -/
def violatingTeam : Team :=
  { (placedTeam.setX 1 0x10000).setV 2 1 with em := 1, out := [⟨.ld, 0, false⟩] }

/-- No key is loaded, so that the hop is a key violation (R330, R367). -/
def violatingChase : State :=
  { State.reset with
    mem := keyedPages
    teams := [(0, violatingTeam)]
    blocks := [(0, placedBlock)]
    ctxs := [(placedCtx, { placedCx with ptroot := 0x200000 })]
    cur := ⟨0, 0, 0, 8, 0, [], true⟩ }

/-- `os.chase v2, v1, [x1]`. -/
def chaseOps : AOps := ⟨0, 0, .relaxed, .team, 1, 1, 2⟩

theorem violatingChase_ready : violatingChase.Ready where
  team := by decide +kernel
  unstepped c := by
    have h : violatingChase.ct.mon = .none := by decide +kernel
    rw [h]
    nofun
  active := by decide +kernel
  canonical := by decide +kernel

/-- The context has met no record: what decides `Ctx.Marked`. -/
def Ctx.clear (c : Ctx) : Bool := !c.killed && c.pending.isEmpty && c.entries.isEmpty && c.fatals = 0

theorem Ctx.not_marked_of_clear {c : Ctx} (h : c.clear = true) : ¬c.Marked := by
  simp only [Ctx.clear, Bool.and_eq_true, Bool.not_eq_true', List.isEmpty_iff, decide_eq_true_eq] at h
  obtain ⟨⟨⟨hkilled, hpending⟩, hentries⟩, hfatals⟩ := h
  simp [Ctx.Marked, hkilled, hpending, hentries, hfatals]

/-- No operation is in flight and no context has met a record. -/
def State.clear (s : State) : Bool := s.ops.isEmpty && s.ctxs.all fun e => e.2.clear

/-- The violation, and no operation: the trap of cause 9 waits for the load. -/
theorem violatingChase_answers : (match exec (.osChase none chaseOps) violatingChase with
    | .next t => t.clear && (t.team 0).latched.any fun l => l.cause = 9
    | _ => false) = true := by decide +kernel

theorem tget_of_all {α : Type} {d : α} {p : α → Bool} {t : Table α} (hd : p d = true) (h : t.all (fun e => p e.2) = true)
    (k : Nat) : p (tget d t k) = true := by
  induction t with
  | nil => exact hd
  | cons e t ih =>
    obtain ⟨j, v⟩ := e
    simp only [List.all_cons, Bool.and_eq_true] at h
    have ih := ih h.2
    simp only [tget, tfind] at ih ⊢
    split
    · exact h.1
    · split
      · exact hd
      · exact ih

theorem State.not_opOrMark_of_clear {s : State} (h : s.clear = true) : ¬s.OpOrMark := by
  simp only [State.clear, Bool.and_eq_true] at h
  obtain ⟨hops, hctxs⟩ := h
  rintro (ho | ⟨c, hc⟩)
  · exact ho (List.isEmpty_iff.mp hops)
  · exact Ctx.not_marked_of_clear (tget_of_all (p := Ctx.clear) rfl hctxs c) hc

/-- Refutes O38: no clause of `os.chase` allows for a world or key violation of a thread's first hop (R367). In `violatingChase` that hop
goes under a key that is not loaded; the instruction raises cause 9 and leaves no operation. -/
theorem not_groupAccesses : ¬Obligations.GroupAccesses := by
  rintro ⟨-, chase⟩
  obtain ⟨-, completes⟩ := chase violatingChase none chaseOps violatingChase_ready (by decide +kernel)
  obtain ⟨u, ps, cs, -, -, hc⟩ := completes (by decide +kernel) (by decide +kernel) (by decide +kernel)
  have answers := violatingChase_answers
  split at answers
  · next t he =>
    exact State.not_opOrMark_of_clear (Bool.and_eq_true_iff.mp answers).1 (opOrMark_of_completesAs_putOp hc he)
  · exact absurd answers Bool.false_ne_true

end Sys2Proof.Machine
end
